-- ==== Sys2Proof/Word.lean ====
section
/-! DEFINITION. The words of the engine: a byte, a command or response word, the status register
(00_scope.md R7, 10_state.md R21, 30_encoding.md R86, R89). -/

namespace Sys2Proof

/-- A byte: a data byte, an address field, a mask (R7). -/
abbrev Byte := BitVec 8

/-- A command word or a response word (R86, R89). -/
abbrev Word := BitVec 32

/-- The nine flags of the status register (R21). -/
abbrev Flags := BitVec 9

end Sys2Proof
end

