-- ==== Sys2Proof/Config.lean ====
section
/-! DEFINITION. What is fixed for one device (00_scope.md R4 to R6) and the free value of the spec (R12's `any8`). -/

namespace Sys2Proof

/-- `CONFIG` (R4): which roles the device has and whether other masters may exist. -/
inductive Configuration where
  | singleMaster
  | multiMaster
  | slaveOnly
  | multiMasterSlave
  deriving DecidableEq, Repr

/-- `BACKEND` (R5): which line-driver implementation is present. No result depends on it (R5, R142). -/
inductive Backend where
  | bitBang
  | shiftAssist
  deriving DecidableEq, Repr

/-- The three open parameters of a device, fixed for its life (R4, R5, R6).
DESIGN CHOICE (log 7): they are carried in the state, so that a statement about every state is a statement about every
device. -/
structure Params where
  config : Configuration
  backend : Backend
  /-- `TIMEOUT_ENFORCED` (R6): the line driver bounds its waits. -/
  timeoutEnforced : Bool
  deriving DecidableEq, Repr

/-- `MASTER_EN` (R4). -/
def Params.masterEn (p : Params) : Bool := p.config != .slaveOnly

/-- `SLAVE_EN` (R4). -/
def Params.slaveEn (p : Params) : Bool := p.config == .slaveOnly || p.config == .multiMasterSlave

/-- `MULTI` (R4). -/
def Params.multi (p : Params) : Bool := p.config == .multiMaster || p.config == .multiMasterSlave

/-- `any8` (R12, R143, U2): the byte no rule fixes. The n-th draw of a run is `Config.freeByte n`, and nothing in Lean can
say what it is (log 9). -/
opaque Config.freeByte : Nat → Byte

end Sys2Proof
end

