-- ==== Sys2Proof/Syntax.lean ====
section
/-! DEFINITION. The ten commands (30_encoding.md R87, R88) and the fields of a command word (R86). -/

namespace Sys2Proof

/-- The instruction set: the ten commands of the Bus Role API, with the operands of R87. -/
inductive Instr where
  /-- `INIT own, mask, bitrate` (40_status_and_setup.md R112). -/
  | init (own mask bitrate : Byte)
  /-- `OPEN addressField` (42_master_addressing.md R163). -/
  | openDevice (addressField : Byte)
  /-- `SEND byte` (41_byte_transfer.md R139). -/
  | send (byte : Byte)
  /-- `RECV sendAck` (41_byte_transfer.md R140). -/
  | recv (sendAck : Bool)
  /-- `RELEASE` (44_stop.md R211). -/
  | release
  /-- `POLL candidate, mask` (43_slave_match.md R183). -/
  | poll (candidate mask : Byte)
  /-- `SSEND byte, expectMoreBytes` (43_slave_match.md R189). -/
  | ssend (byte : Byte) (expectMore : Bool)
  /-- `SRECV sendAck` (43_slave_match.md R190). -/
  | srecv (sendAck : Bool)
  /-- `SLVEN enable` (40_status_and_setup.md R114). -/
  | slven (enable : Bool)
  /-- `STATUS` (40_status_and_setup.md R113). -/
  | status
  deriving DecidableEq, Repr

/-- The six fields of a command word, before any check (R86). -/
structure CommandFields where
  op : BitVec 4
  z : BitVec 3
  f : Bool
  a : Byte
  b : Byte
  c : Byte
  deriving DecidableEq, Repr

end Sys2Proof
end

