-- ==== Sys2Proof/WellFormed.lean ====
section
/-! DEFINITION. Which command fields are well-formed (30_encoding.md R86 to R90): the opcode is assigned, the must-be-zero
field is zero, and every field the command does not use is zero. The operands of an `Instr` have their exact widths as types,
so an `Instr` needs no further check; `Laws/PerInstr.lean` proves that its fields are always well-formed. -/

namespace Sys2Proof

/-- The opcode is one of `0x1` to `0xA` (R88); `0x0` and `0xB` to `0xF` are reserved. -/
def CommandFields.opAssigned (x : CommandFields) : Bool := 1 ≤ x.op.toNat && x.op.toNat ≤ 10

/-- `Z` is zero (R86). -/
def CommandFields.zZero (x : CommandFields) : Bool := x.z == 0

/-- Every field the command does not use is zero (R86, the zeros of R87's table). -/
def CommandFields.unusedZero (x : CommandFields) : Bool :=
  match x.op.toNat with
  | 1 => !x.f                                        -- INIT uses A, B, C
  | 2 => !x.f && x.b == 0 && x.c == 0                -- OPEN uses A
  | 3 => !x.f && x.b == 0 && x.c == 0                -- SEND uses A
  | 4 => x.a == 0 && x.b == 0 && x.c == 0            -- RECV uses F
  | 5 => !x.f && x.a == 0 && x.b == 0 && x.c == 0    -- RELEASE
  | 6 => !x.f && x.c == 0                            -- POLL uses A, B
  | 7 => x.b == 0 && x.c == 0                        -- SSEND uses F, A
  | 8 => x.a == 0 && x.b == 0 && x.c == 0            -- SRECV uses F
  | 9 => x.a == 0 && x.b == 0 && x.c == 0            -- SLVEN uses F
  | 10 => !x.f && x.a == 0 && x.b == 0 && x.c == 0   -- STATUS
  | _ => true

/-- The command word is not reserved (R90). -/
def CommandFields.wellFormed (x : CommandFields) : Bool := x.opAssigned && x.zZero && x.unusedZero

end Sys2Proof
end

