-- ==== Sys2Proof/Decode.lean ====
section
/-! DEFINITION. Decoding and encoding of command words (30_encoding.md R86 to R90), the table of match and mask words (R88),
and the textual form of a command (R92). -/

namespace Sys2Proof

/-- Why a command word is reserved (R90). -/
inductive DecodeError where
  /-- `OP` is `0x0` or `0xB` to `0xF`. -/
  | reservedOpcode
  /-- The must-be-zero field `Z` is not zero. -/
  | nonzeroZ
  /-- A field the command does not use is not zero. -/
  | nonzeroUnusedField
  deriving DecidableEq, Repr

/-- The fields of a command word (R86). -/
def fieldsOfWord (w : Word) : CommandFields where
  op := w.extractLsb' 28 4
  z := w.extractLsb' 25 3
  f := w.getLsbD 24
  a := w.extractLsb' 16 8
  b := w.extractLsb' 8 8
  c := w.extractLsb' 0 8

/-- The word with the given fields (R86). -/
def CommandFields.toWord (x : CommandFields) : Word :=
  x.op ++ (x.z ++ (BitVec.ofBool x.f ++ (x.a ++ (x.b ++ x.c))))

/-- The command of well-formed fields: opcode and operands as R87 assigns them. -/
def CommandFields.toInstr (x : CommandFields) : Option Instr :=
  match x.op.toNat with
  | 1 => some (.init x.a x.b x.c)
  | 2 => some (.openDevice x.a)
  | 3 => some (.send x.a)
  | 4 => some (.recv x.f)
  | 5 => some .release
  | 6 => some (.poll x.a x.b)
  | 7 => some (.ssend x.a x.f)
  | 8 => some (.srecv x.f)
  | 9 => some (.slven x.f)
  | 10 => some .status
  | _ => none

/-- The command of any fields, or why they are reserved (R90). -/
def CommandFields.classify (x : CommandFields) : Except DecodeError Instr :=
  if !x.opAssigned then .error .reservedOpcode
  else if !x.zZero then .error .nonzeroZ
  else if !x.unusedZero then .error .nonzeroUnusedField
  else match x.toInstr with
    | some i => .ok i
    | none => .error .reservedOpcode

/-- The decoder: total on every 32-bit word, rejecting a reserved word by name (R88, R90). -/
def decode (w : Word) : Except DecodeError Instr := (fieldsOfWord w).classify

/-- Fields of a command: the opcode of R88, the operands where R87 puts them, zero elsewhere. -/
def Instr.fields : Instr → CommandFields
  | .init own mask bitrate => { op := 0x1, z := 0, f := false, a := own, b := mask, c := bitrate }
  | .openDevice af => { op := 0x2, z := 0, f := false, a := af, b := 0, c := 0 }
  | .send v => { op := 0x3, z := 0, f := false, a := v, b := 0, c := 0 }
  | .recv ack => { op := 0x4, z := 0, f := ack, a := 0, b := 0, c := 0 }
  | .release => { op := 0x5, z := 0, f := false, a := 0, b := 0, c := 0 }
  | .poll cand mask => { op := 0x6, z := 0, f := false, a := cand, b := mask, c := 0 }
  | .ssend v more => { op := 0x7, z := 0, f := more, a := v, b := 0, c := 0 }
  | .srecv ack => { op := 0x8, z := 0, f := ack, a := 0, b := 0, c := 0 }
  | .slven en => { op := 0x9, z := 0, f := en, a := 0, b := 0, c := 0 }
  | .status => { op := 0xA, z := 0, f := false, a := 0, b := 0, c := 0 }

/-- The encoder (R86 to R88). -/
def encode (i : Instr) : Word := i.fields.toWord

/-- The opcode table's words are numbered with bit 0 the least significant bit, as `cw` is (R11); a command is one 32-bit
word and bits above `nbits` are zero. -/
def tableWord (nbits w : Nat) : Word := BitVec.ofNat 32 (w % 2 ^ nbits)

/-- What the decoder reads from a word of the opcode table. -/
def decodeTableWord (nbits w : Nat) : Option Instr := (decode (tableWord nbits w)).toOption

/-! ### The table of R88 -/

/-- One row of R88's table: a word `cw` is this command when `cw &&& mask = value`. -/
structure OpcodeRow where
  mnemonic : String
  value : Word
  mask : Word
  deriving DecidableEq, Repr

/-- R88's table, in its order. -/
def opcodeRows : List OpcodeRow :=
  [ ⟨"INIT", 0x10000000, 0xFF000000⟩,
    ⟨"OPEN", 0x20000000, 0xFF00FFFF⟩,
    ⟨"SEND", 0x30000000, 0xFF00FFFF⟩,
    ⟨"RECV", 0x40000000, 0xFEFFFFFF⟩,
    ⟨"RELEASE", 0x50000000, 0xFFFFFFFF⟩,
    ⟨"POLL", 0x60000000, 0xFF0000FF⟩,
    ⟨"SSEND", 0x70000000, 0xFE00FFFF⟩,
    ⟨"SRECV", 0x80000000, 0xFEFFFFFF⟩,
    ⟨"SLVEN", 0x90000000, 0xFEFFFFFF⟩,
    ⟨"STATUS", 0xA0000000, 0xFFFFFFFF⟩ ]

/-- A word belongs to a row of R88's table. -/
def OpcodeRow.accepts (r : OpcodeRow) (w : Word) : Bool := w &&& r.mask == r.value

/-- The mnemonic of a command (R87). -/
def Instr.mnemonic : Instr → String
  | .init _ _ _ => "INIT"
  | .openDevice _ => "OPEN"
  | .send _ => "SEND"
  | .recv _ => "RECV"
  | .release => "RELEASE"
  | .poll _ _ => "POLL"
  | .ssend _ _ => "SSEND"
  | .srecv _ => "SRECV"
  | .slven _ => "SLVEN"
  | .status => "STATUS"

/-! ### Textual form (R92) -/

/-- A hexadecimal digit, capital. -/
def hexDigit (n : BitVec 4) : String :=
  ["0", "1", "2", "3", "4", "5", "6", "7", "8", "9", "A", "B", "C", "D", "E", "F"].getD n.toNat "0"

/-- A byte in hexadecimal: `0xA0` (R11, R92). -/
def byteText (v : Byte) : String := "0x" ++ hexDigit (v.extractLsb' 4 4) ++ hexDigit (v.extractLsb' 0 4)

/-- A Boolean operand: `0` or `1` (R92). -/
def boolText (b : Bool) : String := if b then "1" else "0"

/-- The textual form of a command: the mnemonic and its operands in signature order (R92). -/
def Instr.text : Instr → String
  | .init own mask bitrate => "INIT " ++ byteText own ++ ", " ++ byteText mask ++ ", " ++ byteText bitrate
  | .openDevice af => "OPEN " ++ byteText af
  | .send v => "SEND " ++ byteText v
  | .recv ack => "RECV " ++ boolText ack
  | .release => "RELEASE"
  | .poll cand mask => "POLL " ++ byteText cand ++ ", " ++ byteText mask
  | .ssend v more => "SSEND " ++ byteText v ++ ", " ++ boolText more
  | .srecv ack => "SRECV " ++ boolText ack
  | .slven en => "SLVEN " ++ boolText en
  | .status => "STATUS"

end Sys2Proof
end

