-- ==== Sys2Proof/Machine/State.lean ====
section
/-! DEFINITION. The state of the engine: the seventeen registers of 10_state.md R20, the parameters of the device, and what the
model holds of the world around it (the environment's two line contributions, the inputs still to come, the response
presented last, the history of the bus). Plain data, no function. -/

namespace Sys2Proof.Machine

/-- `ROLE` (R24). -/
inductive Role where
  | idle
  | master
  | slave
  | masterProbingForSlaveRole
  deriving DecidableEq, Repr

/-- `MSTATE`, the master addressing protocol's state (R25). -/
inductive MState where
  | idle
  | startAsserted
  | addressSent
  | acked
  | nacked
  | arbitrationLost
  | busError
  deriving DecidableEq, Repr

/-- `SSTATE`, the slave address-match protocol's state (R26). -/
inductive SState where
  | watchingForStart
  | byteClockingIn
  | matched
  | notMatched
  | restarted
  | stopped
  deriving DecidableEq, Repr

/-- `DIR`, the transfer direction (R31). -/
inductive Dir where
  /-- Master to slave, code 0. -/
  | write
  /-- Slave to master, code 1. -/
  | read
  deriving DecidableEq, Repr

/-- One act of the bus environment: its contribution to ONE line changes (R61, R74); `true` is released. -/
inductive LineAct where
  | scl (released : Bool)
  | sda (released : Bool)
  deriving DecidableEq, Repr

/-- One thing the outside world does (R9's host, bus environment and wait oracle; R300's reset input).
DESIGN CHOICE (log 2, 3, 5): the items stand in `State.inputs` in time order. -/
inductive Input where
  /-- The host presents a command word (R86). -/
  | command (w : Word)
  /-- The environment changes a line while the engine waits, or between commands (R74, R130, R131). -/
  | env (a : LineAct)
  /-- The environment changes a line before the engine's next line-driver call, without waiting for the engine to wait
  (R74, beyond R321's assumption). -/
  | race (a : LineAct)
  /-- A moment passes in which nothing changes; it ends a half-bit period. -/
  | pass
  /-- The wait oracle answers `expired` (R130). -/
  | expire
  /-- The reset input (R300). -/
  | reset
  deriving DecidableEq, Repr

/-- A symbol of the bus (R81) as the two lines show it, whoever caused it. -/
inductive Symbol where
  /-- START on a free bus. -/
  | start
  /-- START on a busy bus (`Sr`). -/
  | restart
  /-- STOP. -/
  | stop
  /-- The clock line rose with the data line at this level: a data bit, an acknowledge bit, or the clock rise before a STOP
  or a repeated START. -/
  | pulse (level : Bool)
  deriving DecidableEq, Repr

/-- The machine. -/
structure State where
  /-- The device's parameters; no step changes them (R4 to R6; log 7). -/
  params : Params
  /-- `STATUS` (R21). -/
  status : Flags
  /-- `ROLE` (R24). -/
  role : Role
  /-- `MSTATE` (R25). -/
  mstate : MState
  /-- `SSTATE` (R26). -/
  sstate : SState
  /-- `SR`, the shift register (R28). -/
  sr : Byte
  /-- `BITCNT`, the data bits shifted in the current byte slot (R28). -/
  bitcnt : BitVec 4
  /-- `FADDR`, the slave filter's address (R29). -/
  faddr : Byte
  /-- `FMASK`, the slave filter's mask and general-call enable (R29). -/
  fmask : Byte
  /-- `RXADDR`, the captured address field (R30). -/
  rxaddr : Byte
  /-- `DIR` (R31). -/
  dir : Dir
  /-- `SLVEN`, the slave response enable (R35). -/
  slven : Bool
  /-- `START_SEEN` (R36). -/
  startSeen : Bool
  /-- `BUS_BUSY` (R37). -/
  busBusy : Bool
  /-- `SCL_LOW`: the engine pulls the clock line low (R38). -/
  sclLow : Bool
  /-- `SDA_LOW`: the engine asks for the data line low (R38). -/
  sdaLow : Bool
  /-- `SDA_OE`: the data driver is enabled (R38). -/
  sdaOe : Bool
  /-- `BITRATE`, opaque (R32). -/
  bitrate : Byte
  /-- MODEL: `scl_ext` (R61), `true` when no other device pulls the clock line low. -/
  sclExt : Bool
  /-- MODEL: `sda_ext` (R61), `true` when no other device pulls the data line low. -/
  sdaExt : Bool
  /-- MODEL: what the outside world does from now on, in time order; after the last item it does nothing more (log 2). -/
  inputs : List Input
  /-- MODEL: the response word presented last (R89); none while a command executes and after reset (log 20). -/
  response : Option Word
  /-- MODEL: a command is executing and never completes (R6, R318; log 6). -/
  hung : Bool
  /-- MODEL: the counter of free bytes drawn (log 9). -/
  draws : Nat
  /-- MODEL: what has happened on the bus, newest first (R10's symbol level; log 12). -/
  wire : List Symbol
  deriving DecidableEq, Repr

/-- Why a step faults: never. "The engine never throws/aborts" (60_exceptions.md R260), so the type has no constructor. -/
inductive Fault where
  deriving DecidableEq, Repr

/-- Why a step is refused. -/
inductive Refusal where
  /-- An instruction without a meaning in the model, raised by `exec`'s arm; safe. No arm raises it: every command has its
  meaning. -/
  | notModelled (mnemonic : String)
  /-- A reserved command word was presented (R90, U7: "a model refuses it"), raised by `step`; safe. -/
  | reservedWord (why : DecodeError)
  deriving DecidableEq, Repr

/-- The state right after power-on reset of a device with the given parameters (R43, R300).
DESIGN CHOICE (log 8): the registers R43 leaves unspecified (`SR`, `FADDR`, `FMASK`, `RXADDR`, `DIR`, `BITRATE`) are zero.
DESIGN CHOICE (log 10): the bus is idle and nothing has been presented. -/
def State.resetWith (p : Params) : State where
  params := p
  status := 0
  role := .idle
  mstate := .idle
  sstate := .watchingForStart
  sr := 0
  bitcnt := 0
  faddr := 0
  fmask := 0
  rxaddr := 0
  dir := .write
  slven := false
  startSeen := false
  busBusy := false
  sclLow := false
  sdaLow := false
  sdaOe := false
  bitrate := 0
  sclExt := true
  sdaExt := true
  inputs := []
  response := none
  hung := false
  draws := 0
  wire := []

/-- The machine right after reset. DESIGN CHOICE (log 7): the device with both roles whose line driver bounds its waits
stands for all devices; `State.resetWith` gives the others. -/
def State.reset : State :=
  .resetWith { config := .multiMasterSlave, backend := .bitBang, timeoutEnforced := true }

end Sys2Proof.Machine
end

