-- ==== Sys2Proof/Machine/Flags.lean ====
section
/-! DEFINITION. The status flags, the accumulator's two operations and the named predicates (10_state.md R21,
40_status_and_setup.md R110, R117). -/

namespace Sys2Proof.Machine

/-! ### The nine flags, in the bit order of R21 -/

def Flag.success : Flags := 0x001
def Flag.noAck : Flags := 0x002
def Flag.stopped : Flags := 0x004
def Flag.timedOut : Flags := 0x008
def Flag.lineBlocked : Flags := 0x010
def Flag.protocolFail : Flags := 0x020
def Flag.arbitrationLost : Flags := 0x040
def Flag.slaveCollision : Flags := 0x080
def Flag.restarted : Flags := 0x100

/-- `flag(F)` on a status value: OR (R110). -/
def setFlags (s f : Flags) : Flags := s ||| f

/-- `unflag(F)` on a status value: AND with the complement (R110). -/
def clearFlags (s f : Flags) : Flags := s &&& ~~~f

/-! ### The named predicates of R117 -/

def isOk (s : Flags) : Bool := clearFlags s (Flag.success ||| Flag.noAck) == 0

def isRetryable (s : Flags) : Bool :=
  s &&& (Flag.noAck ||| Flag.timedOut ||| Flag.lineBlocked ||| Flag.arbitrationLost) != 0

def isProtocolViolation (s : Flags) : Bool := s &&& Flag.protocolFail != 0

/-- "There is no 'fatal' condition inside the engine" (R117, R260). -/
def isFatal (_ : Flags) : Bool := false

/-- The flags and their names, in bit order (R21, R92). -/
def flagNames : List (Flags × String) :=
  [ (Flag.success, "Success"), (Flag.noAck, "NoAck"), (Flag.stopped, "Stopped"), (Flag.timedOut, "TimedOut"),
    (Flag.lineBlocked, "LineBlocked"), (Flag.protocolFail, "ProtocolFail"), (Flag.arbitrationLost, "ArbitrationLost"),
    (Flag.slaveCollision, "SlaveCollision"), (Flag.restarted, "Restarted") ]

/-- Flags by name joined with `|`, or `0` for none (R92). -/
def flagsText (s : Flags) : String :=
  match (flagNames.filter fun p => s &&& p.1 != 0).map (·.2) with
  | [] => "0"
  | n :: ns => ns.foldl (fun t m => t ++ "|" ++ m) n

end Sys2Proof.Machine
end

