-- ==== Sys2Proof/Machine/Operands.lean ====
section
/-! DEFINITION. The forms of a command's operands and of its answer: the address field (30_encoding.md R82, 10_state.md R31),
the match predicate (43_slave_match.md R180), the shift law on a value (41_byte_transfer.md R141), the response word
(30_encoding.md R89) and the numeric codes of the state values (10_state.md R20). -/

namespace Sys2Proof.Machine

/-! ### The address field -/

/-- The direction an address field names: bit 0, `Read` = 1, `Write` = 0 (R31, D6). -/
def dirOf (af : Byte) : Dir := if af.getLsbD 0 then .read else .write

/-- The address field of a 7-bit address and a direction: `(a7 << 1) | d` (R82). -/
def addressField (a7 : BitVec 7) (d : Dir) : Byte := a7 ++ BitVec.ofBool (d == .read)

/-- `match(rx, fa, fm)` (R180): equal outside the don't-care bits and the direction bit, or the general call when `fm[0]`
enables it. -/
def addressMatch (rx fa fm : Byte) : Bool :=
  (rx &&& ~~~fm &&& 0xFE) == (fa &&& ~~~fm &&& 0xFE) || ((fm &&& 0x01) == 0x01 && (rx &&& 0xFE) == 0x00)

/-! ### The shift law -/

/-- `((SR << 1) | b)[7:0]` (R141): the old bit 7 is discarded. -/
def shiftInto (sr : Byte) (b : Bool) : Byte := (sr <<< 1) ||| (BitVec.ofBool b).setWidth 8

/-! ### The response word -/

/-- The response word (R89): `DONE` at 31, `R` at 24, `DATA` at 23:16, `ST` at 8:0, zero elsewhere. -/
def responseWord (r : Bool) (data : Byte) (st : Flags) : Word :=
  (1 : BitVec 1) ++ ((0 : BitVec 6) ++ (BitVec.ofBool r ++ (data ++ ((0 : BitVec 7) ++ st))))

/-- `R` of a response word (R89). -/
def responseR (w : Word) : Bool := w.getLsbD 24

/-- `DATA` of a response word (R89). -/
def responseData (w : Word) : Byte := w.extractLsb' 16 8

/-- `ST` of a response word (R89). -/
def responseStatus (w : Word) : Flags := w.extractLsb' 0 9

/-- The textual form of a response (R92). -/
def responseText (w : Word) : String :=
  "-> R=" ++ boolText (responseR w) ++ " DATA=" ++ byteText (responseData w) ++ " ST=" ++ flagsText (responseStatus w)

/-! ### Numeric codes (R20, R93; no command exposes them but `DIR`'s) -/

def Role.code : Role → BitVec 2
  | .idle => 0
  | .master => 1
  | .slave => 2
  | .masterProbingForSlaveRole => 3

def MState.code : MState → BitVec 3
  | .idle => 0
  | .startAsserted => 1
  | .addressSent => 2
  | .acked => 3
  | .nacked => 4
  | .arbitrationLost => 5
  | .busError => 6

def SState.code : SState → BitVec 3
  | .watchingForStart => 0
  | .byteClockingIn => 1
  | .matched => 2
  | .notMatched => 3
  | .restarted => 4
  | .stopped => 5

def Dir.code : Dir → BitVec 1
  | .write => 0
  | .read => 1

end Sys2Proof.Machine
end

