-- ==== Sys2Proof/Machine/Ops.lean ====
section
/-! DEFINITION. The shared operations: the two lines and the edge detector (20_memory.md R61, 43_slave_match.md R182), the
inputs of the outside world, the line driver's calls and its bounded wait (41_byte_transfer.md R130, R131), the status
accumulator (R110), the shift law (R141), the failure answer (R115), the reset input (R300), and how a command completes (R89,
R116). Where a processor takes an exception this engine sets a flag and cleans up (60_exceptions.md R260, R271): that is
`flag`, `notAllowed` here and `mAbort`, `mForceStop` (Stop.lean), `sLeave` (SlaveMatch.lean). -/

namespace Sys2Proof.Machine

/-! ### The lines and the edge detector -/

/-- The clock line: high when nobody pulls it low (R61). -/
def State.scl (s : State) : Bool := !s.sclLow && s.sclExt

/-- The data line: high when nobody pulls it low; the engine pulls it low exactly when `SDA_LOW = 1 ∧ SDA_OE = 1` (R38, R61). -/
def State.sda (s : State) : Bool := !(s.sdaLow && s.sdaOe) && s.sdaExt

/-- The edge detector (R182) at a change of the lines from those of `s` to those of `t`, and the history of the bus: the data
line falling while the clock is high is a START, rising a STOP (R71), whoever caused it. -/
def State.observe (s t : State) : State :=
  if s.scl && t.scl then
    if s.sda && !t.sda then
      { t with startSeen := true, busBusy := true, wire := (if t.busBusy then .restart else .start) :: t.wire }
    else if !s.sda && t.sda then
      { t with startSeen := false, busBusy := false, wire := .stop :: t.wire }
    else t
  else if !s.scl && t.scl then { t with wire := .pulse t.sda :: t.wire }
  else t

/-- The environment changes one line (R74), seen by the edge detector. -/
def State.act (a : LineAct) (s : State) : State :=
  match a with
  | .scl released => s.observe { s with sclExt := released }
  | .sda released => s.observe { s with sdaExt := released }

/-- A recovery is pending: arbitration was lost in the address phase and no POLL has served it (R224, R182). -/
def State.recoveryPending (s : State) : Bool := s.role == .master && s.mstate == .arbitrationLost

/-- The engine holds the bus as master (00_scope.md's glossary, R162). -/
def State.holding (s : State) : Bool := s.role == .master && (s.mstate == .acked || s.mstate == .nacked)

/-- The condition of the clock hold, at an instant at which no command is executing (R182). -/
def State.holdDue (s : State) : Bool := s.slven && !s.scl && (s.startSeen || s.recoveryPending)

/-- The edge detector's hold (R182); the clock line is low already, so no line changes. -/
def State.settle (s : State) : State := if s.holdDue then { s with sclLow := true } else s

/-- The reset input (R300): every register takes its value after reset (R43), a command in progress is abandoned without a
response. The parameters, the environment's lines, the inputs to come and the histories are not registers of the engine and
stay (log 18). -/
def State.resetInput (s : State) : State :=
  { State.resetWith s.params with
    sclExt := s.sclExt, sdaExt := s.sdaExt, inputs := s.inputs, wire := s.wire, draws := s.draws }

/-! ### A command in progress -/

/-- Why a command in progress ends without a response. -/
inductive Halt where
  /-- A wait whose condition never holds never returns (R6, R130). -/
  | hang
  /-- The reset input abandons the command (R300). -/
  | reset
  deriving DecidableEq, Repr

/-- A computation of the sequencer: it transforms the state and answers a value, or halts. -/
abbrev Eng := EStateM Halt State

/-- The environment's acts before a line-driver call: all the `.race` items that come next (R74; log 3). -/
def runRaces : List Input → State → EStateM.Result Halt State Unit
  | .race a :: rest, s => runRaces rest (s.act a)
  | .reset :: rest, s => .error .reset { s with inputs := rest }
  | rest, s => .ok () { s with inputs := rest }

/-- Before a line-driver call the environment may act (R74). -/
def races : Eng Unit := fun s => runRaces s.inputs s

/-- A line-driver call that changes the engine's outputs; the edge detector sees the change (R71, R131, R182). -/
def lineCall (change : State → State) : Eng Unit := do
  races
  modify fun s => s.observe (change s)

/-! ### The line driver's calls (R131) -/

def pullClockLow : Eng Unit := lineCall fun s => { s with sclLow := true }

def releaseClockHigh : Eng Unit := lineCall fun s => { s with sclLow := false }

def pullDataLow : Eng Unit := lineCall fun s => { s with sdaLow := true }

def releaseDataHigh : Eng Unit := lineCall fun s => { s with sdaLow := false }

def enableDataDriver : Eng Unit := lineCall fun s => { s with sdaOe := true }

def disableDataDriver : Eng Unit := lineCall fun s => { s with sdaOe := false }

def isClockHigh : Eng Bool := do
  races
  return (← get).scl

def isDataHigh : Eng Bool := do
  races
  return (← get).sda

/-- Put a level on the data line (R132, R136: "if out = 1 then releaseDataHigh() else pullDataLow()"). -/
def putData (out : Bool) : Eng Unit := if out then releaseDataHigh else pullDataLow

/-- The environment's acts in a half-bit period: all up to the next `.pass` (R131: "the environment may act meanwhile";
log 3). An expiry concerns the next bounded wait and stays. -/
def runHalfBit : List Input → State → EStateM.Result Halt State Unit
  | .env a :: rest, s => runHalfBit rest (s.act a)
  | .race a :: rest, s => runHalfBit rest (s.act a)
  | .pass :: rest, s => .ok () { s with inputs := rest }
  | .reset :: rest, s => .error .reset { s with inputs := rest }
  | rest, s => .ok () { s with inputs := rest }

/-- `waitHalfBitPeriod()`: changes no state of the engine (R131). -/
def waitHalfBitPeriod : Eng Unit := fun s => runHalfBit s.inputs s

/-- The answer of the bounded wait (R130). -/
inductive WaitResult where
  | ok
  | expired
  deriving DecidableEq, Repr

/-- The bounded wait over the inputs to come (R130). It answers `ok` in the first state it looks at in which the condition
holds (log 4), `expired` when the oracle says so and the line driver enforces its bound. When the environment does nothing
more and the condition does not hold, it never will: the wait expires if its bound is enforced and hangs if not (R6; log 5). -/
def runWait (c : State → Bool) : List Input → State → EStateM.Result Halt State WaitResult
  | .expire :: rest, s =>
    if s.params.timeoutEnforced then .ok .expired { s with inputs := rest } else runWait c rest s
  | .env a :: rest, s => if c s then .ok .ok { s with inputs := .env a :: rest } else runWait c rest (s.act a)
  | .race a :: rest, s => if c s then .ok .ok { s with inputs := .race a :: rest } else runWait c rest (s.act a)
  | .pass :: rest, s => if c s then .ok .ok { s with inputs := .pass :: rest } else runWait c rest s
  | .reset :: rest, s =>
    if c s then .ok .ok { s with inputs := .reset :: rest } else .error .reset { s with inputs := rest }
  | .command w :: rest, s =>
    if c s then .ok .ok { s with inputs := .command w :: rest }
    else if s.params.timeoutEnforced then .ok .expired { s with inputs := .command w :: rest }
    else .error .hang { s with inputs := .command w :: rest }
  | [], s =>
    if c s then .ok .ok { s with inputs := [] }
    else if s.params.timeoutEnforced then .ok .expired { s with inputs := [] }
    else .error .hang { s with inputs := [] }

/-- `wait_until(c)` (R130). -/
def waitUntil (c : State → Bool) : Eng WaitResult := fun s => runWait c s.inputs s

/-! ### Register writes -/

/-- `flag(F)` (R110). -/
def flag (f : Flags) : Eng Unit := modify fun s => { s with status := setFlags s.status f }

/-- `unflag(F)` (R110). -/
def unflag (f : Flags) : Eng Unit := modify fun s => { s with status := clearFlags s.status f }

/-- `STATUS <- v` (the clearings of R111 and the replacement of R185). -/
def setStatus (v : Flags) : Eng Unit := modify fun s => { s with status := v }

def setRole (r : Role) : Eng Unit := modify fun s => { s with role := r }

def setMState (m : MState) : Eng Unit := modify fun s => { s with mstate := m }

def setSState (m : SState) : Eng Unit := modify fun s => { s with sstate := m }

def setDir (d : Dir) : Eng Unit := modify fun s => { s with dir := d }

def setBitcnt (n : BitVec 4) : Eng Unit := modify fun s => { s with bitcnt := n }

def setSr (v : Byte) : Eng Unit := modify fun s => { s with sr := v }

/-- `START_SEEN <- 0`, by the command that consumes the START (R36). -/
def consumeStart : Eng Unit := modify fun s => { s with startSeen := false }

/-- The shift law of one data bit: `SR <- ((SR << 1) | b)[7:0]; BITCNT <- BITCNT + 1` (R141). -/
def shiftIn (b : Bool) : Eng Unit := modify fun s => { s with sr := shiftInto s.sr b, bitcnt := s.bitcnt + 1 }

/-- `any8`: the next free byte (R12, R143; log 9). -/
def anyByte : Eng Byte := modifyGet fun s => (Config.freeByte s.draws, { s with draws := s.draws + 1 })

/-! ### How a command ends -/

/-- What a command answers beside `STATUS`: `R` and `DATA` (R89). -/
structure Answer where
  r : Bool
  data : Byte
  deriving DecidableEq, Repr

/-- `R = 0, DATA = 0x00`. -/
def Answer.none : Answer := { r := false, data := 0 }

/-- A command the state or the configuration does not allow: `ProtocolFail`, and nothing else is touched (R115). -/
def notAllowed : Eng Unit := flag Flag.protocolFail

/-- Run a command to its end. On completion the response word carries `STATUS` as the command leaves it (R89, R116), and from
that instant the edge detector may hold the clock (R182). A hung command presents no response and the engine accepts no
further command (R6, R318); the reset input abandons the command without a response (R300). -/
def complete (m : Eng Answer) (s : State) : Host.Outcome State Fault Refusal :=
  match m.run { s with response := none } with
  | .ok a t => .next (State.settle { t with response := some (responseWord a.r a.data t.status) })
  | .error .hang t => .next { t with hung := true }
  | .error .reset t => .next t.resetInput

/-! ### Between commands -/

/-- What the next input does to an engine that executes no command: a command word is presented, or only the lines, the edge
detector or the reset input act. -/
inductive Event where
  | quiet (t : State)
  | presented (w : Word) (t : State)
  deriving DecidableEq, Repr

/-- Take the next input. A hung engine accepts nothing but reset (R318). With no input left nothing happens any more. -/
def takeInput (s : State) : Event :=
  match s.inputs with
  | .reset :: rest => .quiet (State.resetInput { s with inputs := rest })
  | inputs =>
    if s.hung then .quiet s
    else match inputs with
      | .command w :: rest => .presented w { s with inputs := rest }
      | .env a :: rest => .quiet (State.act a { s with inputs := rest }).settle
      | .race a :: rest => .quiet (State.act a { s with inputs := rest }).settle
      | _ :: rest => .quiet (State.settle { s with inputs := rest })
      | [] => .quiet s.settle

end Sys2Proof.Machine
end

