-- ==== Sys2Proof/Machine/Stop.lean ====
section
/-! DEFINITION. The STOP sequencer, the master's failure clean-up and RELEASE (44_stop.md R210, R211; 41_byte_transfer.md
R138). -/

namespace Sys2Proof.Machine

/-- `m_stop()` (R210): put a STOP on the bus. -/
def mStop : Eng Unit := do
  pullClockLow                                             -- 1
  enableDataDriver                                         -- 2
  pullDataLow
  waitHalfBitPeriod                                        -- 3
  releaseClockHigh                                         -- 4
  if (← waitUntil State.scl) = .expired then               -- 5
    flag Flag.timedOut
    releaseDataHigh
    disableDataDriver
  else
    waitHalfBitPeriod                                      -- 6
    releaseDataHigh                                        -- 7
    disableDataDriver
    waitHalfBitPeriod                                      -- 8
    if (← waitUntil fun s => s.scl && s.sda) = .expired then   -- 9
      flag Flag.lineBlocked

/-- `m_abort()` (R138): let go of both lines, without a STOP. -/
def mAbort : Eng Unit := do
  releaseDataHigh
  disableDataDriver
  releaseClockHigh
  setRole .idle
  setMState .busError

/-- `m_force_stop()` (R138): the engine forces a STOP and goes idle. -/
def mForceStop : Eng Unit := do
  mStop
  setRole .idle
  setMState .busError

/-- RELEASE's body (R211). -/
def releaseBody : Eng Answer := do
  let s ← get
  if s.params.masterEn && (s.role == .idle || s.role == .master) then
    if s.holding then
      mStop
      setRole .idle
      setMState .idle
    else if s.recoveryPending then
      releaseClockHigh
      setRole .idle
      setMState .idle
  else
    notAllowed
  return .none

/-- RELEASE (44_stop.md R211). -/
def execRelease (s : State) : Host.Outcome State Fault Refusal := complete releaseBody s

end Sys2Proof.Machine
end

