-- ==== Sys2Proof/Machine/ByteTransfer.lean ====
section
/-! DEFINITION. The byte transfer primitive, master-clocked and slave-clocked, and the commands SEND and RECV
(41_byte_transfer.md R132 to R137, R139, R140, R145). The loops `while BITCNT < 8` are recursions on the number of bits still
missing: `BITCNT` grows by one in every pass that goes on (R141). -/

namespace Sys2Proof.Machine

/-! ### Master-clocked procedures -/

/-- Result of one clock pulse made by the engine (R132). -/
inductive MPulse where
  | bit (b : Bool)
  | lost
  | expired
  | illegal
  deriving DecidableEq, Repr

/-- `m_clock_bit(out, arb)` (R132). -/
def mClockBit (out arb : Bool) : Eng MPulse := do
  putData out                                                     -- 1
  waitHalfBitPeriod                                               -- 2
  releaseClockHigh                                                -- 3
  if (← waitUntil State.scl) = .expired then return .expired      -- 4
  let b ← isDataHigh                                              -- 5
  if !out && (← get).sdaOe && b then return .illegal              -- 6
  if arb && out && !b then return .lost                           -- 7
  waitHalfBitPeriod                                               -- 8
  let s ← get
  if s.startSeen || !s.busBusy then return .illegal               -- 9
  pullClockLow                                                    -- 10
  return .bit b                                                   -- 11

/-- Result of a byte sent as master (R133). -/
inductive MSend where
  | acked
  | nacked
  | lost
  | expired
  | illegal
  deriving DecidableEq, Repr

/-- The loop of `m_send_byte` with `n` bits still to send; answers how the byte failed, or nothing (R133). -/
def mSendBits (arb : Bool) : Nat → Eng (Option MSend)
  | 0 => return none
  | n + 1 => do
    match ← mClockBit (← get).sr.msb arb with
    | .bit b =>
      shiftIn b
      mSendBits arb n
    | .lost =>
      shiftIn false
      releaseDataHigh
      disableDataDriver
      return some .lost
    | .expired => return some .expired
    | .illegal => return some .illegal

/-- `m_send_byte(v, arb)` (R133). -/
def mSendByte (v : Byte) (arb : Bool) : Eng MSend := do
  setSr v
  setBitcnt 0
  enableDataDriver
  match ← mSendBits arb 8 with
  | some failure => return failure
  | none =>
    releaseDataHigh
    disableDataDriver
    match ← mClockBit true false with
    | .bit false => return .acked
    | .bit true => return .nacked
    | .lost => return .lost
    | .expired => return .expired
    | .illegal => return .illegal

/-- Result of a byte received as master (R134). -/
inductive MRecv where
  | done
  | expired
  | illegal
  deriving DecidableEq, Repr

/-- The outcome of a pulse for which no contention check is made: only `Expired` and `Illegal` end the byte (R134). -/
def MPulse.ofRecv : MPulse → MRecv
  | .bit _ => .done
  | .lost => .illegal
  | .expired => .expired
  | .illegal => .illegal

/-- The loop of `m_recv_byte` with `n` bits still to come (R134). -/
def mRecvBits : Nat → Eng MRecv
  | 0 => return .done
  | n + 1 => do
    match ← mClockBit true false with
    | .bit b =>
      shiftIn b
      mRecvBits n
    | r => return r.ofRecv

/-- `m_recv_byte(ack)` (R134): the receive path drives the acknowledge bit. -/
def mRecvByte (ack : Bool) : Eng MRecv := do
  releaseDataHigh
  disableDataDriver
  setBitcnt 0
  match ← mRecvBits 8 with
  | .done =>
    if ack then
      enableDataDriver
      let r ← mClockBit false false
      releaseDataHigh
      disableDataDriver
      return r.ofRecv
    else
      return (← mClockBit true false).ofRecv
  | r => return r

/-! ### Slave-clocked procedures -/

/-- Result of following one clock pulse of another master (R135). -/
inductive SPulse where
  | bit (b : Bool)
  | stop
  | start
  | expired
  deriving DecidableEq, Repr

/-- `s_wait_bit()` (R135). -/
def sWaitBit : Eng SPulse := do
  if (← waitUntil State.scl) = .expired then return .expired                                -- 1
  let b ← isDataHigh                                                                        -- 2
  if (← waitUntil fun s => !s.scl || s.sda != b) = .expired then return .expired            -- 3
  if (← get).scl then                                                                       -- 4
    if b then return .start else return .stop
  else
    return .bit b                                                                           -- 5

/-- `s_put_bit(out)` (R136). -/
def sPutBit (out : Bool) : Eng SPulse := do
  putData out                                                     -- 1
  releaseClockHigh                                                -- 2
  sWaitBit                                                        -- 3

/-- Result of a byte received as slave (R137). -/
inductive SRecv where
  | done
  | stop
  | start
  | expired
  deriving DecidableEq, Repr

/-- The outcome of the pulse that ends a received byte (R137). -/
def SPulse.ofRecv : SPulse → SRecv
  | .bit _ => .done
  | .stop => .stop
  | .start => .start
  | .expired => .expired

/-- The loop of `s_recv_byte`, and of `s_clock_in`, with `n` bits still to come (R137, R184). -/
def sRecvBits : Nat → Eng SRecv
  | 0 => return .done
  | n + 1 => do
    match ← sPutBit true with
    | .bit b =>
      shiftIn b
      sRecvBits n
    | r => return r.ofRecv

/-- `s_recv_byte(ack)` (R137). -/
def sRecvByte (ack : Bool) : Eng SRecv := do
  releaseDataHigh
  disableDataDriver
  setBitcnt 0
  match ← sRecvBits 8 with
  | .done =>
    if ack then
      enableDataDriver
      let r ← sPutBit false
      releaseDataHigh
      disableDataDriver
      return r.ofRecv
    else
      return (← sPutBit true).ofRecv
  | r => return r

/-- Result of a byte sent as slave (R145). -/
inductive SSend where
  | acked
  | nacked
  | stop
  | start
  | expired
  deriving DecidableEq, Repr

/-- The outcome of the pulse that ends a sent byte: `Bit(0)` is the master's `A`, `Bit(1)` its `N` (R145). -/
def SPulse.ofSend : SPulse → SSend
  | .bit false => .acked
  | .bit true => .nacked
  | .stop => .stop
  | .start => .start
  | .expired => .expired

/-- The loop of `s_send_byte` with `n` bits still to send; answers how the byte failed, or nothing, and whether a collision
has been seen (R145). After a collision the engine sends 1 for the rest of the byte. -/
def sSendBits : Nat → Bool → Eng (Option SSend × Bool)
  | 0, collided => return (none, collided)
  | n + 1, collided => do
    let out := collided || (← get).sr.msb
    match ← sPutBit out with
    | .bit b =>
      let hit := out && (← get).sr.msb && !b && !collided
      shiftIn b
      sSendBits n (collided || hit)
    | r =>
      releaseDataHigh
      disableDataDriver
      return (some r.ofSend, collided)

/-- `s_send_byte(v)` (R145). -/
def sSendByte (v : Byte) : Eng (SSend × Bool) := do
  setSr v
  setBitcnt 0
  enableDataDriver
  match ← sSendBits 8 false with
  | (some failure, collided) => return (failure, collided)
  | (none, collided) =>
    releaseDataHigh
    disableDataDriver
    return ((← sPutBit true).ofSend, collided)

/-! ### SEND and RECV -/

/-- SEND's body (R139). -/
def sendBody (v : Byte) : Eng Answer := do
  let s ← get
  if s.params.masterEn && s.holding && s.dir == .write then
    match ← mSendByte v s.params.multi with
    | .acked => pure ()
    | .nacked => flag Flag.noAck
    | .lost =>
      flag Flag.arbitrationLost
      setRole .idle
      setMState .arbitrationLost
    | .expired =>
      flag Flag.timedOut
      mAbort
    | .illegal =>
      flag Flag.protocolFail
      mForceStop
  else
    notAllowed
  return .none

/-- SEND (41_byte_transfer.md R139). -/
def execSend (v : Byte) (s : State) : Host.Outcome State Fault Refusal := complete (sendBody v) s

/-- RECV's body (R140). -/
def recvBody (ack : Bool) : Eng Answer := do
  let s ← get
  if s.params.masterEn && s.holding && s.dir == .read then
    match ← mRecvByte ack with
    | .done => return { r := false, data := (← get).sr }
    | .expired =>
      flag Flag.timedOut
      mAbort
      return { r := false, data := ← anyByte }
    | .illegal =>
      flag Flag.protocolFail
      mForceStop
      return { r := false, data := ← anyByte }
  else
    notAllowed
    return { r := false, data := ← anyByte }

/-- RECV (41_byte_transfer.md R140). -/
def execRecv (ack : Bool) (s : State) : Host.Outcome State Fault Refusal := complete (recvBody ack) s

end Sys2Proof.Machine
end

