-- ==== Sys2Proof/Machine/MasterAddressing.lean ====
section
/-! DEFINITION. The master addressing protocol: START, repeated START, OPEN (42_master_addressing.md R160, R161, R163). -/

namespace Sys2Proof.Machine

/-- Result of `m_start` (R160). -/
inductive MStart where
  | ok
  | blocked
  | unconfirmed
  deriving DecidableEq, Repr

/-- `m_start()` (R160). -/
def mStart : Eng MStart := do
  releaseClockHigh                                                                          -- 1
  releaseDataHigh
  if (← waitUntil fun s => s.scl && s.sda) = .expired then return .blocked                  -- 2
  waitHalfBitPeriod                                                                         -- 3
  enableDataDriver                                                                          -- 4
  pullDataLow
  if (← waitUntil State.startSeen) = .expired then return .unconfirmed                      -- 5
  consumeStart                                                                              -- 6
  waitHalfBitPeriod                                                                         -- 7
  pullClockLow                                                                              -- 8
  return .ok                                                                                -- 9

/-- Result of `m_restart` (R161). -/
inductive MRestart where
  | ok
  | expired
  | stuck
  | unconfirmed
  deriving DecidableEq, Repr

/-- `m_restart()` (R161). -/
def mRestart : Eng MRestart := do
  releaseDataHigh                                                                           -- 1
  disableDataDriver
  waitHalfBitPeriod                                                                         -- 2
  releaseClockHigh                                                                          -- 3
  if (← waitUntil State.scl) = .expired then return .expired                                -- 4
  if (← waitUntil State.sda) = .expired then return .stuck                                  -- 5
  waitHalfBitPeriod                                                                         -- 6
  enableDataDriver                                                                          -- 7
  pullDataLow
  if (← waitUntil State.startSeen) = .expired then return .unconfirmed                      -- 8
  consumeStart                                                                              -- 9
  waitHalfBitPeriod                                                                         -- 10
  pullClockLow                                                                              -- 11
  return .ok                                                                                -- 12

/-- OPEN when the engine holds the bus: a repeated START (R162, R163). Answers whether the address is to be sent. -/
def openRestart (multi : Bool) : Eng Bool := do
  match ← mRestart with
  | .ok =>
    setMState .startAsserted
    return true
  | .stuck =>
    if multi then
      flag Flag.arbitrationLost
      mAbort
      setMState .arbitrationLost
    else
      flag Flag.lineBlocked
      mAbort
    return false
  | .expired =>
    flag Flag.timedOut
    mAbort
    return false
  | .unconfirmed =>
    flag Flag.timedOut
    mAbort
    return false

/-- OPEN when the engine does not hold the bus: the busy-bus checks of a multi-master device (R169), then a START (R163).
Answers whether the address is to be sent. -/
def openStart (multi : Bool) : Eng Bool := do
  let s ← get
  if multi && s.startSeen then
    flag (Flag.arbitrationLost ||| Flag.restarted)
    setMState .arbitrationLost
    setBitcnt 0
    if s.slven then
      setRole .master
    else
      setRole .idle
      releaseClockHigh
    return false
  else if multi && s.busBusy then
    flag Flag.arbitrationLost
    setMState .arbitrationLost
    setRole .idle
    releaseClockHigh
    return false
  else
    setRole .idle
    setMState .idle
    match ← mStart with
    | .ok =>
      setRole .master
      setMState .startAsserted
      return true
    | .blocked =>
      flag Flag.lineBlocked
      mAbort
      return false
    | .unconfirmed =>
      flag Flag.timedOut
      mAbort
      return false

/-- OPEN sends the address field and classifies the answer (R163, R164). `MSTATE` is `AddressSent` once the ninth pulse is
done (R165). -/
def openAddress (af : Byte) (multi : Bool) : Eng Unit := do
  setDir (dirOf af)
  match ← mSendByte af multi with
  | .acked =>
    setMState .addressSent
    flag Flag.success
    setMState .acked
  | .nacked =>
    setMState .addressSent
    flag Flag.noAck
    setMState .nacked
  | .lost =>
    flag (Flag.arbitrationLost ||| Flag.restarted)
    setMState .arbitrationLost
    if (← get).slven then setRole .master else setRole .idle
  | .expired =>
    flag Flag.timedOut
    mAbort
  | .illegal =>
    flag Flag.protocolFail
    mForceStop

/-- OPEN's body (R163): `STATUS` is cleared before anything else, also when the command is not allowed (R111, R115). -/
def openBody (af : Byte) : Eng Answer := do
  setStatus 0
  let s ← get
  if s.params.masterEn && (s.role == .idle || s.role == .master) then
    let proceed ←
      if s.holding then openRestart s.params.multi
      else if s.role == .master && s.mstate == .startAsserted then pure true     -- a START is pending (R41)
      else openStart s.params.multi
    if proceed then openAddress af s.params.multi
  else
    notAllowed
  return .none

/-- OPEN (42_master_addressing.md R163). -/
def execOpen (af : Byte) (s : State) : Host.Outcome State Fault Refusal := complete (openBody af) s

end Sys2Proof.Machine
end

