-- ==== Sys2Proof/Machine/Setup.lean ====
section
/-! DEFINITION. The set-up commands INIT, STATUS and SLVEN (40_status_and_setup.md R112, R113, R114). -/

namespace Sys2Proof.Machine

/-- INIT's body (R112). -/
def initBody (own mask bitrate : Byte) : Eng Answer := do
  releaseClockHigh
  releaseDataHigh
  disableDataDriver
  modify fun s =>
    { s with
      status := 0, role := .idle, mstate := .idle, sstate := .watchingForStart, slven := false, startSeen := false,
      busBusy := false, bitcnt := 0, faddr := own, fmask := mask, bitrate := bitrate }
  return .none

/-- INIT (40_status_and_setup.md R112). -/
def execInit (own mask bitrate : Byte) (s : State) : Host.Outcome State Fault Refusal :=
  complete (initBody own mask bitrate) s

/-- STATUS's body (R113): no register is written and no line-driver call is made. -/
def statusBody : Eng Answer := return .none

/-- STATUS (40_status_and_setup.md R113). -/
def execStatus (s : State) : Host.Outcome State Fault Refusal := complete statusBody s

/-- SLVEN's body (R114). -/
def slvenBody (en : Bool) : Eng Answer := do
  let s ← get
  if s.params.slaveEn then
    if en then
      if !s.slven then consumeStart
      modify fun s => { s with slven := true }
    else
      modify fun s => { s with slven := false }
      if s.role == .slave || s.recoveryPending || s.role == .idle then
        releaseClockHigh
        releaseDataHigh
        disableDataDriver
      if s.role == .slave then
        setRole .idle
        setSState .watchingForStart
      if s.recoveryPending then setRole .idle
  else
    notAllowed
  return .none

/-- SLVEN (40_status_and_setup.md R114). -/
def execSlven (en : Bool) (s : State) : Host.Outcome State Fault Refusal := complete (slvenBody en) s

end Sys2Proof.Machine
end

