-- ==== Sys2Proof/Machine/SlaveMatch.lean ====
section
/-! DEFINITION. The slave address-match protocol: POLL with the arbitration recovery, SSEND, SRECV (43_slave_match.md R183 to
R194; 45_arbitration.md R224, R225). -/

namespace Sys2Proof.Machine

/-- `s_leave()` (R183): let go of both lines and end the slave role, without a STOP. -/
def sLeave : Eng Unit := do
  releaseClockHigh
  releaseDataHigh
  disableDataDriver
  setRole .idle
  setSState .watchingForStart

/-- Result of `s_clock_in` (R184). -/
inductive ClockIn where
  | done
  | stop
  | expired
  deriving DecidableEq, Repr

/-- `s_clock_in()` up to its end or to a START inside the byte, for which it answers nothing (R184). -/
def sClockByte : Eng (Option ClockIn) := do
  if (← waitUntil fun s => !s.scl || !s.busBusy) = .expired then return some .expired    -- 1
  if !(← get).busBusy then return some .stop                                               -- 2
  releaseDataHigh                                                                          -- 3
  disableDataDriver
  match ← sRecvBits (8 - (← get).bitcnt.toNat) with                                        -- 4
  | .done =>
    pullClockLow                                                                           -- 5
    return some .done                                                                      -- 6
  | .start => return none
  | .stop => return some .stop
  | .expired => return some .expired

/-- `s_clock_in()` (R184): clock in the address bits still missing. A START inside the byte begins it again (R188); each time
at least one input has been used, so a budget of one more than the inputs to come never runs out (log 16; what happens at
budget 0 is never reached, `Laws/SlaveMatch.lean`). -/
def sClockIn : Nat → Eng ClockIn
  | 0 => throw Halt.hang
  | budget + 1 => do
    match ← sClockByte with
    | some r => return r
    | none =>
      setSState .restarted
      consumeStart
      setBitcnt 0
      setSState .byteClockingIn
      sClockIn budget

/-- What POLL does with the outcome of `s_clock_in`: compare and acknowledge, or leave (R183, R185 to R187). -/
def pollAnswer (cand : Byte) : ClockIn → Eng Answer
  | .done => do
    let s ← get
    if addressMatch s.sr s.faddr s.fmask then
      enableDataDriver
      let a ← sPutBit false
      releaseDataHigh
      disableDataDriver
      match a with
      | .bit _ =>
        pullClockLow
        modify fun s =>
          { s with rxaddr := s.sr, dir := dirOf s.sr, role := .slave, sstate := .matched, status := Flag.success }
        return { r := true, data := (← get).sr }
      | _ =>
        flag Flag.timedOut
        sLeave
        return { r := false, data := cand }
    else
      setSState .notMatched
      flag Flag.restarted
      sLeave
      return { r := false, data := cand }
  | .stop => do
    setSState .stopped
    unflag Flag.restarted
    sLeave
    return { r := false, data := cand }
  | .expired => do
    flag Flag.timedOut
    sLeave
    return { r := false, data := cand }

/-- POLL once a START or a recovery has been found: clock in, then answer (R183). -/
def pollServe (cand : Byte) : Eng Answer := do
  setSState .byteClockingIn
  pollAnswer cand (← sClockIn ((← get).inputs.length + 1))

/-- POLL's body (R183). -/
def pollBody (cand mask : Byte) : Eng Answer := do
  let s ← get
  if s.params.slaveEn then
    modify fun s => { s with faddr := cand, fmask := mask }
    if !s.slven then
      return { r := false, data := cand }
    else if s.recoveryPending then
      unflag Flag.arbitrationLost
      setRole .masterProbingForSlaveRole
      consumeStart
      pollServe cand
    else if !s.startSeen then
      return { r := false, data := cand }
    else
      consumeStart
      setStatus 0
      setBitcnt 0
      pollServe cand
  else
    notAllowed
    return .none

/-- POLL (43_slave_match.md R183). -/
def execPoll (cand mask : Byte) (s : State) : Host.Outcome State Fault Refusal := complete (pollBody cand mask) s

/-- What SSEND does with the outcome of `s_send_byte` (R189). -/
def ssendEnd (more collided : Bool) : SSend → Eng Unit
  | .acked => if more && !collided then pullClockLow else sLeave
  | .nacked => do
    flag Flag.noAck
    sLeave
  | .stop => do
    flag Flag.stopped
    sLeave
  | .start => do
    flag Flag.restarted
    sLeave
  | .expired => do
    flag Flag.timedOut
    sLeave

/-- SSEND's body (R189). -/
def ssendBody (v : Byte) (more : Bool) : Eng Answer := do
  let s ← get
  if s.params.slaveEn && s.role == .slave && s.dir == .read then
    let (r, collided) ← sSendByte v
    flag (if collided then Flag.slaveCollision else 0)
    ssendEnd more collided r
  else
    notAllowed
  return .none

/-- SSEND (43_slave_match.md R189). -/
def execSsend (v : Byte) (more : Bool) (s : State) : Host.Outcome State Fault Refusal := complete (ssendBody v more) s

/-- SRECV's body (R190). -/
def srecvBody (ack : Bool) : Eng Answer := do
  let s ← get
  if s.params.slaveEn && s.role == .slave && s.dir == .write then
    match ← sRecvByte ack with
    | .done =>
      if ack then pullClockLow else sLeave
      return { r := false, data := (← get).sr }
    | .stop =>
      flag Flag.stopped
      sLeave
      return { r := false, data := ← anyByte }
    | .start =>
      flag Flag.restarted
      sLeave
      return { r := false, data := ← anyByte }
    | .expired =>
      flag Flag.timedOut
      sLeave
      return { r := false, data := ← anyByte }
  else
    notAllowed
    return { r := false, data := ← anyByte }

/-- SRECV (43_slave_match.md R190). -/
def execSrecv (ack : Bool) (s : State) : Host.Outcome State Fault Refusal := complete (srecvBody ack) s

end Sys2Proof.Machine
end

