-- ==== Sys2Proof/Machine/Dispatch.lean ====
section
/-! DEFINITION. One arm per command. -/

namespace Sys2Proof.Machine

def exec (i : Instr) (s : State) : Host.Outcome State Fault Refusal :=
  match i with
  | .init own mask bitrate => Sys2Proof.Machine.execInit own mask bitrate s
  | .openDevice addressField => Sys2Proof.Machine.execOpen addressField s
  | .send byte => Sys2Proof.Machine.execSend byte s
  | .recv sendAck => Sys2Proof.Machine.execRecv sendAck s
  | .release => Sys2Proof.Machine.execRelease s
  | .poll candidate mask => Sys2Proof.Machine.execPoll candidate mask s
  | .ssend byte expectMore => Sys2Proof.Machine.execSsend byte expectMore s
  | .srecv sendAck => Sys2Proof.Machine.execSrecv sendAck s
  | .slven enable => Sys2Proof.Machine.execSlven enable s
  | .status => Sys2Proof.Machine.execStatus s

end Sys2Proof.Machine
end

