-- ==== Sys2Proof/Machine/Step.lean ====
section
/-! DEFINITION. One step: the next input is taken; a command word is decoded and run to its end (00_scope.md R8, R10's command
level), a reserved word is refused (30_encoding.md R90), anything else acts on the lines or resets the engine. -/

namespace Sys2Proof.Machine

/-- One step of the machine. -/
def step (s : State) : Host.Outcome State Fault Refusal :=
  match takeInput s with
  | .quiet t => .next t
  | .presented w t =>
    match decode w with
    | .ok i => exec i t
    | .error e => .refused (.reservedWord e)

/-- The host presents this command word next (log 22): there is no program counter and no program memory (R27), the next
command is the next `.command` item of the inputs. -/
def State.withFetchWord (s : State) (nbits w : Nat) : State :=
  { s with inputs := .command (tableWord nbits w) :: s.inputs }

end Sys2Proof.Machine
end

