-- ==== Sys2Proof/Safety.lean ====
section
/-! DEFINITION. The terms in which claims about the engine are made: views of the state, premises on what the outside world
does, the preconditions of 60_exceptions.md R279, the invariants of 10_state.md R42 and 42_master_addressing.md R168. -/

namespace Sys2Proof.Machine

/-! ### Views: the state with a part blanked out -/

/-- The state without what a line-driver call, a wait or the environment may change: the three line outputs, the two latches
of the edge detector, the environment's lines, the inputs and the history of the bus. -/
def State.beyondLines (s : State) : State :=
  { s with
    sclLow := false, sdaLow := false, sdaOe := false, startSeen := false, busBusy := false, sclExt := true, sdaExt := true,
    inputs := [], wire := [] }

/-- The state without what a byte procedure may change (R146): `SR` and `BITCNT` besides. -/
def State.beyondByte (s : State) : State := { s.beyondLines with sr := 0, bitcnt := 0 }

/-- All three line outputs are released (R210, R305). -/
def State.released (s : State) : Prop := s.sclLow = false ∧ s.sdaLow = false ∧ s.sdaOe = false

/-- The clock line is held low and the data line released (R144, R191). -/
def State.clockHeld (s : State) : Prop := s.sclLow = true ∧ s.sdaLow = false ∧ s.sdaOe = false

/-- Both lines are let go but for the edge detector's hold (R182, R305). -/
def State.letGo (s : State) : Prop := s.sdaLow = false ∧ s.sdaOe = false ∧ (s.sclLow = true → s.holdDue = true)

/-- Every control register is at its value after reset (R43, R300). -/
def State.controlReset (s : State) : Prop :=
  s.status = 0 ∧ s.role = .idle ∧ s.mstate = .idle ∧ s.sstate = .watchingForStart ∧ s.slven = false ∧
    s.startSeen = false ∧ s.busBusy = false ∧ s.bitcnt = 0 ∧ s.released

/-- The command word is reserved (R90): an unassigned opcode, `Z` not zero, or a field that the command does not use not
zero. -/
def reservedWord (w : Word) : Prop :=
  w.extractLsb' 28 4 ∈ ([0x0, 0xB, 0xC, 0xD, 0xE, 0xF] : List (BitVec 4)) ∨ w.extractLsb' 25 3 ≠ 0 ∨
    w &&& (match (w.extractLsb' 28 4).toNat with
      | 1 => 0x01000000
      | 2 => 0x0100FFFF
      | 3 => 0x0100FFFF
      | 4 => 0x00FFFFFF
      | 5 => 0x01FFFFFF
      | 6 => 0x010000FF
      | 7 => 0x0000FFFF
      | 8 => 0x00FFFFFF
      | 9 => 0x00FFFFFF
      | 10 => 0x01FFFFFF
      | _ => 0) ≠ 0

/-- What the edge detector does when the lines change from those of `s` to those of `t` (R71, R182). -/
structure EdgeRule (s t : State) : Prop where
  start : s.scl = true → t.scl = true → s.sda = true → t.sda = false → t.startSeen = true ∧ t.busBusy = true
  stop : s.scl = true → t.scl = true → s.sda = false → t.sda = true → t.startSeen = false ∧ t.busBusy = false
  other : s.scl = false ∨ t.scl = false ∨ t.sda = s.sda → t.startSeen = s.startSeen ∧ t.busBusy = s.busBusy

/-! ### Premises on the outside world -/

/-- The reset input is not asserted. -/
def State.noReset (s : State) : Prop := Input.reset ∉ s.inputs

/-- R321's assumption: the environment acts only while the engine waits or executes no command, never between an engine's
reaction and the event it reacts to. -/
def State.unraced (s : State) : Prop := ∀ a, Input.race a ∉ s.inputs

/-- No other device pulls the clock line low any more. -/
def State.clockLeftAlone (s : State) : Prop := Input.env (.scl false) ∉ s.inputs ∧ Input.race (.scl false) ∉ s.inputs

/-- The command has completed: its response has been presented (R89). -/
def State.completed (s : State) : Prop := s.response.isSome = true

/-! ### Invariants between commands -/

/-- R42, clause by clause: what holds when no command is executing. -/
structure State.Between (s : State) : Prop where
  /-- (i) -/
  role_rests : s.role ≠ .masterProbingForSlaveRole
  /-- (ii) -/
  mstate_rests : s.mstate ≠ .startAsserted ∧ s.mstate ≠ .addressSent
  /-- (iii) -/
  sstate_rests : s.sstate = .watchingForStart ∨ s.sstate = .matched
  /-- (iii) -/
  matched_iff_slave : s.sstate = .matched ↔ s.role = .slave
  /-- (iv) -/
  master_state : s.role = .master → s.mstate = .acked ∨ s.mstate = .nacked ∨ s.mstate = .arbitrationLost
  /-- (v) -/
  holding_lines : s.role = .master → s.mstate = .acked ∨ s.mstate = .nacked → s.clockHeld
  /-- (vi) -/
  pending_lines : s.role = .master → s.mstate = .arbitrationLost → s.slven = true ∧ s.sdaLow = false ∧ s.sdaOe = false
  /-- (vii) -/
  slave_lines : s.role = .slave → s.clockHeld ∧ s.slven = true
  /-- (viii) -/
  idle_lines : s.role = .idle → s.sdaLow = false ∧ s.sdaOe = false
  /-- (viii) -/
  idle_clock : s.role = .idle → s.sclLow = true → s.startSeen = true ∧ s.slven = true
  /-- (ix) -/
  slven_needs_slave : s.slven = true → s.params.slaveEn = true
  /-- (ix) -/
  master_needs_master : s.role = .master → s.params.masterEn = true
  /-- (x) -/
  bitcnt_le : s.bitcnt.toNat ≤ 8

/-- R42 holds unless a hung command is still executing (R318). -/
def State.Sound (s : State) : Prop := s.hung = false → s.Between

/-- R168: while the engine holds the bus as master no START is pending and the bus is busy. -/
def State.quietHold (s : State) : Prop := s.hung = false → s.holding = true → s.startSeen = false ∧ s.busBusy = true

/-- While a recovery is pending the status is the one that triggered it, with at most `ProtocolFail` added by a command that
was not allowed (R224). -/
def State.pendingStatus (s : State) : Prop :=
  s.hung = false → s.recoveryPending = true → s.status = 0x140 ∨ s.status = 0x160

/-- R183, R191: an addressed slave sees no START pending, and its bus is busy. -/
def State.quietSlave (s : State) : Prop := s.hung = false → s.role = .slave → s.startSeen = false ∧ s.busBusy = true

/-! ### What the edge detector alone makes of the latches -/

/-- A latch that was `b` before the symbols, newest first, were on the bus: set by the last START, cleared by the last STOP,
unchanged by anything else (R71, R182). -/
def latchAfter : List Symbol → Bool → Bool
  | [], b => b
  | .start :: _, _ => true
  | .restart :: _, _ => true
  | .stop :: _, _ => false
  | .pulse _ :: earlier, b => latchAfter earlier b

/-- From `s` to `t` both latches have been written by the edge detector only: they are what the symbols that have been on the
bus since `s` make of them. -/
def State.LatchesByEdges (s t : State) : Prop :=
  ∃ later, t.wire = later ++ s.wire ∧ t.startSeen = latchAfter later s.startSeen ∧ t.busBusy = latchAfter later s.busBusy

/-! ### Situations in which a transfer is described bit by bit -/

/-- The bits of a byte in the order they cross the bus, bit 7 first (R62). -/
def bits (v : Byte) : List Bool := (List.range 8).map v.getMsbD

/-- The engine holds the bus as master, nobody else pulls a line, and no START or STOP has disturbed it (R168). -/
structure State.MasterHolds (s : State) : Prop where
  master_en : s.params.masterEn = true
  holds : s.holding = true
  lines : s.clockHeld
  scl_free : s.sclExt = true
  sda_free : s.sdaExt = true
  no_start : s.startSeen = false
  busy : s.busBusy = true

/-- An idle device with the slave role enabled has seen a START and the addressing master keeps the clock low: POLL will clock
the address in (R182, R183). -/
structure State.SlaveAddressed (s : State) : Prop where
  slave_en : s.params.slaveEn = true
  enabled : s.slven = true
  idle : s.role = .idle
  sda_low : s.sdaLow = false
  sda_oe : s.sdaOe = false
  scl_low : s.sclExt = false
  start_seen : s.startSeen = true
  busy : s.busBusy = true

/-- A device that lost arbitration in the first `k` bits of the winner's address field `v` holds the clock, which the winner
keeps low too (R227, R230). -/
structure State.RecoveryHolds (s : State) (v : Byte) (k : Nat) : Prop where
  slave_en : s.params.slaveEn = true
  enabled : s.slven = true
  pending : s.recoveryPending = true
  sda_low : s.sdaLow = false
  sda_oe : s.sdaOe = false
  scl_low : s.sclExt = false
  busy : s.busBusy = true
  status : s.status = 0x140
  count : s.bitcnt = BitVec.ofNat 4 k
  k_le : k ≤ 8
  bits_so_far : (bits s.sr).drop (8 - k) = (bits v).take k

/-- A device with the master role, idle on an idle bus. -/
structure State.MasterIdle (s : State) : Prop where
  master_en : s.params.masterEn = true
  idle : s.role = .idle
  lines : s.released
  scl_free : s.sclExt = true
  sda_free : s.sdaExt = true
  no_start : s.startSeen = false
  not_busy : s.busBusy = false

/-- The engine is an addressed slave and holds the clock, which the master keeps low too (R191). -/
structure State.SlaveHolds (s : State) : Prop where
  slave_en : s.params.slaveEn = true
  slave : s.role = .slave
  lines : s.clockHeld
  scl_low : s.sclExt = false
  no_start : s.startSeen = false
  busy : s.busBusy = true

/-- Bits as they appear in the history of the bus, newest first. -/
def onWire (bs : List Bool) : List Symbol := (bs.map .pulse).reverse

/-- Nobody does anything during one pulse of the engine as master. -/
def idlePulse : List Input := [.pass, .pass]

/-- Nobody does anything during the eight data pulses of a byte the engine sends as master. -/
def idleByte : List Input := (List.replicate 8 idlePulse).flatten

/-- What another device does while the engine as master clocks one pulse: it puts a level on the data line in the clock-low
half and leaves it there. -/
def levelInPulse (level : Bool) : List Input := [.env (.sda level), .pass, .pass]

/-- Another master makes one clock pulse and leaves the data line alone. -/
def clockPulse : List Input := [.env (.scl true), .env (.scl false)]

/-- Another master makes one clock pulse with this level on the data line. -/
def masterPulse (level : Bool) : List Input := [.env (.sda level), .env (.scl true), .env (.scl false)]

/-- What comes after the inputs of a command is no act before its last line-driver call, no reset and no expiry of its last
wait. -/
def calm : List Input → Bool
  | .race _ :: _ | .reset :: _ | .expire :: _ => false
  | _ => true

end Sys2Proof.Machine

section
open Sys2Proof.Machine

/-! ### Preconditions (R279) -/

/-- The command is allowed by configuration and state (R279). -/
def Sys2Proof.Instr.allowed (i : Sys2Proof.Instr) (s : State) : Bool :=
  match i with
  | .init _ _ _ => true
  | .openDevice _ => s.params.masterEn && (s.role == .idle || s.role == .master)
  | .send _ => s.params.masterEn && s.role == .master && (s.mstate == .acked || s.mstate == .nacked) && s.dir == .write
  | .recv _ => s.params.masterEn && s.role == .master && (s.mstate == .acked || s.mstate == .nacked) && s.dir == .read
  | .release => s.params.masterEn && (s.role == .idle || s.role == .master)
  | .poll _ _ => s.params.slaveEn
  | .ssend _ _ => s.params.slaveEn && s.role == .slave && s.dir == .read
  | .srecv _ => s.params.slaveEn && s.role == .slave && s.dir == .write
  | .slven _ => s.params.slaveEn
  | .status => true

end
end

