-- ==== Sys2Proof/Certificates/Slice0/Obligations.lean ====
section
/-! DEFINITION. The statements for the provers, by the numbered rules of spec/. -/

section
open Sys2Proof Sys2Proof.Machine

/-! ### Encodings -/

/-- R86 to R90, the worked words of 95_test_vectors.md and of the command rules: each decodes to the command it stands for, and
three reserved words are refused by name. -/
def Obligations.WrittenWordsDecode : Prop :=
  decode 0x10A00E00 = .ok (.init 0xA0 0x0E 0x00) ∧
  decode 0x20A00000 = .ok (.openDevice 0xA0) ∧
  decode 0x305A0000 = .ok (.send 0x5A) ∧
  decode 0x41000000 = .ok (.recv true) ∧
  decode 0x50000000 = .ok .release ∧
  decode 0x60A00E00 = .ok (.poll 0xA0 0x0E) ∧
  decode 0x713C0000 = .ok (.ssend 0x3C true) ∧
  decode 0x81000000 = .ok (.srecv true) ∧
  decode 0x91000000 = .ok (.slven true) ∧
  decode 0xA0000000 = .ok .status ∧
  decode 0x00000000 = .error .reservedOpcode ∧
  decode 0x22A00000 = .error .nonzeroZ ∧
  decode 0x50000001 = .error .nonzeroUnusedField

/-- R86 to R88: no operand bit of any command is lost by encoding and decoding. -/
def Obligations.EveryCommandRoundTrips : Prop := ∀ i : Instr, decode (encode i) = .ok i

/-- R86 to R90: a word has one meaning; the word a command was decoded from is the command's encoding. -/
def Obligations.DecodedWordIsItsEncoding : Prop := ∀ (w : Word) (i : Instr), decode w = .ok i → encode i = w

/-- R88: each command is recognised by `(cw & mask) = match` with the masks and matches of the table; the ten patterns are
pairwise disjoint; opcodes `0x0` and `0xB` to `0xF` are reserved. -/
def Obligations.OpcodeTableRecognisesCommands : Prop :=
  (∀ (w : Word) (r : OpcodeRow), r ∈ opcodeRows →
    (w &&& r.mask = r.value ↔ ∃ i, decode w = .ok i ∧ i.mnemonic = r.mnemonic)) ∧
  (∀ (w : Word) (i : Instr), decode w = .ok i → ∃ r ∈ opcodeRows, r.mnemonic = i.mnemonic ∧ w &&& r.mask = r.value) ∧
  (∀ (w : Word) (r q : OpcodeRow), r ∈ opcodeRows → q ∈ opcodeRows → w &&& r.mask = r.value → w &&& q.mask = q.value →
    r = q) ∧
  (∀ w : Word, w.extractLsb' 28 4 ∈ ([0x0, 0xB, 0xC, 0xD, 0xE, 0xF] : List (BitVec 4)) →
    ∃ e, decode w = .error e)

/-- R90: a presented word is refused by name exactly when it is reserved; a word that is not reserved gives a next state,
whatever the state and the configuration. -/
def Obligations.ReservedWordsAreRefused : Prop :=
  ∀ (s : State) (w : Word) (rest : List Input), s.hung = false → s.inputs = .command w :: rest →
    ((∃ e, step s = .refused (.reservedWord e)) ↔ reservedWord w) ∧ (¬reservedWord w → ∃ t, step s = .next t)

/-- R89: the response word of every command: `DONE`, the zero fields, `ST` the status after the command, `R` and `DATA` as the
table gives them; a hung or abandoned command presents none. -/
def Obligations.ResponseWordOfEachCommand : Prop :=
  ∀ (i : Instr) (s t : State), s.hung = false → exec i s = .next t →
    (t.hung = true → t.response = none) ∧
    ∀ w, t.response = some w →
      w.getLsbD 31 = true ∧ w.extractLsb' 25 6 = 0 ∧ w.extractLsb' 9 7 = 0 ∧ responseStatus w = t.status ∧
      match i with
      | .poll cand _ =>
        (responseR w = true → responseData w = t.rxaddr) ∧
        (responseR w = false → s.params.slaveEn = true → responseData w = cand)
      | .recv _ =>
        responseR w = false ∧
          (responseData w = t.sr ∨ responseData w = Config.freeByte s.draws ∧ t.draws = s.draws + 1)
      | .srecv _ =>
        responseR w = false ∧
          (responseData w = t.sr ∨ responseData w = Config.freeByte s.draws ∧ t.draws = s.draws + 1)
      | _ => responseR w = false ∧ responseData w = 0

/-! ### A step, and what happens between commands -/

/-- R8, R86: a step in which a command word is presented runs the decoded command; `withFetchWord` presents one. -/
def Obligations.StepRunsPresentedCommand : Prop :=
  (∀ (s : State) (w : Word) (rest : List Input) (i : Instr), s.hung = false → s.inputs = .command w :: rest →
    decode w = .ok i → step s = exec i { s with inputs := rest }) ∧
  (∀ (s : State) (nbits w : Nat) (i : Instr), s.hung = false → decodeTableWord nbits w = some i →
    step (s.withFetchWord nbits w) = exec i s)

/-- R8, R9 (between commands the sequencer is idle; the edge detector runs at all times), R20 (the registers the edge detector
is named as a writer of), R182: a step that takes no command and no reset changes no register but `START_SEEN`, `BUS_BUSY` and
`SCL_LOW`, and `SCL_LOW` only from released to held. -/
def Obligations.BetweenCommandsOnlyTheEdgeDetectorActs : Prop :=
  ∀ s t : State, step s = .next t → (∀ w rest, s.inputs ≠ .command w :: rest) → (∀ rest, s.inputs ≠ .reset :: rest) →
    s = { t with
      startSeen := s.startSeen, busBusy := s.busBusy, sclLow := s.sclLow, sclExt := s.sclExt, sdaExt := s.sdaExt,
      inputs := s.inputs, wire := s.wire } ∧
    (s.sclLow = true → t.sclLow = true)

/-- R260, R6, R300, R318: every command in every state completes with a response, or hangs (only when the line driver does not
bound its waits), or is abandoned by the reset input without a response; it never faults and is never refused. -/
def Obligations.EveryCommandEnds : Prop :=
  ∀ (i : Instr) (s : State), s.hung = false →
    ∃ t, exec i s = .next t ∧
      (t.completed ∧ t.hung = false ∨
        t.hung = true ∧ t.response = none ∧ s.params.timeoutEnforced = false ∨
        Input.reset ∈ s.inputs ∧ t.hung = false ∧ t.response = none ∧ t.controlReset)

/-- R318: a hung engine accepts no further command, and only reset ends it (R300). That a line change at the head of a hung
state's inputs changes nothing either is the model's choice, log 28: a hang in a run has used up every line change before it, so
that clause speaks of states written by hand. -/
def Obligations.OnlyResetEndsAHang : Prop :=
  ∀ s : State, s.hung = true →
    ((∀ rest, s.inputs ≠ .reset :: rest) → step s = .next s) ∧
    (∀ rest, s.inputs = .reset :: rest →
      ∃ t, step s = .next t ∧ t.hung = false ∧ t.controlReset ∧ t.inputs = rest ∧ t.response = none)

/-- R300, R43: after reset, and after the reset input in any state, every control register has its value, no command is
executing and no response is presented; reset during a command abandons it without a response. (The values of the data
registers after reset are the model's choice, log 8, and are not stated; what reset keeps is log 18, which device `State.reset`
is log 7.) -/
def Obligations.ResetValues : Prop :=
  (∀ p : Params, (State.resetWith p).controlReset ∧ (State.resetWith p).hung = false) ∧
  (∃ p : Params, State.reset = State.resetWith p) ∧
  (∀ (s : State) (rest : List Input), s.inputs = .reset :: rest →
    ∃ t, step s = .next t ∧ t.controlReset ∧ t.hung = false ∧ t.response = none ∧ t.params = s.params ∧
      t.sclExt = s.sclExt ∧ t.sdaExt = s.sdaExt ∧ t.inputs = rest) ∧
  (∀ (i : Instr) (s t : State), exec i s = .next t → t.hung = false → t.response = none → t.controlReset)

/-- R182 (the hold), for every step: whenever no command is executing and the hold's condition is met, the engine holds the
clock low. -/
def Obligations.HoldIsEngagedWheneverDue : Prop :=
  ∀ s t : State, step s = .next t → t.hung = false →
    t.slven = true → t.scl = false → t.startSeen = true ∨ t.recoveryPending = true → t.sclLow = true

/-- R71: the edge detector reports START and STOP whoever causes them, the environment or any line-driver call of the engine,
and nothing else changes its latches. -/
def Obligations.EdgeDetectorReportsAnyonesEdges : Prop :=
  (∀ (a : LineAct) (s : State), EdgeRule s (s.act a)) ∧
  (∀ call ∈ [pullClockLow, releaseClockHigh, pullDataLow, releaseDataHigh, enableDataDriver, disableDataDriver],
    ∀ s t : State, calm s.inputs = true → call.run s = .ok () t → EdgeRule s t)

/-- R168, R191: while the engine holds the clock low between commands, nothing another device does to the lines is a bit, a
START or a STOP: no register changes. -/
def Obligations.NothingHappensWhileClockIsHeld : Prop :=
  ∀ (s : State) (a : LineAct) (rest : List Input), s.hung = false → s.sclLow = true →
    s.inputs = .env a :: rest ∨ s.inputs = .race a :: rest →
    ∃ t, step s = .next t ∧ t.scl = false ∧
      s = { t with sclExt := s.sclExt, sdaExt := s.sdaExt, inputs := s.inputs }

/-- R227: after a loss in the address phase the hold engages when the winner pulls the clock low; the bits received so far
stay. -/
def Obligations.RecoveryHoldEngagesAtClockFall : Prop :=
  ∀ (s : State) (rest : List Input), s.hung = false → s.recoveryPending = true → s.slven = true → s.scl = true →
    s.inputs = .env (.scl false) :: rest →
    ∃ t, step s = .next t ∧ t.sclLow = true ∧ t.scl = false ∧ t.recoveryPending = true ∧ t.sr = s.sr ∧
      t.bitcnt = s.bitcnt ∧ t.wire = s.wire

/-! ### INIT, STATUS, SLVEN, and commands that are not allowed -/

/-- R112: INIT in every state and configuration. -/
def Obligations.InitEffect : Prop :=
  ∀ (own mask bitrate : Byte) (s : State), s.noReset →
    ∃ t, exec (.init own mask bitrate) s = .next t ∧ t.controlReset ∧
      t.faddr = own ∧ t.fmask = mask ∧ t.bitrate = bitrate ∧ t.sr = s.sr ∧ t.rxaddr = s.rxaddr ∧ t.dir = s.dir ∧
      t.response = some (responseWord false 0 0) ∧ t.params = s.params ∧ t.draws = s.draws

/-- R113: STATUS writes no register, makes no line-driver call, answers `ST = STATUS`, and changes nothing about what another
command does. The premise (a hold that is due is engaged) holds after every step (`HoldIsEngagedWheneverDue`). -/
def Obligations.StatusEffect : Prop :=
  ∀ s : State, (s.holdDue = true → s.sclLow = true) →
    exec .status s = .next { s with response := some (responseWord false 0 s.status) } ∧
    ∀ (i : Instr) (t : State), exec .status s = .next t → exec i t = exec i s

/-- R114: SLVEN 1; SLVEN 0 while the engine holds the bus as master; SLVEN 0. The command itself writes neither `START_SEEN` nor
`BUS_BUSY` when it disables; letting go of a driven data line, or another device before a line-driver call, can make an edge. -/
def Obligations.SlvenEffect : Prop :=
  ∀ s : State, s.params.slaveEn = true →
    exec (.slven true) s = .next (State.settle { s with
      slven := true, startSeen := s.startSeen && s.slven, response := some (responseWord false 0 s.status) }) ∧
    (s.holding = true →
      exec (.slven false) s = .next { s with slven := false, response := some (responseWord false 0 s.status) }) ∧
    (s.noReset →
      ∃ t, exec (.slven false) s = .next t ∧
        t.slven = false ∧ t.status = s.status ∧ t.response = some (responseWord false 0 s.status) ∧
        (s.role = .slave ∨ s.recoveryPending = true ∨ s.role = .idle → t.released) ∧
        (¬(s.role = .slave ∨ s.recoveryPending = true ∨ s.role = .idle) →
          t.sclLow = s.sclLow ∧ t.sdaLow = s.sdaLow ∧ t.sdaOe = s.sdaOe) ∧
        ((∀ a rest, s.inputs ≠ .race a :: rest) → (s.sdaLow && s.sdaOe) = false →
          t.startSeen = s.startSeen ∧ t.busBusy = s.busBusy) ∧
        t.role = (if s.role = .slave ∨ s.recoveryPending = true then .idle else s.role) ∧
        t.sstate = (if s.role = .slave then .watchingForStart else s.sstate) ∧
        t.mstate = s.mstate ∧ t.sr = s.sr ∧ t.bitcnt = s.bitcnt ∧ t.faddr = s.faddr ∧ t.fmask = s.fmask ∧
        t.rxaddr = s.rxaddr ∧ t.dir = s.dir ∧ t.bitrate = s.bitrate ∧ t.params = s.params ∧ t.draws = s.draws ∧
        t.hung = s.hung)

/-- R115: a command that the state or the configuration does not allow flags `ProtocolFail` (OPEN clears `STATUS` first), makes
no line-driver call, changes no other register and answers `R = 0, DATA = 0x00` (a free byte for RECV and SRECV). The no-ops
of the rule: RELEASE when idle, POLL with nothing pending. STATUS and INIT are always allowed. -/
def Obligations.NotAllowedCommandsOnlyFlag : Prop :=
  (∀ (i : Instr) (s : State), i.allowed s = false →
    exec i s = .next (State.settle { s with
      status := setFlags (match i with | .openDevice _ => 0 | _ => s.status) Flag.protocolFail
      draws := (match i with | .recv _ => s.draws + 1 | .srecv _ => s.draws + 1 | _ => s.draws)
      response := some (responseWord false
        (match i with | .recv _ => Config.freeByte s.draws | .srecv _ => Config.freeByte s.draws | _ => 0)
        (setFlags (match i with | .openDevice _ => 0 | _ => s.status) Flag.protocolFail)) })) ∧
  (∀ s : State, s.params.masterEn = true → s.role = .idle →
    exec .release s = .next (State.settle { s with response := some (responseWord false 0 s.status) })) ∧
  (∀ (cand mask : Byte) (s : State), s.params.slaveEn = true → s.recoveryPending = false → s.startSeen = false →
    exec (.poll cand mask) s = .next (State.settle { s with
      faddr := cand, fmask := mask, response := some (responseWord false cand s.status) })) ∧
  (∀ (s : State) (own mask bitrate : Byte),
    Instr.allowed .status s = true ∧ Instr.allowed (.init own mask bitrate) s = true)

/-! ### The master -/

/-- R160, R163, R164, R165: OPEN on an idle bus, nobody disturbing the eight bits; the addressed device leaves the data line at
level `high` in the ninth pulse (low is `A`). -/
def Obligations.OpenOnIdleBus : Prop :=
  ∀ (af : Byte) (high : Bool) (s : State) (rest : List Input), s.MasterIdle → calm rest = true →
    s.inputs = [.pass, .pass] ++ idleByte ++ levelInPulse high ++ rest →
    exec (.openDevice af) s = .next { s with
      status := if high then Flag.noAck else Flag.success
      role := .master
      mstate := if high then .nacked else .acked
      sr := af
      bitcnt := 8
      dir := dirOf af
      sclLow := true
      sdaLow := false
      sdaOe := false
      startSeen := false
      busBusy := true
      sdaExt := high
      inputs := rest
      response := some (responseWord false 0 (if high then Flag.noAck else Flag.success))
      wire := .pulse high :: onWire (bits af) ++ .start :: s.wire }

/-- R161, R162, R163: OPEN while the engine holds the bus makes a repeated START. -/
def Obligations.OpenRepeatsStart : Prop :=
  ∀ (af : Byte) (high : Bool) (s : State) (rest : List Input), s.MasterHolds → calm rest = true →
    s.inputs = [.pass, .pass, .pass] ++ idleByte ++ levelInPulse high ++ rest →
    exec (.openDevice af) s = .next { s with
      status := if high then Flag.noAck else Flag.success
      mstate := if high then .nacked else .acked
      sr := af
      bitcnt := 8
      dir := dirOf af
      sdaExt := high
      inputs := rest
      response := some (responseWord false 0 (if high then Flag.noAck else Flag.success))
      wire := .pulse high :: onWire (bits af) ++ .restart :: .pulse true :: s.wire }

/-- R169, R222: OPEN of a multi-master device on a bus that another master has taken. -/
def Obligations.OpenOnTakenBus : Prop :=
  ∀ (af : Byte) (s : State), s.params.masterEn = true → s.params.multi = true → s.role = .idle ∨ s.recoveryPending = true →
    (s.startSeen = true → s.slven = true →
      exec (.openDevice af) s = .next (State.settle { s with
        status := 0x140, role := .master, mstate := .arbitrationLost, bitcnt := 0
        response := some (responseWord false 0 0x140) })) ∧
    (s.startSeen = true → s.slven = false → calm s.inputs = true → s.sclLow = false →
      exec (.openDevice af) s = .next { s with
        status := 0x140, role := .idle, mstate := .arbitrationLost, bitcnt := 0
        response := some (responseWord false 0 0x140) }) ∧
    (s.startSeen = false → s.busBusy = true → calm s.inputs = true →
      ∃ t, exec (.openDevice af) s = .next t ∧ t.status = 0x040 ∧ t.role = .idle ∧ t.mstate = .arbitrationLost ∧
        t.sclLow = false ∧ t.sdaLow = s.sdaLow ∧ t.sdaOe = s.sdaOe ∧ t.startSeen = false ∧ t.busBusy = true ∧
        t.sr = s.sr ∧ t.bitcnt = s.bitcnt ∧ t.dir = s.dir ∧ t.response = some (responseWord false 0 0x040))

/-- R220, R221, R230: a multi-master device sends `k` bits of the address undisturbed, then 1 while another master sends 0. -/
def Obligations.OpenLosesArbitration : Prop :=
  ∀ (af : Byte) (k : Nat) (s : State) (rest : List Input), s.MasterIdle → s.params.multi = true → k < 8 →
    af.getMsbD k = true → calm rest = true →
    s.inputs = [.pass, .pass] ++ (List.replicate k idlePulse).flatten ++ [.env (.sda false), .pass] ++ rest →
    ∃ sr : Byte, (bits sr).drop (7 - k) = (bits af).take k ++ [false] ∧
      exec (.openDevice af) s = .next { s with
        status := 0x140
        role := if s.slven then .master else .idle
        mstate := .arbitrationLost
        sr := sr
        bitcnt := BitVec.ofNat 4 (k + 1)
        dir := dirOf af
        startSeen := false
        busBusy := true
        sdaExt := false
        inputs := rest
        response := some (responseWord false 0 0x140)
        wire := .pulse false :: onWire ((bits af).take k) ++ .start :: s.wire }

/-- R139: SEND while nobody disturbs the eight bits; the receiver leaves the data line at level `high` in the ninth pulse. -/
def Obligations.SendAnswered : Prop :=
  ∀ (v : Byte) (high : Bool) (s : State) (rest : List Input), s.MasterHolds → s.dir = .write → calm rest = true →
    s.inputs = idleByte ++ levelInPulse high ++ rest →
    exec (.send v) s = .next { s with
      status := if high then setFlags s.status Flag.noAck else s.status
      sr := v
      bitcnt := 8
      sdaExt := high
      inputs := rest
      response := some (responseWord false 0 (if high then setFlags s.status Flag.noAck else s.status))
      wire := .pulse high :: onWire (bits v) ++ s.wire }

/-- R139, R223: a multi-master device loses arbitration in a data byte: `ArbitrationLost` without `Restarted`, idle, all lines
released, no recovery. -/
def Obligations.SendLosesArbitration : Prop :=
  ∀ (v : Byte) (k : Nat) (s : State) (rest : List Input), s.MasterHolds → s.params.multi = true → s.dir = .write →
    k < 8 → v.getMsbD k = true → calm rest = true →
    s.inputs = (List.replicate k idlePulse).flatten ++ [.env (.sda false), .pass] ++ rest →
    ∃ sr : Byte, (bits sr).drop (7 - k) = (bits v).take k ++ [false] ∧
      exec (.send v) s = .next { s with
        status := setFlags s.status Flag.arbitrationLost
        role := .idle
        mstate := .arbitrationLost
        sr := sr
        bitcnt := BitVec.ofNat 4 (k + 1)
        sclLow := false
        sdaExt := false
        inputs := rest
        response := some (responseWord false 0 (setFlags s.status Flag.arbitrationLost))
        wire := .pulse false :: onWire ((bits v).take k) ++ s.wire }

/-- R140: RECV reads the byte the addressed device puts on the bus and drives `A` or leaves `N`; no flag is written. -/
def Obligations.RecvReadsByte : Prop :=
  ∀ (v : Byte) (ack : Bool) (s : State) (rest : List Input), s.MasterHolds → s.dir = .read → calm rest = true →
    s.inputs = (bits v).flatMap levelInPulse ++ levelInPulse true ++ rest →
    exec (.recv ack) s = .next { s with
      sr := v
      bitcnt := 8
      sdaExt := true
      inputs := rest
      response := some (responseWord false v s.status)
      wire := .pulse (!ack) :: onWire (bits v) ++ s.wire }

/-- R140, R138, R143: a wait that expires inside a received byte: `TimedOut`, both lines let go without a STOP, and the answered
byte is free (`any8`), whatever bits have been shifted. -/
def Obligations.RecvTimeoutAnswersFreeByte : Prop :=
  ∀ (ack : Bool) (bs : List Bool) (s : State) (rest : List Input), s.MasterHolds → s.dir = .read →
    s.params.timeoutEnforced = true → bs.length < 8 → calm rest = true →
    s.inputs = bs.flatMap levelInPulse ++ [.pass, .expire] ++ rest →
    ∃ t, exec (.recv ack) s = .next t ∧ t.status = setFlags s.status Flag.timedOut ∧ t.role = .idle ∧
      t.mstate = .busError ∧ t.released ∧ t.bitcnt = BitVec.ofNat 4 bs.length ∧ t.draws = s.draws + 1 ∧
      t.response = some (responseWord false (Config.freeByte s.draws) t.status) ∧ t.dir = s.dir ∧ t.inputs = rest

/-- R210, R211: RELEASE puts a STOP on a bus the engine holds; no flag is written. -/
def Obligations.ReleasePutsStop : Prop :=
  ∀ (s : State) (rest : List Input), s.MasterHolds → calm rest = true → s.inputs = [.pass, .pass, .pass] ++ rest →
    exec .release s = .next { s with
      role := .idle
      mstate := .idle
      sclLow := false
      startSeen := false
      busBusy := false
      inputs := rest
      response := some (responseWord false 0 s.status)
      wire := .stop :: .pulse false :: s.wire }

/-- R211, R271: RELEASE that completes on a bus the engine holds, or with a recovery pending, leaves the engine idle with both
lines let go, also when the STOP failed; it adds at most `TimedOut` or `LineBlocked`. -/
def Obligations.ReleaseAlwaysLetsGo : Prop :=
  ∀ s t : State, s.params.masterEn = true → s.holding = true ∨ s.recoveryPending = true ∧ s.sdaLow = false ∧ s.sdaOe = false →
    exec .release s = .next t → t.completed →
    t.role = .idle ∧ t.mstate = .idle ∧ t.letGo ∧
      (t.status = s.status ∨
        s.holding = true ∧ (t.status = setFlags s.status Flag.timedOut ∨ t.status = setFlags s.status Flag.lineBlocked))

/-- R212: a second RELEASE changes nothing at all, whatever the first one did, in every state in which it completed. -/
def Obligations.ReleaseIsIdempotent : Prop :=
  ∀ s t : State, exec .release s = .next t → t.completed → exec .release t = .next t

/-- R215: a RELEASE of the held bus that added no failure flag has put a STOP on the bus, and the bus is free. (Premise: nobody
pulls the clock low meanwhile; without it another device can undo the clock's rise before the STOP, log 19.) -/
def Obligations.ReleaseWithoutFlagsMadeStop : Prop :=
  ∀ s t : State, s.params.masterEn = true → s.holding = true → s.clockLeftAlone → exec .release s = .next t → t.completed →
    s.status &&& (Flag.timedOut ||| Flag.lineBlocked) = 0 → t.status &&& (Flag.timedOut ||| Flag.lineBlocked) = 0 →
    t.busBusy = false ∧ t.startSeen = false ∧ t.scl = true ∧ t.sda = true ∧
      ∃ later earlier, t.wire = later ++ .stop :: (earlier ++ s.wire)

/-! ### The slave -/

/-- R193: with `SLVEN = 0` POLL writes `FADDR` and `FMASK` and returns false at once, whatever `START_SEEN` is; the edge
detector never holds the clock. -/
def Obligations.PollWhileDisabled : Prop :=
  (∀ (cand mask : Byte) (s : State), s.params.slaveEn = true → s.slven = false →
    exec (.poll cand mask) s = .next { s with
      faddr := cand, fmask := mask, response := some (responseWord false cand s.status) }) ∧
  (∀ s t : State, s.slven = false → (∀ w rest, s.inputs ≠ .command w :: rest) → step s = .next t →
    t.sclLow = true → s.sclLow = true)

/-- R183 to R186, R191: POLL clocks in the address field `v` after a START, with the winner's clock; on a match it drives `A`,
answers the captured field and holds the clock as addressed slave; on a mismatch it leaves `N` and lets go. -/
def Obligations.PollServesStart : Prop :=
  ∀ (cand mask v : Byte) (s : State) (rest : List Input), s.SlaveAddressed → calm rest = true →
    (addressMatch v cand mask = true → s.inputs = (bits v).flatMap masterPulse ++ clockPulse ++ rest →
      exec (.poll cand mask) s = .next { s with
        status := Flag.success
        role := .slave
        sstate := .matched
        sr := v
        bitcnt := 8
        faddr := cand
        fmask := mask
        rxaddr := v
        dir := dirOf v
        sclLow := true
        startSeen := false
        sdaExt := v.getLsbD 0
        inputs := rest
        response := some (responseWord true v Flag.success)
        wire := .pulse false :: onWire (bits v) ++ s.wire }) ∧
    (addressMatch v cand mask = false → s.inputs = (bits v).flatMap masterPulse ++ rest →
      exec (.poll cand mask) s = .next { s with
        status := Flag.restarted
        sstate := .watchingForStart
        sr := v
        bitcnt := 8
        faddr := cand
        fmask := mask
        sclLow := false
        startSeen := false
        sdaExt := v.getLsbD 0
        inputs := rest
        response := some (responseWord false cand Flag.restarted)
        wire := onWire (bits v) ++ s.wire })

/-- R224, R225 (§8 P4): POLL with a recovery pending finishes the winner's address byte `v`, of which `k` bits came in before
the loss, and answers it like any address: no bit of it is lost. -/
def Obligations.RecoveryKeepsTheAddressByte : Prop :=
  ∀ (cand mask v : Byte) (k : Nat) (s : State) (rest : List Input), s.RecoveryHolds v k → calm rest = true →
    (addressMatch v cand mask = true → s.inputs = ((bits v).drop k).flatMap masterPulse ++ clockPulse ++ rest →
      ∃ t, exec (.poll cand mask) s = .next t ∧ t.role = .slave ∧ t.sstate = .matched ∧ t.rxaddr = v ∧ t.sr = v ∧
        t.dir = dirOf v ∧ t.status = Flag.success ∧ t.clockHeld ∧ t.mstate = .arbitrationLost ∧ t.inputs = rest ∧
        t.response = some (responseWord true v Flag.success) ∧
        t.wire = .pulse false :: onWire ((bits v).drop k) ++ s.wire) ∧
    (addressMatch v cand mask = false → s.inputs = ((bits v).drop k).flatMap masterPulse ++ rest →
      ∃ t, exec (.poll cand mask) s = .next t ∧ t.role = .idle ∧ t.sstate = .watchingForStart ∧ t.rxaddr = s.rxaddr ∧
        t.dir = s.dir ∧ t.status = Flag.restarted ∧ t.released ∧ t.inputs = rest ∧
        t.response = some (responseWord false cand Flag.restarted) ∧
        t.wire = onWire ((bits v).drop k) ++ s.wire)

/-- R229, §8 P4 and scenario D: a multi-master slave opens `af` while another master sends the address field `v`; they differ
first in bit `k`, where the engine sends 1. The engine loses, the winner pulls the clock low, the host polls, and the engine is
the addressed slave with `v` captured, or answers that it is not addressed, exactly as the match predicate says. -/
def Obligations.ArbitrationLoserAnswersTheWinner : Prop :=
  ∀ (af cand mask v : Byte) (k : Nat) (s : State) (rest : List Input), s.MasterIdle → s.params.config = .multiMasterSlave →
    s.slven = true → s.hung = false → k < 8 → (bits v).take k = (bits af).take k → af.getMsbD k = true →
    v.getMsbD k = false → calm rest = true → (∀ w, w ∈ rest → w = .pass) →
    s.inputs = [.pass, .pass] ++ (List.replicate k idlePulse).flatten ++ [.env (.sda false), .pass] ++
      .env (.scl false) :: ((bits v).drop (k + 1)).flatMap masterPulse ++ clockPulse ++ rest →
    ∃ s1 s2 t, exec (.openDevice af) s = .next s1 ∧ s1.status = 0x140 ∧ s1.recoveryPending = true ∧ s1.scl = true ∧
      step s1 = .next s2 ∧ s2.sclLow = true ∧
      exec (.poll cand mask) s2 = .next t ∧
      (if addressMatch v cand mask then
        t.role = .slave ∧ t.sstate = .matched ∧ t.rxaddr = v ∧ t.dir = dirOf v ∧ t.status = Flag.success ∧
          t.response = some (responseWord true v Flag.success)
      else
        t.role = .idle ∧ t.sstate = .watchingForStart ∧ t.rxaddr = s.rxaddr ∧ t.status = Flag.restarted ∧
          t.response = some (responseWord false cand Flag.restarted))

/-- R145, R189, R269: SSEND of `v` while the other devices put the bits of `w` on the data line in the eight data pulses and the
master leaves it at level `high` in the ninth: a collision is flagged exactly when some bit of `v` is 1 where that of `w` is
0; the role stays only after `A`, with more bytes expected and no collision. -/
def Obligations.SsendEffect : Prop :=
  ∀ (v w : Byte) (more high : Bool) (s : State) (rest : List Input), s.SlaveHolds → s.dir = .read → calm rest = true →
    s.inputs = (bits w).flatMap masterPulse ++ masterPulse high ++ rest →
    ∃ t, exec (.ssend v more) s = .next t ∧
      t.status = s.status ||| (if v &&& ~~~w = 0 then 0 else Flag.slaveCollision) ||| (if high then Flag.noAck else 0) ∧
      t.response = some (responseWord false 0 t.status) ∧
      (v &&& ~~~w = 0 → t.sr = v ∧ t.wire = .pulse high :: onWire (bits v) ++ s.wire) ∧
      (if more = true ∧ high = false ∧ v &&& ~~~w = 0 then
        t.role = .slave ∧ t.sstate = s.sstate ∧ t.clockHeld
      else t.role = .idle ∧ t.sstate = .watchingForStart ∧ t.released) ∧
      t.bitcnt = 8 ∧ t.inputs = rest ∧ t.mstate = s.mstate ∧ t.dir = s.dir ∧ t.rxaddr = s.rxaddr ∧ t.slven = s.slven ∧
      t.startSeen = false ∧ t.busBusy = true

/-- R137, R190: SRECV reads the byte `v` the master sends and drives `A`, staying slave with the clock held, or leaves `N` and
ends the role. -/
def Obligations.SrecvReadsByte : Prop :=
  ∀ (v : Byte) (ack : Bool) (s : State) (rest : List Input), s.SlaveHolds → s.dir = .write → calm rest = true →
    s.inputs = (bits v).flatMap masterPulse ++ masterPulse true ++ rest →
    exec (.srecv ack) s = .next { s with
      role := if ack then .slave else .idle
      sstate := if ack then s.sstate else .watchingForStart
      sr := v
      bitcnt := 8
      sclLow := ack
      sdaExt := true
      inputs := rest
      response := some (responseWord false v s.status)
      wire := .pulse (!ack) :: onWire (bits v) ++ s.wire }

/-- R190, R143, R194: a STOP or START inside the byte, after the bits `bs`: `Stopped` or `Restarted`, the role ends, and the
answered byte is free (`any8`). -/
def Obligations.SrecvEndedByStopOrStart : Prop :=
  ∀ (ack : Bool) (bs : List Bool) (stop : Bool) (s : State) (rest : List Input), s.SlaveHolds → s.dir = .write →
    bs.length < 8 → calm rest = true →
    s.inputs = bs.flatMap masterPulse ++ [.env (.sda !stop), .env (.scl true), .env (.sda stop)] ++ rest →
    ∃ t, exec (.srecv ack) s = .next t ∧
      t.status = setFlags s.status (if stop then Flag.stopped else Flag.restarted) ∧
      t.startSeen = (!stop) ∧ t.busBusy = (!stop) ∧ t.role = .idle ∧ t.sstate = .watchingForStart ∧ t.released ∧
      t.bitcnt = BitVec.ofNat 4 bs.length ∧ t.draws = s.draws + 1 ∧
      t.response = some (responseWord false (Config.freeByte s.draws) t.status) ∧ t.inputs = rest ∧ t.dir = s.dir

/-! ### Outcomes, whatever the environment does -/

/-- R163, R164, R169, R271: every way an allowed OPEN can complete: of an idle device, of one that holds the bus, and of one with
a recovery pending, whose OPEN on a bus that is free again makes a START (R163). -/
def Obligations.OpenOutcomes : Prop :=
  ∀ (af : Byte) (s t : State), s.params.masterEn = true →
    s.role = .idle ∨ s.holding = true ∨ s.recoveryPending = true → s.sdaLow = false → s.sdaOe = false →
    exec (.openDevice af) s = .next t → t.completed →
    t.status = Flag.success ∧ t.mstate = .acked ∧ t.role = .master ∧ t.clockHeld ∧ t.dir = dirOf af ∧ t.bitcnt = 8 ∨
    t.status = Flag.noAck ∧ t.mstate = .nacked ∧ t.role = .master ∧ t.clockHeld ∧ t.dir = dirOf af ∧ t.bitcnt = 8 ∨
    t.status = 0x140 ∧ t.mstate = .arbitrationLost ∧ t.role = (if s.slven then .master else .idle) ∧ t.letGo ∧
      s.params.multi = true ∨
    t.status = 0x040 ∧ t.mstate = .arbitrationLost ∧ t.role = .idle ∧ t.letGo ∧ s.params.multi = true ∨
    t.status = 0x008 ∧ t.mstate = .busError ∧ t.role = .idle ∧ t.letGo ∧ s.params.timeoutEnforced = true ∨
    t.status = 0x010 ∧ t.mstate = .busError ∧ t.role = .idle ∧ t.letGo ∧ s.params.timeoutEnforced = true ∨
    (t.status = 0x020 ∨ t.status = 0x028 ∨ t.status = 0x030) ∧ t.mstate = .busError ∧ t.role = .idle ∧ t.letGo

/-- R139, R140, R271: every way an allowed SEND or RECV can complete. -/
def Obligations.MasterTransferOutcomes : Prop :=
  ∀ (i : Instr) (s t : State), (∃ v, i = .send v) ∨ (∃ ack, i = .recv ack) → i.allowed s = true → exec i s = .next t →
    t.completed →
    t.role = .master ∧ t.mstate = s.mstate ∧ t.clockHeld ∧ t.bitcnt = 8 ∧ t.draws = s.draws ∧
      (t.status = s.status ∨ t.status = setFlags s.status Flag.noAck ∧ ∃ v, i = .send v) ∨
    t.role = .idle ∧ t.mstate = .arbitrationLost ∧ t.letGo ∧ t.status = setFlags s.status Flag.arbitrationLost ∧
      s.params.multi = true ∧ (∃ v, i = .send v) ∨
    t.role = .idle ∧ t.mstate = .busError ∧ t.letGo ∧
      (t.status = setFlags s.status Flag.timedOut ∧ s.params.timeoutEnforced = true ∨
        t.status = setFlags s.status Flag.protocolFail ∨
        t.status = setFlags (setFlags s.status Flag.protocolFail) Flag.timedOut ∨
        t.status = setFlags (setFlags s.status Flag.protocolFail) Flag.lineBlocked) ∧
      ((∃ ack, i = .recv ack) →
        t.response = some (responseWord false (Config.freeByte s.draws) t.status) ∧ t.draws = s.draws + 1)

/-- R183 to R188, R225, R271: every way a POLL that has something to serve can complete; `base` is `STATUS` as it stands when
the address is clocked in. -/
def Obligations.PollOutcomes : Prop :=
  ∀ (cand mask : Byte) (s t : State) (base : Flags), s.params.slaveEn = true → s.slven = true →
    s.recoveryPending = true ∧ base = clearFlags s.status Flag.arbitrationLost ∨
      s.recoveryPending = false ∧ s.startSeen = true ∧ base = 0 →
    s.bitcnt.toNat ≤ 8 → exec (.poll cand mask) s = .next t → t.completed →
    t.faddr = cand ∧ t.fmask = mask ∧
    (t.role = .slave ∧ t.sstate = .matched ∧ t.status = Flag.success ∧ t.clockHeld ∧ t.bitcnt = 8 ∧
        addressMatch t.sr cand mask = true ∧ t.rxaddr = t.sr ∧ t.dir = dirOf t.sr ∧
        t.response = some (responseWord true t.rxaddr Flag.success) ∨
      t.role = .idle ∧ t.sstate = .watchingForStart ∧ t.letGo ∧ t.rxaddr = s.rxaddr ∧ t.dir = s.dir ∧
        t.response = some (responseWord false cand t.status) ∧
        (t.status = setFlags base Flag.restarted ∧ addressMatch t.sr cand mask = false ∧ t.bitcnt = 8 ∨
          t.status = clearFlags base Flag.restarted ∨
          t.status = setFlags base Flag.timedOut))

/-- R189, R190, R143, R194, R271: every way an allowed SSEND or SRECV can complete. SRECV answers the byte in `SR` after a whole
byte, and a free byte (`any8`) after a STOP, a START or an expiry. -/
def Obligations.SlaveTransferOutcomes : Prop :=
  (∀ (v : Byte) (more : Bool) (s t : State), (Instr.ssend v more).allowed s = true → exec (.ssend v more) s = .next t →
    t.completed →
    t.draws = s.draws ∧
    (more = true ∧ t.role = .slave ∧ t.sstate = s.sstate ∧ t.clockHeld ∧ t.bitcnt = 8 ∧ t.status = s.status ∨
      t.role = .idle ∧ t.sstate = .watchingForStart ∧ t.letGo ∧
        ∃ f ∈ [0, Flag.noAck, Flag.stopped, Flag.restarted, Flag.timedOut],
          (f = Flag.timedOut → s.params.timeoutEnforced = true) ∧
          (t.status = setFlags s.status f ∨ t.status = setFlags (setFlags s.status Flag.slaveCollision) f))) ∧
  (∀ (ack : Bool) (s t : State), (Instr.srecv ack).allowed s = true → exec (.srecv ack) s = .next t → t.completed →
    t.status = s.status ∧ t.bitcnt = 8 ∧ t.draws = s.draws ∧ t.response = some (responseWord false t.sr s.status) ∧
      (if ack then t.role = .slave ∧ t.sstate = s.sstate ∧ t.clockHeld
        else t.role = .idle ∧ t.sstate = .watchingForStart ∧ t.letGo) ∨
    t.draws = s.draws + 1 ∧ t.response = some (responseWord false (Config.freeByte s.draws) t.status) ∧
      t.role = .idle ∧ t.sstate = .watchingForStart ∧ t.letGo ∧
      ∃ f ∈ [Flag.stopped, Flag.restarted, Flag.timedOut],
        t.status = setFlags s.status f ∧ (f = Flag.timedOut → s.params.timeoutEnforced = true))

/-- R274: the values of `STATUS` that OPEN can return and POLL can leave, complete. The premise about a pending recovery is
kept by every step (`PendingStatusIsKept`). -/
def Obligations.StatusValuesOfOpenAndPoll : Prop :=
  (∀ (af : Byte) (s t : State), exec (.openDevice af) s = .next t → t.completed →
    t.status ∈ ([0x001, 0x002, 0x140, 0x040, 0x008, 0x010, 0x020, 0x028, 0x030] : List Flags)) ∧
  (∀ (cand mask : Byte) (s t : State), s.pendingStatus → s.hung = false → exec (.poll cand mask) s = .next t → t.completed →
    if s.params.slaveEn = false then t.status = setFlags s.status Flag.protocolFail
    else if s.slven = false ∨ s.startSeen = false ∧ s.recoveryPending = false then t.status = s.status
    else if s.recoveryPending = false then t.status ∈ ([0x001, 0x100, 0x000, 0x008] : List Flags)
    else t.status ∈ ([0x001, 0x100, 0x000, 0x108] : List Flags) ∨
      s.status = 0x160 ∧ t.status ∈ ([0x120, 0x020, 0x128] : List Flags))

/-! ### Frames and whole-machine rules -/

/-- Which commands write which register, in every run that is not reset: R20's table where it names commands (`FADDR`, `FMASK`,
`BITRATE`, `RXADDR`, `DIR`, `SLVEN`, `START_SEEN`, `BUS_BUSY`); R112, R163, R165, R192 and R226 for `ROLE`, `MSTATE`, `SSTATE`;
the commands that run a byte procedure, and R112, for `SR` and `BITCNT`. `BUS_BUSY` is written by the edge detector and INIT,
`START_SEEN` also by OPEN, POLL and SLVEN, which only clear it. That RECV and SRECV alone draw free bytes is the model's counter,
log 9. (The line outputs are in the statements about lines.) -/
def Obligations.OnlyNamedWritersWrite : Prop :=
  ∀ (i : Instr) (s t : State), s.noReset → exec i s = .next t →
    t.params = s.params ∧
    (t.faddr ≠ s.faddr ∨ t.fmask ≠ s.fmask → i.mnemonic ∈ ["INIT", "POLL"]) ∧
    (t.bitrate ≠ s.bitrate → i.mnemonic = "INIT") ∧
    (t.rxaddr ≠ s.rxaddr → i.mnemonic = "POLL") ∧
    (t.dir ≠ s.dir → i.mnemonic ∈ ["OPEN", "POLL"]) ∧
    (t.slven ≠ s.slven → i.mnemonic ∈ ["INIT", "SLVEN"]) ∧
    (t.sr ≠ s.sr → i.mnemonic ∈ ["OPEN", "SEND", "RECV", "POLL", "SSEND", "SRECV"]) ∧
    (t.bitcnt ≠ s.bitcnt → i.mnemonic ∈ ["INIT", "OPEN", "SEND", "RECV", "POLL", "SSEND", "SRECV"]) ∧
    (t.mstate ≠ s.mstate → i.mnemonic ∈ ["INIT", "OPEN", "SEND", "RECV", "RELEASE"]) ∧
    (t.sstate ≠ s.sstate → i.mnemonic ∈ ["INIT", "POLL", "SSEND", "SRECV", "SLVEN"]) ∧
    (t.role ≠ s.role → i.mnemonic ≠ "STATUS") ∧
    (t.draws ≠ s.draws → i.mnemonic ∈ ["RECV", "SRECV"]) ∧
    (i.mnemonic ∉ ["INIT", "OPEN", "POLL", "SLVEN"] → s.LatchesByEdges t) ∧
    ∃ later, t.wire = later ++ s.wire ∧
      (i.mnemonic ≠ "INIT" → t.busBusy = latchAfter later s.busBusy) ∧
      (t.startSeen = true → latchAfter later s.startSeen = true)

/-- R110, R111: flags accumulate: only INIT, OPEN and POLL ever clear one. -/
def Obligations.FlagsAccumulate : Prop :=
  ∀ (i : Instr) (s t : State), s.noReset → i.mnemonic ∉ ["INIT", "OPEN", "POLL"] → exec i s = .next t →
    s.status &&& ~~~t.status = 0

/-- R262 to R270: of the commands that complete only those named there newly set a flag; `ArbitrationLost` only with `MULTI`. -/
def Obligations.FlagsAreSetOnlyByTheirCommands : Prop :=
  ∀ (i : Instr) (s t : State), exec i s = .next t → t.completed →
    let sets : Flags → Prop := fun f => t.status &&& ~~~s.status &&& f ≠ 0
    (sets Flag.success → i.mnemonic ∈ ["OPEN", "POLL"]) ∧
    (sets Flag.noAck → i.mnemonic ∈ ["OPEN", "SEND", "SSEND"]) ∧
    (sets Flag.stopped → i.mnemonic ∈ ["SSEND", "SRECV"]) ∧
    (sets Flag.timedOut → i.mnemonic ∈ ["OPEN", "SEND", "RECV", "RELEASE", "POLL", "SSEND", "SRECV"]) ∧
    (sets Flag.lineBlocked → i.mnemonic ∈ ["OPEN", "SEND", "RECV", "RELEASE"]) ∧
    (sets Flag.protocolFail → i.mnemonic ∉ ["INIT", "STATUS"]) ∧
    (sets Flag.arbitrationLost → i.mnemonic ∈ ["OPEN", "SEND"] ∧ s.params.multi = true) ∧
    (sets Flag.slaveCollision → i.mnemonic = "SSEND") ∧
    (sets Flag.restarted → i.mnemonic ∈ ["OPEN", "POLL", "SSEND", "SRECV"])

/-- R6, R265, R266: with a line driver that does not bound its waits no completed command newly sets `TimedOut` or
`LineBlocked`. -/
def Obligations.NoTimeoutsUnlessEnforced : Prop :=
  ∀ (i : Instr) (s t : State), s.params.timeoutEnforced = false → exec i s = .next t → t.completed →
    t.status &&& ~~~s.status &&& (Flag.timedOut ||| Flag.lineBlocked) = 0

/-- R226, command by command: to `Master` only by OPEN from `Idle`; to `Slave` only by POLL, from `Master` only with a recovery
pending; from `Slave` only to `Idle`, by INIT, SSEND, SRECV and `SLVEN 0`; from `Master` to `Idle` by INIT, OPEN, SEND, RECV,
RELEASE, and with a recovery pending by POLL and `SLVEN 0`; `MasterProbingForSlaveRole` is never seen afterwards. The premises
are invariants: a START is pending in the master role only with a recovery (R168, `HoldingMasterIsUndisturbed`, with R42 (iv)),
and an addressed slave sees none (R183, R191, `AddressedSlaveSeesNoStart`); without them a POLL would serve that START. -/
def Obligations.RoleTransitions : Prop :=
  ∀ (i : Instr) (s t : State), s.role ≠ .masterProbingForSlaveRole →
    (s.role = .master → s.startSeen = true → s.recoveryPending = true) → (s.role = .slave → s.startSeen = false) →
    exec i s = .next t → t.hung = false →
    t.role ≠ .masterProbingForSlaveRole ∧
    (s.role ≠ .master → t.role = .master → s.role = .idle ∧ i.mnemonic = "OPEN") ∧
    (s.role ≠ .slave → t.role = .slave → i.mnemonic = "POLL" ∧ (s.role = .master → s.recoveryPending = true)) ∧
    (t.response ≠ none → s.role = .slave → t.role = .idle →
      i.mnemonic ∈ ["INIT", "SSEND", "SRECV"] ∨ i = .slven false) ∧
    (t.response ≠ none → s.role = .master → t.role = .idle →
      i.mnemonic ∈ ["INIT", "OPEN", "SEND", "RECV", "RELEASE"] ∨
        s.recoveryPending = true ∧ (i.mnemonic = "POLL" ∨ i = .slven false))

/-- R42 at reset. -/
def Obligations.InvariantAtReset : Prop := (∀ p : Params, (State.resetWith p).Sound) ∧ State.reset.Sound

/-- R42: the ten invariants between commands survive every step, from every state that has them. -/
def Obligations.InvariantKeptByEveryStep : Prop := ∀ s t : State, s.Sound → step s = .next t → t.Sound

/-- R168: while the engine holds the bus no START is pending and the bus stays busy, as long as the environment never acts
between an engine's reaction and the event it reacts to (R321, log 19). -/
def Obligations.HoldingMasterIsUndisturbed : Prop :=
  ∀ s t : State, s.Sound → s.unraced → s.quietHold → step s = .next t → t.quietHold ∧ t.unraced

/-- R183, R191: an addressed slave sees no START pending and a busy bus, as long as the environment never acts between an
engine's reaction and the event it reacts to (R321, log 19). The last premise says that a START or recovery which a POLL could
serve has not gone stale: with the clock high the data line is still low. A START followed by clock pulses while a command of the
master role still executes (in the last half-bit of a STOP, or in a wait of `m_start` that then expires) makes one stale, since
the hold engages only between commands (R182; log 19). -/
def Obligations.AddressedSlaveSeesNoStart : Prop :=
  ∀ s t : State, s.Sound → s.unraced → s.quietSlave →
    (s.startSeen = true ∨ s.recoveryPending = true → s.scl = true → s.sda = false) → step s = .next t →
    t.quietSlave ∧ t.unraced

/-- R224: while a recovery is pending `STATUS` is `ArbitrationLost | Restarted`, with at most `ProtocolFail` added. -/
def Obligations.PendingStatusIsKept : Prop :=
  ∀ s t : State, s.Sound → s.pendingStatus → step s = .next t → t.pendingStatus

/-! ### The parts the commands are made of -/

/-- R130: `ok` only in a state in which the condition holds, `expired` only if `TIMEOUT_ENFORCED`, no hang if it is; a wait whose
condition never becomes true hangs if it is not; `expired` is possible although the condition holds. -/
def Obligations.WaitLaws : Prop :=
  ∀ (p : Bool → Bool → Bool → Bool → Bool) (s : State),
    (∀ t, (waitUntil fun s => p s.scl s.sda s.startSeen s.busBusy).run s = .ok .ok t →
      p t.scl t.sda t.startSeen t.busBusy = true) ∧
    (∀ t, (waitUntil fun s => p s.scl s.sda s.startSeen s.busBusy).run s = .ok .expired t →
      s.params.timeoutEnforced = true) ∧
    (∀ t, (waitUntil fun s => p s.scl s.sda s.startSeen s.busBusy).run s = .error .hang t →
      s.params.timeoutEnforced = false ∧ p t.scl t.sda t.startSeen t.busBusy = false) ∧
    (s.params.timeoutEnforced = false → s.inputs = [] → p s.scl s.sda s.startSeen s.busBusy = false →
      (waitUntil fun s => p s.scl s.sda s.startSeen s.busBusy).run s = .error .hang s) ∧
    (∀ rest, s.params.timeoutEnforced = true → s.inputs = .expire :: rest →
      (waitUntil fun s => p s.scl s.sda s.startSeen s.busBusy).run s = .ok .expired { s with inputs := rest })

/-- R135, last sentence: when `s_wait_bit` reports a STOP the edge detector has cleared both latches, when it reports a START it
has set `START_SEEN`; when it reports a bit the clock is low. -/
def Obligations.FollowedPulseAgreesWithEdgeDetector : Prop :=
  ∀ s t : State,
    (sWaitBit.run s = .ok .stop t → t.startSeen = false ∧ t.busBusy = false) ∧
    (sWaitBit.run s = .ok .start t → t.startSeen = true ∧ t.busBusy = true) ∧
    (∀ b, sWaitBit.run s = .ok (.bit b) t → t.scl = false)

/-- R146: the byte procedures write `SR`, `BITCNT` and the lines only, in every run; the latches are the edge detector's. -/
def Obligations.ByteProceduresWriteOnlyTheirRegisters : Prop :=
  ∀ (s t : State) (v : Byte) (out arb ack : Bool),
    (∀ r, (mClockBit out arb).run s = .ok r t → t.beyondByte = s.beyondByte ∧ s.LatchesByEdges t) ∧
    (∀ r, (mSendByte v arb).run s = .ok r t → t.beyondByte = s.beyondByte ∧ s.LatchesByEdges t) ∧
    (∀ r, (mRecvByte ack).run s = .ok r t → t.beyondByte = s.beyondByte ∧ s.LatchesByEdges t) ∧
    (∀ r, (sPutBit out).run s = .ok r t → t.beyondByte = s.beyondByte ∧ s.LatchesByEdges t) ∧
    (∀ r, (sRecvByte ack).run s = .ok r t → t.beyondByte = s.beyondByte ∧ s.LatchesByEdges t) ∧
    (∀ r, (sSendByte v).run s = .ok r t → t.beyondByte = s.beyondByte ∧ s.LatchesByEdges t)

/-- R180, bit by bit: an address field matches when it agrees with the assigned address in every bit 7 to 1 that the mask does
not free, or is the general call and mask bit 0 enables that. -/
def Obligations.MatchPredicateBitByBit : Prop :=
  ∀ rx fa fm : Byte, addressMatch rx fa fm = true ↔
    (∀ i, 1 ≤ i → i ≤ 7 → fm.getLsbD i = false → rx.getLsbD i = fa.getLsbD i) ∨
      fm.getLsbD 0 = true ∧ ∀ i, 1 ≤ i → i ≤ 7 → rx.getLsbD i = false

/-- R181: the corner cases (a) to (e). -/
def Obligations.MatchCornerCases : Prop :=
  ∀ rx fa fm : Byte,
    (fm.getLsbD 0 = true → addressMatch 0x00 fa fm = true ∧ addressMatch 0x01 fa fm = true) ∧
    (fm.getLsbD 0 = false → fa &&& ~~~fm &&& 0xFE = 0 → addressMatch 0x00 fa fm = true ∧ addressMatch 0x01 fa fm = true) ∧
    (fm &&& 0xFE = 0xFE → addressMatch rx fa fm = true) ∧
    addressMatch rx (fa ^^^ 0x01) fm = addressMatch rx fa fm ∧
    addressMatch 0xA8 0xA0 0x0E = true

/-- R141: a sender's next bit is the next bit of the byte it loaded, whatever is shifted in below; after eight shifts the
register holds the byte that was on the bus, first bit in bit 7. -/
def Obligations.ShiftLawConsequences : Prop :=
  ∀ (v : Byte) (bs : List Bool),
    (bs.length < 8 → (bs.foldl shiftInto v).msb = v.getLsbD (7 - bs.length)) ∧
    (bs.length = 8 → bits (bs.foldl shiftInto v) = bs)

/-- R117: the named predicates, flag by flag. -/
def Obligations.NamedPredicates : Prop :=
  ∀ s : Flags,
    (isOk s = true ↔ ∀ i, 2 ≤ i → i ≤ 8 → s.getLsbD i = false) ∧
    (isRetryable s = true ↔ s.getLsbD 1 = true ∨ s.getLsbD 3 = true ∨ s.getLsbD 4 = true ∨ s.getLsbD 6 = true) ∧
    (isProtocolViolation s = true ↔ s.getLsbD 5 = true) ∧ isFatal s = false

end
end

