-- ==== Sys2Proof/Laws/Eng.lean ====
section
/-! SUPPORT. How the sequencer's computations run: one equation per monadic operation, the state a computation ends in, and
two ways to reason about it without unfolding it: `Eng.Keeps` (a view of the state never changes) and `Eng.Preserves` (a
property of the state never gets lost). -/

namespace Sys2Proof.Machine

variable {α β γ : Type}

/-! ### Running -/

@[simp] theorem Eng.modify_run (f : State → State) (s : State) : (modify f : Eng Unit).run s = .ok () (f s) := rfl

@[simp] theorem Eng.modifyGet_run (f : State → α × State) (s : State) :
    (modifyGet f : Eng α).run s = .ok (f s).1 (f s).2 := rfl

@[simp] theorem Eng.throw_run (h : Halt) (s : State) : (throw h : Eng α).run s = .error h s := rfl

theorem Eng.bind_run (m : Eng α) (k : α → Eng β) (s : State) :
    (m >>= k).run s = match m.run s with
      | .ok a t => (k a).run t
      | .error h t => .error h t := by
  simp only [EStateM.run_bind]
  cases m.run s <;> rfl

/-- A computation that answers goes on with its continuation. -/
theorem Eng.bind_of_ok {m : Eng α} {s t : State} {a : α} (h : m.run s = .ok a t) (k : α → Eng β) :
    (m >>= k).run s = (k a).run t := by
  rw [Eng.bind_run, h]

/-- A computation that halts halts the whole. -/
theorem Eng.bind_of_error {m : Eng α} {s t : State} {e : Halt} (h : m.run s = .error e t) (k : α → Eng β) :
    (m >>= k).run s = .error e t := by
  rw [Eng.bind_run, h]

/-- What a finished sequence went through. -/
theorem Eng.bind_ok_iff {m : Eng α} {k : α → Eng β} {s t : State} {b : β} :
    (m >>= k).run s = .ok b t ↔ ∃ a u, m.run s = .ok a u ∧ (k a).run u = .ok b t := by
  rw [Eng.bind_run]
  cases m.run s <;> simp

theorem Eng.map_ok_iff {m : Eng α} {f : α → β} {s t : State} {b : β} :
    (f <$> m).run s = .ok b t ↔ ∃ a, m.run s = .ok a t ∧ f a = b := by
  rw [EStateM.run_map]
  cases m.run s <;> simp [and_comm]

theorem Eng.pure_ok_iff {a b : α} {s t : State} : (pure a : Eng α).run s = .ok b t ↔ a = b ∧ s = t := by
  simp

theorem Eng.get_ok_iff {b s t : State} : (get : Eng State).run s = .ok b t ↔ s = b ∧ s = t := by
  simp

theorem Eng.modify_ok_iff {f : State → State} {s t : State} {u : Unit} :
    (modify f : Eng Unit).run s = .ok u t ↔ f s = t := by
  simp

@[simp] theorem Eng.ite_run (c : Prop) [Decidable c] (m n : Eng α) (s : State) :
    (if c then m else n).run s = if c then m.run s else n.run s := by
  split <;> rfl

/-! ### Views that never change -/

/-- The state a result carries, an answer's or a halt's. -/
def endState : EStateM.Result Halt State α → State
  | .ok _ t => t
  | .error _ t => t

@[simp] theorem endState_ok (a : α) (t : State) : endState (.ok a t : EStateM.Result Halt State α) = t := rfl

@[simp] theorem endState_error (e : Halt) (t : State) : endState (.error e t : EStateM.Result Halt State α) = t := rfl

/-- The state a computation ends in, whether it answers or halts. -/
def Eng.final (m : Eng α) (s : State) : State := endState (m.run s)

/-- The view `f` of the state is the same after `m` as before, whether `m` answers or halts. -/
def Eng.Keeps (f : State → γ) (m : Eng α) : Prop := ∀ s, f (m.final s) = f s

theorem Eng.Keeps.ok {f : State → γ} {m : Eng α} (h : m.Keeps f) {s t : State} {a : α} (hs : m.run s = .ok a t) :
    f t = f s := by
  simpa [Eng.final, hs] using h s

theorem Eng.Keeps.error {f : State → γ} {m : Eng α} (h : m.Keeps f) {s t : State} {e : Halt} (hs : m.run s = .error e t) :
    f t = f s := by
  simpa [Eng.final, hs] using h s

theorem Eng.keeps_pure (f : State → γ) (a : α) : (pure a : Eng α).Keeps f := fun _ => rfl

theorem Eng.keeps_get (f : State → γ) : (get : Eng State).Keeps f := fun _ => rfl

theorem Eng.keeps_throw (f : State → γ) (h : Halt) : (throw h : Eng α).Keeps f := fun _ => rfl

theorem Eng.keeps_modify {f : State → γ} {g : State → State} (h : ∀ s, f (g s) = f s) :
    (modify g : Eng Unit).Keeps f := h

theorem Eng.keeps_bind {f : State → γ} {m : Eng α} {k : α → Eng β} (hm : m.Keeps f) (hk : ∀ a, (k a).Keeps f) :
    (m >>= k).Keeps f := by
  intro s
  have h := hm s
  unfold Eng.final at *
  rw [Eng.bind_run]
  cases hms : m.run s with
  | ok a t => rw [hms] at h; exact (hk a t).trans h
  | error e t => rw [hms] at h; exact h

theorem Eng.keeps_ite {f : State → γ} {c : Prop} [Decidable c] {m n : Eng α} (hm : m.Keeps f) (hn : n.Keeps f) :
    (if c then m else n : Eng α).Keeps f := by
  split <;> assumption

/-- A view of a view that is kept is kept. -/
theorem Eng.Keeps.comp {δ : Type} {f : State → γ} {m : Eng α} (h : m.Keeps f) (g : γ → δ) :
    m.Keeps fun s => g (f s) := fun s => congrArg g (h s)

/-! ### Properties of the state that never get lost -/

/-- The property `P` of the state survives `m`, whether `m` answers or halts. -/
def Eng.Preserves (P : State → Prop) (m : Eng α) : Prop := ∀ s, P s → P (m.final s)

theorem Eng.Preserves.ok {P : State → Prop} {m : Eng α} (h : m.Preserves P) {s t : State} {a : α}
    (hs : m.run s = .ok a t) (hp : P s) : P t := by
  simpa [Eng.final, hs] using h s hp

theorem Eng.Keeps.preserves {f : State → γ} {m : Eng α} (h : m.Keeps f) (P : γ → Prop) :
    m.Preserves fun s => P (f s) := fun s hs => by
  simpa only [h s] using hs

theorem Eng.preserves_pure (P : State → Prop) (a : α) : (pure a : Eng α).Preserves P := fun _ h => h

theorem Eng.preserves_get (P : State → Prop) : (get : Eng State).Preserves P := fun _ h => h

theorem Eng.preserves_modify {P : State → Prop} {g : State → State} (h : ∀ s, P s → P (g s)) :
    (modify g : Eng Unit).Preserves P := h

theorem Eng.preserves_bind {P : State → Prop} {m : Eng α} {k : α → Eng β} (hm : m.Preserves P)
    (hk : ∀ a, (k a).Preserves P) : (m >>= k).Preserves P := by
  intro s hs
  have h := hm s hs
  unfold Eng.final at *
  rw [Eng.bind_run]
  cases hms : m.run s with
  | ok a t => rw [hms] at h; exact hk a t h
  | error e t => rw [hms] at h; exact h

theorem Eng.preserves_ite {P : State → Prop} {c : Prop} [Decidable c] {m n : Eng α} (hm : m.Preserves P)
    (hn : n.Preserves P) : (if c then m else n : Eng α).Preserves P := by
  split <;> assumption

end Sys2Proof.Machine
end

