-- ==== Sys2Proof/Laws/State.lean ====
section
/-! SUPPORT. What each whole-state operation does to each field: one lemma per field per operation (`State.observe`,
`State.act`, `State.settle`, `State.resetInput`), so that no later proof unfolds a record update. -/

namespace Sys2Proof.Machine

/-! ### The lines -/

theorem State.scl_eq (s : State) : s.scl = (!s.sclLow && s.sclExt) := rfl

theorem State.sda_eq (s : State) : s.sda = (!(s.sdaLow && s.sdaOe) && s.sdaExt) := rfl

/-- A clock line the engine pulls low is low (R61). -/
theorem State.scl_of_sclLow {s : State} (h : s.sclLow = true) : s.scl = false := by simp [State.scl, h]

/-- A data line the engine pulls low with its driver enabled is low (R61). -/
theorem State.sda_of_driven {s : State} (h : s.sdaLow = true) (h' : s.sdaOe = true) : s.sda = false := by
  simp [State.sda, h, h']

/-! ### The edge detector -/

@[simp] theorem State.observe_params (s t : State) : (s.observe t).params = t.params := by
  unfold State.observe; repeat' split
  all_goals rfl

@[simp] theorem State.observe_status (s t : State) : (s.observe t).status = t.status := by
  unfold State.observe; repeat' split
  all_goals rfl

@[simp] theorem State.observe_role (s t : State) : (s.observe t).role = t.role := by
  unfold State.observe; repeat' split
  all_goals rfl

@[simp] theorem State.observe_mstate (s t : State) : (s.observe t).mstate = t.mstate := by
  unfold State.observe; repeat' split
  all_goals rfl

@[simp] theorem State.observe_sstate (s t : State) : (s.observe t).sstate = t.sstate := by
  unfold State.observe; repeat' split
  all_goals rfl

@[simp] theorem State.observe_sr (s t : State) : (s.observe t).sr = t.sr := by
  unfold State.observe; repeat' split
  all_goals rfl

@[simp] theorem State.observe_bitcnt (s t : State) : (s.observe t).bitcnt = t.bitcnt := by
  unfold State.observe; repeat' split
  all_goals rfl

@[simp] theorem State.observe_faddr (s t : State) : (s.observe t).faddr = t.faddr := by
  unfold State.observe; repeat' split
  all_goals rfl

@[simp] theorem State.observe_fmask (s t : State) : (s.observe t).fmask = t.fmask := by
  unfold State.observe; repeat' split
  all_goals rfl

@[simp] theorem State.observe_rxaddr (s t : State) : (s.observe t).rxaddr = t.rxaddr := by
  unfold State.observe; repeat' split
  all_goals rfl

@[simp] theorem State.observe_dir (s t : State) : (s.observe t).dir = t.dir := by
  unfold State.observe; repeat' split
  all_goals rfl

@[simp] theorem State.observe_slven (s t : State) : (s.observe t).slven = t.slven := by
  unfold State.observe; repeat' split
  all_goals rfl

@[simp] theorem State.observe_sclLow (s t : State) : (s.observe t).sclLow = t.sclLow := by
  unfold State.observe; repeat' split
  all_goals rfl

@[simp] theorem State.observe_sdaLow (s t : State) : (s.observe t).sdaLow = t.sdaLow := by
  unfold State.observe; repeat' split
  all_goals rfl

@[simp] theorem State.observe_sdaOe (s t : State) : (s.observe t).sdaOe = t.sdaOe := by
  unfold State.observe; repeat' split
  all_goals rfl

@[simp] theorem State.observe_bitrate (s t : State) : (s.observe t).bitrate = t.bitrate := by
  unfold State.observe; repeat' split
  all_goals rfl

@[simp] theorem State.observe_sclExt (s t : State) : (s.observe t).sclExt = t.sclExt := by
  unfold State.observe; repeat' split
  all_goals rfl

@[simp] theorem State.observe_sdaExt (s t : State) : (s.observe t).sdaExt = t.sdaExt := by
  unfold State.observe; repeat' split
  all_goals rfl

@[simp] theorem State.observe_inputs (s t : State) : (s.observe t).inputs = t.inputs := by
  unfold State.observe; repeat' split
  all_goals rfl

@[simp] theorem State.observe_response (s t : State) : (s.observe t).response = t.response := by
  unfold State.observe; repeat' split
  all_goals rfl

@[simp] theorem State.observe_hung (s t : State) : (s.observe t).hung = t.hung := by
  unfold State.observe; repeat' split
  all_goals rfl

@[simp] theorem State.observe_draws (s t : State) : (s.observe t).draws = t.draws := by
  unfold State.observe; repeat' split
  all_goals rfl

/-- With the clock line low before the change nothing is an edge: only a rise of the clock is recorded (R71, R182). -/
theorem State.observe_of_low {s : State} (t : State) (h : s.scl = false) :
    s.observe t = if t.scl then { t with wire := .pulse t.sda :: t.wire } else t := by
  simp [State.observe, h]

/-- With the clock line low after the change nothing is recorded (R71, R182). -/
theorem State.observe_to_low (s : State) {t : State} (h : t.scl = false) : s.observe t = t := by
  simp [State.observe, h]

/-- A change that leaves both lines at their levels is no edge (R71). -/
theorem State.observe_same {s t : State} (hc : t.scl = s.scl) (hd : t.sda = s.sda) : s.observe t = t := by
  unfold State.observe
  cases h : s.scl <;> cases h' : s.sda <;> simp_all

@[simp] theorem State.observe_scl (s t : State) : (s.observe t).scl = t.scl := by simp [State.scl]

@[simp] theorem State.observe_sda (s t : State) : (s.observe t).sda = t.sda := by simp [State.sda]

/-! ### The environment's acts -/

@[simp] theorem State.act_params (a : LineAct) (s : State) : (s.act a).params = s.params := by
  cases a <;> simp [State.act]

@[simp] theorem State.act_status (a : LineAct) (s : State) : (s.act a).status = s.status := by
  cases a <;> simp [State.act]

@[simp] theorem State.act_role (a : LineAct) (s : State) : (s.act a).role = s.role := by
  cases a <;> simp [State.act]

@[simp] theorem State.act_mstate (a : LineAct) (s : State) : (s.act a).mstate = s.mstate := by
  cases a <;> simp [State.act]

@[simp] theorem State.act_sstate (a : LineAct) (s : State) : (s.act a).sstate = s.sstate := by
  cases a <;> simp [State.act]

@[simp] theorem State.act_sr (a : LineAct) (s : State) : (s.act a).sr = s.sr := by
  cases a <;> simp [State.act]

@[simp] theorem State.act_bitcnt (a : LineAct) (s : State) : (s.act a).bitcnt = s.bitcnt := by
  cases a <;> simp [State.act]

@[simp] theorem State.act_faddr (a : LineAct) (s : State) : (s.act a).faddr = s.faddr := by
  cases a <;> simp [State.act]

@[simp] theorem State.act_fmask (a : LineAct) (s : State) : (s.act a).fmask = s.fmask := by
  cases a <;> simp [State.act]

@[simp] theorem State.act_rxaddr (a : LineAct) (s : State) : (s.act a).rxaddr = s.rxaddr := by
  cases a <;> simp [State.act]

@[simp] theorem State.act_dir (a : LineAct) (s : State) : (s.act a).dir = s.dir := by
  cases a <;> simp [State.act]

@[simp] theorem State.act_slven (a : LineAct) (s : State) : (s.act a).slven = s.slven := by
  cases a <;> simp [State.act]

@[simp] theorem State.act_sclLow (a : LineAct) (s : State) : (s.act a).sclLow = s.sclLow := by
  cases a <;> simp [State.act]

@[simp] theorem State.act_sdaLow (a : LineAct) (s : State) : (s.act a).sdaLow = s.sdaLow := by
  cases a <;> simp [State.act]

@[simp] theorem State.act_sdaOe (a : LineAct) (s : State) : (s.act a).sdaOe = s.sdaOe := by
  cases a <;> simp [State.act]

@[simp] theorem State.act_bitrate (a : LineAct) (s : State) : (s.act a).bitrate = s.bitrate := by
  cases a <;> simp [State.act]

@[simp] theorem State.act_inputs (a : LineAct) (s : State) : (s.act a).inputs = s.inputs := by
  cases a <;> simp [State.act]

@[simp] theorem State.act_response (a : LineAct) (s : State) : (s.act a).response = s.response := by
  cases a <;> simp [State.act]

@[simp] theorem State.act_hung (a : LineAct) (s : State) : (s.act a).hung = s.hung := by
  cases a <;> simp [State.act]

@[simp] theorem State.act_draws (a : LineAct) (s : State) : (s.act a).draws = s.draws := by
  cases a <;> simp [State.act]

@[simp] theorem State.act_scl_sclExt (b : Bool) (s : State) : (s.act (.scl b)).sclExt = b := by simp [State.act]

@[simp] theorem State.act_scl_sdaExt (b : Bool) (s : State) : (s.act (.scl b)).sdaExt = s.sdaExt := by simp [State.act]

@[simp] theorem State.act_sda_sclExt (b : Bool) (s : State) : (s.act (.sda b)).sclExt = s.sclExt := by simp [State.act]

@[simp] theorem State.act_sda_sdaExt (b : Bool) (s : State) : (s.act (.sda b)).sdaExt = b := by simp [State.act]

/-- While the engine holds the clock low, nothing the environment does is an edge (R168, R191). -/
theorem State.act_of_sclLow {s : State} (a : LineAct) (h : s.sclLow = true) :
    s.act a = match a with
      | .scl b => { s with sclExt := b }
      | .sda b => { s with sdaExt := b } := by
  cases a <;> simp [State.act, State.observe, State.scl, h]

/-! ### The hold -/

@[simp] theorem State.settle_params (s : State) : s.settle.params = s.params := by
  unfold State.settle; split <;> rfl

@[simp] theorem State.settle_status (s : State) : s.settle.status = s.status := by
  unfold State.settle; split <;> rfl

@[simp] theorem State.settle_role (s : State) : s.settle.role = s.role := by
  unfold State.settle; split <;> rfl

@[simp] theorem State.settle_mstate (s : State) : s.settle.mstate = s.mstate := by
  unfold State.settle; split <;> rfl

@[simp] theorem State.settle_sstate (s : State) : s.settle.sstate = s.sstate := by
  unfold State.settle; split <;> rfl

@[simp] theorem State.settle_sr (s : State) : s.settle.sr = s.sr := by
  unfold State.settle; split <;> rfl

@[simp] theorem State.settle_bitcnt (s : State) : s.settle.bitcnt = s.bitcnt := by
  unfold State.settle; split <;> rfl

@[simp] theorem State.settle_faddr (s : State) : s.settle.faddr = s.faddr := by
  unfold State.settle; split <;> rfl

@[simp] theorem State.settle_fmask (s : State) : s.settle.fmask = s.fmask := by
  unfold State.settle; split <;> rfl

@[simp] theorem State.settle_rxaddr (s : State) : s.settle.rxaddr = s.rxaddr := by
  unfold State.settle; split <;> rfl

@[simp] theorem State.settle_dir (s : State) : s.settle.dir = s.dir := by
  unfold State.settle; split <;> rfl

@[simp] theorem State.settle_slven (s : State) : s.settle.slven = s.slven := by
  unfold State.settle; split <;> rfl

@[simp] theorem State.settle_startSeen (s : State) : s.settle.startSeen = s.startSeen := by
  unfold State.settle; split <;> rfl

@[simp] theorem State.settle_busBusy (s : State) : s.settle.busBusy = s.busBusy := by
  unfold State.settle; split <;> rfl

@[simp] theorem State.settle_sdaLow (s : State) : s.settle.sdaLow = s.sdaLow := by
  unfold State.settle; split <;> rfl

@[simp] theorem State.settle_sdaOe (s : State) : s.settle.sdaOe = s.sdaOe := by
  unfold State.settle; split <;> rfl

@[simp] theorem State.settle_bitrate (s : State) : s.settle.bitrate = s.bitrate := by
  unfold State.settle; split <;> rfl

@[simp] theorem State.settle_sclExt (s : State) : s.settle.sclExt = s.sclExt := by
  unfold State.settle; split <;> rfl

@[simp] theorem State.settle_sdaExt (s : State) : s.settle.sdaExt = s.sdaExt := by
  unfold State.settle; split <;> rfl

@[simp] theorem State.settle_inputs (s : State) : s.settle.inputs = s.inputs := by
  unfold State.settle; split <;> rfl

@[simp] theorem State.settle_response (s : State) : s.settle.response = s.response := by
  unfold State.settle; split <;> rfl

@[simp] theorem State.settle_hung (s : State) : s.settle.hung = s.hung := by
  unfold State.settle; split <;> rfl

@[simp] theorem State.settle_draws (s : State) : s.settle.draws = s.draws := by
  unfold State.settle; split <;> rfl

@[simp] theorem State.settle_wire (s : State) : s.settle.wire = s.wire := by
  unfold State.settle; split <;> rfl

@[simp] theorem State.settle_sclLow (s : State) : s.settle.sclLow = (s.holdDue || s.sclLow) := by
  unfold State.settle; split <;> simp_all

/-- The hold changes no line: the clock is low already (R182). -/
@[simp] theorem State.settle_scl (s : State) : s.settle.scl = s.scl := by
  unfold State.settle
  split
  · have h : s.scl = false := by simp_all [State.holdDue]
    rw [h]
    rfl
  · rfl

@[simp] theorem State.settle_sda (s : State) : s.settle.sda = s.sda := by simp [State.sda]

/-- When the hold is not due, or engaged already, nothing changes (R182). -/
theorem State.settle_of {s : State} (h : s.holdDue = true → s.sclLow = true) : s.settle = s := by
  unfold State.settle
  split
  · cases s; simp_all
  · rfl

/-- After the edge detector has settled, a hold that is due is engaged (R182). -/
theorem State.settle_engaged (s : State) (h : s.settle.holdDue = true) : s.settle.sclLow = true := by
  have hd : s.settle.holdDue = s.holdDue := by simp [State.holdDue, State.recoveryPending]
  simp [← hd, h]

@[simp] theorem State.settle_settle (s : State) : s.settle.settle = s.settle := State.settle_of s.settle_engaged

/-! ### The reset input -/

@[simp] theorem State.resetInput_params (s : State) : s.resetInput.params = s.params := rfl

@[simp] theorem State.resetInput_status (s : State) : s.resetInput.status = (State.resetWith s.params).status := rfl

@[simp] theorem State.resetInput_role (s : State) : s.resetInput.role = (State.resetWith s.params).role := rfl

@[simp] theorem State.resetInput_mstate (s : State) : s.resetInput.mstate = (State.resetWith s.params).mstate := rfl

@[simp] theorem State.resetInput_sstate (s : State) : s.resetInput.sstate = (State.resetWith s.params).sstate := rfl

@[simp] theorem State.resetInput_sr (s : State) : s.resetInput.sr = (State.resetWith s.params).sr := rfl

@[simp] theorem State.resetInput_bitcnt (s : State) : s.resetInput.bitcnt = (State.resetWith s.params).bitcnt := rfl

@[simp] theorem State.resetInput_faddr (s : State) : s.resetInput.faddr = (State.resetWith s.params).faddr := rfl

@[simp] theorem State.resetInput_fmask (s : State) : s.resetInput.fmask = (State.resetWith s.params).fmask := rfl

@[simp] theorem State.resetInput_rxaddr (s : State) : s.resetInput.rxaddr = (State.resetWith s.params).rxaddr := rfl

@[simp] theorem State.resetInput_dir (s : State) : s.resetInput.dir = (State.resetWith s.params).dir := rfl

@[simp] theorem State.resetInput_slven (s : State) : s.resetInput.slven = (State.resetWith s.params).slven := rfl

@[simp] theorem State.resetInput_startSeen (s : State) : s.resetInput.startSeen = (State.resetWith s.params).startSeen := rfl

@[simp] theorem State.resetInput_busBusy (s : State) : s.resetInput.busBusy = (State.resetWith s.params).busBusy := rfl

@[simp] theorem State.resetInput_sclLow (s : State) : s.resetInput.sclLow = (State.resetWith s.params).sclLow := rfl

@[simp] theorem State.resetInput_sdaLow (s : State) : s.resetInput.sdaLow = (State.resetWith s.params).sdaLow := rfl

@[simp] theorem State.resetInput_sdaOe (s : State) : s.resetInput.sdaOe = (State.resetWith s.params).sdaOe := rfl

@[simp] theorem State.resetInput_bitrate (s : State) : s.resetInput.bitrate = (State.resetWith s.params).bitrate := rfl

@[simp] theorem State.resetInput_sclExt (s : State) : s.resetInput.sclExt = s.sclExt := rfl

@[simp] theorem State.resetInput_sdaExt (s : State) : s.resetInput.sdaExt = s.sdaExt := rfl

@[simp] theorem State.resetInput_inputs (s : State) : s.resetInput.inputs = s.inputs := rfl

@[simp] theorem State.resetInput_response (s : State) : s.resetInput.response = (State.resetWith s.params).response := rfl

@[simp] theorem State.resetInput_hung (s : State) : s.resetInput.hung = (State.resetWith s.params).hung := rfl

@[simp] theorem State.resetInput_draws (s : State) : s.resetInput.draws = s.draws := rfl

@[simp] theorem State.resetInput_wire (s : State) : s.resetInput.wire = s.wire := rfl

end Sys2Proof.Machine
end

