-- ==== Sys2Proof/Laws/Ops.lean ====
section
/-! SUPPORT. What the shared operations of Machine/Ops.lean can do: what they leave alone, what they do to the line outputs, what
a wait's answer means, and which inputs they use. -/

namespace Sys2Proof.Machine

variable {α β : Type}

/-! ### What the environment's acts cannot break survives every wait -/

section
variable {P : State → Prop} (hact : ∀ a s, P s → P (s.act a)) (hin : ∀ l s, P s → P { s with inputs := l })
include hact hin

theorem runRaces_preserves (is : List Input) (s : State) (h : P s) : P (endState (runRaces is s)) := by
  induction is generalizing s with
  | nil => exact hin _ _ h
  | cons i is ih =>
    cases i
    case race a => exact ih _ (hact _ _ h)
    all_goals exact hin _ _ h

theorem runHalfBit_preserves (is : List Input) (s : State) (h : P s) : P (endState (runHalfBit is s)) := by
  induction is generalizing s with
  | nil => exact hin _ _ h
  | cons i is ih =>
    cases i
    case race a => exact ih _ (hact _ _ h)
    case env a => exact ih _ (hact _ _ h)
    all_goals exact hin _ _ h

theorem runWait_preserves (c : State → Bool) (is : List Input) (s : State) (h : P s) :
    P (endState (runWait c is s)) := by
  induction is generalizing s with
  | nil =>
    unfold runWait
    repeat' split
    all_goals exact hin _ _ h
  | cons i is ih =>
    cases i <;> unfold runWait <;> repeat' split
    all_goals first
      | exact hin _ _ h
      | exact ih _ (hact _ _ h)
      | exact ih _ h

theorem races_preserves : races.Preserves P := fun s h => runRaces_preserves hact hin s.inputs s h

theorem waitHalfBitPeriod_preserves : waitHalfBitPeriod.Preserves P := fun s h =>
  runHalfBit_preserves hact hin s.inputs s h

theorem waitUntil_preserves (c : State → Bool) : (waitUntil c).Preserves P := fun s h =>
  runWait_preserves hact hin c s.inputs s h

theorem isDataHigh_preserves : isDataHigh.Preserves P :=
  Eng.preserves_bind (races_preserves hact hin) fun _ =>
    Eng.preserves_bind (Eng.preserves_get _) fun _ => Eng.preserves_pure _ _

theorem isClockHigh_preserves : isClockHigh.Preserves P :=
  Eng.preserves_bind (races_preserves hact hin) fun _ =>
    Eng.preserves_bind (Eng.preserves_get _) fun _ => Eng.preserves_pure _ _

end

/-! ### What line-level operations leave alone -/

@[simp] theorem State.observe_beyondLines (s t : State) : (s.observe t).beyondLines = t.beyondLines := by
  simp [State.beyondLines]

@[simp] theorem State.act_beyondLines (a : LineAct) (s : State) : (s.act a).beyondLines = s.beyondLines := by
  cases a <;> simp [State.beyondLines]

theorem races_keeps : races.Keeps State.beyondLines := fun s =>
  races_preserves (P := fun t => t.beyondLines = s.beyondLines) (fun _ _ h => by simpa using h) (fun _ _ h => h) s rfl

theorem waitHalfBitPeriod_keeps : waitHalfBitPeriod.Keeps State.beyondLines := fun s =>
  waitHalfBitPeriod_preserves (P := fun t => t.beyondLines = s.beyondLines) (fun _ _ h => by simpa using h)
    (fun _ _ h => h) s rfl

theorem waitUntil_keeps (c : State → Bool) : (waitUntil c).Keeps State.beyondLines := fun s =>
  waitUntil_preserves (P := fun t => t.beyondLines = s.beyondLines) (fun _ _ h => by simpa using h)
    (fun _ _ h => h) c s rfl

theorem lineCall_keeps {f : State → State} (h : ∀ s, (f s).beyondLines = s.beyondLines) :
    (lineCall f).Keeps State.beyondLines :=
  Eng.keeps_bind races_keeps fun _ => Eng.keeps_modify fun s => by simp [h]

theorem pullClockLow_keeps : pullClockLow.Keeps State.beyondLines := lineCall_keeps fun _ => rfl
theorem releaseClockHigh_keeps : releaseClockHigh.Keeps State.beyondLines := lineCall_keeps fun _ => rfl
theorem pullDataLow_keeps : pullDataLow.Keeps State.beyondLines := lineCall_keeps fun _ => rfl
theorem releaseDataHigh_keeps : releaseDataHigh.Keeps State.beyondLines := lineCall_keeps fun _ => rfl
theorem enableDataDriver_keeps : enableDataDriver.Keeps State.beyondLines := lineCall_keeps fun _ => rfl
theorem disableDataDriver_keeps : disableDataDriver.Keeps State.beyondLines := lineCall_keeps fun _ => rfl

theorem putData_keeps (out : Bool) : (putData out).Keeps State.beyondLines :=
  Eng.keeps_ite releaseDataHigh_keeps pullDataLow_keeps

theorem isDataHigh_keeps : isDataHigh.Keeps State.beyondLines :=
  Eng.keeps_bind races_keeps fun _ => Eng.keeps_bind (Eng.keeps_get _) fun _ => Eng.keeps_pure _ _

theorem isClockHigh_keeps : isClockHigh.Keeps State.beyondLines :=
  Eng.keeps_bind races_keeps fun _ => Eng.keeps_bind (Eng.keeps_get _) fun _ => Eng.keeps_pure _ _

/-! ### What line-level operations do to the line outputs (R131) -/

/-- The three line outputs. -/
def State.outputs (s : State) : Bool × Bool × Bool := (s.sclLow, s.sdaLow, s.sdaOe)

@[simp] theorem State.observe_outputs (s t : State) : (s.observe t).outputs = t.outputs := by simp [State.outputs]

@[simp] theorem State.act_outputs (a : LineAct) (s : State) : (s.act a).outputs = s.outputs := by simp [State.outputs]

theorem races_outputs : races.Keeps State.outputs := fun s =>
  races_preserves (P := fun t => t.outputs = s.outputs) (fun _ _ h => by simpa using h) (fun _ _ h => h) s rfl

theorem waitHalfBitPeriod_outputs : waitHalfBitPeriod.Keeps State.outputs := fun s =>
  waitHalfBitPeriod_preserves (P := fun t => t.outputs = s.outputs) (fun _ _ h => by simpa using h)
    (fun _ _ h => h) s rfl

theorem waitUntil_outputs (c : State → Bool) : (waitUntil c).Keeps State.outputs := fun s =>
  waitUntil_preserves (P := fun t => t.outputs = s.outputs) (fun _ _ h => by simpa using h)
    (fun _ _ h => h) c s rfl

theorem isDataHigh_outputs : isDataHigh.Keeps State.outputs :=
  Eng.keeps_bind races_outputs fun _ => Eng.keeps_bind (Eng.keeps_get _) fun _ => Eng.keeps_pure _ _

/-- A line-driver call that answers has changed the outputs as told, from what they were. -/
theorem lineCall_ok {f : State → State} {s t : State} (h : (lineCall f).run s = .ok () t) :
    ∃ u, races.run s = .ok () u ∧ u.outputs = s.outputs ∧ u.beyondLines = s.beyondLines ∧ t = u.observe (f u) := by
  obtain ⟨_, u, hu, hm⟩ := Eng.bind_ok_iff.mp h
  refine ⟨u, hu, races_outputs.ok hu, races_keeps.ok hu, ?_⟩
  simpa using hm.symm

theorem pullClockLow_ok {s t : State} (h : pullClockLow.run s = .ok () t) :
    t.sclLow = true ∧ t.sdaLow = s.sdaLow ∧ t.sdaOe = s.sdaOe := by
  obtain ⟨u, -, hu, -, rfl⟩ := lineCall_ok h
  simp_all [State.outputs]

theorem releaseClockHigh_ok {s t : State} (h : releaseClockHigh.run s = .ok () t) :
    t.sclLow = false ∧ t.sdaLow = s.sdaLow ∧ t.sdaOe = s.sdaOe := by
  obtain ⟨u, -, hu, -, rfl⟩ := lineCall_ok h
  simp_all [State.outputs]

theorem pullDataLow_ok {s t : State} (h : pullDataLow.run s = .ok () t) :
    t.sclLow = s.sclLow ∧ t.sdaLow = true ∧ t.sdaOe = s.sdaOe := by
  obtain ⟨u, -, hu, -, rfl⟩ := lineCall_ok h
  simp_all [State.outputs]

theorem releaseDataHigh_ok {s t : State} (h : releaseDataHigh.run s = .ok () t) :
    t.sclLow = s.sclLow ∧ t.sdaLow = false ∧ t.sdaOe = s.sdaOe := by
  obtain ⟨u, -, hu, -, rfl⟩ := lineCall_ok h
  simp_all [State.outputs]

theorem putData_ok {out : Bool} {s t : State} (h : (putData out).run s = .ok () t) :
    t.sclLow = s.sclLow ∧ t.sdaLow = !out ∧ t.sdaOe = s.sdaOe := by
  cases out
  · exact pullDataLow_ok h
  · exact releaseDataHigh_ok h

theorem enableDataDriver_ok {s t : State} (h : enableDataDriver.run s = .ok () t) :
    t.sclLow = s.sclLow ∧ t.sdaLow = s.sdaLow ∧ t.sdaOe = true := by
  obtain ⟨u, -, hu, -, rfl⟩ := lineCall_ok h
  simp_all [State.outputs]

theorem disableDataDriver_ok {s t : State} (h : disableDataDriver.run s = .ok () t) :
    t.sclLow = s.sclLow ∧ t.sdaLow = s.sdaLow ∧ t.sdaOe = false := by
  obtain ⟨u, -, hu, -, rfl⟩ := lineCall_ok h
  simp_all [State.outputs]

/-! ### What happens when the outside world is calm -/

@[simp] theorem calm_pass (l : List Input) : calm (.pass :: l) = true := (rfl)

@[simp] theorem calm_env (a : LineAct) (l : List Input) : calm (.env a :: l) = true := (rfl)

@[simp] theorem calm_command (w : Word) (l : List Input) : calm (.command w :: l) = true := (rfl)

@[simp] theorem calm_nil : calm [] = true := (rfl)

theorem waitHalfBitPeriod_run (s : State) : waitHalfBitPeriod.run s = runHalfBit s.inputs s := rfl

theorem waitUntil_run (c : State → Bool) (s : State) : (waitUntil c).run s = runWait c s.inputs s := rfl

theorem races_calm {s : State} (h : calm s.inputs = true) : races.run s = .ok () s := by
  change runRaces s.inputs s = _
  rcases s with ⟨_, _, _, _, _, _, _, _, _, _, _, _, _, _, _, _, _, _, _, _, _ | ⟨_ | _ | _ | _ | _ | _, _⟩, _, _, _, _⟩ <;>
    first | rfl | cases h

/-- A line-driver call changes the outputs and the edge detector sees it, nothing more (R131, R182). -/
theorem lineCall_calm {f : State → State} {s : State} (h : calm s.inputs = true) :
    (lineCall f).run s = .ok () (s.observe (f s)) := by
  rw [lineCall, Eng.bind_of_ok (races_calm h)]; rfl

/-! While the clock line is low a change of the outputs is seen by nobody. -/

theorem pullClockLow_calm {s : State} (h : calm s.inputs = true) :
    pullClockLow.run s = .ok () { s with sclLow := true } := by
  rw [pullClockLow, lineCall_calm h, State.observe_to_low _ (by simp [State.scl])]

theorem releaseClockHigh_masked {s : State} (h : calm s.inputs = true) (hs : s.sclExt = false) :
    releaseClockHigh.run s = .ok () { s with sclLow := false } := by
  rw [releaseClockHigh, lineCall_calm h, State.observe_to_low _ (by simp [State.scl, hs])]

theorem pullDataLow_low {s : State} (h : calm s.inputs = true) (hs : s.scl = false) :
    pullDataLow.run s = .ok () { s with sdaLow := true } := by
  rw [pullDataLow, lineCall_calm h, State.observe_to_low _ (by exact hs)]

theorem releaseDataHigh_low {s : State} (h : calm s.inputs = true) (hs : s.scl = false) :
    releaseDataHigh.run s = .ok () { s with sdaLow := false } := by
  rw [releaseDataHigh, lineCall_calm h, State.observe_to_low _ (by exact hs)]

theorem enableDataDriver_low {s : State} (h : calm s.inputs = true) (hs : s.scl = false) :
    enableDataDriver.run s = .ok () { s with sdaOe := true } := by
  rw [enableDataDriver, lineCall_calm h, State.observe_to_low _ (by exact hs)]

theorem disableDataDriver_low {s : State} (h : calm s.inputs = true) (hs : s.scl = false) :
    disableDataDriver.run s = .ok () { s with sdaOe := false } := by
  rw [disableDataDriver, lineCall_calm h, State.observe_to_low _ (by exact hs)]

theorem isDataHigh_calm {s : State} (h : calm s.inputs = true) : isDataHigh.run s = .ok s.sda s := by
  rw [isDataHigh, Eng.bind_of_ok (races_calm h)]; rfl

/-- A wait whose condition holds answers at once (R130; log 4). -/
theorem waitUntil_calm {c : State → Bool} {s : State} (h : calm s.inputs = true) (hc : c s = true) :
    (waitUntil c).run s = .ok .ok s := by
  change runWait c s.inputs s = _
  rcases s with ⟨_, _, _, _, _, _, _, _, _, _, _, _, _, _, _, _, _, _, _, _, _ | ⟨_ | _ | _ | _ | _ | _, _⟩, _, _, _, _⟩ <;>
    first | (cases h; done) | simp [runWait, hc]

/-! ### Which inputs an operation uses, and why it halts -/

/-- A well-behaved computation of the sequencer: the inputs left are the tail of the inputs there were, it is abandoned only
by a reset input that was there, the parameters stay, and it hangs only when the line driver does not bound its waits. -/
structure Eng.Tame (m : Eng α) : Prop where
  suffix : ∀ s, (m.final s).inputs <:+ s.inputs
  params : ∀ s, (m.final s).params = s.params
  reset_only : ∀ s t, m.run s = .error .reset t → Input.reset ∈ s.inputs
  hang_only : ∀ s t, m.run s = .error .hang t → s.params.timeoutEnforced = false

theorem Eng.Tame.of_same {m : Eng α} (h : ∀ s, ∃ a t, m.run s = .ok a t ∧ t.inputs = s.inputs ∧ t.params = s.params) :
    m.Tame where
  suffix s := by obtain ⟨a, t, e, hi, -⟩ := h s; simp [Eng.final, e, hi]
  params s := by obtain ⟨a, t, e, -, hp⟩ := h s; simp [Eng.final, e, hp]
  reset_only s t e' := by obtain ⟨a, t, e, -, -⟩ := h s; simp [e] at e'
  hang_only s t e' := by obtain ⟨a, t, e, -, -⟩ := h s; simp [e] at e'

theorem Eng.tame_pure (a : α) : (pure a : Eng α).Tame := .of_same fun s => ⟨a, s, rfl, rfl, rfl⟩

theorem Eng.tame_get : (get : Eng State).Tame := .of_same fun s => ⟨s, s, rfl, rfl, rfl⟩

theorem Eng.tame_modify {f : State → State} (hi : ∀ s, (f s).inputs = s.inputs) (hp : ∀ s, (f s).params = s.params) :
    (modify f : Eng Unit).Tame := .of_same fun s => ⟨(), f s, rfl, hi s, hp s⟩

theorem Eng.tame_bind {m : Eng α} {k : α → Eng β} (hm : m.Tame) (hk : ∀ a, (k a).Tame) : (m >>= k).Tame := by
  have key : ∀ s, (∃ a t, m.run s = .ok a t ∧ (m >>= k).run s = (k a).run t ∧ t.inputs <:+ s.inputs ∧ t.params = s.params) ∨
      (∃ e t, m.run s = .error e t ∧ (m >>= k).run s = .error e t) := by
    intro s
    have h1 := hm.suffix s
    have h2 := hm.params s
    simp only [Eng.final] at h1 h2
    cases h : m.run s with
    | ok a t => rw [h] at h1 h2; exact .inl ⟨a, t, rfl, Eng.bind_of_ok h k, h1, h2⟩
    | error e t => exact .inr ⟨e, t, rfl, Eng.bind_of_error h k⟩
  refine ⟨fun s => ?_, fun s => ?_, fun s t h => ?_, fun s t h => ?_⟩
  · obtain ⟨a, t, -, e, hi, -⟩ | ⟨e', t, h', e⟩ := key s
    · rw [Eng.final, e]; exact ((hk a).suffix t).trans hi
    · rw [Eng.final, e]; simpa [Eng.final, h'] using hm.suffix s
  · obtain ⟨a, t, -, e, -, hp⟩ | ⟨e', t, h', e⟩ := key s
    · rw [Eng.final, e]; exact ((hk a).params t).trans hp
    · rw [Eng.final, e]; simpa [Eng.final, h'] using hm.params s
  · obtain ⟨a, u, -, e, hi, -⟩ | ⟨e', u, h', e⟩ := key s
    · rw [e] at h; exact hi.subset ((hk a).reset_only u t h)
    · rw [e] at h; cases h; exact hm.reset_only s t h'
  · obtain ⟨a, u, -, e, -, hp⟩ | ⟨e', u, h', e⟩ := key s
    · rw [e] at h; rw [← hp]; exact (hk a).hang_only u t h
    · rw [e] at h; cases h; exact hm.hang_only s t h'

theorem Eng.tame_ite {c : Prop} [Decidable c] {m n : Eng α} (hm : m.Tame) (hn : n.Tame) :
    (if c then m else n : Eng α).Tame := by
  split <;> assumption

theorem runRaces_inputs (is : List Input) (s : State) :
    (endState (runRaces is s)).inputs <:+ is ∧
    (∀ e t, runRaces is s = .error e t → e = .reset ∧ Input.reset ∈ is) := by
  induction is generalizing s with
  | nil => simp [runRaces]
  | cons i is ih =>
    cases i
    case race a =>
      simp only [runRaces]
      exact ⟨(ih _).1.trans (List.suffix_cons _ _), fun e t h => by simpa using (ih _).2 e t h⟩
    all_goals simp [runRaces]

theorem runHalfBit_inputs (is : List Input) (s : State) :
    (endState (runHalfBit is s)).inputs <:+ is ∧
    (∀ e t, runHalfBit is s = .error e t → e = .reset ∧ Input.reset ∈ is) := by
  induction is generalizing s with
  | nil => simp [runHalfBit]
  | cons i is ih =>
    cases i
    case race a =>
      simp only [runHalfBit]
      exact ⟨(ih _).1.trans (List.suffix_cons _ _), fun e t h => by simpa using (ih _).2 e t h⟩
    case env a =>
      simp only [runHalfBit]
      exact ⟨(ih _).1.trans (List.suffix_cons _ _), fun e t h => by simpa using (ih _).2 e t h⟩
    all_goals simp [runHalfBit]

/-- Everything a bounded wait can answer (R130): `ok` in a state in which the condition holds, at once or after an input has
been used; `expired` only when the bound is enforced; a hang only when it is not; or the reset input. -/
theorem runWait_spec {c : State → Bool} (hc : ∀ l s, c { s with inputs := l } = c s) (is : List Input) (s : State) :
    (endState (runWait c is s)).inputs <:+ is ∧
    (endState (runWait c is s)).params = s.params ∧
    match runWait c is s with
    | .ok .ok t => c t = true ∧ (t = { s with inputs := is } ∨ t.inputs.length < is.length)
    | .ok .expired _ => s.params.timeoutEnforced = true
    | .error .hang t => s.params.timeoutEnforced = false ∧ c t = false
    | .error .reset _ => Input.reset ∈ is := by
  have grow : ∀ {i : Input} {is : List Input} {s u : State}, u.params = s.params →
      ((endState (runWait c is u)).inputs <:+ is ∧ (endState (runWait c is u)).params = u.params ∧
        match runWait c is u with
        | .ok .ok t => c t = true ∧ (t = { u with inputs := is } ∨ t.inputs.length < is.length)
        | .ok .expired _ => u.params.timeoutEnforced = true
        | .error .hang t => u.params.timeoutEnforced = false ∧ c t = false
        | .error .reset _ => Input.reset ∈ is) →
      ((endState (runWait c is u)).inputs <:+ i :: is ∧ (endState (runWait c is u)).params = s.params ∧
        match runWait c is u with
        | .ok .ok t => c t = true ∧ (t = { s with inputs := i :: is } ∨ t.inputs.length < (i :: is).length)
        | .ok .expired _ => s.params.timeoutEnforced = true
        | .error .hang t => s.params.timeoutEnforced = false ∧ c t = false
        | .error .reset _ => Input.reset ∈ i :: is) := by
    intro i is s u hp ⟨h1, h2, h3⟩
    refine ⟨h1.trans (List.suffix_cons _ _), h2.trans hp, ?_⟩
    rcases h : runWait c is u with ⟨_ | _, t⟩ | ⟨_ | _, t⟩ <;> simp only [h] at h3 ⊢
    · refine ⟨h3.1, .inr ?_⟩
      rcases h3.2 with e | e
      · simp [e]
      · simp; omega
    · exact hp ▸ h3
    · exact hp ▸ h3
    · exact List.mem_cons_of_mem _ h3
  induction is generalizing s with
  | nil =>
    unfold runWait
    by_cases h : c s <;> by_cases h' : s.params.timeoutEnforced <;> simp [h, h', hc]
  | cons i is ih =>
    cases i <;> simp only [runWait]
    case command w => by_cases h : c s <;> by_cases h' : s.params.timeoutEnforced <;> simp [h, h', hc]
    case reset => by_cases h : c s <;> simp [h, hc]
    case env a =>
      by_cases h : c s
      · simp [h, hc]
      · rw [if_neg h]; exact grow (by simp) (ih _)
    case race a =>
      by_cases h : c s
      · simp [h, hc]
      · rw [if_neg h]; exact grow (by simp) (ih _)
    case pass =>
      by_cases h : c s
      · simp [h, hc]
      · rw [if_neg h]; exact grow rfl (ih _)
    case expire =>
      by_cases h : s.params.timeoutEnforced
      · simp [h]
      · rw [if_neg h]; exact grow rfl (ih _)

theorem races_tame : races.Tame where
  suffix s := (runRaces_inputs s.inputs s).1
  params s := races_keeps.comp State.params s
  reset_only s t h := ((runRaces_inputs s.inputs s).2 _ t h).2
  hang_only s t h := nomatch ((runRaces_inputs s.inputs s).2 _ t h).1

theorem waitHalfBitPeriod_tame : waitHalfBitPeriod.Tame where
  suffix s := (runHalfBit_inputs s.inputs s).1
  params s := waitHalfBitPeriod_keeps.comp State.params s
  reset_only s t h := ((runHalfBit_inputs s.inputs s).2 _ t h).2
  hang_only s t h := nomatch ((runHalfBit_inputs s.inputs s).2 _ t h).1

theorem waitUntil_tame {c : State → Bool} (hc : ∀ l s, c { s with inputs := l } = c s) : (waitUntil c).Tame where
  suffix s := (runWait_spec hc s.inputs s).1
  params s := (runWait_spec hc s.inputs s).2.1
  reset_only s t h := by
    have := (runWait_spec hc s.inputs s).2.2
    rw [show runWait c s.inputs s = .error .reset t from h] at this
    exact this
  hang_only s t h := by
    have := (runWait_spec hc s.inputs s).2.2
    rw [show runWait c s.inputs s = .error .hang t from h] at this
    exact this.1

/-- An answered wait that says `ok` (R130). -/
theorem waitUntil_ok {c : State → Bool} (hc : ∀ l s, c { s with inputs := l } = c s) {s t : State}
    (h : (waitUntil c).run s = .ok .ok t) : c t = true ∧ (t = s ∨ t.inputs.length < s.inputs.length) := by
  have := (runWait_spec hc s.inputs s).2.2
  rw [show runWait c s.inputs s = .ok .ok t from h] at this
  exact this

/-- An expired wait (R6, R130). -/
theorem waitUntil_expired {c : State → Bool} (hc : ∀ l s, c { s with inputs := l } = c s) {s t : State}
    (h : (waitUntil c).run s = .ok .expired t) : s.params.timeoutEnforced = true := by
  have := (runWait_spec hc s.inputs s).2.2
  rw [show runWait c s.inputs s = .ok .expired t from h] at this
  exact this

theorem lineCall_tame {f : State → State} (hi : ∀ s, (f s).inputs = s.inputs) (hp : ∀ s, (f s).params = s.params) :
    (lineCall f).Tame :=
  Eng.tame_bind races_tame fun _ => Eng.tame_modify (fun s => by simp [hi]) fun s => by simp [hp]

theorem pullClockLow_tame : pullClockLow.Tame := lineCall_tame (fun _ => rfl) fun _ => rfl
theorem releaseClockHigh_tame : releaseClockHigh.Tame := lineCall_tame (fun _ => rfl) fun _ => rfl
theorem pullDataLow_tame : pullDataLow.Tame := lineCall_tame (fun _ => rfl) fun _ => rfl
theorem releaseDataHigh_tame : releaseDataHigh.Tame := lineCall_tame (fun _ => rfl) fun _ => rfl
theorem enableDataDriver_tame : enableDataDriver.Tame := lineCall_tame (fun _ => rfl) fun _ => rfl
theorem disableDataDriver_tame : disableDataDriver.Tame := lineCall_tame (fun _ => rfl) fun _ => rfl

theorem putData_tame (out : Bool) : (putData out).Tame := Eng.tame_ite releaseDataHigh_tame pullDataLow_tame

theorem isDataHigh_tame : isDataHigh.Tame :=
  Eng.tame_bind races_tame fun _ => Eng.tame_bind Eng.tame_get fun _ => Eng.tame_pure _

theorem isClockHigh_tame : isClockHigh.Tame :=
  Eng.tame_bind races_tame fun _ => Eng.tame_bind Eng.tame_get fun _ => Eng.tame_pure _

theorem flag_tame (f : Flags) : (flag f).Tame := Eng.tame_modify (fun _ => rfl) fun _ => rfl
theorem unflag_tame (f : Flags) : (unflag f).Tame := Eng.tame_modify (fun _ => rfl) fun _ => rfl
theorem setStatus_tame (v : Flags) : (setStatus v).Tame := Eng.tame_modify (fun _ => rfl) fun _ => rfl
theorem setRole_tame (r : Role) : (setRole r).Tame := Eng.tame_modify (fun _ => rfl) fun _ => rfl
theorem setMState_tame (m : MState) : (setMState m).Tame := Eng.tame_modify (fun _ => rfl) fun _ => rfl
theorem setSState_tame (m : SState) : (setSState m).Tame := Eng.tame_modify (fun _ => rfl) fun _ => rfl
theorem setDir_tame (d : Dir) : (setDir d).Tame := Eng.tame_modify (fun _ => rfl) fun _ => rfl
theorem setBitcnt_tame (n : BitVec 4) : (setBitcnt n).Tame := Eng.tame_modify (fun _ => rfl) fun _ => rfl
theorem setSr_tame (v : Byte) : (setSr v).Tame := Eng.tame_modify (fun _ => rfl) fun _ => rfl
theorem consumeStart_tame : consumeStart.Tame := Eng.tame_modify (fun _ => rfl) fun _ => rfl
theorem shiftIn_tame (b : Bool) : (shiftIn b).Tame := Eng.tame_modify (fun _ => rfl) fun _ => rfl
theorem notAllowed_tame : notAllowed.Tame := flag_tame _
theorem anyByte_tame : anyByte.Tame := .of_same fun s => ⟨Config.freeByte s.draws, _, rfl, rfl, rfl⟩

theorem Eng.Tame.noReset {m : Eng α} (h : m.Tame) {s t : State} {a : α} (hs : m.run s = .ok a t) (hr : s.noReset) :
    t.noReset := fun hm => hr ((by simpa [Eng.final, hs] using h.suffix s : t.inputs <:+ s.inputs).subset hm)

theorem Eng.Tame.unraced {m : Eng α} (h : m.Tame) {s t : State} {a : α} (hs : m.run s = .ok a t) (hr : s.unraced) :
    t.unraced := fun a hm => hr a ((by simpa [Eng.final, hs] using h.suffix s : t.inputs <:+ s.inputs).subset hm)

/-! ### When the environment never races the engine (R321) -/

theorem races_unraced {s t : State} (h : s.unraced) (hs : races.run s = .ok () t) : t = s := by
  change runRaces s.inputs s = _ at hs
  rcases s with ⟨_, _, _, _, _, _, _, _, _, _, _, _, _, _, _, _, _, _, _, _, _ | ⟨_ | _ | _ | _ | _ | _, _⟩, _, _, _, _⟩
  all_goals first | exact absurd (List.mem_cons_self ..) (h _) | (cases hs; rfl) | cases hs

theorem lineCall_unraced {f : State → State} {s t : State} (h : s.unraced) (hs : (lineCall f).run s = .ok () t) :
    t = s.observe (f s) := by
  obtain ⟨_, u, hu, hm⟩ := Eng.bind_ok_iff.mp hs
  rw [races_unraced h hu] at hm
  simpa using hm.symm

/-! ### How a command ends -/

/-- Every way a command can end: it completes with a response, hangs, or is abandoned by the reset input (R260, R300, R318). -/
theorem complete_cases (m : Eng Answer) (s : State) :
    (∃ a t, m.run { s with response := none } = .ok a t ∧
      complete m s = .next (State.settle { t with response := some (responseWord a.r a.data t.status) })) ∨
    (∃ t, m.run { s with response := none } = .error .hang t ∧ complete m s = .next { t with hung := true }) ∨
    (∃ t, m.run { s with response := none } = .error .reset t ∧ complete m s = .next t.resetInput) := by
  unfold complete
  rcases m.run { s with response := none } with ⟨a, t⟩ | ⟨_ | _, t⟩
  · exact .inl ⟨a, t, rfl, rfl⟩
  · exact .inr (.inl ⟨t, rfl, rfl⟩)
  · exact .inr (.inr ⟨t, rfl, rfl⟩)

/-- A command whose body answers completes. -/
theorem complete_of_ok {m : Eng Answer} {s t : State} {a : Answer} (h : m.run { s with response := none } = .ok a t) :
    complete m s = .next (State.settle { t with response := some (responseWord a.r a.data t.status) }) := by
  simp [complete, h]

end Sys2Proof.Machine
end

