-- ==== Sys2Proof/Laws/Stop.lean ====
section
/-! SUPPORT. What the STOP sequencer and the master's failure clean-up can do (44_stop.md R210, 41_byte_transfer.md R138). -/

namespace Sys2Proof.Machine

/-- The state beyond the lines and `STATUS`. -/
def State.beyondStop (s : State) : State := { s.beyondLines with status := 0 }

theorem Eng.Keeps.stop {α : Type} {m : Eng α} (h : m.Keeps State.beyondLines) : m.Keeps State.beyondStop :=
  h.comp fun s => { s with status := 0 }

theorem flag_keeps_stop (f : Flags) : (flag f).Keeps State.beyondStop := Eng.keeps_modify fun _ => rfl

theorem scl_inputs (l : List Input) (s : State) : State.scl { s with inputs := l } = s.scl := rfl

theorem sda_inputs (l : List Input) (s : State) : State.sda { s with inputs := l } = s.sda := rfl

/-- The STOP sequencer writes the lines and `STATUS`, and nothing else (R210: "writes neither ROLE nor MSTATE"). -/
theorem mStop_keeps : mStop.Keeps State.beyondStop := by
  unfold mStop
  repeat' first
    | exact pullClockLow_keeps.stop
    | exact enableDataDriver_keeps.stop
    | exact pullDataLow_keeps.stop
    | exact waitHalfBitPeriod_keeps.stop
    | exact releaseClockHigh_keeps.stop
    | exact releaseDataHigh_keeps.stop
    | exact disableDataDriver_keeps.stop
    | exact (waitUntil_keeps _).stop
    | exact flag_keeps_stop _
    | exact Eng.keeps_pure _ _
    | apply Eng.keeps_bind
    | apply Eng.keeps_ite
    | intro _

theorem mStop_tame : mStop.Tame := by
  unfold mStop
  repeat' first
    | exact pullClockLow_tame
    | exact enableDataDriver_tame
    | exact pullDataLow_tame
    | exact waitHalfBitPeriod_tame
    | exact releaseClockHigh_tame
    | exact releaseDataHigh_tame
    | exact disableDataDriver_tame
    | exact waitUntil_tame scl_inputs
    | exact waitUntil_tame fun _ _ => rfl
    | exact flag_tame _
    | exact Eng.tame_pure _
    | apply Eng.tame_bind
    | apply Eng.tame_ite
    | intro _

/-- On every path the STOP sequencer has let go of both lines (R210), and the status it leaves is the one it found, or that
with `TimedOut` or `LineBlocked` added. -/
theorem mStop_ok {s t : State} (h : mStop.run s = .ok () t) :
    t.released ∧ (t.status = s.status ∨ t.status = setFlags s.status Flag.timedOut ∨
      t.status = setFlags s.status Flag.lineBlocked) := by
  unfold mStop at h
  simp only [Eng.bind_ok_iff] at h
  obtain ⟨_, s1, h1, _, s2, h2, _, s3, h3, _, s4, h4, _, s5, h5, r, s6, h6, h⟩ := h
  have o5 := releaseClockHigh_ok h5
  have o6 := (waitUntil_outputs _).ok h6
  have e6 : s6.status = s.status := (congrArg State.status <| (waitUntil_keeps _).ok h6 |>.trans <|
    (releaseClockHigh_keeps.ok h5).trans <| (waitHalfBitPeriod_keeps.ok h4).trans <| (pullDataLow_keeps.ok h3).trans <|
    (enableDataDriver_keeps.ok h2).trans <| pullClockLow_keeps.ok h1 :)
  simp only [State.outputs, Prod.mk.injEq] at o6
  split at h
  · simp only [Eng.bind_ok_iff] at h
    obtain ⟨_, s7, h7, _, s8, h8, h9⟩ := h
    have o8 := releaseDataHigh_ok h8
    have o9 := disableDataDriver_ok h9
    have e7 : s7 = { s6 with status := setFlags s6.status Flag.timedOut } := by cases h7; rfl
    have e9 : t.status = s7.status :=
      (congrArg State.status <| (disableDataDriver_keeps.ok h9).trans <| releaseDataHigh_keeps.ok h8 :)
    refine ⟨?_, .inr (.inl ?_)⟩
    · subst e7; simp_all [State.released]
    · rw [e9, e7, e6]
  · simp only [Eng.bind_ok_iff] at h
    obtain ⟨_, s7, h7, _, s8, h8, _, s9, h9, _, s10, h10, r', s11, h11, h⟩ := h
    have o7 := waitHalfBitPeriod_outputs.ok h7
    have o8 := releaseDataHigh_ok h8
    have o9 := disableDataDriver_ok h9
    have o10 := waitHalfBitPeriod_outputs.ok h10
    have o11 := (waitUntil_outputs _).ok h11
    have e11 : s11.status = s6.status := (congrArg State.status <| (waitUntil_keeps _).ok h11 |>.trans <|
      (waitHalfBitPeriod_keeps.ok h10).trans <| (disableDataDriver_keeps.ok h9).trans <|
      (releaseDataHigh_keeps.ok h8).trans <| waitHalfBitPeriod_keeps.ok h7 :)
    simp only [State.outputs, Prod.mk.injEq] at o7 o10 o11
    split at h
    · have e : t = { s11 with status := setFlags s11.status Flag.lineBlocked } := by cases h; rfl
      refine ⟨?_, .inr (.inr ?_)⟩
      · subst e; simp_all [State.released]
      · rw [e, e11, e6]
    · have e : t = s11 := by cases h; rfl
      refine ⟨?_, .inl ?_⟩
      · subst e; simp_all [State.released]
      · rw [e, e11, e6]

/-- After `m_abort` both lines are released and the outcome is `BusError` (R138). -/
theorem mAbort_ok {s t : State} (h : mAbort.run s = .ok () t) :
    t.released ∧ t.role = .idle ∧ t.mstate = .busError ∧
      { t with role := s.role, mstate := s.mstate }.beyondLines = s.beyondLines := by
  unfold mAbort at h
  simp only [Eng.bind_ok_iff] at h
  obtain ⟨_, s1, h1, _, s2, h2, _, s3, h3, _, s4, h4, h5⟩ := h
  have e : t = { s3 with role := .idle, mstate := .busError } := by cases h4; cases h5; rfl
  have o1 := releaseDataHigh_ok h1
  have o2 := disableDataDriver_ok h2
  have o3 := releaseClockHigh_ok h3
  have k : s3.beyondLines = s.beyondLines :=
    (releaseClockHigh_keeps.ok h3).trans <| (disableDataDriver_keeps.ok h2).trans <| releaseDataHigh_keeps.ok h1
  have kr : s3.role = s.role := (congrArg State.role k :)
  have km : s3.mstate = s.mstate := (congrArg State.mstate k :)
  refine ⟨?_, by rw [e], by rw [e], ?_⟩
  · subst e; simp_all [State.released]
  · rw [e, ← kr, ← km]; exact k

theorem mAbort_tame : mAbort.Tame := by
  unfold mAbort
  repeat' first
    | exact releaseDataHigh_tame
    | exact disableDataDriver_tame
    | exact releaseClockHigh_tame
    | exact setRole_tame _
    | exact setMState_tame _
    | apply Eng.tame_bind
    | intro _

theorem mForceStop_tame : mForceStop.Tame := by
  unfold mForceStop
  repeat' first
    | exact mStop_tame
    | exact setRole_tame _
    | exact setMState_tame _
    | apply Eng.tame_bind
    | intro _

/-- After a forced STOP both lines are released and the outcome is `BusError`; the status is the one found, or that with
`TimedOut` or `LineBlocked` added (R138, R276). -/
theorem mForceStop_ok {s t : State} (h : mForceStop.run s = .ok () t) :
    t.released ∧ t.role = .idle ∧ t.mstate = .busError ∧
      (t.status = s.status ∨ t.status = setFlags s.status Flag.timedOut ∨
        t.status = setFlags s.status Flag.lineBlocked) ∧
      { t with role := s.role, mstate := s.mstate }.beyondStop = s.beyondStop := by
  unfold mForceStop at h
  simp only [Eng.bind_ok_iff] at h
  obtain ⟨_, s1, h1, _, s2, h2, h3⟩ := h
  have e : t = { s1 with role := .idle, mstate := .busError } := by cases h2; cases h3; rfl
  obtain ⟨hr, hs⟩ := mStop_ok h1
  have k := mStop_keeps.ok h1
  have kr : s1.role = s.role := (congrArg State.role k :)
  have km : s1.mstate = s.mstate := (congrArg State.mstate k :)
  refine ⟨?_, by rw [e], by rw [e], by rw [e]; exact hs, ?_⟩
  · subst e; exact hr
  · rw [e, ← kr, ← km]; exact k

end Sys2Proof.Machine
end

