-- ==== Sys2Proof/Laws/ByteTransfer.lean ====
section
/-! SUPPORT. What the byte procedures can do, whatever the environment does: the lines and counters they leave for each result
(41_byte_transfer.md R132 to R137, R145), that they write nothing beyond `SR`, `BITCNT` and the lines (R146), and which
inputs they use. -/

namespace Sys2Proof.Machine

variable {α : Type}

theorem Eng.Keeps.byte {m : Eng α} (h : m.Keeps State.beyondLines) : m.Keeps State.beyondByte :=
  h.comp fun s => { s with sr := 0, bitcnt := 0 }

theorem shiftIn_keeps (b : Bool) : (shiftIn b).Keeps State.beyondByte := Eng.keeps_modify fun _ => rfl
theorem setSr_keeps (v : Byte) : (setSr v).Keeps State.beyondByte := Eng.keeps_modify fun _ => rfl
theorem setBitcnt_keeps (n : BitVec 4) : (setBitcnt n).Keeps State.beyondByte := Eng.keeps_modify fun _ => rfl

/-! ### One pulse as master (R132) -/

theorem mClockBit_keeps (out arb : Bool) : (mClockBit out arb).Keeps State.beyondLines := by
  unfold mClockBit
  repeat' first
    | exact pullClockLow_keeps
    | exact releaseClockHigh_keeps
    | exact putData_keeps _
    | exact waitHalfBitPeriod_keeps
    | exact waitUntil_keeps _
    | exact isDataHigh_keeps
    | exact Eng.keeps_get _
    | exact Eng.keeps_pure _ _
    | apply Eng.keeps_bind
    | apply Eng.keeps_ite
    | intro _

theorem mClockBit_tame (out arb : Bool) : (mClockBit out arb).Tame := by
  unfold mClockBit
  repeat' first
    | exact pullClockLow_tame
    | exact releaseClockHigh_tame
    | exact putData_tame _
    | exact waitHalfBitPeriod_tame
    | exact waitUntil_tame scl_inputs
    | exact isDataHigh_tame
    | exact Eng.tame_get
    | exact Eng.tame_pure _
    | apply Eng.tame_bind
    | apply Eng.tame_ite
    | intro _

/-- The lines after a pulse (R132): the clock is low again exactly after `Bit`; `Lost` is answered only where contention is
checked for. -/
theorem mClockBit_ok {out arb : Bool} {s t : State} {r : MPulse} (h : (mClockBit out arb).run s = .ok r t) :
    t.sdaOe = s.sdaOe ∧ t.sdaLow = !out ∧ (t.sclLow = true ↔ ∃ b, r = .bit b) ∧
      (r = .lost → arb = true ∧ out = true) := by
  unfold mClockBit at h
  obtain ⟨_, s1, h1, h⟩ := Eng.bind_ok_iff.mp h
  obtain ⟨_, s2, h2, h⟩ := Eng.bind_ok_iff.mp h
  obtain ⟨_, s3, h3, h⟩ := Eng.bind_ok_iff.mp h
  obtain ⟨r4, s4, h4, h⟩ := Eng.bind_ok_iff.mp h
  have o1 := putData_ok h1
  have o2 := waitHalfBitPeriod_outputs.ok h2
  have o3 := releaseClockHigh_ok h3
  have o4 := (waitUntil_outputs _).ok h4
  simp only [State.outputs, Prod.mk.injEq] at o2 o4
  have e4 : s4.sclLow = false ∧ s4.sdaLow = !out ∧ s4.sdaOe = s.sdaOe :=
    ⟨by rw [o4.1, o3.1], by rw [o4.2.1, o3.2.1, o2.2.1, o1.2.1], by rw [o4.2.2, o3.2.2, o2.2.2, o1.2.2]⟩
  clear o1 o2 o3 o4 h1 h2 h3 h4
  split at h
  · obtain ⟨rfl, rfl⟩ := Eng.pure_ok_iff.mp h
    simp [e4]
  · obtain ⟨b, s5, h5, h⟩ := Eng.bind_ok_iff.mp h
    have o5 := isDataHigh_outputs.ok h5
    simp only [State.outputs, Prod.mk.injEq] at o5
    have e5 : s5.sclLow = false ∧ s5.sdaLow = !out ∧ s5.sdaOe = s.sdaOe :=
      ⟨by rw [o5.1, e4.1], by rw [o5.2.1, e4.2.1], by rw [o5.2.2, e4.2.2]⟩
    clear o5 e4 h5
    obtain ⟨_, s6, h6, h⟩ := Eng.bind_ok_iff.mp h
    obtain ⟨rfl, rfl⟩ := Eng.get_ok_iff.mp h6
    split at h
    · obtain ⟨rfl, rfl⟩ := Eng.pure_ok_iff.mp h
      simp [e5]
    · split at h
      · rename_i hl
        obtain ⟨rfl, rfl⟩ := Eng.pure_ok_iff.mp h
        simp only [Bool.and_eq_true] at hl
        simp [e5, hl.1]
      · obtain ⟨_, s7, h7, h⟩ := Eng.bind_ok_iff.mp h
        have o7 := waitHalfBitPeriod_outputs.ok h7
        simp only [State.outputs, Prod.mk.injEq] at o7
        obtain ⟨_, s8, h8, h⟩ := Eng.bind_ok_iff.mp h
        obtain ⟨rfl, rfl⟩ := Eng.get_ok_iff.mp h8
        split at h
        · obtain ⟨rfl, rfl⟩ := Eng.pure_ok_iff.mp h
          simp [o7, e5]
        · obtain ⟨_, s9, h9, h⟩ := Eng.bind_ok_iff.mp h
          have o9 := pullClockLow_ok h9
          obtain ⟨rfl, rfl⟩ := Eng.pure_ok_iff.mp h
          simp [o9, o7, e5]

/-- A pulse that ends in `Bit` has seen neither START nor STOP (R132 step 9), and on an unraced bus none follows. -/
theorem mClockBit_quiet {out arb b : Bool} {s t : State} (hu : s.unraced)
    (h : (mClockBit out arb).run s = .ok (.bit b) t) : t.startSeen = false ∧ t.busBusy = true := by
  unfold mClockBit at h
  obtain ⟨_, s1, h1, h⟩ := Eng.bind_ok_iff.mp h
  obtain ⟨_, s2, h2, h⟩ := Eng.bind_ok_iff.mp h
  obtain ⟨_, s3, h3, h⟩ := Eng.bind_ok_iff.mp h
  obtain ⟨r4, s4, h4, h⟩ := Eng.bind_ok_iff.mp h
  have u4 := (waitUntil_tame scl_inputs).unraced h4 <| releaseClockHigh_tame.unraced h3 <|
    waitHalfBitPeriod_tame.unraced h2 <| (putData_tame _).unraced h1 hu
  clear h1 h2 h3 h4
  split at h
  · simp at h
  · obtain ⟨b', s5, h5, h⟩ := Eng.bind_ok_iff.mp h
    have u5 := isDataHigh_tame.unraced h5 u4
    clear h5
    obtain ⟨_, s6, h6, h⟩ := Eng.bind_ok_iff.mp h
    obtain ⟨rfl, rfl⟩ := Eng.get_ok_iff.mp h6
    split at h
    · simp at h
    · split at h
      · simp at h
      · obtain ⟨_, s7, h7, h⟩ := Eng.bind_ok_iff.mp h
        have u7 := waitHalfBitPeriod_tame.unraced h7 u5
        clear h7
        obtain ⟨_, s8, h8, h⟩ := Eng.bind_ok_iff.mp h
        obtain ⟨rfl, rfl⟩ := Eng.get_ok_iff.mp h8
        split at h
        · simp at h
        · rename_i hq
          obtain ⟨_, s9, h9, h⟩ := Eng.bind_ok_iff.mp h
          obtain ⟨-, rfl⟩ := Eng.pure_ok_iff.mp h
          have e := lineCall_unraced u7 h9
          rw [State.observe_to_low _ (by simp [State.scl])] at e
          subst e
          simpa using hq

/-! ### A byte sent as master (R133) -/

theorem mSendBits_keeps (arb : Bool) (n : Nat) : (mSendBits arb n).Keeps State.beyondByte := by
  induction n with
  | zero => exact Eng.keeps_pure _ _
  | succ n ih =>
    refine Eng.keeps_bind (Eng.keeps_get _) fun s => Eng.keeps_bind (mClockBit_keeps _ _).byte fun r => ?_
    cases r with
    | bit b => exact Eng.keeps_bind (shiftIn_keeps _) fun _ => ih
    | lost =>
      exact Eng.keeps_bind (shiftIn_keeps _) fun _ => Eng.keeps_bind releaseDataHigh_keeps.byte fun _ =>
        Eng.keeps_bind disableDataDriver_keeps.byte fun _ => Eng.keeps_pure _ _
    | expired => exact Eng.keeps_pure _ _
    | illegal => exact Eng.keeps_pure _ _

theorem mSendBits_tame (arb : Bool) (n : Nat) : (mSendBits arb n).Tame := by
  induction n with
  | zero => exact Eng.tame_pure _
  | succ n ih =>
    refine Eng.tame_bind Eng.tame_get fun s => Eng.tame_bind (mClockBit_tame _ _) fun r => ?_
    cases r with
    | bit b => exact Eng.tame_bind (shiftIn_tame _) fun _ => ih
    | lost =>
      exact Eng.tame_bind (shiftIn_tame _) fun _ => Eng.tame_bind releaseDataHigh_tame fun _ =>
        Eng.tame_bind disableDataDriver_tame fun _ => Eng.tame_pure _
    | expired => exact Eng.tame_pure _
    | illegal => exact Eng.tame_pure _

theorem mSendByte_keeps (v : Byte) (arb : Bool) : (mSendByte v arb).Keeps State.beyondByte := by
  refine Eng.keeps_bind (setSr_keeps _) fun _ => Eng.keeps_bind (setBitcnt_keeps _) fun _ =>
    Eng.keeps_bind enableDataDriver_keeps.byte fun _ => Eng.keeps_bind (mSendBits_keeps _ _) fun r => ?_
  cases r with
  | some f => exact Eng.keeps_pure _ _
  | none =>
    refine Eng.keeps_bind releaseDataHigh_keeps.byte fun _ => Eng.keeps_bind disableDataDriver_keeps.byte fun _ =>
      Eng.keeps_bind (mClockBit_keeps _ _).byte fun r => ?_
    rcases r with ⟨_ | _⟩ | _ | _ | _ <;> exact Eng.keeps_pure _ _

theorem mSendByte_tame (v : Byte) (arb : Bool) : (mSendByte v arb).Tame := by
  refine Eng.tame_bind (setSr_tame _) fun _ => Eng.tame_bind (setBitcnt_tame _) fun _ =>
    Eng.tame_bind enableDataDriver_tame fun _ => Eng.tame_bind (mSendBits_tame _ _) fun r => ?_
  cases r with
  | some f => exact Eng.tame_pure _
  | none =>
    refine Eng.tame_bind releaseDataHigh_tame fun _ => Eng.tame_bind disableDataDriver_tame fun _ =>
      Eng.tame_bind (mClockBit_tame _ _) fun r => ?_
    rcases r with ⟨_ | _⟩ | _ | _ | _ <;> exact Eng.tame_pure _

theorem mClockBit_bitcnt {out arb : Bool} {s t : State} {r : MPulse} (h : (mClockBit out arb).run s = .ok r t) :
    t.bitcnt = s.bitcnt := (congrArg State.bitcnt ((mClockBit_keeps _ _).ok h) :)

/-- The loop of a sent byte (R133): after all bits the driver is still on; a lost bit has been counted and all lines let go;
after another failure the clock has been let go. -/
theorem mSendBits_ok {arb : Bool} {n : Nat} {s t : State} {r : Option MSend} (hb : s.bitcnt.toNat + n ≤ 8) :
    (mSendBits arb n).run s = .ok r t →
    match r with
    | none => t.bitcnt.toNat = s.bitcnt.toNat + n ∧ t.sdaOe = s.sdaOe
    | some .lost => t.released ∧ arb = true ∧ s.bitcnt.toNat < t.bitcnt.toNat ∧ t.bitcnt.toNat ≤ s.bitcnt.toNat + n
    | some .expired => t.sclLow = false ∧ t.bitcnt.toNat ≤ s.bitcnt.toNat + n
    | some .illegal => t.sclLow = false ∧ t.bitcnt.toNat ≤ s.bitcnt.toNat + n
    | some _ => False := by
  intro h
  induction n generalizing s with
  | zero =>
    obtain ⟨rfl, rfl⟩ := Eng.pure_ok_iff.mp h
    simp
  | succ n ih =>
    rw [mSendBits] at h
    obtain ⟨_, _, hg, h⟩ := Eng.bind_ok_iff.mp h
    obtain ⟨rfl, rfl⟩ := Eng.get_ok_iff.mp hg
    obtain ⟨p, s1, h1, h⟩ := Eng.bind_ok_iff.mp h
    have o1 := mClockBit_ok h1
    have c1 := mClockBit_bitcnt h1
    have c1' : (s1.bitcnt + 1).toNat = s.bitcnt.toNat + 1 := by
      rw [c1, BitVec.toNat_add]; simp; omega
    clear h1
    cases p with
    | bit b =>
      obtain ⟨_, s2, h2, h⟩ := Eng.bind_ok_iff.mp h
      have e2 := Eng.modify_ok_iff.mp h2
      have hc : s2.bitcnt.toNat = s.bitcnt.toNat + 1 := by rw [← e2]; exact c1'
      have ho : s2.sdaOe = s.sdaOe := by rw [← e2]; exact o1.1
      have := ih (by omega) h
      rcases r with _ | (_ | _ | _ | _ | _) <;> simp only at this ⊢
      · exact ⟨by omega, this.2.trans ho⟩
      · exact ⟨this.1, this.2.1, by omega, by omega⟩
      · exact ⟨this.1, by omega⟩
      · exact ⟨this.1, by omega⟩
    | lost =>
      obtain ⟨_, s2, h2, h⟩ := Eng.bind_ok_iff.mp h
      have e2 := Eng.modify_ok_iff.mp h2
      obtain ⟨_, s3, h3, h⟩ := Eng.bind_ok_iff.mp h
      obtain ⟨_, s4, h4, h⟩ := Eng.bind_ok_iff.mp h
      obtain ⟨rfl, rfl⟩ := Eng.pure_ok_iff.mp h
      have o3 := releaseDataHigh_ok h3
      have o4 := disableDataDriver_ok h4
      have k : s4.bitcnt = s2.bitcnt :=
        (congrArg State.bitcnt ((disableDataDriver_keeps.ok h4).trans (releaseDataHigh_keeps.ok h3)) :)
      have hc : s4.bitcnt.toNat = s.bitcnt.toNat + 1 := by rw [k, ← e2]; exact c1'
      have hl : s2.sclLow = false := by rw [← e2]; simpa using o1.2.2.1
      refine ⟨⟨?_, ?_, o4.2.2⟩, (o1.2.2.2 rfl).1, by omega, by omega⟩
      · rw [o4.1, o3.1, hl]
      · rw [o4.2.1, o3.2.1]
    | expired =>
      obtain ⟨rfl, rfl⟩ := Eng.pure_ok_iff.mp h
      exact ⟨by simpa using o1.2.2.1, by rw [c1]; omega⟩
    | illegal =>
      obtain ⟨rfl, rfl⟩ := Eng.pure_ok_iff.mp h
      exact ⟨by simpa using o1.2.2.1, by rw [c1]; omega⟩

/-- The exit conditions of `m_send_byte` (R133). -/
theorem mSendByte_ok {v : Byte} {arb : Bool} {s t : State} {r : MSend} :
    (mSendByte v arb).run s = .ok r t →
    match r with
    | .acked => t.clockHeld ∧ t.bitcnt = 8
    | .nacked => t.clockHeld ∧ t.bitcnt = 8
    | .lost => t.released ∧ arb = true ∧ 1 ≤ t.bitcnt.toNat ∧ t.bitcnt.toNat ≤ 8
    | .expired => t.sclLow = false ∧ t.bitcnt.toNat ≤ 8
    | .illegal => t.sclLow = false ∧ t.bitcnt.toNat ≤ 8 := by
  intro h
  rw [mSendByte] at h
  obtain ⟨_, s1, h1, h⟩ := Eng.bind_ok_iff.mp h
  obtain ⟨_, s2, h2, h⟩ := Eng.bind_ok_iff.mp h
  obtain ⟨_, s3, h3, h⟩ := Eng.bind_ok_iff.mp h
  obtain ⟨p, s4, h4, h⟩ := Eng.bind_ok_iff.mp h
  have e2 := Eng.modify_ok_iff.mp h2
  have k3 : s3.bitcnt = s2.bitcnt := (congrArg State.bitcnt (enableDataDriver_keeps.ok h3) :)
  have c3 : s3.bitcnt.toNat = 0 := by rw [k3, ← e2]; rfl
  have o4 := mSendBits_ok (by omega) h4
  clear h1 h2 h3 h4
  cases p with
  | some f =>
    obtain ⟨rfl, rfl⟩ := Eng.pure_ok_iff.mp h
    cases f <;> simp only [c3] at o4 ⊢
    · exact ⟨o4.1, o4.2.1, by omega, by omega⟩
    · exact ⟨o4.1, by omega⟩
    · exact ⟨o4.1, by omega⟩
  | none =>
    obtain ⟨_, s5, h5, h⟩ := Eng.bind_ok_iff.mp h
    obtain ⟨_, s6, h6, h⟩ := Eng.bind_ok_iff.mp h
    obtain ⟨q, s7, h7, h⟩ := Eng.bind_ok_iff.mp h
    have o6 := disableDataDriver_ok h6
    have o7 := mClockBit_ok h7
    have c7 : s7.bitcnt = s4.bitcnt := (congrArg State.bitcnt (((mClockBit_keeps _ _).ok h7).trans <|
      (disableDataDriver_keeps.ok h6).trans (releaseDataHigh_keeps.ok h5)) :)
    have c : s7.bitcnt = 8 := by
      apply BitVec.eq_of_toNat_eq; rw [c7, o4.1, c3]; rfl
    have ho : s7.sdaOe = false := by rw [o7.1]; exact o6.2.2
    have hl : s7.sdaLow = false := by rw [o7.2.1]; rfl
    clear h5 h6 h7
    rcases q with ⟨_ | _⟩ | _ | _ | _
    · obtain ⟨rfl, rfl⟩ := Eng.pure_ok_iff.mp h
      exact ⟨⟨by simpa using o7.2.2.1, hl, ho⟩, c⟩
    · obtain ⟨rfl, rfl⟩ := Eng.pure_ok_iff.mp h
      exact ⟨⟨by simpa using o7.2.2.1, hl, ho⟩, c⟩
    · simp at o7
    · obtain ⟨rfl, rfl⟩ := Eng.pure_ok_iff.mp h
      exact ⟨by simpa using o7.2.2.1, by rw [c]; decide⟩
    · obtain ⟨rfl, rfl⟩ := Eng.pure_ok_iff.mp h
      exact ⟨by simpa using o7.2.2.1, by rw [c]; decide⟩

/-- A byte sent to its end leaves no START or STOP behind on an unraced bus (R132 step 9). -/
theorem mSendByte_quiet {v : Byte} {arb : Bool} {s t : State} {r : MSend} (hu : s.unraced)
    (h : (mSendByte v arb).run s = .ok r t) (hr : r = .acked ∨ r = .nacked) :
    t.startSeen = false ∧ t.busBusy = true := by
  rw [mSendByte] at h
  obtain ⟨_, s1, h1, h⟩ := Eng.bind_ok_iff.mp h
  obtain ⟨_, s2, h2, h⟩ := Eng.bind_ok_iff.mp h
  obtain ⟨_, s3, h3, h⟩ := Eng.bind_ok_iff.mp h
  obtain ⟨p, s4, h4, h⟩ := Eng.bind_ok_iff.mp h
  have u4 := (mSendBits_tame _ _).unraced h4 <| enableDataDriver_tame.unraced h3 <| (setBitcnt_tame _).unraced h2 <|
    (setSr_tame _).unraced h1 hu
  have c3 : s3.bitcnt.toNat = 0 := by
    rw [show s3.bitcnt = s2.bitcnt from (congrArg State.bitcnt (enableDataDriver_keeps.ok h3) :),
      ← Eng.modify_ok_iff.mp h2]; rfl
  have o4 := mSendBits_ok (by omega) h4
  cases p with
  | some f =>
    obtain ⟨rfl, rfl⟩ := Eng.pure_ok_iff.mp h
    rcases hr with rfl | rfl <;> exact o4.elim
  | none =>
    obtain ⟨_, s5, h5, h⟩ := Eng.bind_ok_iff.mp h
    obtain ⟨_, s6, h6, h⟩ := Eng.bind_ok_iff.mp h
    obtain ⟨q, s7, h7, h⟩ := Eng.bind_ok_iff.mp h
    have u6 := disableDataDriver_tame.unraced h6 <| releaseDataHigh_tame.unraced h5 u4
    rcases q with ⟨_ | _⟩ | _ | _ | _
    · obtain ⟨rfl, rfl⟩ := Eng.pure_ok_iff.mp h
      exact mClockBit_quiet u6 h7
    · obtain ⟨rfl, rfl⟩ := Eng.pure_ok_iff.mp h
      exact mClockBit_quiet u6 h7
    all_goals
      obtain ⟨rfl, rfl⟩ := Eng.pure_ok_iff.mp h
      simp at hr

/-! ### A byte received as master (R134) -/

theorem mRecvBits_keeps (n : Nat) : (mRecvBits n).Keeps State.beyondByte := by
  induction n with
  | zero => exact Eng.keeps_pure _ _
  | succ n ih =>
    refine Eng.keeps_bind (mClockBit_keeps _ _).byte fun r => ?_
    cases r with
    | bit b => exact Eng.keeps_bind (shiftIn_keeps _) fun _ => ih
    | lost => exact Eng.keeps_pure _ _
    | expired => exact Eng.keeps_pure _ _
    | illegal => exact Eng.keeps_pure _ _

theorem mRecvBits_tame (n : Nat) : (mRecvBits n).Tame := by
  induction n with
  | zero => exact Eng.tame_pure _
  | succ n ih =>
    refine Eng.tame_bind (mClockBit_tame _ _) fun r => ?_
    cases r with
    | bit b => exact Eng.tame_bind (shiftIn_tame _) fun _ => ih
    | lost => exact Eng.tame_pure _
    | expired => exact Eng.tame_pure _
    | illegal => exact Eng.tame_pure _

theorem mRecvByte_keeps (ack : Bool) : (mRecvByte ack).Keeps State.beyondByte := by
  refine Eng.keeps_bind releaseDataHigh_keeps.byte fun _ => Eng.keeps_bind disableDataDriver_keeps.byte fun _ =>
    Eng.keeps_bind (setBitcnt_keeps _) fun _ => Eng.keeps_bind (mRecvBits_keeps _) fun r => ?_
  cases r with
  | done =>
    exact Eng.keeps_ite
      (Eng.keeps_bind enableDataDriver_keeps.byte fun _ => Eng.keeps_bind (mClockBit_keeps _ _).byte fun _ =>
        Eng.keeps_bind releaseDataHigh_keeps.byte fun _ => Eng.keeps_bind disableDataDriver_keeps.byte fun _ =>
        Eng.keeps_pure _ _)
      (Eng.keeps_bind (mClockBit_keeps _ _).byte fun _ => Eng.keeps_pure _ _)
  | expired => exact Eng.keeps_pure _ _
  | illegal => exact Eng.keeps_pure _ _

theorem mRecvByte_tame (ack : Bool) : (mRecvByte ack).Tame := by
  refine Eng.tame_bind releaseDataHigh_tame fun _ => Eng.tame_bind disableDataDriver_tame fun _ =>
    Eng.tame_bind (setBitcnt_tame _) fun _ => Eng.tame_bind (mRecvBits_tame _) fun r => ?_
  cases r with
  | done =>
    exact Eng.tame_ite
      (Eng.tame_bind enableDataDriver_tame fun _ => Eng.tame_bind (mClockBit_tame _ _) fun _ =>
        Eng.tame_bind releaseDataHigh_tame fun _ => Eng.tame_bind disableDataDriver_tame fun _ => Eng.tame_pure _)
      (Eng.tame_bind (mClockBit_tame _ _) fun _ => Eng.tame_pure _)
  | expired => exact Eng.tame_pure _
  | illegal => exact Eng.tame_pure _

theorem mRecvBits_ok {n : Nat} {s t : State} {r : MRecv} (hb : s.bitcnt.toNat + n ≤ 8) :
    (mRecvBits n).run s = .ok r t →
    t.sdaOe = s.sdaOe ∧
    match r with
    | .done => t.bitcnt.toNat = s.bitcnt.toNat + n
    | .expired => t.sclLow = false ∧ t.bitcnt.toNat ≤ s.bitcnt.toNat + n
    | .illegal => t.sclLow = false ∧ t.bitcnt.toNat ≤ s.bitcnt.toNat + n := by
  intro h
  induction n generalizing s with
  | zero =>
    obtain ⟨rfl, rfl⟩ := Eng.pure_ok_iff.mp h
    simp
  | succ n ih =>
    rw [mRecvBits] at h
    obtain ⟨p, s1, h1, h⟩ := Eng.bind_ok_iff.mp h
    have o1 := mClockBit_ok h1
    have c1 := mClockBit_bitcnt h1
    clear h1
    cases p with
    | bit b =>
      obtain ⟨_, s2, h2, h⟩ := Eng.bind_ok_iff.mp h
      have e2 := Eng.modify_ok_iff.mp h2
      have hc : s2.bitcnt.toNat = s.bitcnt.toNat + 1 := by
        rw [← e2]
        show (s1.bitcnt + 1).toNat = _
        rw [c1, BitVec.toNat_add]; simp; omega
      have ho : s2.sdaOe = s.sdaOe := by rw [← e2]; exact o1.1
      have := ih (by omega) h
      refine ⟨this.1.trans ho, ?_⟩
      have := this.2
      cases r <;> simp only at this ⊢
      · omega
      · exact ⟨this.1, by omega⟩
      · exact ⟨this.1, by omega⟩
    | lost =>
      obtain ⟨rfl, rfl⟩ := Eng.pure_ok_iff.mp h
      exact ⟨o1.1, by simpa using o1.2.2.1, by rw [c1]; omega⟩
    | expired =>
      obtain ⟨rfl, rfl⟩ := Eng.pure_ok_iff.mp h
      exact ⟨o1.1, by simpa using o1.2.2.1, by rw [c1]; omega⟩
    | illegal =>
      obtain ⟨rfl, rfl⟩ := Eng.pure_ok_iff.mp h
      exact ⟨o1.1, by simpa using o1.2.2.1, by rw [c1]; omega⟩

/-- The exit conditions of `m_recv_byte` (R134). -/
theorem mRecvByte_ok {ack : Bool} {s t : State} {r : MRecv} :
    (mRecvByte ack).run s = .ok r t →
    match r with
    | .done => t.clockHeld ∧ t.bitcnt = 8 ∧ (s.unraced → t.startSeen = false ∧ t.busBusy = true)
    | .expired => t.sclLow = false ∧ t.bitcnt.toNat ≤ 8
    | .illegal => t.sclLow = false ∧ t.bitcnt.toNat ≤ 8 := by
  intro h
  rw [mRecvByte] at h
  obtain ⟨_, s1, h1, h⟩ := Eng.bind_ok_iff.mp h
  obtain ⟨_, s2, h2, h⟩ := Eng.bind_ok_iff.mp h
  obtain ⟨_, s3, h3, h⟩ := Eng.bind_ok_iff.mp h
  obtain ⟨p, s4, h4, h⟩ := Eng.bind_ok_iff.mp h
  have e3 := Eng.modify_ok_iff.mp h3
  have c3 : s3.bitcnt.toNat = 0 := by rw [← e3]; rfl
  have d3 : s3.sdaOe = false := by rw [← e3]; exact (disableDataDriver_ok h2).2.2
  have u4 : s.unraced → s4.unraced := fun hu => (mRecvBits_tame _).unraced h4 <| (setBitcnt_tame _).unraced h3 <|
    disableDataDriver_tame.unraced h2 <| releaseDataHigh_tame.unraced h1 hu
  have o4 := mRecvBits_ok (by omega) h4
  clear h1 h2 h3 h4
  cases p with
  | done =>
    simp only at h
    split at h
    · obtain ⟨_, s5, h5, h⟩ := Eng.bind_ok_iff.mp h
      obtain ⟨q, s6, h6, h⟩ := Eng.bind_ok_iff.mp h
      obtain ⟨_, s7, h7, h⟩ := Eng.bind_ok_iff.mp h
      obtain ⟨_, s8, h8, h⟩ := Eng.bind_ok_iff.mp h
      obtain ⟨rfl, rfl⟩ := Eng.pure_ok_iff.mp h
      have o6 := mClockBit_ok h6
      have o7 := releaseDataHigh_ok h7
      have o8 := disableDataDriver_ok h8
      have c8 : s8.bitcnt = s4.bitcnt := (congrArg State.bitcnt <| (disableDataDriver_keeps.ok h8).trans <|
        (releaseDataHigh_keeps.ok h7).trans <| ((mClockBit_keeps _ _).ok h6).trans (enableDataDriver_keeps.ok h5) :)
      have c : s8.bitcnt = 8 := by apply BitVec.eq_of_toNat_eq; rw [c8, o4.2, c3]; rfl
      have hl : s8.sclLow = s6.sclLow := o8.1.trans o7.1
      cases q with
      | bit b =>
        refine ⟨⟨hl.trans (by simpa using o6.2.2.1), o8.2.1.trans o7.2.1, o8.2.2⟩, c, fun hu => ?_⟩
        have u5 := enableDataDriver_tame.unraced h5 (u4 hu)
        have u6 := (mClockBit_tame _ _).unraced h6 u5
        have u7 := releaseDataHigh_tame.unraced h7 u6
        have q6 := mClockBit_quiet u5 h6
        have l6 : s6.scl = false := State.scl_of_sclLow (by simpa using o6.2.2.1)
        have e7 := lineCall_unraced u6 h7
        rw [State.observe_to_low _ (by exact l6)] at e7
        have e8 := lineCall_unraced u7 h8
        rw [State.observe_to_low _ (by rw [e7]; exact l6), e7] at e8
        rw [e8]; exact q6
      | lost => exact absurd (o6.2.2.2 rfl).1 (by simp)
      | expired => exact ⟨hl.trans (by simpa using o6.2.2.1), by rw [c]; decide⟩
      | illegal => exact ⟨hl.trans (by simpa using o6.2.2.1), by rw [c]; decide⟩
    · obtain ⟨q, s6, h6, h⟩ := Eng.bind_ok_iff.mp h
      obtain ⟨rfl, rfl⟩ := Eng.pure_ok_iff.mp h
      have o6 := mClockBit_ok h6
      have c6 := mClockBit_bitcnt h6
      have c : s6.bitcnt = 8 := by apply BitVec.eq_of_toNat_eq; rw [c6, o4.2, c3]; rfl
      cases q with
      | bit b =>
        exact ⟨⟨by simpa using o6.2.2.1, by simpa using o6.2.1, by rw [o6.1, o4.1, d3]⟩, c,
          fun hu => mClockBit_quiet (u4 hu) h6⟩
      | lost => exact absurd (o6.2.2.2 rfl).1 (by simp)
      | expired => exact ⟨by simpa using o6.2.2.1, by rw [c]; decide⟩
      | illegal => exact ⟨by simpa using o6.2.2.1, by rw [c]; decide⟩
  | expired =>
    obtain ⟨rfl, rfl⟩ := Eng.pure_ok_iff.mp h
    exact ⟨o4.2.1, by omega⟩
  | illegal =>
    obtain ⟨rfl, rfl⟩ := Eng.pure_ok_iff.mp h
    exact ⟨o4.2.1, by omega⟩

/-! ### Following another master's clock (R135, R136) -/

theorem sWaitBit_keeps : sWaitBit.Keeps State.beyondLines := by
  unfold sWaitBit
  repeat' first
    | exact waitUntil_keeps _
    | exact isDataHigh_keeps
    | exact Eng.keeps_get _
    | exact Eng.keeps_pure _ _
    | apply Eng.keeps_bind
    | apply Eng.keeps_ite
    | intro _

theorem sWaitBit_outputs : sWaitBit.Keeps State.outputs := by
  unfold sWaitBit
  repeat' first
    | exact waitUntil_outputs _
    | exact isDataHigh_outputs
    | exact Eng.keeps_get _
    | exact Eng.keeps_pure _ _
    | apply Eng.keeps_bind
    | apply Eng.keeps_ite
    | intro _

theorem sWaitBit_tame : sWaitBit.Tame := by
  unfold sWaitBit
  repeat' first
    | exact waitUntil_tame scl_inputs
    | exact waitUntil_tame fun _ _ => rfl
    | exact isDataHigh_tame
    | exact Eng.tame_get
    | exact Eng.tame_pure _
    | apply Eng.tame_bind
    | apply Eng.tame_ite
    | intro _

theorem races_inputs {s t : State} (h : races.run s = .ok () t) : t.inputs.length ≤ s.inputs.length := by
  have := (races_tame.suffix s).length_le
  simpa [Eng.final, h] using this

theorem Eng.Tame.length {m : Eng α} (h : m.Tame) {s t : State} {a : α} (hs : m.run s = .ok a t) :
    t.inputs.length ≤ s.inputs.length := by
  have := (h.suffix s).length_le
  simpa [Eng.final, hs] using this

/-- A START or STOP inside a pulse has used an input (log 16). -/
theorem sWaitBit_progress {s t : State} {r : SPulse} (h : sWaitBit.run s = .ok r t) (hr : r = .start ∨ r = .stop) :
    t.inputs.length < s.inputs.length := by
  rw [sWaitBit] at h
  obtain ⟨r1, s1, h1, h⟩ := Eng.bind_ok_iff.mp h
  have l1 := (waitUntil_tame scl_inputs).length h1
  split at h
  · obtain ⟨rfl, rfl⟩ := Eng.pure_ok_iff.mp h
    simp at hr
  · obtain ⟨b, s2, h2, h⟩ := Eng.bind_ok_iff.mp h
    have l2 := isDataHigh_tame.length h2
    have e2 : b = s2.sda := by
      obtain ⟨_, u, -, hu⟩ := Eng.bind_ok_iff.mp h2
      obtain ⟨_, u', hg, hu⟩ := Eng.bind_ok_iff.mp hu
      obtain ⟨rfl, rfl⟩ := Eng.get_ok_iff.mp hg
      obtain ⟨rfl, rfl⟩ := Eng.pure_ok_iff.mp hu
      rfl
    obtain ⟨r3, s3, h3, h⟩ := Eng.bind_ok_iff.mp h
    split at h
    · obtain ⟨rfl, rfl⟩ := Eng.pure_ok_iff.mp h
      simp at hr
    · rename_i hx
      have hx' : r3 = .ok := by cases r3 <;> simp_all
      subst hx'
      have o3 := waitUntil_ok (fun _ _ => rfl) h3
      obtain ⟨_, _, hg, h⟩ := Eng.bind_ok_iff.mp h
      obtain ⟨rfl, rfl⟩ := Eng.get_ok_iff.mp hg
      split at h
      · rename_i hc
        have ht : t = s3 := by split at h <;> exact (Eng.pure_ok_iff.mp h).2.symm
        rcases o3.2 with e | e
        · have := o3.1
          rw [e2, ← e, hc] at this
          simp at this
        · rw [ht]; omega
      · obtain ⟨rfl, rfl⟩ := Eng.pure_ok_iff.mp h
        simp at hr

theorem sPutBit_keeps (out : Bool) : (sPutBit out).Keeps State.beyondLines :=
  Eng.keeps_bind (putData_keeps _) fun _ => Eng.keeps_bind releaseClockHigh_keeps fun _ => sWaitBit_keeps

theorem sPutBit_tame (out : Bool) : (sPutBit out).Tame :=
  Eng.tame_bind (putData_tame _) fun _ => Eng.tame_bind releaseClockHigh_tame fun _ => sWaitBit_tame

/-- The lines after a followed pulse (R136). -/
theorem sPutBit_ok {out : Bool} {s t : State} {r : SPulse} (h : (sPutBit out).run s = .ok r t) :
    t.sclLow = false ∧ t.sdaLow = !out ∧ t.sdaOe = s.sdaOe := by
  obtain ⟨_, s1, h1, h⟩ := Eng.bind_ok_iff.mp h
  obtain ⟨_, s2, h2, h⟩ := Eng.bind_ok_iff.mp h
  have o1 := putData_ok h1
  have o2 := releaseClockHigh_ok h2
  have o3 := sWaitBit_outputs.ok h
  simp only [State.outputs, Prod.mk.injEq] at o3
  exact ⟨o3.1.trans o2.1, o3.2.1.trans (o2.2.1.trans o1.2.1), o3.2.2.trans (o2.2.2.trans o1.2.2)⟩

theorem sPutBit_bitcnt {out : Bool} {s t : State} {r : SPulse} (h : (sPutBit out).run s = .ok r t) :
    t.bitcnt = s.bitcnt := (congrArg State.bitcnt ((sPutBit_keeps _).ok h) :)

theorem sPutBit_progress {out : Bool} {s t : State} {r : SPulse} (h : (sPutBit out).run s = .ok r t)
    (hr : r = .start ∨ r = .stop) : t.inputs.length < s.inputs.length := by
  obtain ⟨_, s1, h1, h⟩ := Eng.bind_ok_iff.mp h
  obtain ⟨_, s2, h2, h⟩ := Eng.bind_ok_iff.mp h
  have := (putData_tame _).length h1
  have := releaseClockHigh_tame.length h2
  have := sWaitBit_progress h hr
  omega

/-! ### A byte received as slave (R137) -/

theorem sRecvBits_keeps (n : Nat) : (sRecvBits n).Keeps State.beyondByte := by
  induction n with
  | zero => exact Eng.keeps_pure _ _
  | succ n ih =>
    refine Eng.keeps_bind (sPutBit_keeps _).byte fun r => ?_
    cases r with
    | bit b => exact Eng.keeps_bind (shiftIn_keeps _) fun _ => ih
    | stop => exact Eng.keeps_pure _ _
    | start => exact Eng.keeps_pure _ _
    | expired => exact Eng.keeps_pure _ _

theorem sRecvBits_tame (n : Nat) : (sRecvBits n).Tame := by
  induction n with
  | zero => exact Eng.tame_pure _
  | succ n ih =>
    refine Eng.tame_bind (sPutBit_tame _) fun r => ?_
    cases r with
    | bit b => exact Eng.tame_bind (shiftIn_tame _) fun _ => ih
    | stop => exact Eng.tame_pure _
    | start => exact Eng.tame_pure _
    | expired => exact Eng.tame_pure _

theorem sRecvBits_progress {n : Nat} {s t : State} (h : (sRecvBits n).run s = .ok .start t) :
    t.inputs.length < s.inputs.length := by
  induction n generalizing s with
  | zero => simp [sRecvBits] at h
  | succ n ih =>
    rw [sRecvBits] at h
    obtain ⟨p, s1, h1, h⟩ := Eng.bind_ok_iff.mp h
    cases p with
    | bit b =>
      obtain ⟨_, s2, h2, h⟩ := Eng.bind_ok_iff.mp h
      have l1 := (sPutBit_tame _).length h1
      have l2 := ih h
      rw [← Eng.modify_ok_iff.mp h2] at l2
      exact lt_of_lt_of_le l2 l1
    | start =>
      obtain ⟨-, rfl⟩ := Eng.pure_ok_iff.mp h
      exact sPutBit_progress h1 (.inl rfl)
    | stop => simp [SPulse.ofRecv] at h
    | expired => simp [SPulse.ofRecv] at h

theorem sRecvBits_ok {n : Nat} {s t : State} {r : SRecv} (hb : s.bitcnt.toNat + n ≤ 8) :
    (sRecvBits n).run s = .ok r t →
    t.sdaOe = s.sdaOe ∧ (s.sdaLow = false → t.sdaLow = false) ∧ t.bitcnt.toNat ≤ s.bitcnt.toNat + n ∧
    (r = .done → t.bitcnt.toNat = s.bitcnt.toNat + n) := by
  intro h
  induction n generalizing s with
  | zero =>
    obtain ⟨rfl, rfl⟩ := Eng.pure_ok_iff.mp h
    simp
  | succ n ih =>
    rw [sRecvBits] at h
    obtain ⟨p, s1, h1, h⟩ := Eng.bind_ok_iff.mp h
    have o1 := sPutBit_ok h1
    have c1 := sPutBit_bitcnt h1
    clear h1
    cases p with
    | bit b =>
      obtain ⟨_, s2, h2, h⟩ := Eng.bind_ok_iff.mp h
      have e2 := Eng.modify_ok_iff.mp h2
      have hc : s2.bitcnt.toNat = s.bitcnt.toNat + 1 := by
        rw [← e2]
        show (s1.bitcnt + 1).toNat = _
        rw [c1, BitVec.toNat_add]; simp; omega
      have ho : s2.sdaOe = s.sdaOe := by rw [← e2]; exact o1.2.2
      have hl : s2.sdaLow = false := by rw [← e2]; exact o1.2.1
      obtain ⟨i1, i2, i3, i4⟩ := ih (by omega) h
      exact ⟨i1.trans ho, fun _ => i2 hl, by omega, fun hr => by rw [i4 hr]; omega⟩
    | stop =>
      obtain ⟨rfl, rfl⟩ := Eng.pure_ok_iff.mp h
      exact ⟨o1.2.2, fun _ => o1.2.1, by rw [c1]; omega, by simp [SPulse.ofRecv]⟩
    | start =>
      obtain ⟨rfl, rfl⟩ := Eng.pure_ok_iff.mp h
      exact ⟨o1.2.2, fun _ => o1.2.1, by rw [c1]; omega, by simp [SPulse.ofRecv]⟩
    | expired =>
      obtain ⟨rfl, rfl⟩ := Eng.pure_ok_iff.mp h
      exact ⟨o1.2.2, fun _ => o1.2.1, by rw [c1]; omega, by simp [SPulse.ofRecv]⟩

theorem sRecvByte_keeps (ack : Bool) : (sRecvByte ack).Keeps State.beyondByte := by
  refine Eng.keeps_bind releaseDataHigh_keeps.byte fun _ => Eng.keeps_bind disableDataDriver_keeps.byte fun _ =>
    Eng.keeps_bind (setBitcnt_keeps _) fun _ => Eng.keeps_bind (sRecvBits_keeps _) fun r => ?_
  cases r with
  | done =>
    exact Eng.keeps_ite
      (Eng.keeps_bind enableDataDriver_keeps.byte fun _ => Eng.keeps_bind (sPutBit_keeps _).byte fun _ =>
        Eng.keeps_bind releaseDataHigh_keeps.byte fun _ => Eng.keeps_bind disableDataDriver_keeps.byte fun _ =>
        Eng.keeps_pure _ _)
      (Eng.keeps_bind (sPutBit_keeps _).byte fun _ => Eng.keeps_pure _ _)
  | stop => exact Eng.keeps_pure _ _
  | start => exact Eng.keeps_pure _ _
  | expired => exact Eng.keeps_pure _ _

theorem sRecvByte_tame (ack : Bool) : (sRecvByte ack).Tame := by
  refine Eng.tame_bind releaseDataHigh_tame fun _ => Eng.tame_bind disableDataDriver_tame fun _ =>
    Eng.tame_bind (setBitcnt_tame _) fun _ => Eng.tame_bind (sRecvBits_tame _) fun r => ?_
  cases r with
  | done =>
    exact Eng.tame_ite
      (Eng.tame_bind enableDataDriver_tame fun _ => Eng.tame_bind (sPutBit_tame _) fun _ =>
        Eng.tame_bind releaseDataHigh_tame fun _ => Eng.tame_bind disableDataDriver_tame fun _ => Eng.tame_pure _)
      (Eng.tame_bind (sPutBit_tame _) fun _ => Eng.tame_pure _)
  | stop => exact Eng.tame_pure _
  | start => exact Eng.tame_pure _
  | expired => exact Eng.tame_pure _

/-- The exit conditions of `s_recv_byte` (R137). -/
theorem sRecvByte_ok {ack : Bool} {s t : State} {r : SRecv} :
    (sRecvByte ack).run s = .ok r t →
    t.bitcnt.toNat ≤ 8 ∧ (r = .done → t.released ∧ t.bitcnt = 8) := by
  intro h
  rw [sRecvByte] at h
  obtain ⟨_, s1, h1, h⟩ := Eng.bind_ok_iff.mp h
  obtain ⟨_, s2, h2, h⟩ := Eng.bind_ok_iff.mp h
  obtain ⟨_, s3, h3, h⟩ := Eng.bind_ok_iff.mp h
  obtain ⟨p, s4, h4, h⟩ := Eng.bind_ok_iff.mp h
  have e3 := Eng.modify_ok_iff.mp h3
  have c3 : s3.bitcnt.toNat = 0 := by rw [← e3]; rfl
  have d3 : s3.sdaOe = false := by rw [← e3]; exact (disableDataDriver_ok h2).2.2
  obtain ⟨i1, i2, i3, i4⟩ := sRecvBits_ok (by omega) h4
  clear h1 h2 h3 h4
  cases p with
  | done =>
    have c4 : s4.bitcnt = 8 := by apply BitVec.eq_of_toNat_eq; rw [i4 rfl, c3]; rfl
    simp only at h
    split at h
    · obtain ⟨_, s5, h5, h⟩ := Eng.bind_ok_iff.mp h
      obtain ⟨q, s6, h6, h⟩ := Eng.bind_ok_iff.mp h
      obtain ⟨_, s7, h7, h⟩ := Eng.bind_ok_iff.mp h
      obtain ⟨_, s8, h8, h⟩ := Eng.bind_ok_iff.mp h
      obtain ⟨rfl, rfl⟩ := Eng.pure_ok_iff.mp h
      have o6 := sPutBit_ok h6
      have o7 := releaseDataHigh_ok h7
      have o8 := disableDataDriver_ok h8
      have c8 : s8.bitcnt = s4.bitcnt := (congrArg State.bitcnt <| (disableDataDriver_keeps.ok h8).trans <|
        (releaseDataHigh_keeps.ok h7).trans <| ((sPutBit_keeps _).ok h6).trans (enableDataDriver_keeps.ok h5) :)
      refine ⟨by rw [c8, c4]; decide, fun _ => ⟨⟨?_, ?_, o8.2.2⟩, c8.trans c4⟩⟩
      · rw [o8.1, o7.1, o6.1]
      · rw [o8.2.1, o7.2.1]
    · obtain ⟨q, s6, h6, h⟩ := Eng.bind_ok_iff.mp h
      obtain ⟨rfl, rfl⟩ := Eng.pure_ok_iff.mp h
      have o6 := sPutBit_ok h6
      have c6 := sPutBit_bitcnt h6
      exact ⟨by rw [c6, c4]; decide, fun _ => ⟨⟨o6.1, o6.2.1, by rw [o6.2.2, i1, d3]⟩, c6.trans c4⟩⟩
  | stop => obtain ⟨rfl, rfl⟩ := Eng.pure_ok_iff.mp h; exact ⟨by omega, by simp⟩
  | start => obtain ⟨rfl, rfl⟩ := Eng.pure_ok_iff.mp h; exact ⟨by omega, by simp⟩
  | expired => obtain ⟨rfl, rfl⟩ := Eng.pure_ok_iff.mp h; exact ⟨by omega, by simp⟩

/-! ### A byte sent as slave (R145) -/

theorem sSendBits_keeps (n : Nat) (c : Bool) : (sSendBits n c).Keeps State.beyondByte := by
  induction n generalizing c with
  | zero => exact Eng.keeps_pure _ _
  | succ n ih =>
    refine Eng.keeps_bind (Eng.keeps_get _) fun s => Eng.keeps_bind (sPutBit_keeps _).byte fun r => ?_
    cases r with
    | bit b => exact Eng.keeps_bind (Eng.keeps_get _) fun _ => Eng.keeps_bind (shiftIn_keeps _) fun _ => ih _
    | stop | start | expired =>
      exact Eng.keeps_bind releaseDataHigh_keeps.byte fun _ => Eng.keeps_bind disableDataDriver_keeps.byte fun _ =>
        Eng.keeps_pure _ _

theorem sSendBits_tame (n : Nat) (c : Bool) : (sSendBits n c).Tame := by
  induction n generalizing c with
  | zero => exact Eng.tame_pure _
  | succ n ih =>
    refine Eng.tame_bind Eng.tame_get fun s => Eng.tame_bind (sPutBit_tame _) fun r => ?_
    cases r with
    | bit b => exact Eng.tame_bind Eng.tame_get fun _ => Eng.tame_bind (shiftIn_tame _) fun _ => ih _
    | stop | start | expired =>
      exact Eng.tame_bind releaseDataHigh_tame fun _ => Eng.tame_bind disableDataDriver_tame fun _ => Eng.tame_pure _

theorem sSendBits_bitcnt {n : Nat} {c : Bool} {s t : State} {r : Option SSend × Bool} (hb : s.bitcnt.toNat + n ≤ 8) :
    (sSendBits n c).run s = .ok r t →
    t.bitcnt.toNat ≤ s.bitcnt.toNat + n ∧ (r.1 = none → t.bitcnt.toNat = s.bitcnt.toNat + n) := by
  intro h
  induction n generalizing s c with
  | zero =>
    obtain ⟨rfl, rfl⟩ := Eng.pure_ok_iff.mp h
    simp
  | succ n ih =>
    rw [sSendBits] at h
    obtain ⟨_, _, hg, h⟩ := Eng.bind_ok_iff.mp h
    obtain ⟨rfl, rfl⟩ := Eng.get_ok_iff.mp hg
    obtain ⟨p, s1, h1, h⟩ := Eng.bind_ok_iff.mp h
    have c1 := sPutBit_bitcnt h1
    clear h1
    cases p with
    | bit b =>
      obtain ⟨_, _, hg, h⟩ := Eng.bind_ok_iff.mp h
      obtain ⟨rfl, rfl⟩ := Eng.get_ok_iff.mp hg
      obtain ⟨_, s2, h2, h⟩ := Eng.bind_ok_iff.mp h
      have e2 := Eng.modify_ok_iff.mp h2
      have hc : s2.bitcnt.toNat = s.bitcnt.toNat + 1 := by
        rw [← e2]
        show (s1.bitcnt + 1).toNat = _
        rw [c1, BitVec.toNat_add]; simp; omega
      obtain ⟨i1, i2⟩ := ih (by omega) h
      exact ⟨by omega, fun hr => by rw [i2 hr]; omega⟩
    | stop | start | expired =>
      obtain ⟨_, s2, h2, h⟩ := Eng.bind_ok_iff.mp h
      obtain ⟨_, s3, h3, h⟩ := Eng.bind_ok_iff.mp h
      obtain ⟨rfl, rfl⟩ := Eng.pure_ok_iff.mp h
      have k : s3.bitcnt = s1.bitcnt :=
        (congrArg State.bitcnt ((disableDataDriver_keeps.ok h3).trans (releaseDataHigh_keeps.ok h2)) :)
      exact ⟨by rw [k, c1]; omega, by simp⟩

theorem sSendByte_keeps (v : Byte) : (sSendByte v).Keeps State.beyondByte := by
  refine Eng.keeps_bind (setSr_keeps _) fun _ => Eng.keeps_bind (setBitcnt_keeps _) fun _ =>
    Eng.keeps_bind enableDataDriver_keeps.byte fun _ => Eng.keeps_bind (sSendBits_keeps _ _) fun r => ?_
  obtain ⟨_ | f, c⟩ := r
  · exact Eng.keeps_bind releaseDataHigh_keeps.byte fun _ => Eng.keeps_bind disableDataDriver_keeps.byte fun _ =>
      Eng.keeps_bind (sPutBit_keeps _).byte fun _ => Eng.keeps_pure _ _
  · exact Eng.keeps_pure _ _

theorem sSendByte_tame (v : Byte) : (sSendByte v).Tame := by
  refine Eng.tame_bind (setSr_tame _) fun _ => Eng.tame_bind (setBitcnt_tame _) fun _ =>
    Eng.tame_bind enableDataDriver_tame fun _ => Eng.tame_bind (sSendBits_tame _ _) fun r => ?_
  obtain ⟨_ | f, c⟩ := r
  · exact Eng.tame_bind releaseDataHigh_tame fun _ => Eng.tame_bind disableDataDriver_tame fun _ =>
      Eng.tame_bind (sPutBit_tame _) fun _ => Eng.tame_pure _
  · exact Eng.tame_pure _

/-- How `s_send_byte` fails while bits are sent: not with an acknowledge (R145). -/
theorem sSendBits_failure {n : Nat} {c c' : Bool} {s t : State} {f : SSend} :
    (sSendBits n c).run s = .ok (some f, c') t → f = .stop ∨ f = .start ∨ f = .expired := by
  intro h
  induction n generalizing s c with
  | zero => cases Eng.pure_ok_iff.mp h |>.1
  | succ n ih =>
    rw [sSendBits] at h
    obtain ⟨_, _, hg, h⟩ := Eng.bind_ok_iff.mp h
    obtain ⟨p, s1, h1, h⟩ := Eng.bind_ok_iff.mp h
    cases p with
    | bit b =>
      obtain ⟨_, _, hg, h⟩ := Eng.bind_ok_iff.mp h
      obtain ⟨_, s2, h2, h⟩ := Eng.bind_ok_iff.mp h
      exact ih h
    | stop | start | expired =>
      obtain ⟨_, s2, h2, h⟩ := Eng.bind_ok_iff.mp h
      obtain ⟨_, s3, h3, h⟩ := Eng.bind_ok_iff.mp h
      have := (Eng.pure_ok_iff.mp h).1
      simp only [Prod.mk.injEq, Option.some.injEq] at this
      rw [← this.1]
      simp [SPulse.ofSend]

/-- The exit conditions of `s_send_byte` (R145): when the master has answered, all lines are let go. -/
theorem sSendByte_ok {v : Byte} {s t : State} {r : SSend × Bool} :
    (sSendByte v).run s = .ok r t →
    t.bitcnt.toNat ≤ 8 ∧ (r.1 = .acked ∨ r.1 = .nacked → t.released ∧ t.bitcnt = 8) := by
  intro h
  rw [sSendByte] at h
  obtain ⟨_, s1, h1, h⟩ := Eng.bind_ok_iff.mp h
  obtain ⟨_, s2, h2, h⟩ := Eng.bind_ok_iff.mp h
  obtain ⟨_, s3, h3, h⟩ := Eng.bind_ok_iff.mp h
  obtain ⟨⟨p, c⟩, s4, h4, h⟩ := Eng.bind_ok_iff.mp h
  have e2 := Eng.modify_ok_iff.mp h2
  have k3 : s3.bitcnt = s2.bitcnt := (congrArg State.bitcnt (enableDataDriver_keeps.ok h3) :)
  have c3 : s3.bitcnt.toNat = 0 := by rw [k3, ← e2]; rfl
  obtain ⟨i1, i2⟩ := sSendBits_bitcnt (by omega) h4
  cases p with
  | some f =>
    obtain ⟨rfl, rfl⟩ := Eng.pure_ok_iff.mp h
    refine ⟨by omega, fun hf => ?_⟩
    rcases sSendBits_failure h4 with rfl | rfl | rfl <;> simp at hf
  | none =>
    obtain ⟨_, s5, h5, h⟩ := Eng.bind_ok_iff.mp h
    obtain ⟨_, s6, h6, h⟩ := Eng.bind_ok_iff.mp h
    obtain ⟨q, s7, h7, h⟩ := Eng.bind_ok_iff.mp h
    obtain ⟨rfl, rfl⟩ := Eng.pure_ok_iff.mp h
    have o6 := disableDataDriver_ok h6
    have o7 := sPutBit_ok h7
    have c7 : s7.bitcnt = s4.bitcnt := (congrArg State.bitcnt <| ((sPutBit_keeps _).ok h7).trans <|
      (disableDataDriver_keeps.ok h6).trans (releaseDataHigh_keeps.ok h5) :)
    have c8 : s7.bitcnt = 8 := by apply BitVec.eq_of_toNat_eq; rw [c7, i2 rfl, c3]; rfl
    exact ⟨by rw [c8]; decide, fun _ => ⟨⟨o7.1, o7.2.1, by rw [o7.2.2, o6.2.2]⟩, c8⟩⟩

end Sys2Proof.Machine
end

