-- ==== Sys2Proof/Laws/MasterAddressing.lean ====
section
/-! SUPPORT. What START, repeated START and the master's commands can do, whatever the environment does
(42_master_addressing.md R160, R161, R163; 41_byte_transfer.md R139, R140; 44_stop.md R211). -/

namespace Sys2Proof.Machine

theorem consumeStart_keeps : consumeStart.Keeps State.beyondLines := Eng.keeps_modify fun _ => rfl

theorem consumeStart_outputs : consumeStart.Keeps State.outputs := Eng.keeps_modify fun _ => rfl

theorem lines_high_inputs (l : List Input) (s : State) :
    (fun s : State => s.scl && s.sda) { s with inputs := l } = (fun s : State => s.scl && s.sda) s := rfl

theorem startSeen_inputs (l : List Input) (s : State) : State.startSeen { s with inputs := l } = s.startSeen := rfl

theorem mStart_keeps : mStart.Keeps State.beyondLines := by
  unfold mStart
  repeat' first
    | exact releaseClockHigh_keeps
    | exact releaseDataHigh_keeps
    | exact enableDataDriver_keeps
    | exact pullDataLow_keeps
    | exact pullClockLow_keeps
    | exact waitHalfBitPeriod_keeps
    | exact waitUntil_keeps _
    | exact consumeStart_keeps
    | exact Eng.keeps_pure _ _
    | apply Eng.keeps_bind
    | apply Eng.keeps_ite
    | intro _

theorem mStart_tame : mStart.Tame := by
  unfold mStart
  repeat' first
    | exact releaseClockHigh_tame
    | exact releaseDataHigh_tame
    | exact enableDataDriver_tame
    | exact pullDataLow_tame
    | exact pullClockLow_tame
    | exact waitHalfBitPeriod_tame
    | exact waitUntil_tame lines_high_inputs
    | exact waitUntil_tame startSeen_inputs
    | exact consumeStart_tame
    | exact Eng.tame_pure _
    | apply Eng.tame_bind
    | apply Eng.tame_ite
    | intro _

/-- After a START the engine holds the clock (R160). -/
theorem mStart_ok {s t : State} (h : mStart.run s = .ok .ok t) : t.sclLow = true := by
  unfold mStart at h
  obtain ⟨_, s1, -, h⟩ := Eng.bind_ok_iff.mp h
  obtain ⟨_, s2, -, h⟩ := Eng.bind_ok_iff.mp h
  obtain ⟨r3, s3, -, h⟩ := Eng.bind_ok_iff.mp h
  split at h
  · simp at h
  · obtain ⟨_, s4, -, h⟩ := Eng.bind_ok_iff.mp h
    obtain ⟨_, s5, -, h⟩ := Eng.bind_ok_iff.mp h
    obtain ⟨_, s6, -, h⟩ := Eng.bind_ok_iff.mp h
    obtain ⟨r7, s7, -, h⟩ := Eng.bind_ok_iff.mp h
    split at h
    · simp at h
    · obtain ⟨_, s8, -, h⟩ := Eng.bind_ok_iff.mp h
      obtain ⟨_, s9, -, h⟩ := Eng.bind_ok_iff.mp h
      obtain ⟨_, s10, h10, h⟩ := Eng.bind_ok_iff.mp h
      obtain ⟨-, rfl⟩ := Eng.pure_ok_iff.mp h
      exact (pullClockLow_ok h10).1

theorem mRestart_keeps : mRestart.Keeps State.beyondLines := by
  unfold mRestart
  repeat' first
    | exact releaseClockHigh_keeps
    | exact releaseDataHigh_keeps
    | exact enableDataDriver_keeps
    | exact disableDataDriver_keeps
    | exact pullDataLow_keeps
    | exact pullClockLow_keeps
    | exact waitHalfBitPeriod_keeps
    | exact waitUntil_keeps _
    | exact consumeStart_keeps
    | exact Eng.keeps_pure _ _
    | apply Eng.keeps_bind
    | apply Eng.keeps_ite
    | intro _

theorem mRestart_tame : mRestart.Tame := by
  unfold mRestart
  repeat' first
    | exact releaseClockHigh_tame
    | exact releaseDataHigh_tame
    | exact enableDataDriver_tame
    | exact disableDataDriver_tame
    | exact pullDataLow_tame
    | exact pullClockLow_tame
    | exact waitHalfBitPeriod_tame
    | exact waitUntil_tame scl_inputs
    | exact waitUntil_tame sda_inputs
    | exact waitUntil_tame startSeen_inputs
    | exact consumeStart_tame
    | exact Eng.tame_pure _
    | apply Eng.tame_bind
    | apply Eng.tame_ite
    | intro _

theorem openRestart_tame (multi : Bool) : (openRestart multi).Tame := by
  refine Eng.tame_bind mRestart_tame fun r => ?_
  cases r
  · exact Eng.tame_bind (setMState_tame _) fun _ => Eng.tame_pure _
  · exact Eng.tame_bind (flag_tame _) fun _ => Eng.tame_bind mAbort_tame fun _ => Eng.tame_pure _
  · cases multi
    · exact Eng.tame_bind (flag_tame _) fun _ => Eng.tame_bind mAbort_tame fun _ => Eng.tame_pure _
    · exact Eng.tame_bind (flag_tame _) fun _ => Eng.tame_bind mAbort_tame fun _ =>
        Eng.tame_bind (setMState_tame _) fun _ => Eng.tame_pure _
  · exact Eng.tame_bind (flag_tame _) fun _ => Eng.tame_bind mAbort_tame fun _ => Eng.tame_pure _

theorem openStart_tame (multi : Bool) : (openStart multi).Tame := by
  refine Eng.tame_bind Eng.tame_get fun s => Eng.tame_ite ?_ (Eng.tame_ite ?_ ?_)
  · refine Eng.tame_bind (flag_tame _) fun _ => Eng.tame_bind (setMState_tame _) fun _ =>
      Eng.tame_bind (setBitcnt_tame _) fun _ => Eng.tame_ite ?_ ?_
    · exact Eng.tame_bind (setRole_tame _) fun _ => Eng.tame_pure _
    · exact Eng.tame_bind (setRole_tame _) fun _ => Eng.tame_bind releaseClockHigh_tame fun _ => Eng.tame_pure _
  · exact Eng.tame_bind (flag_tame _) fun _ => Eng.tame_bind (setMState_tame _) fun _ =>
      Eng.tame_bind (setRole_tame _) fun _ => Eng.tame_bind releaseClockHigh_tame fun _ => Eng.tame_pure _
  · refine Eng.tame_bind (setRole_tame _) fun _ => Eng.tame_bind (setMState_tame _) fun _ =>
      Eng.tame_bind mStart_tame fun r => ?_
    cases r
    · exact Eng.tame_bind (setRole_tame _) fun _ => Eng.tame_bind (setMState_tame _) fun _ => Eng.tame_pure _
    · exact Eng.tame_bind (flag_tame _) fun _ => Eng.tame_bind mAbort_tame fun _ => Eng.tame_pure _
    · exact Eng.tame_bind (flag_tame _) fun _ => Eng.tame_bind mAbort_tame fun _ => Eng.tame_pure _

theorem openAddress_tame (af : Byte) (multi : Bool) : (openAddress af multi).Tame := by
  refine Eng.tame_bind (setDir_tame _) fun _ => Eng.tame_bind (mSendByte_tame _ _) fun r => ?_
  cases r
  · exact Eng.tame_bind (setMState_tame _) fun _ => Eng.tame_bind (flag_tame _) fun _ => setMState_tame _
  · exact Eng.tame_bind (setMState_tame _) fun _ => Eng.tame_bind (flag_tame _) fun _ => setMState_tame _
  · exact Eng.tame_bind (flag_tame _) fun _ => Eng.tame_bind (setMState_tame _) fun _ =>
      Eng.tame_bind Eng.tame_get fun _ => Eng.tame_ite (setRole_tame _) (setRole_tame _)
  · exact Eng.tame_bind (flag_tame _) fun _ => mAbort_tame
  · exact Eng.tame_bind (flag_tame _) fun _ => mForceStop_tame

theorem openBody_tame (af : Byte) : (openBody af).Tame := by
  refine Eng.tame_bind (setStatus_tame _) fun _ => Eng.tame_bind Eng.tame_get fun s => Eng.tame_ite ?_ ?_
  · refine Eng.tame_ite ?_ (Eng.tame_ite ?_ ?_)
    · exact Eng.tame_bind (openRestart_tame _) fun p =>
        Eng.tame_ite (Eng.tame_bind (openAddress_tame _ _) fun _ => Eng.tame_pure _) (Eng.tame_pure _)
    · exact Eng.tame_bind (Eng.tame_pure _) fun p =>
        Eng.tame_ite (Eng.tame_bind (openAddress_tame _ _) fun _ => Eng.tame_pure _) (Eng.tame_pure _)
    · exact Eng.tame_bind (openStart_tame _) fun p =>
        Eng.tame_ite (Eng.tame_bind (openAddress_tame _ _) fun _ => Eng.tame_pure _) (Eng.tame_pure _)
  · exact Eng.tame_bind notAllowed_tame fun _ => Eng.tame_pure _

theorem sendBody_tame (v : Byte) : (sendBody v).Tame := by
  refine Eng.tame_bind Eng.tame_get fun s => Eng.tame_ite ?_ ?_
  · refine Eng.tame_bind (mSendByte_tame _ _) fun r => ?_
    cases r
    · exact Eng.tame_pure _
    · exact Eng.tame_bind (flag_tame _) fun _ => Eng.tame_pure _
    · exact Eng.tame_bind (flag_tame _) fun _ => Eng.tame_bind (setRole_tame _) fun _ =>
        Eng.tame_bind (setMState_tame _) fun _ => Eng.tame_pure _
    · exact Eng.tame_bind (flag_tame _) fun _ => Eng.tame_bind mAbort_tame fun _ => Eng.tame_pure _
    · exact Eng.tame_bind (flag_tame _) fun _ => Eng.tame_bind mForceStop_tame fun _ => Eng.tame_pure _
  · exact Eng.tame_bind notAllowed_tame fun _ => Eng.tame_pure _

theorem recvBody_tame (ack : Bool) : (recvBody ack).Tame := by
  refine Eng.tame_bind Eng.tame_get fun s => Eng.tame_ite ?_ ?_
  · refine Eng.tame_bind (mRecvByte_tame _) fun r => ?_
    cases r
    · exact Eng.tame_bind Eng.tame_get fun _ => Eng.tame_pure _
    · exact Eng.tame_bind (flag_tame _) fun _ => Eng.tame_bind mAbort_tame fun _ =>
        Eng.tame_bind anyByte_tame fun _ => Eng.tame_pure _
    · exact Eng.tame_bind (flag_tame _) fun _ => Eng.tame_bind mForceStop_tame fun _ =>
        Eng.tame_bind anyByte_tame fun _ => Eng.tame_pure _
  · exact Eng.tame_bind notAllowed_tame fun _ => Eng.tame_bind anyByte_tame fun _ => Eng.tame_pure _

theorem releaseBody_tame : releaseBody.Tame := by
  unfold releaseBody
  repeat' first
    | exact mStop_tame
    | exact releaseClockHigh_tame
    | exact setRole_tame _
    | exact setMState_tame _
    | exact notAllowed_tame
    | exact Eng.tame_get
    | exact Eng.tame_pure _
    | apply Eng.tame_bind
    | apply Eng.tame_ite
    | intro _

end Sys2Proof.Machine
end

