-- ==== Sys2Proof/Laws/SlaveMatch.lean ====
section
/-! SUPPORT. What the slave address-match protocol and the slave data commands can do, whatever the environment does
(43_slave_match.md R183, R184, R189, R190), and that the budget of `s_clock_in` never runs out (log 16). -/

namespace Sys2Proof.Machine

theorem clock_or_free_inputs (l : List Input) (s : State) :
    (fun s : State => !s.scl || !s.busBusy) { s with inputs := l } = (fun s : State => !s.scl || !s.busBusy) s := rfl

/-! ### Leaving the slave role (R183) -/

theorem sLeave_tame : sLeave.Tame :=
  Eng.tame_bind releaseClockHigh_tame fun _ => Eng.tame_bind releaseDataHigh_tame fun _ =>
    Eng.tame_bind disableDataDriver_tame fun _ => Eng.tame_bind (setRole_tame _) fun _ => setSState_tame _

/-- After `s_leave` all lines are released and the slave role is over; nothing else has changed (R183). -/
theorem sLeave_ok {s t : State} (h : sLeave.run s = .ok () t) :
    t.released ∧ t.role = .idle ∧ t.sstate = .watchingForStart ∧
      { t with role := s.role, sstate := s.sstate }.beyondLines = s.beyondLines := by
  unfold sLeave at h
  obtain ⟨_, s1, h1, h⟩ := Eng.bind_ok_iff.mp h
  obtain ⟨_, s2, h2, h⟩ := Eng.bind_ok_iff.mp h
  obtain ⟨_, s3, h3, h⟩ := Eng.bind_ok_iff.mp h
  obtain ⟨_, s4, h4, h5⟩ := Eng.bind_ok_iff.mp h
  have e : t = { s3 with role := .idle, sstate := .watchingForStart } := by
    rw [← Eng.modify_ok_iff.mp h5, ← Eng.modify_ok_iff.mp h4]
  have o1 := releaseClockHigh_ok h1
  have o2 := releaseDataHigh_ok h2
  have o3 := disableDataDriver_ok h3
  have k : s3.beyondLines = s.beyondLines :=
    (disableDataDriver_keeps.ok h3).trans <| (releaseDataHigh_keeps.ok h2).trans <| releaseClockHigh_keeps.ok h1
  have kr : s3.role = s.role := (congrArg State.role k :)
  have ks : s3.sstate = s.sstate := (congrArg State.sstate k :)
  refine ⟨?_, by rw [e], by rw [e], ?_⟩
  · subst e
    exact ⟨by rw [o3.1, o2.1, o1.1], by rw [o3.2.1, o2.2.1], o3.2.2⟩
  · rw [e, ← kr, ← ks]; exact k

/-! ### Clocking an address in (R184) -/

/-- The state beyond the lines, `SR`, `BITCNT` and `SSTATE`. -/
def State.beyondClockIn (s : State) : State := { s.beyondByte with sstate := .watchingForStart }

theorem Eng.Keeps.clockIn {α : Type} {m : Eng α} (h : m.Keeps State.beyondByte) : m.Keeps State.beyondClockIn :=
  h.comp fun s => { s with sstate := .watchingForStart }

theorem sClockByte_keeps : sClockByte.Keeps State.beyondByte := by
  refine Eng.keeps_bind (waitUntil_keeps _).byte fun r => Eng.keeps_ite (Eng.keeps_pure _ _) <|
    Eng.keeps_bind (Eng.keeps_get _) fun s => Eng.keeps_ite (Eng.keeps_pure _ _) <|
    Eng.keeps_bind releaseDataHigh_keeps.byte fun _ =>
    Eng.keeps_bind disableDataDriver_keeps.byte fun _ => Eng.keeps_bind (Eng.keeps_get _) fun s =>
    Eng.keeps_bind (sRecvBits_keeps _) fun r => ?_
  cases r with
  | done => exact Eng.keeps_bind pullClockLow_keeps.byte fun _ => Eng.keeps_pure _ _
  | start => exact Eng.keeps_pure _ _
  | stop => exact Eng.keeps_pure _ _
  | expired => exact Eng.keeps_pure _ _

theorem sClockByte_tame : sClockByte.Tame := by
  refine Eng.tame_bind (waitUntil_tame clock_or_free_inputs) fun r => Eng.tame_ite (Eng.tame_pure _) <|
    Eng.tame_bind Eng.tame_get fun s => Eng.tame_ite (Eng.tame_pure _) <|
    Eng.tame_bind releaseDataHigh_tame fun _ => Eng.tame_bind disableDataDriver_tame fun _ =>
    Eng.tame_bind Eng.tame_get fun s => Eng.tame_bind (sRecvBits_tame _) fun r => ?_
  cases r with
  | done => exact Eng.tame_bind pullClockLow_tame fun _ => Eng.tame_pure _
  | start => exact Eng.tame_pure _
  | stop => exact Eng.tame_pure _
  | expired => exact Eng.tame_pure _

/-- A START inside an address byte has used an input (log 16). -/
theorem sClockByte_progress {s t : State} (h : sClockByte.run s = .ok none t) : t.inputs.length < s.inputs.length := by
  unfold sClockByte at h
  obtain ⟨r1, s1, h1, h⟩ := Eng.bind_ok_iff.mp h
  have l1 := (waitUntil_tame clock_or_free_inputs).length h1
  split at h
  · simp at h
  · obtain ⟨_, _, hg, h⟩ := Eng.bind_ok_iff.mp h
    obtain ⟨rfl, rfl⟩ := Eng.get_ok_iff.mp hg
    split at h
    · simp at h
    · obtain ⟨_, s3, h3, h⟩ := Eng.bind_ok_iff.mp h
      obtain ⟨_, s4, h4, h⟩ := Eng.bind_ok_iff.mp h
      obtain ⟨_, _, hg, h⟩ := Eng.bind_ok_iff.mp h
      obtain ⟨rfl, rfl⟩ := Eng.get_ok_iff.mp hg
      obtain ⟨p, s5, h5, h⟩ := Eng.bind_ok_iff.mp h
      have l4 := (disableDataDriver_tame.length h4).trans (releaseDataHigh_tame.length h3)
      cases p with
      | done =>
        obtain ⟨_, s6, h6, h⟩ := Eng.bind_ok_iff.mp h
        simp at h
      | start =>
        obtain ⟨-, rfl⟩ := Eng.pure_ok_iff.mp h
        have := sRecvBits_progress h5
        omega
      | stop => simp at h
      | expired => simp at h

/-- One attempt at an address byte: a whole byte leaves the engine stretching the clock (R184). -/
theorem sClockByte_ok {s t : State} {r : Option ClockIn} (hb : s.bitcnt.toNat ≤ 8) (h : sClockByte.run s = .ok r t) :
    t.bitcnt.toNat ≤ 8 ∧ (r = some .done → t.clockHeld ∧ t.bitcnt = 8) := by
  unfold sClockByte at h
  obtain ⟨r1, s1, h1, h⟩ := Eng.bind_ok_iff.mp h
  have k1 : s1.bitcnt = s.bitcnt := (congrArg State.bitcnt ((waitUntil_keeps _).ok h1) :)
  clear h1
  split at h
  · obtain ⟨rfl, rfl⟩ := Eng.pure_ok_iff.mp h
    exact ⟨by rw [k1]; exact hb, by simp⟩
  · obtain ⟨_, _, hg, h⟩ := Eng.bind_ok_iff.mp h
    obtain ⟨rfl, rfl⟩ := Eng.get_ok_iff.mp hg
    split at h
    · obtain ⟨rfl, rfl⟩ := Eng.pure_ok_iff.mp h
      exact ⟨by rw [k1]; exact hb, by simp⟩
    · obtain ⟨_, s3, h3, h⟩ := Eng.bind_ok_iff.mp h
      obtain ⟨_, s4, h4, h⟩ := Eng.bind_ok_iff.mp h
      obtain ⟨_, _, hg, h⟩ := Eng.bind_ok_iff.mp h
      obtain ⟨rfl, rfl⟩ := Eng.get_ok_iff.mp hg
      obtain ⟨p, s5, h5, h⟩ := Eng.bind_ok_iff.mp h
      have k4 : s4.bitcnt = s1.bitcnt :=
        (congrArg State.bitcnt ((disableDataDriver_keeps.ok h4).trans (releaseDataHigh_keeps.ok h3)) :)
      have d4 : s4.sdaLow = false := (disableDataDriver_ok h4).2.1.trans (releaseDataHigh_ok h3).2.1
      have o4 : s4.sdaOe = false := (disableDataDriver_ok h4).2.2
      have b4 : s4.bitcnt.toNat ≤ 8 := by rw [k4, k1]; exact hb
      obtain ⟨i1, i2, i3, i4⟩ := sRecvBits_ok (by omega) h5
      cases p with
      | done =>
        obtain ⟨_, s6, h6, h⟩ := Eng.bind_ok_iff.mp h
        obtain ⟨rfl, rfl⟩ := Eng.pure_ok_iff.mp h
        have o6 := pullClockLow_ok h6
        have k6 : s6.bitcnt = s5.bitcnt := (congrArg State.bitcnt (pullClockLow_keeps.ok h6) :)
        have c6 : s6.bitcnt = 8 := by
          apply BitVec.eq_of_toNat_eq
          rw [k6, i4 rfl, show (8 : BitVec 4).toNat = 8 from rfl]
          omega
        exact ⟨by rw [c6]; decide, fun _ => ⟨⟨o6.1, o6.2.1.trans (i2 d4), o6.2.2.trans (i1.trans o4)⟩, c6⟩⟩
      | start =>
        obtain ⟨rfl, rfl⟩ := Eng.pure_ok_iff.mp h
        exact ⟨by omega, by simp⟩
      | stop =>
        obtain ⟨rfl, rfl⟩ := Eng.pure_ok_iff.mp h
        exact ⟨by omega, by simp⟩
      | expired =>
        obtain ⟨rfl, rfl⟩ := Eng.pure_ok_iff.mp h
        exact ⟨by omega, by simp⟩

theorem sClockIn_keeps (budget : Nat) : (sClockIn budget).Keeps State.beyondClockIn := by
  induction budget with
  | zero => exact Eng.keeps_throw _ _
  | succ n ih =>
    refine Eng.keeps_bind sClockByte_keeps.clockIn fun r => ?_
    cases r with
    | some r => exact Eng.keeps_pure _ _
    | none =>
      exact Eng.keeps_bind (Eng.keeps_modify fun _ => rfl) fun _ => Eng.keeps_bind (Eng.keeps_modify fun _ => rfl) fun _ =>
        Eng.keeps_bind (Eng.keeps_modify fun _ => rfl) fun _ => Eng.keeps_bind (Eng.keeps_modify fun _ => rfl) fun _ => ih

/-- The exit conditions of `s_clock_in` (R184). -/
theorem sClockIn_ok {budget : Nat} {s t : State} {r : ClockIn} (hb : s.bitcnt.toNat ≤ 8)
    (h : (sClockIn budget).run s = .ok r t) :
    t.bitcnt.toNat ≤ 8 ∧ (r = .done → t.clockHeld ∧ t.bitcnt = 8) := by
  induction budget generalizing s with
  | zero => simp [sClockIn] at h
  | succ n ih =>
    rw [sClockIn] at h
    obtain ⟨p, s1, h1, h⟩ := Eng.bind_ok_iff.mp h
    have o1 := sClockByte_ok hb h1
    clear h1
    cases p with
    | some r =>
      obtain ⟨rfl, rfl⟩ := Eng.pure_ok_iff.mp h
      exact ⟨o1.1, fun hr => o1.2 (by rw [hr])⟩
    | none =>
      obtain ⟨_, s2, h2, h⟩ := Eng.bind_ok_iff.mp h
      obtain ⟨_, s3, h3, h⟩ := Eng.bind_ok_iff.mp h
      obtain ⟨_, s4, h4, h⟩ := Eng.bind_ok_iff.mp h
      obtain ⟨_, s5, h5, h⟩ := Eng.bind_ok_iff.mp h
      refine ih ?_ h
      rw [← Eng.modify_ok_iff.mp h5, ← Eng.modify_ok_iff.mp h4]
      exact Nat.zero_le _

/-- The budget of `s_clock_in` never runs out when it exceeds the inputs to come: what it can do is what a tame procedure can
(log 16). -/
theorem sClockIn_spec (budget : Nat) (s : State) (hs : s.inputs.length < budget) :
    ((sClockIn budget).final s).inputs <:+ s.inputs ∧
    ((sClockIn budget).final s).params = s.params ∧
    (∀ t, (sClockIn budget).run s = .error .reset t → Input.reset ∈ s.inputs) ∧
    (∀ t, (sClockIn budget).run s = .error .hang t → s.params.timeoutEnforced = false) := by
  induction budget generalizing s with
  | zero => omega
  | succ n ih =>
    have hp : ((sClockIn (n + 1)).final s).params = s.params := (sClockIn_keeps (n + 1)).comp State.params s
    rcases h : sClockByte.run s with ⟨_ | r, t⟩ | ⟨e, t⟩
    · have o := sClockByte_progress h
      have ht : t.inputs <:+ s.inputs := by simpa [Eng.final, h] using sClockByte_tame.suffix s
      have hq : t.params = s.params := by simpa [Eng.final, h] using sClockByte_tame.params s
      have e : (sClockIn (n + 1)).run s = (sClockIn n).run
          { t with sstate := .byteClockingIn, startSeen := false, bitcnt := 0 } := by
        rw [sClockIn, Eng.bind_of_ok h]; rfl
      obtain ⟨i1, -, i3, i4⟩ := ih { t with sstate := .byteClockingIn, startSeen := false, bitcnt := 0 }
        (by simp only; omega)
      refine ⟨?_, hp, fun u hu => ht.subset (i3 u (e ▸ hu)), fun u hu => hq ▸ i4 u (e ▸ hu)⟩
      rw [Eng.final, e]
      exact i1.trans ht
    · have e : (sClockIn (n + 1)).run s = .ok r t := by rw [sClockIn, Eng.bind_of_ok h]; rfl
      refine ⟨?_, hp, by simp [e], by simp [e]⟩
      rw [Eng.final, e]
      simpa [Eng.final, h] using sClockByte_tame.suffix s
    · have e' : (sClockIn (n + 1)).run s = .error e t := by rw [sClockIn, Eng.bind_of_error h]
      refine ⟨?_, hp, fun u hu => ?_, fun u hu => ?_⟩
      · rw [Eng.final, e']
        simpa [Eng.final, h] using sClockByte_tame.suffix s
      · rw [e'] at hu; cases hu; exact sClockByte_tame.reset_only s _ h
      · rw [e'] at hu; cases hu; exact sClockByte_tame.hang_only s _ h

/-! ### The bodies use inputs and halt like any tame procedure -/

theorem pollAnswer_tame (cand : Byte) (r : ClockIn) : (pollAnswer cand r).Tame := by
  cases r with
  | done =>
    refine Eng.tame_bind Eng.tame_get fun s => Eng.tame_ite ?_ ?_
    · refine Eng.tame_bind enableDataDriver_tame fun _ => Eng.tame_bind (sPutBit_tame _) fun a =>
        Eng.tame_bind releaseDataHigh_tame fun _ => Eng.tame_bind disableDataDriver_tame fun _ => ?_
      cases a with
      | bit b =>
        exact Eng.tame_bind pullClockLow_tame fun _ => Eng.tame_bind (Eng.tame_modify (fun _ => rfl) fun _ => rfl) fun _ =>
          Eng.tame_bind Eng.tame_get fun _ => Eng.tame_pure _
      | stop | start | expired =>
        exact Eng.tame_bind (flag_tame _) fun _ => Eng.tame_bind sLeave_tame fun _ => Eng.tame_pure _
    · exact Eng.tame_bind (setSState_tame _) fun _ => Eng.tame_bind (flag_tame _) fun _ =>
        Eng.tame_bind sLeave_tame fun _ => Eng.tame_pure _
  | stop =>
    exact Eng.tame_bind (setSState_tame _) fun _ => Eng.tame_bind (unflag_tame _) fun _ =>
      Eng.tame_bind sLeave_tame fun _ => Eng.tame_pure _
  | expired => exact Eng.tame_bind (flag_tame _) fun _ => Eng.tame_bind sLeave_tame fun _ => Eng.tame_pure _

/-- `s_clock_in` with the budget POLL gives it. -/
theorem sClockIn_tame : (do sClockIn ((← get).inputs.length + 1) : Eng ClockIn).Tame where
  suffix s := (sClockIn_spec _ s (Nat.lt_succ_self _)).1
  params s := (sClockIn_spec _ s (Nat.lt_succ_self _)).2.1
  reset_only s t h := (sClockIn_spec _ s (Nat.lt_succ_self _)).2.2.1 t h
  hang_only s t h := (sClockIn_spec _ s (Nat.lt_succ_self _)).2.2.2 t h

theorem pollServe_tame (cand : Byte) : (pollServe cand).Tame := by
  have e : pollServe cand = (setSState .byteClockingIn >>= fun _ =>
      (do sClockIn ((← get).inputs.length + 1) : Eng ClockIn) >>= pollAnswer cand) := by
    simp only [bind_assoc]; rfl
  rw [e]
  exact Eng.tame_bind (setSState_tame _) fun _ => Eng.tame_bind sClockIn_tame fun r => pollAnswer_tame _ _

theorem pollBody_tame (cand mask : Byte) : (pollBody cand mask).Tame := by
  refine Eng.tame_bind Eng.tame_get fun s => Eng.tame_ite ?_ ?_
  · refine Eng.tame_bind (Eng.tame_modify (fun _ => rfl) fun _ => rfl) fun _ => Eng.tame_ite (Eng.tame_pure _) <|
      Eng.tame_ite ?_ <| Eng.tame_ite (Eng.tame_pure _) ?_
    · exact Eng.tame_bind (unflag_tame _) fun _ => Eng.tame_bind (setRole_tame _) fun _ =>
        Eng.tame_bind consumeStart_tame fun _ => pollServe_tame _
    · exact Eng.tame_bind consumeStart_tame fun _ => Eng.tame_bind (setStatus_tame _) fun _ =>
        Eng.tame_bind (setBitcnt_tame _) fun _ => pollServe_tame _
  · exact Eng.tame_bind notAllowed_tame fun _ => Eng.tame_pure _

theorem ssendEnd_tame (more collided : Bool) (r : SSend) : (ssendEnd more collided r).Tame := by
  cases r with
  | acked => exact Eng.tame_ite pullClockLow_tame sLeave_tame
  | nacked | stop | start | expired => exact Eng.tame_bind (flag_tame _) fun _ => sLeave_tame

theorem ssendBody_tame (v : Byte) (more : Bool) : (ssendBody v more).Tame := by
  refine Eng.tame_bind Eng.tame_get fun s => Eng.tame_ite ?_ ?_
  · exact Eng.tame_bind (sSendByte_tame _) fun r => Eng.tame_bind (flag_tame _) fun _ =>
      Eng.tame_bind (ssendEnd_tame _ _ _) fun _ => Eng.tame_pure _
  · exact Eng.tame_bind notAllowed_tame fun _ => Eng.tame_pure _

theorem srecvBody_tame (ack : Bool) : (srecvBody ack).Tame := by
  refine Eng.tame_bind Eng.tame_get fun s => Eng.tame_ite ?_ ?_
  · refine Eng.tame_bind (sRecvByte_tame _) fun r => ?_
    cases r with
    | done =>
      cases ack
      · exact Eng.tame_bind sLeave_tame fun _ => Eng.tame_bind Eng.tame_get fun _ => Eng.tame_pure _
      · exact Eng.tame_bind pullClockLow_tame fun _ => Eng.tame_bind Eng.tame_get fun _ => Eng.tame_pure _
    | stop | start | expired =>
      exact Eng.tame_bind (flag_tame _) fun _ => Eng.tame_bind sLeave_tame fun _ => Eng.tame_bind anyByte_tame fun _ =>
        Eng.tame_pure _
  · exact Eng.tame_bind notAllowed_tame fun _ => Eng.tame_bind anyByte_tame fun _ => Eng.tame_pure _

end Sys2Proof.Machine
end

