-- ==== Sys2Proof/Laws/Setup.lean ====
section
/-! SUPPORT. The body of every command, and what holds of all of them: which inputs they use and why they halt. -/

namespace Sys2Proof.Machine

theorem initBody_tame (own mask bitrate : Byte) : (initBody own mask bitrate).Tame :=
  Eng.tame_bind releaseClockHigh_tame fun _ => Eng.tame_bind releaseDataHigh_tame fun _ =>
    Eng.tame_bind disableDataDriver_tame fun _ =>
    Eng.tame_bind (Eng.tame_modify (fun _ => rfl) fun _ => rfl) fun _ => Eng.tame_pure _

theorem statusBody_tame : statusBody.Tame := Eng.tame_pure _

theorem slvenBody_tame (en : Bool) : (slvenBody en).Tame := by
  unfold slvenBody
  repeat' first
    | exact releaseClockHigh_tame
    | exact releaseDataHigh_tame
    | exact disableDataDriver_tame
    | exact setRole_tame _
    | exact setSState_tame _
    | exact consumeStart_tame
    | exact notAllowed_tame
    | exact Eng.tame_modify (fun _ => rfl) fun _ => rfl
    | exact Eng.tame_get
    | exact Eng.tame_pure _
    | apply Eng.tame_bind
    | apply Eng.tame_ite
    | intro _

/-- The body of a command. -/
def body : Instr → Eng Answer
  | .init own mask bitrate => initBody own mask bitrate
  | .openDevice af => openBody af
  | .send v => sendBody v
  | .recv ack => recvBody ack
  | .release => releaseBody
  | .poll cand mask => pollBody cand mask
  | .ssend v more => ssendBody v more
  | .srecv ack => srecvBody ack
  | .slven en => slvenBody en
  | .status => statusBody

theorem exec_eq_complete (i : Instr) (s : State) : exec i s = complete (body i) s := by cases i <;> rfl

theorem body_tame (i : Instr) : (body i).Tame := by
  cases i with
  | init own mask bitrate => exact initBody_tame _ _ _
  | openDevice af => exact openBody_tame _
  | send v => exact sendBody_tame _
  | recv ack => exact recvBody_tame _
  | release => exact releaseBody_tame
  | poll cand mask => exact pollBody_tame _ _
  | ssend v more => exact ssendBody_tame _ _
  | srecv ack => exact srecvBody_tame _
  | slven en => exact slvenBody_tame _
  | status => exact statusBody_tame

end Sys2Proof.Machine
end

