-- ==== Sys2Proof/Laws/Bound.lean ====
section
/-! SUPPORT. A wait expires only when the line driver bounds its waits (R6, R130): which results of the procedures need
`TIMEOUT_ENFORCED`. -/

namespace Sys2Proof.Machine

variable {α : Type}

/-- A computation that answered on a device with bounded waits ran on one. -/
theorem Eng.Tame.enforced {m : Eng α} (h : m.Tame) {s t : State} {a : α} (hs : m.run s = .ok a t)
    (ht : t.params.timeoutEnforced = true) : s.params.timeoutEnforced = true := by
  have := h.params s
  simp only [Eng.final, hs, endState_ok] at this
  rw [← this]; exact ht

/-! ### As master -/

theorem mClockBit_bound {out arb : Bool} {s t : State} (h : (mClockBit out arb).run s = .ok .expired t) :
    s.params.timeoutEnforced = true := by
  unfold mClockBit at h
  obtain ⟨_, s1, h1, h⟩ := Eng.bind_ok_iff.mp h
  obtain ⟨_, s2, h2, h⟩ := Eng.bind_ok_iff.mp h
  obtain ⟨_, s3, h3, h⟩ := Eng.bind_ok_iff.mp h
  obtain ⟨r4, s4, h4, h⟩ := Eng.bind_ok_iff.mp h
  cases r4 with
  | expired =>
    exact (putData_tame _).enforced h1 <| waitHalfBitPeriod_tame.enforced h2 <| releaseClockHigh_tame.enforced h3 <|
      waitUntil_expired scl_inputs h4
  | ok =>
    simp only [reduceCtorEq, if_false] at h
    obtain ⟨b, s5, -, h⟩ := Eng.bind_ok_iff.mp h
    obtain ⟨_, _, -, h⟩ := Eng.bind_ok_iff.mp h
    split at h
    · simp at h
    · split at h
      · simp at h
      · obtain ⟨_, s6, -, h⟩ := Eng.bind_ok_iff.mp h
        obtain ⟨_, _, -, h⟩ := Eng.bind_ok_iff.mp h
        split at h
        · simp at h
        · obtain ⟨_, s7, -, h⟩ := Eng.bind_ok_iff.mp h
          simp at h

theorem mSendBits_bound {arb : Bool} {n : Nat} {s t : State} (h : (mSendBits arb n).run s = .ok (some .expired) t) :
    s.params.timeoutEnforced = true := by
  induction n generalizing s with
  | zero => simp [mSendBits] at h
  | succ n ih =>
    rw [mSendBits] at h
    obtain ⟨_, _, hg, h⟩ := Eng.bind_ok_iff.mp h
    obtain ⟨rfl, rfl⟩ := Eng.get_ok_iff.mp hg
    obtain ⟨p, s1, h1, h⟩ := Eng.bind_ok_iff.mp h
    cases p with
    | bit b =>
      obtain ⟨_, s2, h2, h⟩ := Eng.bind_ok_iff.mp h
      exact (mClockBit_tame _ _).enforced h1 <| (shiftIn_tame _).enforced h2 <| ih h
    | lost =>
      obtain ⟨_, s2, -, h⟩ := Eng.bind_ok_iff.mp h
      obtain ⟨_, s3, -, h⟩ := Eng.bind_ok_iff.mp h
      obtain ⟨_, s4, -, h⟩ := Eng.bind_ok_iff.mp h
      simp at h
    | expired => exact mClockBit_bound h1
    | illegal => simp at h

theorem mSendByte_bound {v : Byte} {arb : Bool} {s t : State} (h : (mSendByte v arb).run s = .ok .expired t) :
    s.params.timeoutEnforced = true := by
  rw [mSendByte] at h
  obtain ⟨_, s1, h1, h⟩ := Eng.bind_ok_iff.mp h
  obtain ⟨_, s2, h2, h⟩ := Eng.bind_ok_iff.mp h
  obtain ⟨_, s3, h3, h⟩ := Eng.bind_ok_iff.mp h
  obtain ⟨p, s4, h4, h⟩ := Eng.bind_ok_iff.mp h
  refine (setSr_tame _).enforced h1 <| (setBitcnt_tame _).enforced h2 <| enableDataDriver_tame.enforced h3 ?_
  cases p with
  | some f =>
    obtain ⟨rfl, -⟩ := Eng.pure_ok_iff.mp h
    exact mSendBits_bound h4
  | none =>
    obtain ⟨_, s5, h5, h⟩ := Eng.bind_ok_iff.mp h
    obtain ⟨_, s6, h6, h⟩ := Eng.bind_ok_iff.mp h
    obtain ⟨q, s7, h7, h⟩ := Eng.bind_ok_iff.mp h
    rcases q with ⟨_ | _⟩ | _ | _ | _
    · simp at h
    · simp at h
    · simp at h
    · exact (mSendBits_tame _ _).enforced h4 <| releaseDataHigh_tame.enforced h5 <| disableDataDriver_tame.enforced h6 <|
        mClockBit_bound h7
    · simp at h

theorem MPulse.ofRecv_expired {r : MPulse} (h : r.ofRecv = .expired) : r = .expired := by
  cases r <;> first | rfl | cases h

theorem mRecvBits_bound {n : Nat} {s t : State} (h : (mRecvBits n).run s = .ok .expired t) :
    s.params.timeoutEnforced = true := by
  induction n generalizing s with
  | zero => simp [mRecvBits] at h
  | succ n ih =>
    rw [mRecvBits] at h
    obtain ⟨p, s1, h1, h⟩ := Eng.bind_ok_iff.mp h
    cases p with
    | bit b =>
      obtain ⟨_, s2, h2, h⟩ := Eng.bind_ok_iff.mp h
      exact (mClockBit_tame _ _).enforced h1 <| (shiftIn_tame _).enforced h2 <| ih h
    | expired => exact mClockBit_bound h1
    | lost | illegal => simp [MPulse.ofRecv] at h

theorem mRecvByte_bound {ack : Bool} {s t : State} (h : (mRecvByte ack).run s = .ok .expired t) :
    s.params.timeoutEnforced = true := by
  rw [mRecvByte] at h
  obtain ⟨_, s1, h1, h⟩ := Eng.bind_ok_iff.mp h
  obtain ⟨_, s2, h2, h⟩ := Eng.bind_ok_iff.mp h
  obtain ⟨_, s3, h3, h⟩ := Eng.bind_ok_iff.mp h
  obtain ⟨p, s4, h4, h⟩ := Eng.bind_ok_iff.mp h
  refine releaseDataHigh_tame.enforced h1 <| disableDataDriver_tame.enforced h2 <| (setBitcnt_tame _).enforced h3 ?_
  cases p with
  | done =>
    refine (mRecvBits_tame _).enforced h4 ?_
    simp only at h
    split at h
    · obtain ⟨_, s5, h5, h⟩ := Eng.bind_ok_iff.mp h
      obtain ⟨q, s6, h6, h⟩ := Eng.bind_ok_iff.mp h
      obtain ⟨_, s7, -, h⟩ := Eng.bind_ok_iff.mp h
      obtain ⟨_, s8, -, h⟩ := Eng.bind_ok_iff.mp h
      cases MPulse.ofRecv_expired (Eng.pure_ok_iff.mp h).1
      exact enableDataDriver_tame.enforced h5 (mClockBit_bound h6)
    · obtain ⟨q, s6, h6, h⟩ := Eng.bind_ok_iff.mp h
      cases MPulse.ofRecv_expired (Eng.pure_ok_iff.mp h).1
      exact mClockBit_bound h6
  | expired => exact mRecvBits_bound h4
  | illegal => simp at h

theorem mStart_bound {r : MStart} {s t : State} (h : mStart.run s = .ok r t) (hr : r ≠ .ok) :
    s.params.timeoutEnforced = true := by
  unfold mStart at h
  obtain ⟨_, s1, h1, h⟩ := Eng.bind_ok_iff.mp h
  obtain ⟨_, s2, h2, h⟩ := Eng.bind_ok_iff.mp h
  obtain ⟨r3, s3, h3, h⟩ := Eng.bind_ok_iff.mp h
  refine releaseClockHigh_tame.enforced h1 <| releaseDataHigh_tame.enforced h2 ?_
  cases r3 with
  | expired => exact waitUntil_expired lines_high_inputs h3
  | ok =>
    refine (waitUntil_tame lines_high_inputs).enforced h3 ?_
    simp only [reduceCtorEq, if_false] at h
    obtain ⟨_, s4, h4, h⟩ := Eng.bind_ok_iff.mp h
    obtain ⟨_, s5, h5, h⟩ := Eng.bind_ok_iff.mp h
    obtain ⟨_, s6, h6, h⟩ := Eng.bind_ok_iff.mp h
    obtain ⟨r7, s7, h7, h⟩ := Eng.bind_ok_iff.mp h
    cases r7 with
    | expired =>
      exact waitHalfBitPeriod_tame.enforced h4 <| enableDataDriver_tame.enforced h5 <| pullDataLow_tame.enforced h6 <|
        waitUntil_expired startSeen_inputs h7
    | ok =>
      simp only [reduceCtorEq, if_false] at h
      obtain ⟨_, s8, -, h⟩ := Eng.bind_ok_iff.mp h
      obtain ⟨_, s9, -, h⟩ := Eng.bind_ok_iff.mp h
      obtain ⟨_, s10, -, h⟩ := Eng.bind_ok_iff.mp h
      exact absurd (Eng.pure_ok_iff.mp h).1.symm hr

theorem mRestart_bound {r : MRestart} {s t : State} (h : mRestart.run s = .ok r t) (hr : r ≠ .ok) :
    s.params.timeoutEnforced = true := by
  unfold mRestart at h
  obtain ⟨_, s1, h1, h⟩ := Eng.bind_ok_iff.mp h
  obtain ⟨_, s2, h2, h⟩ := Eng.bind_ok_iff.mp h
  obtain ⟨_, s3, h3, h⟩ := Eng.bind_ok_iff.mp h
  obtain ⟨_, s4, h4, h⟩ := Eng.bind_ok_iff.mp h
  obtain ⟨r5, s5, h5, h⟩ := Eng.bind_ok_iff.mp h
  refine releaseDataHigh_tame.enforced h1 <| disableDataDriver_tame.enforced h2 <| waitHalfBitPeriod_tame.enforced h3 <|
    releaseClockHigh_tame.enforced h4 ?_
  cases r5 with
  | expired => exact waitUntil_expired scl_inputs h5
  | ok =>
    refine (waitUntil_tame scl_inputs).enforced h5 ?_
    simp only [reduceCtorEq, if_false] at h
    obtain ⟨r6, s6, h6, h⟩ := Eng.bind_ok_iff.mp h
    cases r6 with
    | expired => exact waitUntil_expired sda_inputs h6
    | ok =>
      refine (waitUntil_tame sda_inputs).enforced h6 ?_
      simp only [reduceCtorEq, if_false] at h
      obtain ⟨_, s7, h7, h⟩ := Eng.bind_ok_iff.mp h
      obtain ⟨_, s8, h8, h⟩ := Eng.bind_ok_iff.mp h
      obtain ⟨_, s9, h9, h⟩ := Eng.bind_ok_iff.mp h
      obtain ⟨r10, s10, h10, h⟩ := Eng.bind_ok_iff.mp h
      cases r10 with
      | expired =>
        exact waitHalfBitPeriod_tame.enforced h7 <| enableDataDriver_tame.enforced h8 <| pullDataLow_tame.enforced h9 <|
          waitUntil_expired startSeen_inputs h10
      | ok =>
        simp only [reduceCtorEq, if_false] at h
        obtain ⟨_, s11, -, h⟩ := Eng.bind_ok_iff.mp h
        obtain ⟨_, s12, -, h⟩ := Eng.bind_ok_iff.mp h
        obtain ⟨_, s13, -, h⟩ := Eng.bind_ok_iff.mp h
        exact absurd (Eng.pure_ok_iff.mp h).1.symm hr

/-- Without a bound the STOP sequencer sets no flag (R6, R210). -/
theorem mStop_bound {s t : State} (h : mStop.run s = .ok () t) (hu : s.params.timeoutEnforced = false) :
    t.status = s.status := by
  unfold mStop at h
  obtain ⟨_, s1, h1, h⟩ := Eng.bind_ok_iff.mp h
  obtain ⟨_, s2, h2, h⟩ := Eng.bind_ok_iff.mp h
  obtain ⟨_, s3, h3, h⟩ := Eng.bind_ok_iff.mp h
  obtain ⟨_, s4, h4, h⟩ := Eng.bind_ok_iff.mp h
  obtain ⟨_, s5, h5, h⟩ := Eng.bind_ok_iff.mp h
  obtain ⟨r6, s6, h6, h⟩ := Eng.bind_ok_iff.mp h
  have b5 : s5.params.timeoutEnforced = true → False := fun b => by
    have := pullClockLow_tame.enforced h1 <| enableDataDriver_tame.enforced h2 <| pullDataLow_tame.enforced h3 <|
      waitHalfBitPeriod_tame.enforced h4 <| releaseClockHigh_tame.enforced h5 b
    rw [hu] at this; cases this
  have k6 : s6.beyondLines = s.beyondLines := ((waitUntil_keeps _).ok h6).trans <| (releaseClockHigh_keeps.ok h5).trans <|
    (waitHalfBitPeriod_keeps.ok h4).trans <| (pullDataLow_keeps.ok h3).trans <| (enableDataDriver_keeps.ok h2).trans <|
    pullClockLow_keeps.ok h1
  cases r6 with
  | expired => exact (b5 (waitUntil_expired scl_inputs h6)).elim
  | ok =>
    simp only [reduceCtorEq, if_false] at h
    obtain ⟨_, s7, h7, h⟩ := Eng.bind_ok_iff.mp h
    obtain ⟨_, s8, h8, h⟩ := Eng.bind_ok_iff.mp h
    obtain ⟨_, s9, h9, h⟩ := Eng.bind_ok_iff.mp h
    obtain ⟨_, s10, h10, h⟩ := Eng.bind_ok_iff.mp h
    obtain ⟨r11, s11, h11, h⟩ := Eng.bind_ok_iff.mp h
    have k11 : s11.beyondLines = s.beyondLines := ((waitUntil_keeps _).ok h11).trans <|
      (waitHalfBitPeriod_keeps.ok h10).trans <| (disableDataDriver_keeps.ok h9).trans <|
      (releaseDataHigh_keeps.ok h8).trans <| (waitHalfBitPeriod_keeps.ok h7).trans k6
    cases r11 with
    | expired =>
      exact (b5 <| (waitUntil_tame scl_inputs).enforced h6 <| waitHalfBitPeriod_tame.enforced h7 <|
        releaseDataHigh_tame.enforced h8 <| disableDataDriver_tame.enforced h9 <| waitHalfBitPeriod_tame.enforced h10 <|
        waitUntil_expired lines_high_inputs h11).elim
    | ok =>
      simp only [reduceCtorEq, if_false] at h
      obtain ⟨-, rfl⟩ := Eng.pure_ok_iff.mp h
      exact (congrArg State.status k11 :)

/-! ### As slave -/

theorem clock_or_data_inputs (b : Bool) (l : List Input) (s : State) :
    (fun s : State => !s.scl || s.sda != b) { s with inputs := l } = (fun s : State => !s.scl || s.sda != b) s := rfl

theorem sWaitBit_bound {s t : State} (h : sWaitBit.run s = .ok .expired t) : s.params.timeoutEnforced = true := by
  unfold sWaitBit at h
  obtain ⟨r1, s1, h1, h⟩ := Eng.bind_ok_iff.mp h
  cases r1 with
  | expired => exact waitUntil_expired scl_inputs h1
  | ok =>
    refine (waitUntil_tame scl_inputs).enforced h1 ?_
    simp only [reduceCtorEq, if_false] at h
    obtain ⟨b, s2, h2, h⟩ := Eng.bind_ok_iff.mp h
    obtain ⟨r3, s3, h3, h⟩ := Eng.bind_ok_iff.mp h
    cases r3 with
    | expired => exact isDataHigh_tame.enforced h2 (waitUntil_expired (clock_or_data_inputs b) h3)
    | ok =>
      simp only [reduceCtorEq, if_false] at h
      obtain ⟨_, _, -, h⟩ := Eng.bind_ok_iff.mp h
      split at h
      · split at h <;> simp at h
      · simp at h

theorem sPutBit_bound {out : Bool} {s t : State} (h : (sPutBit out).run s = .ok .expired t) :
    s.params.timeoutEnforced = true := by
  unfold sPutBit at h
  obtain ⟨_, s1, h1, h⟩ := Eng.bind_ok_iff.mp h
  obtain ⟨_, s2, h2, h⟩ := Eng.bind_ok_iff.mp h
  exact (putData_tame _).enforced h1 <| releaseClockHigh_tame.enforced h2 <| sWaitBit_bound h

theorem SPulse.ofRecv_expired {r : SPulse} (h : r.ofRecv = .expired) : r = .expired := by
  cases r <;> first | rfl | cases h

theorem SPulse.ofSend_expired {r : SPulse} (h : r.ofSend = .expired) : r = .expired := by
  rcases r with ⟨_ | _⟩ | _ | _ | _ <;> first | rfl | cases h

theorem sRecvBits_bound {n : Nat} {s t : State} (h : (sRecvBits n).run s = .ok .expired t) :
    s.params.timeoutEnforced = true := by
  induction n generalizing s with
  | zero => simp [sRecvBits] at h
  | succ n ih =>
    rw [sRecvBits] at h
    obtain ⟨p, s1, h1, h⟩ := Eng.bind_ok_iff.mp h
    cases p with
    | bit b =>
      obtain ⟨_, s2, h2, h⟩ := Eng.bind_ok_iff.mp h
      exact (sPutBit_tame _).enforced h1 <| (shiftIn_tame _).enforced h2 <| ih h
    | expired => exact sPutBit_bound h1
    | stop | start => simp [SPulse.ofRecv] at h

theorem sRecvByte_bound {ack : Bool} {s t : State} (h : (sRecvByte ack).run s = .ok .expired t) :
    s.params.timeoutEnforced = true := by
  rw [sRecvByte] at h
  obtain ⟨_, s1, h1, h⟩ := Eng.bind_ok_iff.mp h
  obtain ⟨_, s2, h2, h⟩ := Eng.bind_ok_iff.mp h
  obtain ⟨_, s3, h3, h⟩ := Eng.bind_ok_iff.mp h
  obtain ⟨p, s4, h4, h⟩ := Eng.bind_ok_iff.mp h
  refine releaseDataHigh_tame.enforced h1 <| disableDataDriver_tame.enforced h2 <| (setBitcnt_tame _).enforced h3 ?_
  cases p with
  | done =>
    refine (sRecvBits_tame _).enforced h4 ?_
    simp only at h
    split at h
    · obtain ⟨_, s5, h5, h⟩ := Eng.bind_ok_iff.mp h
      obtain ⟨q, s6, h6, h⟩ := Eng.bind_ok_iff.mp h
      obtain ⟨_, s7, -, h⟩ := Eng.bind_ok_iff.mp h
      obtain ⟨_, s8, -, h⟩ := Eng.bind_ok_iff.mp h
      cases SPulse.ofRecv_expired (Eng.pure_ok_iff.mp h).1
      exact enableDataDriver_tame.enforced h5 (sPutBit_bound h6)
    · obtain ⟨q, s6, h6, h⟩ := Eng.bind_ok_iff.mp h
      cases SPulse.ofRecv_expired (Eng.pure_ok_iff.mp h).1
      exact sPutBit_bound h6
  | expired => exact sRecvBits_bound h4
  | stop | start => simp at h

theorem sSendBits_bound {n : Nat} {c c' : Bool} {s t : State} (h : (sSendBits n c).run s = .ok (some .expired, c') t) :
    s.params.timeoutEnforced = true := by
  induction n generalizing s c with
  | zero => simp [sSendBits] at h
  | succ n ih =>
    rw [sSendBits] at h
    obtain ⟨_, _, hg, h⟩ := Eng.bind_ok_iff.mp h
    obtain ⟨rfl, rfl⟩ := Eng.get_ok_iff.mp hg
    obtain ⟨p, s1, h1, h⟩ := Eng.bind_ok_iff.mp h
    cases p with
    | bit b =>
      obtain ⟨_, _, hg, h⟩ := Eng.bind_ok_iff.mp h
      obtain ⟨rfl, rfl⟩ := Eng.get_ok_iff.mp hg
      obtain ⟨_, s2, h2, h⟩ := Eng.bind_ok_iff.mp h
      exact (sPutBit_tame _).enforced h1 <| (shiftIn_tame _).enforced h2 <| ih h
    | expired => exact sPutBit_bound h1
    | stop | start =>
      obtain ⟨_, s3, -, h⟩ := Eng.bind_ok_iff.mp h
      obtain ⟨_, s4, -, h⟩ := Eng.bind_ok_iff.mp h
      simp [SPulse.ofSend] at h

theorem sSendByte_bound {v : Byte} {c : Bool} {s t : State} (h : (sSendByte v).run s = .ok (.expired, c) t) :
    s.params.timeoutEnforced = true := by
  rw [sSendByte] at h
  obtain ⟨_, s1, h1, h⟩ := Eng.bind_ok_iff.mp h
  obtain ⟨_, s2, h2, h⟩ := Eng.bind_ok_iff.mp h
  obtain ⟨_, s3, h3, h⟩ := Eng.bind_ok_iff.mp h
  obtain ⟨⟨p, c'⟩, s4, h4, h⟩ := Eng.bind_ok_iff.mp h
  refine (setSr_tame _).enforced h1 <| (setBitcnt_tame _).enforced h2 <| enableDataDriver_tame.enforced h3 ?_
  cases p with
  | some f =>
    obtain ⟨e, -⟩ := Eng.pure_ok_iff.mp h
    cases e
    exact sSendBits_bound h4
  | none =>
    obtain ⟨_, s5, h5, h⟩ := Eng.bind_ok_iff.mp h
    obtain ⟨_, s6, h6, h⟩ := Eng.bind_ok_iff.mp h
    obtain ⟨q, s7, h7, h⟩ := Eng.bind_ok_iff.mp h
    cases SPulse.ofSend_expired (congrArg Prod.fst (Eng.pure_ok_iff.mp h).1)
    exact (sSendBits_tame _ _).enforced h4 <| releaseDataHigh_tame.enforced h5 <| disableDataDriver_tame.enforced h6 <|
      sPutBit_bound h7

theorem sClockByte_bound {s t : State} (h : sClockByte.run s = .ok (some .expired) t) :
    s.params.timeoutEnforced = true := by
  unfold sClockByte at h
  obtain ⟨r1, s1, h1, h⟩ := Eng.bind_ok_iff.mp h
  cases r1 with
  | expired => exact waitUntil_expired clock_or_free_inputs h1
  | ok =>
    refine (waitUntil_tame clock_or_free_inputs).enforced h1 ?_
    simp only [reduceCtorEq, if_false] at h
    obtain ⟨_, _, hg, h⟩ := Eng.bind_ok_iff.mp h
    obtain ⟨rfl, rfl⟩ := Eng.get_ok_iff.mp hg
    split at h
    · simp at h
    · obtain ⟨_, s3, h3, h⟩ := Eng.bind_ok_iff.mp h
      obtain ⟨_, s4, h4, h⟩ := Eng.bind_ok_iff.mp h
      obtain ⟨_, _, hg, h⟩ := Eng.bind_ok_iff.mp h
      obtain ⟨rfl, rfl⟩ := Eng.get_ok_iff.mp hg
      obtain ⟨p, s5, h5, h⟩ := Eng.bind_ok_iff.mp h
      cases p with
      | done =>
        obtain ⟨_, s6, -, h⟩ := Eng.bind_ok_iff.mp h
        simp at h
      | expired =>
        exact releaseDataHigh_tame.enforced h3 <| disableDataDriver_tame.enforced h4 <| sRecvBits_bound h5
      | stop | start => simp at h

theorem sClockIn_bound {n : Nat} {s t : State} (h : (sClockIn n).run s = .ok .expired t) :
    s.params.timeoutEnforced = true := by
  induction n generalizing s with
  | zero => simp [sClockIn] at h
  | succ n ih =>
    rw [sClockIn] at h
    obtain ⟨p, s1, h1, h⟩ := Eng.bind_ok_iff.mp h
    cases p with
    | some r =>
      obtain ⟨rfl, -⟩ := Eng.pure_ok_iff.mp h
      exact sClockByte_bound h1
    | none =>
      obtain ⟨_, s2, h2, h⟩ := Eng.bind_ok_iff.mp h
      obtain ⟨_, s3, h3, h⟩ := Eng.bind_ok_iff.mp h
      obtain ⟨_, s4, h4, h⟩ := Eng.bind_ok_iff.mp h
      obtain ⟨_, s5, h5, h⟩ := Eng.bind_ok_iff.mp h
      exact sClockByte_tame.enforced h1 <| (setSState_tame _).enforced h2 <| consumeStart_tame.enforced h3 <|
        (setBitcnt_tame _).enforced h4 <| (setSState_tame _).enforced h5 <| ih h

end Sys2Proof.Machine
end

