-- ==== Sys2Proof/Laws/Decode.lean ====
section
/-! SUPPORT. The fields of a command word and the word of six fields are two views of the same 32 bits (30_encoding.md R86). -/

namespace Sys2Proof

theorem fieldsOfWord_toWord (x : CommandFields) : fieldsOfWord x.toWord = x := by
  obtain ⟨op, z, f, a, b, c⟩ := x
  simp only [fieldsOfWord, CommandFields.toWord, CommandFields.mk.injEq]
  refine ⟨?_, ?_, ?_, ?_, ?_, ?_⟩
  case refine_3 =>
    simp only [BitVec.getLsbD_append]
    split_ifs <;> first | omega | (cases f <;> rfl)
  all_goals
    ext i hi
    simp only [BitVec.getElem_extractLsb', BitVec.getLsbD_append]
    split_ifs <;> first | omega | (rw [← BitVec.getLsbD_eq_getElem]; congr 1; omega)

theorem toWord_fieldsOfWord (w : Word) : (fieldsOfWord w).toWord = w := by
  apply BitVec.eq_of_getLsbD_eq
  intro i hi
  have part (start len j : Nat) (h : start + j = i) (hj : j < len) : (w.extractLsb' start len).getLsbD j = w.getLsbD i := by
    rw [BitVec.getLsbD_extractLsb', h]; simp [hj]
  simp only [fieldsOfWord, CommandFields.toWord, BitVec.getLsbD_append]
  split_ifs
  · exact part 0 8 i (by omega) (by omega)
  · exact part 8 8 _ (by omega) (by omega)
  · exact part 16 8 _ (by omega) (by omega)
  · obtain rfl : i = 24 := by omega
    simp
  · exact part 25 3 _ (by omega) (by omega)
  · exact part 28 4 _ (by omega) (by omega)

end Sys2Proof
end

