-- ==== Sys2Proof/Laws/Outcomes.lean ====
section
/-! SUPPORT. Everything the body of a command can do, whatever the environment does: its end states, and what it leaves alone
(60_exceptions.md R271's table, row by row). -/

namespace Sys2Proof.Machine

/-! ### Views -/

/-- The state without what SEND, RECV and RELEASE may change. -/
def State.beyondMaster (s : State) : State := { s.beyondByte with status := 0, role := .idle, mstate := .idle }

/-- The state without what OPEN may change. -/
def State.beyondOpen (s : State) : State := { s.beyondMaster with dir := .write }

/-- The state without what SSEND and SRECV may change. -/
def State.beyondSlave (s : State) : State := { s.beyondByte with status := 0, role := .idle, sstate := .watchingForStart }

/-- The end of a failed master command: idle, both lines let go (R138). -/
def State.failed (s : State) : Prop := s.role = .idle ∧ s.mstate = .busError ∧ s.released

/-- No START is pending and the bus is busy (R168). -/
def State.quiet (s : State) : Prop := s.startSeen = false ∧ s.busBusy = true

theorem mAbort_failed {s t : State} (h : mAbort.run s = .ok () t) :
    t.failed ∧ t.beyondMaster = s.beyondMaster ∧ t.status = s.status ∧ t.bitcnt = s.bitcnt ∧ t.sr = s.sr ∧ t.dir = s.dir ∧
      t.draws = s.draws := by
  obtain ⟨h1, h2, h3, h4⟩ := mAbort_ok h
  exact ⟨⟨h2, h3, h1⟩, (congrArg State.beyondMaster h4 :), (congrArg State.status h4 :), (congrArg State.bitcnt h4 :),
    (congrArg State.sr h4 :), (congrArg State.dir h4 :), (congrArg State.draws h4 :)⟩

theorem mForceStop_failed {s t : State} (h : mForceStop.run s = .ok () t) :
    t.failed ∧ t.beyondMaster = s.beyondMaster ∧ t.bitcnt = s.bitcnt ∧ t.dir = s.dir ∧
      (t.status = s.status ∨ t.status = setFlags s.status Flag.timedOut ∨ t.status = setFlags s.status Flag.lineBlocked) := by
  obtain ⟨h1, h2, h3, h4, h5⟩ := mForceStop_ok h
  exact ⟨⟨h2, h3, h1⟩, (congrArg State.beyondMaster h5 :), (congrArg State.bitcnt h5 :), (congrArg State.dir h5 :), h4⟩

theorem mForceStop_bound {s t : State} (h : mForceStop.run s = .ok () t) (hu : s.params.timeoutEnforced = false) :
    t.status = s.status := by
  obtain ⟨_, s1, h1, h⟩ := Eng.bind_ok_iff.mp h
  obtain ⟨_, s2, h2, h3⟩ := Eng.bind_ok_iff.mp h
  rw [← mStop_bound h1 hu, ← Eng.modify_ok_iff.mp h3, ← Eng.modify_ok_iff.mp h2]

/-! ### SEND (R139) -/

theorem sendBody_ok {v : Byte} {s t : State} {a : Answer} (ha : (Instr.send v).allowed s = true)
    (h : (sendBody v).run s = .ok a t) :
    a = .none ∧ t.beyondMaster = s.beyondMaster ∧ t.bitcnt.toNat ≤ 8 ∧
    (t.role = s.role ∧ t.mstate = s.mstate ∧ t.clockHeld ∧ t.bitcnt = 8 ∧ (s.unraced → t.quiet) ∧
        (t.status = s.status ∨ t.status = setFlags s.status Flag.noAck) ∨
      t.role = .idle ∧ t.mstate = .arbitrationLost ∧ t.released ∧ t.status = setFlags s.status Flag.arbitrationLost ∧
        s.params.multi = true ∨
      t.failed ∧ t.status = setFlags s.status Flag.timedOut ∧ s.params.timeoutEnforced = true ∨
      t.failed ∧ (t.status = setFlags s.status Flag.protocolFail ∨
        s.params.timeoutEnforced = true ∧
          (t.status = setFlags (setFlags s.status Flag.protocolFail) Flag.timedOut ∨
            t.status = setFlags (setFlags s.status Flag.protocolFail) Flag.lineBlocked))) := by
  unfold sendBody at h
  obtain ⟨_, _, hg, h⟩ := Eng.bind_ok_iff.mp h
  obtain ⟨rfl, rfl⟩ := Eng.get_ok_iff.mp hg
  have hc : (s.params.masterEn && s.holding && s.dir == .write) = true := by
    simp only [Instr.allowed, Bool.and_eq_true] at ha
    simp [State.holding, ha]
  rw [if_pos hc] at h
  obtain ⟨r, s1, h1, h⟩ := Eng.bind_ok_iff.mp h
  have o1 := mSendByte_ok h1
  have k1 := (mSendByte_keeps _ _).ok h1
  have m1 : s1.beyondMaster = s.beyondMaster := (congrArg State.beyondMaster k1 :)
  have r1 : s1.role = s.role := (congrArg State.role k1 :)
  have t1 : s1.mstate = s.mstate := (congrArg State.mstate k1 :)
  have f1 : s1.status = s.status := (congrArg State.status k1 :)
  have p1 : s1.params = s.params := (congrArg State.params k1 :)
  have q1 : s.unraced → (r = .acked ∨ r = .nacked) → s1.quiet := fun hu hr => mSendByte_quiet hu h1 hr
  have b1 : r = .expired → s.params.timeoutEnforced = true := fun hr => mSendByte_bound (hr ▸ h1)
  clear h1 k1
  cases r with
  | acked =>
    obtain ⟨rfl, rfl⟩ := Eng.pure_ok_iff.mp h
    exact ⟨rfl, m1, by rw [o1.2]; decide, .inl ⟨r1, t1, o1.1, o1.2, fun hu => q1 hu (.inl rfl), .inl f1⟩⟩
  | nacked =>
    obtain ⟨_, s2, h2, h⟩ := Eng.bind_ok_iff.mp h
    obtain rfl := Eng.modify_ok_iff.mp h2
    obtain ⟨rfl, rfl⟩ := Eng.pure_ok_iff.mp h
    exact ⟨rfl, m1, by rw [o1.2]; decide, .inl ⟨r1, t1, o1.1, o1.2, fun hu => q1 hu (.inr rfl), .inr (by rw [← f1])⟩⟩
  | lost =>
    obtain ⟨_, s2, h2, h⟩ := Eng.bind_ok_iff.mp h
    obtain rfl := Eng.modify_ok_iff.mp h2
    obtain ⟨_, s3, h3, h⟩ := Eng.bind_ok_iff.mp h
    obtain rfl := Eng.modify_ok_iff.mp h3
    obtain ⟨_, s4, h4, h⟩ := Eng.bind_ok_iff.mp h
    obtain rfl := Eng.modify_ok_iff.mp h4
    obtain ⟨rfl, rfl⟩ := Eng.pure_ok_iff.mp h
    exact ⟨rfl, m1, o1.2.2.2, .inr (.inl ⟨rfl, rfl, o1.1, by rw [← f1], o1.2.1⟩)⟩
  | expired =>
    obtain ⟨_, s2, h2, h⟩ := Eng.bind_ok_iff.mp h
    obtain rfl := Eng.modify_ok_iff.mp h2
    obtain ⟨_, s3, h3, h⟩ := Eng.bind_ok_iff.mp h
    obtain ⟨rfl, rfl⟩ := Eng.pure_ok_iff.mp h
    obtain ⟨g1, g2, g3, g4, -⟩ := mAbort_failed h3
    exact ⟨rfl, g2.trans m1, by rw [g4]; exact o1.2, .inr (.inr (.inl ⟨g1, by rw [g3, ← f1], b1 rfl⟩))⟩
  | illegal =>
    obtain ⟨_, s2, h2, h⟩ := Eng.bind_ok_iff.mp h
    obtain rfl := Eng.modify_ok_iff.mp h2
    obtain ⟨_, s3, h3, h⟩ := Eng.bind_ok_iff.mp h
    obtain ⟨rfl, rfl⟩ := Eng.pure_ok_iff.mp h
    obtain ⟨g1, g2, g3, -, g4⟩ := mForceStop_failed h3
    refine ⟨rfl, g2.trans m1, by rw [g3]; exact o1.2, .inr (.inr (.inr ⟨g1, ?_⟩))⟩
    cases hu : s.params.timeoutEnforced
    · exact .inl (by rw [mForceStop_bound h3 (p1 ▸ hu), ← f1])
    · simp only [f1] at g4
      rcases g4 with g | g | g
      · exact .inl g
      · exact .inr ⟨rfl, .inl g⟩
      · exact .inr ⟨rfl, .inr g⟩

/-! ### RECV (R140) -/

theorem anyByte_ok {s t : State} {v : Byte} (h : anyByte.run s = .ok v t) :
    v = Config.freeByte s.draws ∧ t = { s with draws := s.draws + 1 } := by
  unfold anyByte at h
  rw [Eng.modifyGet_run] at h
  cases h
  exact ⟨rfl, rfl⟩

theorem recvBody_ok {ack : Bool} {s t : State} {a : Answer} (ha : (Instr.recv ack).allowed s = true)
    (h : (recvBody ack).run s = .ok a t) :
    a.r = false ∧ { t with draws := s.draws }.beyondMaster = s.beyondMaster ∧ t.bitcnt.toNat ≤ 8 ∧
    (t.role = s.role ∧ t.mstate = s.mstate ∧ t.clockHeld ∧ t.bitcnt = 8 ∧ (s.unraced → t.quiet) ∧
        t.status = s.status ∧ t.draws = s.draws ∧ a.data = t.sr ∨
      (t.draws = s.draws + 1 ∧ a.data = Config.freeByte s.draws) ∧
      (t.failed ∧ t.status = setFlags s.status Flag.timedOut ∧ s.params.timeoutEnforced = true ∨
        t.failed ∧ (t.status = setFlags s.status Flag.protocolFail ∨
          s.params.timeoutEnforced = true ∧
            (t.status = setFlags (setFlags s.status Flag.protocolFail) Flag.timedOut ∨
              t.status = setFlags (setFlags s.status Flag.protocolFail) Flag.lineBlocked)))) := by
  unfold recvBody at h
  obtain ⟨_, _, hg, h⟩ := Eng.bind_ok_iff.mp h
  obtain ⟨rfl, rfl⟩ := Eng.get_ok_iff.mp hg
  have hc : (s.params.masterEn && s.holding && s.dir == .read) = true := by
    simp only [Instr.allowed, Bool.and_eq_true] at ha
    simp [State.holding, ha]
  rw [if_pos hc] at h
  obtain ⟨r, s1, h1, h⟩ := Eng.bind_ok_iff.mp h
  have o1 := mRecvByte_ok h1
  have k1 := (mRecvByte_keeps _).ok h1
  have m1 : s1.beyondMaster = s.beyondMaster := (congrArg State.beyondMaster k1 :)
  have r1 : s1.role = s.role := (congrArg State.role k1 :)
  have t1 : s1.mstate = s.mstate := (congrArg State.mstate k1 :)
  have f1 : s1.status = s.status := (congrArg State.status k1 :)
  have p1 : s1.params = s.params := (congrArg State.params k1 :)
  have d1 : s1.draws = s.draws := (congrArg State.draws k1 :)
  have b1 : r = .expired → s.params.timeoutEnforced = true := fun hr => mRecvByte_bound (hr ▸ h1)
  clear h1 k1
  cases r with
  | done =>
    obtain ⟨_, _, hg, h⟩ := Eng.bind_ok_iff.mp h
    obtain ⟨rfl, rfl⟩ := Eng.get_ok_iff.mp hg
    obtain ⟨rfl, rfl⟩ := Eng.pure_ok_iff.mp h
    refine ⟨rfl, ?_, by rw [o1.2.1]; decide, .inl ⟨r1, t1, o1.1, o1.2.1, o1.2.2, f1, d1, rfl⟩⟩
    rw [← m1, ← d1]
  | expired =>
    obtain ⟨_, s2, h2, h⟩ := Eng.bind_ok_iff.mp h
    obtain rfl := Eng.modify_ok_iff.mp h2
    obtain ⟨_, s3, h3, h⟩ := Eng.bind_ok_iff.mp h
    obtain ⟨v, s4, h4, h⟩ := Eng.bind_ok_iff.mp h
    obtain ⟨rfl, rfl⟩ := Eng.pure_ok_iff.mp h
    obtain ⟨g1, g2, g3, g4, -, -, g5⟩ := mAbort_failed h3
    obtain ⟨rfl, rfl⟩ := anyByte_ok h4
    have g5 : s3.draws = s.draws := g5.trans d1
    refine ⟨rfl, ?_, by rw [show State.bitcnt { s3 with draws := s3.draws + 1 } = s3.bitcnt from rfl, g4]; exact o1.2,
      .inr ⟨⟨by rw [← g5], by rw [g5]⟩, .inl ⟨g1, by rw [g3, ← f1], b1 rfl⟩⟩⟩
    rw [← m1, ← g5]; exact g2
  | illegal =>
    obtain ⟨_, s2, h2, h⟩ := Eng.bind_ok_iff.mp h
    obtain rfl := Eng.modify_ok_iff.mp h2
    obtain ⟨_, s3, h3, h⟩ := Eng.bind_ok_iff.mp h
    obtain ⟨v, s4, h4, h⟩ := Eng.bind_ok_iff.mp h
    obtain ⟨rfl, rfl⟩ := Eng.pure_ok_iff.mp h
    obtain ⟨g1, g2, g3, -, g4⟩ := mForceStop_failed h3
    obtain ⟨rfl, rfl⟩ := anyByte_ok h4
    have g5 : s3.draws = s.draws := (congrArg State.draws g2 :).trans d1
    refine ⟨rfl, ?_, by rw [show State.bitcnt { s3 with draws := s3.draws + 1 } = s3.bitcnt from rfl, g3]; exact o1.2,
      .inr ⟨⟨by rw [← g5], by rw [g5]⟩, .inr ⟨g1, ?_⟩⟩⟩
    · rw [← m1, ← g5]; exact g2
    · cases hu : s.params.timeoutEnforced
      · exact .inl ((mForceStop_bound h3 (p1 ▸ hu)).trans (by rw [← f1]))
      · simp only [f1] at g4
        rcases g4 with g | g | g
        · exact .inl g
        · exact .inr ⟨rfl, .inl g⟩
        · exact .inr ⟨rfl, .inr g⟩

/-! ### RELEASE (R211) -/

theorem mStop_status {s t : State} (h : mStop.run s = .ok () t) :
    t.status = s.status ∨ s.params.timeoutEnforced = true ∧
      (t.status = setFlags s.status Flag.timedOut ∨ t.status = setFlags s.status Flag.lineBlocked) := by
  obtain ⟨-, g⟩ := mStop_ok h
  cases hu : s.params.timeoutEnforced
  · exact .inl (mStop_bound h hu)
  · rcases g with g | g | g
    · exact .inl g
    · exact .inr ⟨rfl, .inl g⟩
    · exact .inr ⟨rfl, .inr g⟩

theorem releaseBody_ok {s t : State} {a : Answer} (ha : Instr.release.allowed s = true) (h : releaseBody.run s = .ok a t) :
    a = .none ∧
    (s.holding = true ∧ t.role = .idle ∧ t.mstate = .idle ∧ t.released ∧ t.bitcnt = s.bitcnt ∧ t.sr = s.sr ∧
        t.beyondMaster = s.beyondMaster ∧
        (t.status = s.status ∨ s.params.timeoutEnforced = true ∧
          (t.status = setFlags s.status Flag.timedOut ∨ t.status = setFlags s.status Flag.lineBlocked)) ∨
      s.recoveryPending = true ∧ t.role = .idle ∧ t.mstate = .idle ∧ t.sclLow = false ∧ t.sdaLow = s.sdaLow ∧
        t.sdaOe = s.sdaOe ∧ { t with role := s.role, mstate := s.mstate }.beyondLines = s.beyondLines ∨
      s.holding = false ∧ s.recoveryPending = false ∧ t = s) := by
  unfold releaseBody at h
  obtain ⟨_, _, hg, h⟩ := Eng.bind_ok_iff.mp h
  obtain ⟨rfl, rfl⟩ := Eng.get_ok_iff.mp hg
  have hc : (s.params.masterEn && (s.role == .idle || s.role == .master)) = true := ha
  rw [if_pos hc] at h
  split at h
  · rename_i hh
    obtain ⟨_, s2, h2, h⟩ := Eng.bind_ok_iff.mp h
    obtain ⟨_, s3, h3, h⟩ := Eng.bind_ok_iff.mp h
    obtain ⟨_, s4, h4, h⟩ := Eng.bind_ok_iff.mp h
    obtain rfl := Eng.modify_ok_iff.mp h3
    obtain rfl := Eng.modify_ok_iff.mp h4
    obtain ⟨rfl, rfl⟩ := Eng.pure_ok_iff.mp h
    have k := mStop_keeps.ok h2
    have g := (mStop_ok h2).1
    have f := mStop_status h2
    exact ⟨rfl, .inl ⟨hh, rfl, rfl, g, (congrArg State.bitcnt k :), (congrArg State.sr k :),
      (congrArg State.beyondMaster k :), f⟩⟩
  · rename_i hh
    have hh : s.holding = false := by simpa using hh
    split at h
    · rename_i hp
      obtain ⟨_, s2, h2, h⟩ := Eng.bind_ok_iff.mp h
      obtain ⟨_, s3, h3, h⟩ := Eng.bind_ok_iff.mp h
      obtain ⟨_, s4, h4, h⟩ := Eng.bind_ok_iff.mp h
      obtain rfl := Eng.modify_ok_iff.mp h3
      obtain rfl := Eng.modify_ok_iff.mp h4
      obtain ⟨rfl, rfl⟩ := Eng.pure_ok_iff.mp h
      have o := releaseClockHigh_ok h2
      have k := releaseClockHigh_keeps.ok h2
      have kr : s2.role = s.role := (congrArg State.role k :)
      have km : s2.mstate = s.mstate := (congrArg State.mstate k :)
      refine ⟨rfl, .inr (.inl ⟨hp, rfl, rfl, o.1, o.2.1, o.2.2, ?_⟩)⟩
      rw [← k, ← kr, ← km]
    · rename_i hp
      obtain ⟨rfl, rfl⟩ := Eng.pure_ok_iff.mp h
      exact ⟨rfl, .inr (.inr ⟨hh, by simpa using hp, rfl⟩)⟩

/-! ### OPEN (R163, R164, R169) -/

/-- The repeated-START part of OPEN: it goes on with the clock held, or it has failed (R161, R163). -/
theorem openRestart_ok {s t : State} {p : Bool} (h : (openRestart s.params.multi).run s = .ok p t) :
    t.beyondMaster = s.beyondMaster ∧ t.bitcnt = s.bitcnt ∧ t.dir = s.dir ∧
    (p = true ∧ t.role = s.role ∧ t.mstate = .startAsserted ∧ t.status = s.status ∨
      p = false ∧ t.role = .idle ∧ t.released ∧ s.params.timeoutEnforced = true ∧
        (t.mstate = .arbitrationLost ∧ t.status = setFlags s.status Flag.arbitrationLost ∧ s.params.multi = true ∨
          t.mstate = .busError ∧
            (t.status = setFlags s.status Flag.lineBlocked ∨ t.status = setFlags s.status Flag.timedOut))) := by
  unfold openRestart at h
  obtain ⟨r, s1, h1, h⟩ := Eng.bind_ok_iff.mp h
  have k1 := mRestart_keeps.ok h1
  have m1 : s1.beyondMaster = s.beyondMaster := (congrArg State.beyondMaster k1 :)
  have f1 : s1.status = s.status := (congrArg State.status k1 :)
  have c1 : s1.bitcnt = s.bitcnt := (congrArg State.bitcnt k1 :)
  have d1 : s1.dir = s.dir := (congrArg State.dir k1 :)
  have r1 : s1.role = s.role := (congrArg State.role k1 :)
  have b1 : r ≠ .ok → s.params.timeoutEnforced = true := mRestart_bound h1
  clear h1 k1
  cases r with
  | ok =>
    obtain ⟨_, s2, h2, h⟩ := Eng.bind_ok_iff.mp h
    obtain rfl := Eng.modify_ok_iff.mp h2
    obtain ⟨rfl, rfl⟩ := Eng.pure_ok_iff.mp h
    exact ⟨m1, c1, d1, .inl ⟨rfl, r1, rfl, f1⟩⟩
  | stuck =>
    cases hm : s.params.multi with
    | true =>
      simp only [hm, if_true] at h
      obtain ⟨_, s2, h2, h⟩ := Eng.bind_ok_iff.mp h
      obtain rfl := Eng.modify_ok_iff.mp h2
      obtain ⟨_, s3, h3, h⟩ := Eng.bind_ok_iff.mp h
      obtain ⟨⟨g1, g2, g3⟩, g4, g5, g6, -, g7, -⟩ := mAbort_failed h3
      obtain ⟨_, s4, h4, h⟩ := Eng.bind_ok_iff.mp h
      obtain rfl := Eng.modify_ok_iff.mp h4
      obtain ⟨rfl, rfl⟩ := Eng.pure_ok_iff.mp h
      exact ⟨g4.trans m1, g6.trans c1, g7.trans d1,
        .inr ⟨rfl, g1, g3, b1 (by simp), .inl ⟨rfl, g5.trans (by rw [← f1]), rfl⟩⟩⟩
    | false =>
      simp only [hm, Bool.false_eq_true, if_false] at h
      obtain ⟨_, s2, h2, h⟩ := Eng.bind_ok_iff.mp h
      obtain rfl := Eng.modify_ok_iff.mp h2
      obtain ⟨_, s3, h3, h⟩ := Eng.bind_ok_iff.mp h
      obtain ⟨⟨g1, g2, g3⟩, g4, g5, g6, -, g7, -⟩ := mAbort_failed h3
      obtain ⟨rfl, rfl⟩ := Eng.pure_ok_iff.mp h
      exact ⟨g4.trans m1, g6.trans c1, g7.trans d1,
        .inr ⟨rfl, g1, g3, b1 (by simp), .inr ⟨g2, .inl (g5.trans (by rw [← f1]))⟩⟩⟩
  | expired | unconfirmed =>
    obtain ⟨_, s2, h2, h⟩ := Eng.bind_ok_iff.mp h
    obtain rfl := Eng.modify_ok_iff.mp h2
    obtain ⟨_, s3, h3, h⟩ := Eng.bind_ok_iff.mp h
    obtain ⟨⟨g1, g2, g3⟩, g4, g5, g6, -, g7, -⟩ := mAbort_failed h3
    obtain ⟨rfl, rfl⟩ := Eng.pure_ok_iff.mp h
    exact ⟨g4.trans m1, g6.trans c1, g7.trans d1,
      .inr ⟨rfl, g1, g3, b1 (by simp), .inr ⟨g2, .inr (g5.trans (by rw [← f1]))⟩⟩⟩

/-- The part of OPEN for a bus the engine does not hold: it goes on with its START on the bus, it finds the bus taken, or it
has failed (R160, R163, R169). -/
theorem openStart_ok {s t : State} {p : Bool} (h : (openStart s.params.multi).run s = .ok p t) :
    t.beyondMaster = s.beyondMaster ∧ t.dir = s.dir ∧
    (p = true ∧ t.role = .master ∧ t.mstate = .startAsserted ∧ t.status = s.status ∧ t.bitcnt = s.bitcnt ∨
      p = false ∧ s.params.multi = true ∧ s.startSeen = true ∧ s.slven = true ∧
        t = { s with
          status := setFlags s.status (Flag.arbitrationLost ||| Flag.restarted), mstate := .arbitrationLost, bitcnt := 0,
          role := .master } ∨
      p = false ∧ s.params.multi = true ∧ s.startSeen = true ∧ s.slven = false ∧ t.role = .idle ∧
        t.mstate = .arbitrationLost ∧ t.sclLow = false ∧ t.sdaLow = s.sdaLow ∧ t.sdaOe = s.sdaOe ∧ t.bitcnt = 0 ∧
        t.status = setFlags s.status (Flag.arbitrationLost ||| Flag.restarted) ∨
      p = false ∧ s.params.multi = true ∧ s.startSeen = false ∧ s.busBusy = true ∧ t.role = .idle ∧
        t.mstate = .arbitrationLost ∧ t.sclLow = false ∧ t.sdaLow = s.sdaLow ∧ t.sdaOe = s.sdaOe ∧ t.bitcnt = s.bitcnt ∧
        t.status = setFlags s.status Flag.arbitrationLost ∨
      p = false ∧ t.failed ∧ t.bitcnt = s.bitcnt ∧ s.params.timeoutEnforced = true ∧
        (t.status = setFlags s.status Flag.lineBlocked ∨ t.status = setFlags s.status Flag.timedOut)) := by
  unfold openStart at h
  obtain ⟨_, _, hg, h⟩ := Eng.bind_ok_iff.mp h
  obtain ⟨rfl, rfl⟩ := Eng.get_ok_iff.mp hg
  split at h
  · rename_i hc
    simp only [Bool.and_eq_true] at hc
    obtain ⟨_, s2, h2, h⟩ := Eng.bind_ok_iff.mp h
    obtain rfl := Eng.modify_ok_iff.mp h2
    obtain ⟨_, s3, h3, h⟩ := Eng.bind_ok_iff.mp h
    obtain rfl := Eng.modify_ok_iff.mp h3
    obtain ⟨_, s4, h4, h⟩ := Eng.bind_ok_iff.mp h
    obtain rfl := Eng.modify_ok_iff.mp h4
    split at h
    · rename_i hs
      obtain ⟨_, s5, h5, h⟩ := Eng.bind_ok_iff.mp h
      obtain rfl := Eng.modify_ok_iff.mp h5
      obtain ⟨rfl, rfl⟩ := Eng.pure_ok_iff.mp h
      exact ⟨rfl, rfl, .inr (.inl ⟨rfl, hc.1, hc.2, hs, rfl⟩)⟩
    · rename_i hs
      obtain ⟨_, s5, h5, h⟩ := Eng.bind_ok_iff.mp h
      obtain rfl := Eng.modify_ok_iff.mp h5
      obtain ⟨_, s6, h6, h⟩ := Eng.bind_ok_iff.mp h
      obtain ⟨rfl, rfl⟩ := Eng.pure_ok_iff.mp h
      have o := releaseClockHigh_ok h6
      have k := releaseClockHigh_keeps.ok h6
      exact ⟨(congrArg State.beyondMaster k :), (congrArg State.dir k :), .inr (.inr (.inl ⟨rfl, hc.1, hc.2,
        by simpa using hs, (congrArg State.role k :), (congrArg State.mstate k :), o.1, o.2.1, o.2.2,
        (congrArg State.bitcnt k :), (congrArg State.status k :)⟩))⟩
  · rename_i hc
    split at h
    · rename_i hb
      simp only [Bool.and_eq_true] at hb
      obtain ⟨_, s2, h2, h⟩ := Eng.bind_ok_iff.mp h
      obtain rfl := Eng.modify_ok_iff.mp h2
      obtain ⟨_, s3, h3, h⟩ := Eng.bind_ok_iff.mp h
      obtain rfl := Eng.modify_ok_iff.mp h3
      obtain ⟨_, s4, h4, h⟩ := Eng.bind_ok_iff.mp h
      obtain rfl := Eng.modify_ok_iff.mp h4
      obtain ⟨_, s6, h6, h⟩ := Eng.bind_ok_iff.mp h
      obtain ⟨rfl, rfl⟩ := Eng.pure_ok_iff.mp h
      have o := releaseClockHigh_ok h6
      have k := releaseClockHigh_keeps.ok h6
      have hs : s.startSeen = false := by simpa [hb.1] using hc
      exact ⟨(congrArg State.beyondMaster k :), (congrArg State.dir k :), .inr (.inr (.inr (.inl ⟨rfl, hb.1, hs, hb.2,
        (congrArg State.role k :), (congrArg State.mstate k :), o.1, o.2.1, o.2.2, (congrArg State.bitcnt k :),
        (congrArg State.status k :)⟩)))⟩
    · obtain ⟨_, s2, h2, h⟩ := Eng.bind_ok_iff.mp h
      obtain rfl := Eng.modify_ok_iff.mp h2
      obtain ⟨_, s3, h3, h⟩ := Eng.bind_ok_iff.mp h
      obtain rfl := Eng.modify_ok_iff.mp h3
      obtain ⟨r, s1, h1, h⟩ := Eng.bind_ok_iff.mp h
      have k1 := mStart_keeps.ok h1
      have m1 : s1.beyondMaster = s.beyondMaster := (congrArg State.beyondMaster k1 :)
      have f1 : s1.status = s.status := (congrArg State.status k1 :)
      have c1 : s1.bitcnt = s.bitcnt := (congrArg State.bitcnt k1 :)
      have d1 : s1.dir = s.dir := (congrArg State.dir k1 :)
      have b1 : r ≠ .ok → s.params.timeoutEnforced = true := by have b := mStart_bound h1; exact b
      clear h1 k1
      cases r with
      | ok =>
        obtain ⟨_, s4, h4, h⟩ := Eng.bind_ok_iff.mp h
        obtain rfl := Eng.modify_ok_iff.mp h4
        obtain ⟨_, s5, h5, h⟩ := Eng.bind_ok_iff.mp h
        obtain rfl := Eng.modify_ok_iff.mp h5
        obtain ⟨rfl, rfl⟩ := Eng.pure_ok_iff.mp h
        exact ⟨m1, d1, .inl ⟨rfl, rfl, rfl, f1, c1⟩⟩
      | blocked =>
        obtain ⟨_, s4, h4, h⟩ := Eng.bind_ok_iff.mp h
        obtain rfl := Eng.modify_ok_iff.mp h4
        obtain ⟨_, s5, h5, h⟩ := Eng.bind_ok_iff.mp h
        obtain ⟨rfl, rfl⟩ := Eng.pure_ok_iff.mp h
        obtain ⟨g1, g4, g5, g6, -, g7, -⟩ := mAbort_failed h5
        exact ⟨g4.trans m1, g7.trans d1, .inr (.inr (.inr (.inr ⟨rfl, g1, g6.trans c1, b1 (by simp),
          .inl (g5.trans (by rw [← f1]))⟩)))⟩
      | unconfirmed =>
        obtain ⟨_, s4, h4, h⟩ := Eng.bind_ok_iff.mp h
        obtain rfl := Eng.modify_ok_iff.mp h4
        obtain ⟨_, s5, h5, h⟩ := Eng.bind_ok_iff.mp h
        obtain ⟨rfl, rfl⟩ := Eng.pure_ok_iff.mp h
        obtain ⟨g1, g4, g5, g6, -, g7, -⟩ := mAbort_failed h5
        exact ⟨g4.trans m1, g7.trans d1, .inr (.inr (.inr (.inr ⟨rfl, g1, g6.trans c1, b1 (by simp),
          .inr (g5.trans (by rw [← f1]))⟩)))⟩

/-- The address part of OPEN: every outcome of R164. -/
theorem openAddress_ok {af : Byte} {s t : State} (h : (openAddress af s.params.multi).run s = .ok () t) :
    t.beyondOpen = s.beyondOpen ∧ t.dir = dirOf af ∧ t.bitcnt.toNat ≤ 8 ∧
    (t.role = s.role ∧ t.clockHeld ∧ t.bitcnt = 8 ∧ (s.unraced → t.quiet) ∧
        (t.mstate = .acked ∧ t.status = setFlags s.status Flag.success ∨
          t.mstate = .nacked ∧ t.status = setFlags s.status Flag.noAck) ∨
      t.role = (if s.slven then .master else .idle) ∧ t.mstate = .arbitrationLost ∧ t.released ∧ s.params.multi = true ∧
        t.status = setFlags s.status (Flag.arbitrationLost ||| Flag.restarted) ∨
      t.failed ∧ s.params.timeoutEnforced = true ∧ t.status = setFlags s.status Flag.timedOut ∨
      t.failed ∧ (t.status = setFlags s.status Flag.protocolFail ∨
        s.params.timeoutEnforced = true ∧
          (t.status = setFlags (setFlags s.status Flag.protocolFail) Flag.timedOut ∨
            t.status = setFlags (setFlags s.status Flag.protocolFail) Flag.lineBlocked))) := by
  unfold openAddress at h
  obtain ⟨_, s0, h0, h⟩ := Eng.bind_ok_iff.mp h
  obtain rfl := Eng.modify_ok_iff.mp h0
  obtain ⟨r, s1, h1, h⟩ := Eng.bind_ok_iff.mp h
  have o1 := mSendByte_ok h1
  have k1 := (mSendByte_keeps _ _).ok h1
  have m1 : s1.beyondOpen = s.beyondOpen := (congrArg State.beyondOpen k1 :)
  have r1 : s1.role = s.role := (congrArg State.role k1 :)
  have f1 : s1.status = s.status := (congrArg State.status k1 :)
  have p1 : s1.params = s.params := (congrArg State.params k1 :)
  have v1 : s1.slven = s.slven := (congrArg State.slven k1 :)
  have d1 : s1.dir = dirOf af := (congrArg State.dir k1 :)
  have q1 : s.unraced → (r = .acked ∨ r = .nacked) → s1.quiet := fun hu hr => mSendByte_quiet (by exact hu) h1 hr
  have b1 : r = .expired → s.params.timeoutEnforced = true := by
    intro hr; have b := mSendByte_bound (hr ▸ h1); exact b
  clear h1 k1
  cases r with
  | acked =>
    obtain ⟨_, s2, h2, h⟩ := Eng.bind_ok_iff.mp h
    obtain rfl := Eng.modify_ok_iff.mp h2
    obtain ⟨_, s3, h3, h⟩ := Eng.bind_ok_iff.mp h
    obtain rfl := Eng.modify_ok_iff.mp h3
    obtain rfl := Eng.modify_ok_iff.mp h
    exact ⟨m1, d1, by show s1.bitcnt.toNat ≤ 8; rw [o1.2]; decide,
      .inl ⟨r1, o1.1, o1.2, fun hu => q1 hu (.inl rfl), .inl ⟨rfl, by rw [← f1]⟩⟩⟩
  | nacked =>
    obtain ⟨_, s2, h2, h⟩ := Eng.bind_ok_iff.mp h
    obtain rfl := Eng.modify_ok_iff.mp h2
    obtain ⟨_, s3, h3, h⟩ := Eng.bind_ok_iff.mp h
    obtain rfl := Eng.modify_ok_iff.mp h3
    obtain rfl := Eng.modify_ok_iff.mp h
    exact ⟨m1, d1, by show s1.bitcnt.toNat ≤ 8; rw [o1.2]; decide,
      .inl ⟨r1, o1.1, o1.2, fun hu => q1 hu (.inr rfl), .inr ⟨rfl, by rw [← f1]⟩⟩⟩
  | lost =>
    obtain ⟨_, s2, h2, h⟩ := Eng.bind_ok_iff.mp h
    obtain rfl := Eng.modify_ok_iff.mp h2
    obtain ⟨_, s3, h3, h⟩ := Eng.bind_ok_iff.mp h
    obtain rfl := Eng.modify_ok_iff.mp h3
    obtain ⟨_, _, hg, h⟩ := Eng.bind_ok_iff.mp h
    obtain ⟨rfl, rfl⟩ := Eng.get_ok_iff.mp hg
    split at h
    · rename_i hs
      obtain rfl := Eng.modify_ok_iff.mp h
      exact ⟨m1, d1, o1.2.2.2, .inr (.inl ⟨by rw [← v1, if_pos hs], rfl, o1.1, o1.2.1, by rw [← f1]⟩)⟩
    · rename_i hs
      obtain rfl := Eng.modify_ok_iff.mp h
      exact ⟨m1, d1, o1.2.2.2, .inr (.inl ⟨by rw [← v1, if_neg hs], rfl, o1.1, o1.2.1, by rw [← f1]⟩)⟩
  | expired =>
    obtain ⟨_, s2, h2, h⟩ := Eng.bind_ok_iff.mp h
    obtain rfl := Eng.modify_ok_iff.mp h2
    obtain ⟨g1, g2, g3, g4, -, g5, -⟩ := mAbort_failed h
    exact ⟨(congrArg State.beyondOpen g2 :).trans m1, g5.trans d1, by rw [g4]; exact o1.2,
      .inr (.inr (.inl ⟨g1, b1 rfl, by rw [g3, ← f1]⟩))⟩
  | illegal =>
    obtain ⟨_, s2, h2, h⟩ := Eng.bind_ok_iff.mp h
    obtain rfl := Eng.modify_ok_iff.mp h2
    obtain ⟨g1, g2, g3, g5, g4⟩ := mForceStop_failed h
    refine ⟨(congrArg State.beyondOpen g2 :).trans m1, g5.trans d1, by rw [g3]; exact o1.2, .inr (.inr (.inr ⟨g1, ?_⟩))⟩
    cases hu : s.params.timeoutEnforced
    · exact .inl ((mForceStop_bound h (p1 ▸ hu)).trans (by rw [← f1]))
    · simp only [f1] at g4
      rcases g4 with g | g | g
      · exact .inl g
      · exact .inr ⟨rfl, .inl g⟩
      · exact .inr ⟨rfl, .inr g⟩

/-- What an allowed OPEN leaves when it completes (R164, R169, R271). -/
def State.openLeaves (af : Byte) (s t : State) : Prop :=
  t.beyondOpen = s.beyondOpen ∧ (t.bitcnt.toNat ≤ 8 ∨ t.bitcnt = s.bitcnt) ∧ (t.dir = s.dir ∨ t.dir = dirOf af) ∧
  (t.role = .master ∧ t.clockHeld ∧ t.bitcnt = 8 ∧ (s.unraced → t.quiet) ∧ t.dir = dirOf af ∧
      (t.mstate = .acked ∧ t.status = Flag.success ∨ t.mstate = .nacked ∧ t.status = Flag.noAck) ∨
    t.mstate = .arbitrationLost ∧ s.params.multi = true ∧
      (t.status = 0x140 ∧ t.role = (if s.slven then .master else .idle) ∧ t.released ∨
        s.holding = false ∧ s.startSeen = true ∧ s.slven = true ∧
          t = { s with status := 0x140, role := .master, mstate := .arbitrationLost, bitcnt := 0 } ∨
        s.holding = false ∧ s.startSeen = true ∧ s.slven = false ∧ t.status = 0x140 ∧ t.role = .idle ∧
          t.sclLow = false ∧ t.sdaLow = s.sdaLow ∧ t.sdaOe = s.sdaOe ∨
        s.holding = false ∧ s.busBusy = true ∧ t.status = 0x040 ∧ t.role = .idle ∧ t.sclLow = false ∧
          t.sdaLow = s.sdaLow ∧ t.sdaOe = s.sdaOe ∨
        t.status = 0x040 ∧ t.role = .idle ∧ t.released ∧ s.params.timeoutEnforced = true) ∨
    t.failed ∧ (t.status = 0x020 ∨ s.params.timeoutEnforced = true ∧ t.status ∈ [0x008, 0x010, 0x028, 0x030]))

/-- The address part of OPEN completes OPEN, from any state the START leaves. -/
theorem openAddress_leaves {af : Byte} {s u t : State} {a : Answer} (hs : u.status = 0)
    (hm : u.beyondMaster = s.beyondMaster) (hr : u.role = .master) (hu : s.unraced → u.unraced)
    (h : (do openAddress af s.params.multi; return Answer.none : Eng Answer).run u = .ok a t) :
    a = .none ∧ s.openLeaves af t := by
  have hp : u.params = s.params := (congrArg State.params hm :)
  have hv : u.slven = s.slven := (congrArg State.slven hm :)
  obtain ⟨_, s1, h1, h⟩ := Eng.bind_ok_iff.mp h
  obtain ⟨rfl, rfl⟩ := Eng.pure_ok_iff.mp h
  rw [← hp] at h1
  obtain ⟨g1, g2, g3, g⟩ := openAddress_ok h1
  rw [hs, hp, hv] at g
  refine ⟨rfl, g1.trans (congrArg State.beyondOpen hm :), .inl g3, .inr g2, ?_⟩
  rcases g with g | g | g | g
  · exact .inl ⟨g.1.trans hr, g.2.1, g.2.2.1, fun x => g.2.2.2.1 (hu x), g2, g.2.2.2.2⟩
  · exact .inr (.inl ⟨g.2.1, g.2.2.2.1, .inl ⟨g.2.2.2.2, g.1, g.2.2.1⟩⟩)
  · exact .inr (.inr ⟨g.1, .inr ⟨g.2.1, by rw [g.2.2]; decide⟩⟩)
  · refine .inr (.inr ⟨g.1, ?_⟩)
    rcases g.2 with e | ⟨b, e | e⟩
    · exact .inl e
    · exact .inr ⟨b, by rw [e]; decide⟩
    · exact .inr ⟨b, by rw [e]; decide⟩

/-- Every way an allowed OPEN can complete (R164, R169, R271). -/
theorem openBody_ok {af : Byte} {s t : State} {a : Answer} (ha : (Instr.openDevice af).allowed s = true)
    (h : (openBody af).run s = .ok a t) : a = .none ∧ s.openLeaves af t := by
  suffices key : ∀ s : State, s.status = 0 → (Instr.openDevice af).allowed s = true → (openBody af).run s = .ok a t →
      a = .none ∧ s.openLeaves af t from key { s with status := 0 } rfl ha h
  clear h ha s
  intro s hz ha h
  unfold openBody at h
  obtain ⟨_, s0, h0, h1⟩ := Eng.bind_ok_iff.mp h
  have e0 : s0 = s := by rw [← Eng.modify_ok_iff.mp h0, ← hz]
  subst e0
  clear h0 h
  obtain ⟨_, _, hg, h⟩ := Eng.bind_ok_iff.mp h1
  obtain ⟨rfl, rfl⟩ := Eng.get_ok_iff.mp hg
  have hc : (s0.params.masterEn && (s0.role == .idle || s0.role == .master)) = true := ha
  rw [if_pos hc] at h
  split at h
  · rename_i hh
    obtain ⟨p, s1, h1, h⟩ := Eng.bind_ok_iff.mp h
    obtain ⟨g1, g2, g3, g⟩ := openRestart_ok h1
    rw [hz] at g
    rcases g with ⟨rfl, g4, g5, g6⟩ | ⟨rfl, g4, g5, g6, g⟩
    · have hm : s0.role = .master := by simp [State.holding] at hh; exact hh.1
      exact openAddress_leaves g6 g1 (g4.trans hm) ((openRestart_tame _).unraced h1) h
    · obtain ⟨rfl, rfl⟩ := Eng.pure_ok_iff.mp h
      refine ⟨rfl, (congrArg State.beyondOpen g1 :), .inr g2, .inl g3, ?_⟩
      rcases g with g | ⟨g7, g | g⟩
      · exact .inr (.inl ⟨g.1, g.2.2, .inr (.inr (.inr (.inr ⟨g.2.1, g4, g5, g6⟩)))⟩)
      · exact .inr (.inr ⟨⟨g4, g7, g5⟩, .inr ⟨g6, by rw [g]; decide⟩⟩)
      · exact .inr (.inr ⟨⟨g4, g7, g5⟩, .inr ⟨g6, by rw [g]; decide⟩⟩)
  · rename_i hh
    have hh : s0.holding = false := by simpa using hh
    split at h
    · rename_i hp
      simp only [Bool.and_eq_true, beq_iff_eq] at hp
      obtain ⟨p, s1, h1, h⟩ := Eng.bind_ok_iff.mp h
      obtain ⟨rfl, rfl⟩ := Eng.pure_ok_iff.mp h1
      exact openAddress_leaves hz rfl hp.1 (fun x => x) h
    · obtain ⟨p, s1, h1, h⟩ := Eng.bind_ok_iff.mp h
      obtain ⟨g1, g3, g⟩ := openStart_ok h1
      rw [hz] at g
      rcases g with ⟨rfl, g4, g5, g6, g7⟩ | ⟨rfl, m, b, v, g⟩ | ⟨rfl, m, b, v, g⟩ | ⟨rfl, m, b, b', g⟩ | ⟨rfl, g4, g5, g6, g⟩
      · exact openAddress_leaves g6 g1 g4 ((openStart_tame _).unraced h1) h
      all_goals
        obtain ⟨rfl, rfl⟩ := Eng.pure_ok_iff.mp h
      · exact ⟨rfl, (congrArg State.beyondOpen g1 :), .inl (by rw [g]; exact Nat.zero_le _), .inl g3,
          .inr (.inl ⟨by rw [g], m, .inr (.inl ⟨hh, b, v, g⟩)⟩)⟩
      · exact ⟨rfl, (congrArg State.beyondOpen g1 :), .inl (by rw [g.2.2.2.2.2.1]; decide), .inl g3, .inr (.inl ⟨g.2.1, m,
          .inr (.inr (.inl ⟨hh, b, v, g.2.2.2.2.2.2, g.1, g.2.2.1, g.2.2.2.1, g.2.2.2.2.1⟩))⟩)⟩
      · exact ⟨rfl, (congrArg State.beyondOpen g1 :), .inr g.2.2.2.2.2.1, .inl g3, .inr (.inl ⟨g.2.1, m,
          .inr (.inr (.inr (.inl ⟨hh, b', g.2.2.2.2.2.2, g.1, g.2.2.1, g.2.2.2.1, g.2.2.2.2.1⟩)))⟩)⟩
      · refine ⟨rfl, (congrArg State.beyondOpen g1 :), .inr g5, .inl g3, .inr (.inr ⟨g4, .inr ⟨g6, ?_⟩⟩)⟩
        rcases g with g | g <;> rw [g] <;> decide

/-! ### POLL (R183 to R187, R225) -/

/-- The state without what POLL may change once it serves an address. -/
def State.beyondPoll (s : State) : State :=
  { s.beyondSlave with rxaddr := 0, dir := .write, startSeen := false }

/-- The end of a slave command that leaves the bus: idle, all lines let go (R183). -/
def State.left (s : State) : Prop := s.role = .idle ∧ s.sstate = .watchingForStart ∧ s.released

theorem sLeave_left {s t : State} (h : sLeave.run s = .ok () t) :
    t.left ∧ t.beyondSlave = s.beyondSlave ∧ t.status = s.status ∧ t.bitcnt = s.bitcnt ∧ t.sr = s.sr := by
  obtain ⟨h1, h2, h3, h4⟩ := sLeave_ok h
  exact ⟨⟨h2, h3, h1⟩, (congrArg State.beyondSlave h4 :), (congrArg State.status h4 :), (congrArg State.bitcnt h4 :),
    (congrArg State.sr h4 :)⟩

/-- In a pulse in which the engine pulls the data line low no START and no STOP can come: it cannot move a line the engine
pulls low (R189's corner cases). -/
theorem sPutBit_driven {s t : State} {r : SPulse} (ho : s.sdaOe = true) (h : (sPutBit false).run s = .ok r t) :
    r = .bit false ∨ r = .expired := by
  have low : ∀ u : State, u.outputs = (false, true, true) → u.sda = false := fun u hu => by
    simp only [State.outputs, Prod.mk.injEq] at hu
    exact State.sda_of_driven hu.2.1 hu.2.2
  unfold sPutBit at h
  obtain ⟨_, s1, h1, h⟩ := Eng.bind_ok_iff.mp h
  obtain ⟨_, s2, h2, h⟩ := Eng.bind_ok_iff.mp h
  have o1 := putData_ok h1
  have o2 := releaseClockHigh_ok h2
  have e2 : s2.outputs = (false, true, true) := by
    simp only [State.outputs, o2.1, o2.2.1, o2.2.2, o1.2.1, o1.2.2, ho]; rfl
  clear h1 h2
  unfold sWaitBit at h
  obtain ⟨r1, s3, h3, h⟩ := Eng.bind_ok_iff.mp h
  have e3 := (waitUntil_outputs _).ok h3
  cases r1 with
  | expired => simp at h; exact .inr h.1.symm
  | ok =>
    simp only [reduceCtorEq, if_false] at h
    obtain ⟨b, s4, h4, h⟩ := Eng.bind_ok_iff.mp h
    obtain ⟨_, s4', h4a, h4b⟩ := Eng.bind_ok_iff.mp h4
    obtain ⟨_, _, hg, h4b⟩ := Eng.bind_ok_iff.mp h4b
    obtain ⟨rfl, rfl⟩ := Eng.get_ok_iff.mp hg
    obtain ⟨rfl, rfl⟩ := Eng.pure_ok_iff.mp h4b
    have e4 : s4'.outputs = (false, true, true) := (races_outputs.ok h4a).trans (e3.trans e2)
    obtain ⟨r5, s5, h5, h⟩ := Eng.bind_ok_iff.mp h
    have e5 : s5.outputs = (false, true, true) := ((waitUntil_outputs _).ok h5).trans e4
    rw [low _ e4] at h h5
    cases r5 with
    | expired => simp at h; exact .inr h.1.symm
    | ok =>
      have c5 := (waitUntil_ok (clock_or_data_inputs false) h5).1
      simp only [low _ e5] at c5
      simp only [reduceCtorEq, if_false] at h
      obtain ⟨_, _, hg, h⟩ := Eng.bind_ok_iff.mp h
      obtain ⟨rfl, rfl⟩ := Eng.get_ok_iff.mp hg
      cases hc : s5.scl
      · simp [hc] at h; exact .inl h.1.symm
      · simp [hc] at c5

/-- How POLL ends once the address is in, or is not (R185, R186, R187). -/
theorem pollAnswer_ok {cand : Byte} {r : ClockIn} {s t : State} {a : Answer}
    (hx : r = .expired → s.params.timeoutEnforced = true) (h : (pollAnswer cand r).run s = .ok a t) :
    t.beyondPoll = s.beyondPoll ∧ t.bitcnt = s.bitcnt ∧
    (r = .done ∧ t.role = .slave ∧ t.sstate = .matched ∧ t.status = Flag.success ∧ t.clockHeld ∧
        addressMatch t.sr s.faddr s.fmask = true ∧ t.rxaddr = t.sr ∧ t.dir = dirOf t.sr ∧ a = ⟨true, t.sr⟩ ∨
      a = ⟨false, cand⟩ ∧ t.left ∧ t.rxaddr = s.rxaddr ∧ t.dir = s.dir ∧
        (r = .done ∧ t.status = setFlags s.status Flag.restarted ∧ addressMatch t.sr s.faddr s.fmask = false ∨
          t.status = clearFlags s.status Flag.restarted ∨
          t.status = setFlags s.status Flag.timedOut ∧ s.params.timeoutEnforced = true)) := by
  cases r with
  | done =>
    obtain ⟨_, _, hg, h⟩ := Eng.bind_ok_iff.mp h
    obtain ⟨rfl, rfl⟩ := Eng.get_ok_iff.mp hg
    split at h
    · rename_i hm
      obtain ⟨_, s1, h1, h⟩ := Eng.bind_ok_iff.mp h
      obtain ⟨p, s2, h2, h⟩ := Eng.bind_ok_iff.mp h
      obtain ⟨_, s3, h3, h⟩ := Eng.bind_ok_iff.mp h
      obtain ⟨_, s4, h4, h⟩ := Eng.bind_ok_iff.mp h
      have k4 : s4.beyondLines = s.beyondLines := (disableDataDriver_keeps.ok h4).trans <|
        (releaseDataHigh_keeps.ok h3).trans <| ((sPutBit_keeps _).ok h2).trans (enableDataDriver_keeps.ok h1)
      have d4 : s4.sdaLow = false := (disableDataDriver_ok h4).2.1.trans (releaseDataHigh_ok h3).2.1
      have o4 : s4.sdaOe = false := (disableDataDriver_ok h4).2.2
      have dr := sPutBit_driven (enableDataDriver_ok h1).2.2 h2
      have bd : p = .expired → s.params.timeoutEnforced = true := fun hp =>
        enableDataDriver_tame.enforced h1 (sPutBit_bound (hp ▸ h2))
      clear h1 h2 h3 h4
      cases p with
      | bit b =>
        obtain ⟨_, s5, h5, h⟩ := Eng.bind_ok_iff.mp h
        have o5 := pullClockLow_ok h5
        have k5 : s5.beyondLines = s.beyondLines := (pullClockLow_keeps.ok h5).trans k4
        have b5 : s5.bitcnt = s.bitcnt := (congrArg State.bitcnt k5 :)
        have r5 : s5.sr = s.sr := (congrArg State.sr k5 :)
        obtain ⟨_, s6, h6, h⟩ := Eng.bind_ok_iff.mp h
        obtain rfl := Eng.modify_ok_iff.mp h6
        obtain ⟨_, _, hg, h⟩ := Eng.bind_ok_iff.mp h
        obtain ⟨rfl, rfl⟩ := Eng.get_ok_iff.mp hg
        obtain ⟨rfl, rfl⟩ := Eng.pure_ok_iff.mp h
        refine ⟨(congrArg State.beyondPoll k5 :), b5, .inl ⟨rfl, rfl, rfl, rfl,
          ⟨o5.1, o5.2.1.trans d4, o5.2.2.trans o4⟩, ?_, rfl, rfl, rfl⟩⟩
        show addressMatch s5.sr s.faddr s.fmask = true
        rw [r5]; exact hm
      | stop | start => simp at dr
      | expired =>
        obtain ⟨_, s5, h5, h⟩ := Eng.bind_ok_iff.mp h
        obtain rfl := Eng.modify_ok_iff.mp h5
        obtain ⟨_, s6, h6, h⟩ := Eng.bind_ok_iff.mp h
        obtain ⟨rfl, rfl⟩ := Eng.pure_ok_iff.mp h
        obtain ⟨g1, g2, g3, g4, g5⟩ := sLeave_left h6
        have b5 : s6.bitcnt = s.bitcnt := g4.trans (congrArg State.bitcnt k4 :)
        have f5 : s4.status = s.status := (congrArg State.status k4 :)
        have k6 : s6.beyondSlave = s.beyondSlave := g2.trans (congrArg State.beyondSlave k4 :)
        exact ⟨(congrArg State.beyondPoll k6 :), b5, .inr ⟨rfl, g1, (congrArg State.rxaddr k6 :),
          (congrArg State.dir k6 :), .inr (.inr ⟨g3.trans (by rw [← f5]), bd rfl⟩)⟩⟩
    · rename_i hm
      obtain ⟨_, s4, h4, h⟩ := Eng.bind_ok_iff.mp h
      obtain rfl := Eng.modify_ok_iff.mp h4
      obtain ⟨_, s5, h5, h⟩ := Eng.bind_ok_iff.mp h
      obtain rfl := Eng.modify_ok_iff.mp h5
      obtain ⟨_, s6, h6, h⟩ := Eng.bind_ok_iff.mp h
      obtain ⟨rfl, rfl⟩ := Eng.pure_ok_iff.mp h
      obtain ⟨g1, g2, g3, g4, g5⟩ := sLeave_left h6
      refine ⟨(congrArg State.beyondPoll g2 :), g4, .inr ⟨rfl, g1, (congrArg State.rxaddr g2 :),
        (congrArg State.dir g2 :), .inl ⟨rfl, g3, ?_⟩⟩⟩
      rw [g5]; simpa using hm
  | stop =>
    obtain ⟨_, s4, h4, h⟩ := Eng.bind_ok_iff.mp h
    obtain rfl := Eng.modify_ok_iff.mp h4
    obtain ⟨_, s5, h5, h⟩ := Eng.bind_ok_iff.mp h
    obtain rfl := Eng.modify_ok_iff.mp h5
    obtain ⟨_, s6, h6, h⟩ := Eng.bind_ok_iff.mp h
    obtain ⟨rfl, rfl⟩ := Eng.pure_ok_iff.mp h
    obtain ⟨g1, g2, g3, g4, g5⟩ := sLeave_left h6
    exact ⟨(congrArg State.beyondPoll g2 :), g4, .inr ⟨rfl, g1, (congrArg State.rxaddr g2 :),
      (congrArg State.dir g2 :), .inr (.inl g3)⟩⟩
  | expired =>
    obtain ⟨_, s5, h5, h⟩ := Eng.bind_ok_iff.mp h
    obtain rfl := Eng.modify_ok_iff.mp h5
    obtain ⟨_, s6, h6, h⟩ := Eng.bind_ok_iff.mp h
    obtain ⟨rfl, rfl⟩ := Eng.pure_ok_iff.mp h
    obtain ⟨g1, g2, g3, g4, g5⟩ := sLeave_left h6
    exact ⟨(congrArg State.beyondPoll g2 :), g4, .inr ⟨rfl, g1, (congrArg State.rxaddr g2 :),
      (congrArg State.dir g2 :), .inr (.inr ⟨g3, hx rfl⟩)⟩⟩

/-- What POLL leaves from the moment a START or a recovery has been found in state `s` (R185, R186, R187). -/
def State.pollLeaves (cand : Byte) (s t : State) (a : Answer) : Prop :=
  t.beyondPoll = s.beyondPoll ∧ (s.bitcnt.toNat ≤ 8 → t.bitcnt.toNat ≤ 8) ∧
  (t.role = .slave ∧ t.sstate = .matched ∧ t.status = Flag.success ∧ t.clockHeld ∧
      (s.bitcnt.toNat ≤ 8 → t.bitcnt = 8) ∧
      addressMatch t.sr s.faddr s.fmask = true ∧ t.rxaddr = t.sr ∧ t.dir = dirOf t.sr ∧ a = ⟨true, t.sr⟩ ∨
    a = ⟨false, cand⟩ ∧ t.left ∧ t.rxaddr = s.rxaddr ∧ t.dir = s.dir ∧
      (t.status = setFlags s.status Flag.restarted ∧ addressMatch t.sr s.faddr s.fmask = false ∧
          (s.bitcnt.toNat ≤ 8 → t.bitcnt = 8) ∨
        t.status = clearFlags s.status Flag.restarted ∨
        t.status = setFlags s.status Flag.timedOut ∧ s.params.timeoutEnforced = true))

theorem pollServe_ok {cand : Byte} {s t : State} {a : Answer} (h : (pollServe cand).run s = .ok a t) :
    s.pollLeaves cand t a := by
  obtain ⟨_, s1, h1, h⟩ := Eng.bind_ok_iff.mp h
  obtain rfl := Eng.modify_ok_iff.mp h1
  obtain ⟨_, _, hg, h⟩ := Eng.bind_ok_iff.mp h
  obtain ⟨rfl, rfl⟩ := Eng.get_ok_iff.mp hg
  obtain ⟨r, s2, h2, h⟩ := Eng.bind_ok_iff.mp h
  have o2 : s.bitcnt.toNat ≤ 8 → s2.bitcnt.toNat ≤ 8 ∧ (r = .done → s2.bitcnt = 8) := fun hb =>
    have o := sClockIn_ok (by exact hb) h2
    ⟨o.1, fun hr => (o.2 hr).2⟩
  have k2 := (sClockIn_keeps _).ok h2
  have p2 : s2.beyondPoll = s.beyondPoll := (congrArg State.beyondPoll k2 :)
  have f2 : s2.status = s.status := (congrArg State.status k2 :)
  have a2 : s2.faddr = s.faddr := (congrArg State.faddr k2 :)
  have m2 : s2.fmask = s.fmask := (congrArg State.fmask k2 :)
  have x2 : s2.rxaddr = s.rxaddr := (congrArg State.rxaddr k2 :)
  have d2 : s2.dir = s.dir := (congrArg State.dir k2 :)
  have e2 : s2.params = s.params := (congrArg State.params k2 :)
  have b2 : r = .expired → s2.params.timeoutEnforced = true := by
    intro hr; have b := sClockIn_bound (hr ▸ h2); rw [e2]; exact b
  obtain ⟨g1, g2, g⟩ := pollAnswer_ok b2 h
  rw [f2, a2, m2, x2, d2, e2] at g
  refine ⟨g1.trans p2, fun hb => by rw [g2]; exact (o2 hb).1, ?_⟩
  rcases g with ⟨hr, g3, g4, g5, g6, g7, g8⟩ | ⟨g3, g4, g5, g6, g⟩
  · exact .inl ⟨g3, g4, g5, g6, fun hb => g2.trans ((o2 hb).2 hr), g7, g8⟩
  · refine .inr ⟨g3, g4, g5, g6, ?_⟩
    rcases g with ⟨hr, g7, g8⟩ | g
    · exact .inl ⟨g7, g8, fun hb => g2.trans ((o2 hb).2 hr)⟩
    · exact .inr g

section
variable {cand mask : Byte} {s : State} (hs : s.params.slaveEn = true)
include hs

/-- POLL with the slave response disabled (R193). -/
theorem pollBody_disabled (hv : s.slven = false) :
    (pollBody cand mask).run s = .ok ⟨false, cand⟩ { s with faddr := cand, fmask := mask } := by
  simp [pollBody, hs, hv]

/-- POLL with nothing to serve (R183). -/
theorem pollBody_nothing (hp : s.recoveryPending = false) (hn : s.startSeen = false) :
    (pollBody cand mask).run s = .ok ⟨false, cand⟩ { s with faddr := cand, fmask := mask } := by
  cases hv : s.slven <;> simp [pollBody, hs, hv, hp, hn]

/-- POLL with a recovery pending (R225). -/
theorem pollBody_recovery (hv : s.slven = true) (hp : s.recoveryPending = true) :
    (pollBody cand mask).run s = (pollServe cand).run { s with
      faddr := cand, fmask := mask, status := clearFlags s.status Flag.arbitrationLost,
      role := .masterProbingForSlaveRole, startSeen := false } := by
  simp [pollBody, hs, hv, hp, unflag, setRole, consumeStart]

/-- POLL with a new START (R183). -/
theorem pollBody_start (hv : s.slven = true) (hp : s.recoveryPending = false) (hn : s.startSeen = true) :
    (pollBody cand mask).run s = (pollServe cand).run { s with
      faddr := cand, fmask := mask, startSeen := false, status := 0, bitcnt := 0 } := by
  simp [pollBody, hs, hv, hp, hn, setStatus, setBitcnt, consumeStart]

/-- Every way an allowed POLL can complete (R183, R225). -/
theorem pollBody_ok {t : State} {a : Answer} (h : (pollBody cand mask).run s = .ok a t) :
    ((s.slven = false ∨ s.recoveryPending = false ∧ s.startSeen = false) ∧ a = ⟨false, cand⟩ ∧
        t = { s with faddr := cand, fmask := mask }) ∨
      s.slven = true ∧ (s.recoveryPending = true ∧ State.pollLeaves cand { s with
          faddr := cand, fmask := mask, status := clearFlags s.status Flag.arbitrationLost,
          role := .masterProbingForSlaveRole, startSeen := false } t a ∨
        s.recoveryPending = false ∧ s.startSeen = true ∧
          State.pollLeaves cand { s with faddr := cand, fmask := mask, startSeen := false, status := 0, bitcnt := 0 } t a) := by
  rcases Bool.eq_false_or_eq_true s.slven with hv | hv
  · rcases Bool.eq_false_or_eq_true s.recoveryPending with hp | hp
    · rw [pollBody_recovery hs hv hp] at h
      exact .inr ⟨hv, .inl ⟨hp, pollServe_ok h⟩⟩
    · rcases Bool.eq_false_or_eq_true s.startSeen with hn | hn
      · rw [pollBody_start hs hv hp hn] at h
        exact .inr ⟨hv, .inr ⟨hp, hn, pollServe_ok h⟩⟩
      · rw [pollBody_nothing hs hp hn] at h; cases h; exact .inl ⟨.inr ⟨hp, hn⟩, rfl, rfl⟩
  · rw [pollBody_disabled hs hv] at h; cases h; exact .inl ⟨.inl hv, rfl, rfl⟩

end

/-! ### SSEND (R189) and SRECV (R190) -/

theorem ssendEnd_ok {more collided : Bool} {r : SSend} {s t : State} (hr : r = .acked → s.released)
    (h : (ssendEnd more collided r).run s = .ok () t) :
    t.beyondSlave = s.beyondSlave ∧ t.bitcnt = s.bitcnt ∧ t.sr = s.sr ∧
    (r = .acked ∧ more = true ∧ collided = false ∧ t.role = s.role ∧ t.sstate = s.sstate ∧ t.clockHeld ∧
        t.status = s.status ∨
      t.left ∧ (r = .acked → t.status = s.status) ∧ (r = .nacked → t.status = setFlags s.status Flag.noAck) ∧
        (r = .stop → t.status = setFlags s.status Flag.stopped) ∧
        (r = .start → t.status = setFlags s.status Flag.restarted) ∧
        (r = .expired → t.status = setFlags s.status Flag.timedOut)) := by
  cases r with
  | acked =>
    have hr := hr rfl
    rw [ssendEnd] at h
    split at h
    · rename_i hm
      simp only [Bool.and_eq_true, Bool.not_eq_true'] at hm
      have o := pullClockLow_ok h
      have k := pullClockLow_keeps.ok h
      exact ⟨(congrArg State.beyondSlave k :), (congrArg State.bitcnt k :), (congrArg State.sr k :), .inl ⟨rfl, hm.1, hm.2,
        (congrArg State.role k :), (congrArg State.sstate k :), ⟨o.1, o.2.1.trans hr.2.1, o.2.2.trans hr.2.2⟩,
        (congrArg State.status k :)⟩⟩
    · obtain ⟨g1, g2, g3, g4, g5⟩ := sLeave_left h
      exact ⟨g2, g4, g5, .inr ⟨g1, fun _ => g3, by simp, by simp, by simp, by simp⟩⟩
  | nacked | stop | start | expired =>
    obtain ⟨_, s1, h1, h⟩ := Eng.bind_ok_iff.mp h
    obtain rfl := Eng.modify_ok_iff.mp h1
    obtain ⟨g1, g2, g3, g4, g5⟩ := sLeave_left h
    exact ⟨g2, g4, g5, .inr ⟨g1, by simp, by simp [g3], by simp [g3], by simp [g3], by simp [g3]⟩⟩

theorem ssendBody_ok {v : Byte} {more : Bool} {s t : State} {a : Answer} (ha : (Instr.ssend v more).allowed s = true)
    (h : (ssendBody v more).run s = .ok a t) :
    a = .none ∧ t.beyondSlave = s.beyondSlave ∧ t.bitcnt.toNat ≤ 8 ∧
    (more = true ∧ t.role = s.role ∧ t.sstate = s.sstate ∧ t.clockHeld ∧ t.bitcnt = 8 ∧ t.status = s.status ∨
      t.left ∧ ∃ c : Bool, ∃ f ∈ [0, Flag.noAck, Flag.stopped, Flag.restarted, Flag.timedOut],
        t.status = setFlags (setFlags s.status (if c then Flag.slaveCollision else 0)) f ∧
          (f = Flag.timedOut → s.params.timeoutEnforced = true)) := by
  unfold ssendBody at h
  obtain ⟨_, _, hg, h⟩ := Eng.bind_ok_iff.mp h
  obtain ⟨rfl, rfl⟩ := Eng.get_ok_iff.mp hg
  rw [if_pos (by exact ha)] at h
  obtain ⟨⟨r, c⟩, s1, h1, h⟩ := Eng.bind_ok_iff.mp h
  have o1 := sSendByte_ok h1
  have k1 := (sSendByte_keeps _).ok h1
  have m1 : s1.beyondSlave = s.beyondSlave := (congrArg State.beyondSlave k1 :)
  have r1 : s1.role = s.role := (congrArg State.role k1 :)
  have t1 : s1.sstate = s.sstate := (congrArg State.sstate k1 :)
  have f1 : s1.status = s.status := (congrArg State.status k1 :)
  have b1 : r = .expired → s.params.timeoutEnforced = true := fun hr => sSendByte_bound (hr ▸ h1)
  clear h1 k1
  obtain ⟨_, s2, h2, h⟩ := Eng.bind_ok_iff.mp h
  obtain rfl := Eng.modify_ok_iff.mp h2
  obtain ⟨_, s3, h3, h⟩ := Eng.bind_ok_iff.mp h
  obtain ⟨rfl, rfl⟩ := Eng.pure_ok_iff.mp h
  obtain ⟨g1, g2, g3, g⟩ := ssendEnd_ok (by intro hr; have r := (o1.2 (.inl hr)).1; exact r) h3
  refine ⟨rfl, g1.trans m1, by rw [g2]; exact o1.1, ?_⟩
  rcases g with ⟨hr, hm, hc, g4, g5, g6, g7⟩ | ⟨g4, x1, x2, x3, x4, x5⟩
  · refine .inl ⟨hm, g4.trans r1, g5.trans t1, g6, g2.trans (o1.2 (.inl hr)).2, g7.trans ?_⟩
    simp [hc, setFlags, f1]
  · refine .inr ⟨g4, c, ?_⟩
    simp only [f1] at x1 x2 x3 x4 x5
    cases r with
    | acked => exact ⟨0, by decide, by rw [x1 rfl]; simp [setFlags], fun e => absurd e (by decide)⟩
    | nacked => exact ⟨Flag.noAck, by decide, x2 rfl, fun e => absurd e (by decide)⟩
    | stop => exact ⟨Flag.stopped, by decide, x3 rfl, fun e => absurd e (by decide)⟩
    | start => exact ⟨Flag.restarted, by decide, x4 rfl, fun e => absurd e (by decide)⟩
    | expired => exact ⟨Flag.timedOut, by decide, x5 rfl, fun _ => b1 rfl⟩

theorem srecvBody_ok {ack : Bool} {s t : State} {a : Answer} (ha : (Instr.srecv ack).allowed s = true)
    (h : (srecvBody ack).run s = .ok a t) :
    a.r = false ∧ { t with draws := s.draws }.beyondSlave = s.beyondSlave ∧ t.bitcnt.toNat ≤ 8 ∧
    (t.status = s.status ∧ t.bitcnt = 8 ∧ t.draws = s.draws ∧ a.data = t.sr ∧
        (ack = true ∧ t.role = s.role ∧ t.sstate = s.sstate ∧ t.clockHeld ∨ ack = false ∧ t.left) ∨
      t.left ∧ t.draws = s.draws + 1 ∧ a.data = Config.freeByte s.draws ∧
        ∃ f ∈ [Flag.stopped, Flag.restarted, Flag.timedOut],
          t.status = setFlags s.status f ∧ (f = Flag.timedOut → s.params.timeoutEnforced = true)) := by
  unfold srecvBody at h
  obtain ⟨_, _, hg, h⟩ := Eng.bind_ok_iff.mp h
  obtain ⟨rfl, rfl⟩ := Eng.get_ok_iff.mp hg
  rw [if_pos (by exact ha)] at h
  obtain ⟨r, s1, h1, h⟩ := Eng.bind_ok_iff.mp h
  have o1 := sRecvByte_ok h1
  have k1 := (sRecvByte_keeps _).ok h1
  have m1 : s1.beyondSlave = s.beyondSlave := (congrArg State.beyondSlave k1 :)
  have r1 : s1.role = s.role := (congrArg State.role k1 :)
  have t1 : s1.sstate = s.sstate := (congrArg State.sstate k1 :)
  have f1 : s1.status = s.status := (congrArg State.status k1 :)
  have d1 : s1.draws = s.draws := (congrArg State.draws k1 :)
  have b1 : r = .expired → s.params.timeoutEnforced = true := fun hr => sRecvByte_bound (hr ▸ h1)
  clear h1 k1
  -- the three failures
  have fail : ∀ f : Flags, f ∈ [Flag.stopped, Flag.restarted, Flag.timedOut] →
      (f = Flag.timedOut → s.params.timeoutEnforced = true) →
      (do flag f; sLeave; return { r := false, data := ← anyByte } : Eng Answer).run s1 = .ok a t →
      a.r = false ∧ { t with draws := s.draws }.beyondSlave = s.beyondSlave ∧ t.bitcnt.toNat ≤ 8 ∧
      t.left ∧ t.draws = s.draws + 1 ∧ a.data = Config.freeByte s.draws ∧ t.status = setFlags s.status f := by
    intro f _ _ h
    obtain ⟨_, s2, h2, h⟩ := Eng.bind_ok_iff.mp h
    obtain rfl := Eng.modify_ok_iff.mp h2
    obtain ⟨_, s3, h3, h⟩ := Eng.bind_ok_iff.mp h
    obtain ⟨w, s4, h4, h⟩ := Eng.bind_ok_iff.mp h
    obtain ⟨rfl, rfl⟩ := Eng.pure_ok_iff.mp h
    obtain ⟨g1, g2, g3, g4, -⟩ := sLeave_left h3
    obtain ⟨rfl, rfl⟩ := anyByte_ok h4
    have d3 : s3.draws = s.draws := (congrArg State.draws g2 :).trans d1
    refine ⟨rfl, ?_, by show s3.bitcnt.toNat ≤ 8; rw [g4]; exact o1.1, g1, by rw [← d3], by rw [d3], g3.trans (by rw [← f1])⟩
    rw [← m1, ← d3]; exact g2
  cases r with
  | done =>
    obtain ⟨rel, b8⟩ := o1.2 rfl
    cases ack
    · obtain ⟨_, s2, h2, h⟩ := Eng.bind_ok_iff.mp h
      obtain ⟨_, _, hg, h⟩ := Eng.bind_ok_iff.mp h
      obtain ⟨rfl, rfl⟩ := Eng.get_ok_iff.mp hg
      obtain ⟨rfl, rfl⟩ := Eng.pure_ok_iff.mp h
      obtain ⟨g1, g2, g3, g4, g5⟩ := sLeave_left h2
      have d2 : s2.draws = s.draws := (congrArg State.draws g2 :).trans d1
      refine ⟨rfl, ?_, by rw [g4, b8]; decide, .inl ⟨g3.trans f1, g4.trans b8, d2, rfl, .inr ⟨rfl, g1⟩⟩⟩
      rw [← m1, ← d2]; exact g2
    · obtain ⟨_, s2, h2, h⟩ := Eng.bind_ok_iff.mp h
      obtain ⟨_, _, hg, h⟩ := Eng.bind_ok_iff.mp h
      obtain ⟨rfl, rfl⟩ := Eng.get_ok_iff.mp hg
      obtain ⟨rfl, rfl⟩ := Eng.pure_ok_iff.mp h
      have o2 := pullClockLow_ok h2
      have k2 := pullClockLow_keeps.ok h2
      have d2 : s2.draws = s.draws := (congrArg State.draws k2 :).trans d1
      have b2 : s2.bitcnt = 8 := (congrArg State.bitcnt k2 :).trans b8
      refine ⟨rfl, ?_, by rw [b2]; decide, .inl ⟨(congrArg State.status k2 :).trans f1, b2, d2, rfl, .inl ⟨rfl,
        (congrArg State.role k2 :).trans r1, (congrArg State.sstate k2 :).trans t1,
        ⟨o2.1, o2.2.1.trans rel.2.1, o2.2.2.trans rel.2.2⟩⟩⟩⟩
      rw [← m1, ← d2]; exact (congrArg State.beyondSlave k2 :)
  | stop =>
    obtain ⟨e1, e2, e3, e4, e5, e6, e7⟩ := fail Flag.stopped (by decide) (fun e => absurd e (by decide)) h
    exact ⟨e1, e2, e3, .inr ⟨e4, e5, e6, _, by decide, e7, fun e => absurd e (by decide)⟩⟩
  | start =>
    obtain ⟨e1, e2, e3, e4, e5, e6, e7⟩ := fail Flag.restarted (by decide) (fun e => absurd e (by decide)) h
    exact ⟨e1, e2, e3, .inr ⟨e4, e5, e6, _, by decide, e7, fun e => absurd e (by decide)⟩⟩
  | expired =>
    obtain ⟨e1, e2, e3, e4, e5, e6, e7⟩ := fail Flag.timedOut (by decide) (fun _ => b1 rfl) h
    exact ⟨e1, e2, e3, .inr ⟨e4, e5, e6, _, by decide, e7, fun _ => b1 rfl⟩⟩

/-! ### SLVEN (R114) and INIT (R112) -/

theorem slvenBody_on {s : State} (hs : s.params.slaveEn = true) :
    (slvenBody true).run s = .ok .none { s with slven := true, startSeen := s.startSeen && s.slven } := by
  cases hv : s.slven <;> simp [slvenBody, hs, hv, consumeStart]

/-- Letting go of both lines, as INIT and SLVEN do. -/
theorem letGo_ok {s t : State}
    (h : (do releaseClockHigh; releaseDataHigh; disableDataDriver : Eng Unit).run s = .ok () t) :
    t.released ∧ t.beyondLines = s.beyondLines := by
  obtain ⟨_, s1, h1, h⟩ := Eng.bind_ok_iff.mp h
  obtain ⟨_, s2, h2, h3⟩ := Eng.bind_ok_iff.mp h
  have o1 := releaseClockHigh_ok h1
  have o2 := releaseDataHigh_ok h2
  have o3 := disableDataDriver_ok h3
  exact ⟨⟨o3.1.trans (o2.1.trans o1.1), o3.2.1.trans o2.2.1, o3.2.2⟩, (disableDataDriver_keeps.ok h3).trans <|
    (releaseDataHigh_keeps.ok h2).trans (releaseClockHigh_keeps.ok h1)⟩

theorem initBody_ok {own mask bitrate : Byte} {s t : State} {a : Answer} (h : (initBody own mask bitrate).run s = .ok a t) :
    a = .none ∧ t.controlReset ∧ t.faddr = own ∧ t.fmask = mask ∧ t.bitrate = bitrate ∧ t.sr = s.sr ∧
      t.rxaddr = s.rxaddr ∧ t.dir = s.dir ∧ t.params = s.params ∧ t.draws = s.draws := by
  unfold initBody at h
  obtain ⟨_, s1, h1, h⟩ := Eng.bind_ok_iff.mp h
  obtain ⟨_, s2, h2, h⟩ := Eng.bind_ok_iff.mp h
  obtain ⟨_, s3, h3, h⟩ := Eng.bind_ok_iff.mp h
  obtain ⟨_, s4, h4, h⟩ := Eng.bind_ok_iff.mp h
  obtain rfl := Eng.modify_ok_iff.mp h4
  obtain ⟨rfl, rfl⟩ := Eng.pure_ok_iff.mp h
  obtain ⟨g, k⟩ := letGo_ok (s := s) (t := s3)
    (Eng.bind_ok_iff.mpr ⟨_, s1, h1, Eng.bind_ok_iff.mpr ⟨_, s2, h2, h3⟩⟩)
  exact ⟨rfl, ⟨rfl, rfl, rfl, rfl, rfl, rfl, rfl, rfl, g⟩, rfl, rfl, rfl, (congrArg State.sr k :),
    (congrArg State.rxaddr k :), (congrArg State.dir k :), (congrArg State.params k :), (congrArg State.draws k :)⟩

theorem slvenBody_off {s t : State} {a : Answer} (hs : s.params.slaveEn = true) (h : (slvenBody false).run s = .ok a t) :
    a = .none ∧
    { t with slven := s.slven, role := s.role, sstate := s.sstate }.beyondLines = s.beyondLines ∧ t.slven = false ∧
    (s.role = .slave ∨ s.recoveryPending = true ∨ s.role = .idle → t.released) ∧
    (¬(s.role = .slave ∨ s.recoveryPending = true ∨ s.role = .idle) → t = { s with slven := false }) ∧
    t.role = (if s.role = .slave ∨ s.recoveryPending = true then .idle else s.role) ∧
    t.sstate = (if s.role = .slave then .watchingForStart else s.sstate) := by
  unfold slvenBody at h
  obtain ⟨_, _, hg, h⟩ := Eng.bind_ok_iff.mp h
  obtain ⟨rfl, rfl⟩ := Eng.get_ok_iff.mp hg
  simp only [hs, if_true, Bool.false_eq_true, if_false] at h
  obtain ⟨_, s1, h1, h⟩ := Eng.bind_ok_iff.mp h
  obtain rfl := Eng.modify_ok_iff.mp h1
  -- after the lines: the two role changes
  have tail : ∀ u : State, u.beyondLines = { s with slven := false }.beyondLines →
      (do
        if s.role == .slave then
          setRole .idle
          setSState .watchingForStart
        if s.recoveryPending then setRole .idle
        return Answer.none : Eng Answer).run u = .ok a t →
      a = .none ∧ { t with slven := s.slven, role := s.role, sstate := s.sstate }.beyondLines = s.beyondLines ∧
        t.slven = false ∧ t.outputs = u.outputs ∧
        t.role = (if s.role = .slave ∨ s.recoveryPending = true then .idle else s.role) ∧
        t.sstate = (if s.role = .slave then .watchingForStart else s.sstate) ∧
        (s.role ≠ .slave → s.recoveryPending = false → t = u) := by
    intro u ku h
    have kr : u.role = s.role := (congrArg State.role ku :)
    have ks : u.sstate = s.sstate := (congrArg State.sstate ku :)
    have kv : u.slven = false := (congrArg State.slven ku :)
    have kb : { u with slven := s.slven, role := s.role, sstate := s.sstate }.beyondLines = s.beyondLines :=
      congrArg (fun x : State => { x with slven := s.slven, role := s.role, sstate := s.sstate }) ku
    by_cases h1 : s.role = .slave
    · have h2 : s.recoveryPending = false := by simp [State.recoveryPending, h1]
      simp [h1, h2, setRole, setSState] at h
      obtain ⟨rfl, rfl⟩ := h
      exact ⟨rfl, kb, kv, rfl, by simp [h1], by simp [h1], fun x => absurd h1 x⟩
    · by_cases h2 : s.recoveryPending = true
      · simp [h1, h2, setRole] at h
        obtain ⟨rfl, rfl⟩ := h
        exact ⟨rfl, kb, kv, rfl, by simp [h2], by simp [h1, ks], fun _ x => by simp [h2] at x⟩
      · simp [h1, h2] at h
        obtain ⟨rfl, rfl⟩ := h
        exact ⟨rfl, kb, kv, rfl, by simp [h1, h2, kr], by simp [h1, ks], fun _ _ => rfl⟩
  split at h
  · rename_i hc
    have hc : s.role = .slave ∨ s.recoveryPending = true ∨ s.role = .idle := by simpa [or_assoc] using hc
    obtain ⟨_, s2, h2, h⟩ := Eng.bind_ok_iff.mp h
    obtain ⟨_, s3, h3, h⟩ := Eng.bind_ok_iff.mp h
    obtain ⟨_, s4, h4, h⟩ := Eng.bind_ok_iff.mp h
    obtain ⟨g, k⟩ := letGo_ok (Eng.bind_ok_iff.mpr ⟨_, s2, h2, Eng.bind_ok_iff.mpr ⟨_, s3, h3, h4⟩⟩)
    obtain ⟨a1, a2, a3, a4, a5, a6, -⟩ := tail s4 k h
    simp only [State.outputs, Prod.mk.injEq] at a4
    exact ⟨a1, a2, a3, fun _ => ⟨a4.1.trans g.1, a4.2.1.trans g.2.1, a4.2.2.trans g.2.2⟩, fun x => absurd hc x, a5, a6⟩
  · rename_i hc
    have hc : ¬(s.role = .slave ∨ s.recoveryPending = true ∨ s.role = .idle) := by simpa [or_assoc] using hc
    obtain ⟨a1, a2, a3, a4, a5, a6, a7⟩ := tail _ rfl h
    refine ⟨a1, a2, a3, fun x => absurd x hc, fun _ => a7 (fun x => hc (.inl x)) ?_, a5, a6⟩
    by_contra x
    exact hc (.inr (.inl (by simpa using x)))

end Sys2Proof.Machine
end

