-- ==== Sys2Proof/Laws/Frames.lean ====
section
/-! SUPPORT. What the body of a command leaves alone in every run, also one that hangs or is abandoned (the column "written by"
of 10_state.md R20's table), and how `exec` ends. -/

namespace Sys2Proof.Machine

variable {α γ : Type}

/-- What a kept part of a view gives of another view. -/
theorem Eng.Keeps.view {m : Eng α} {f : State → State} (h : m.Keeps f) (g : State → State) (hg : ∀ s, g (f s) = g s) :
    m.Keeps g := fun s => by rw [← hg, h s, hg]

theorem Eng.Keeps.field {m : Eng α} {f : State → State} (h : m.Keeps f) (g : State → γ) (hg : ∀ s, g (f s) = g s)
    (s : State) : g (m.final s) = g s := by rw [← hg, h s, hg]

/-! ### Views -/

/-- The state without what INIT may change. -/
def State.beyondInit (s : State) : State :=
  { s.beyondLines with
    status := 0, role := .idle, mstate := .idle, sstate := .watchingForStart, slven := false, bitcnt := 0, faddr := 0,
    fmask := 0, bitrate := 0 }

/-- The state without what RELEASE may change. -/
def State.beyondRelease (s : State) : State := { s.beyondLines with status := 0, role := .idle, mstate := .idle }

/-- The state without what POLL may change. -/
def State.beyondPollCommand (s : State) : State := { s.beyondPoll with faddr := 0, fmask := 0 }

/-- The state without what SLVEN may change. -/
def State.beyondSlven (s : State) : State :=
  { s.beyondLines with status := 0, role := .idle, sstate := .watchingForStart, slven := false }

/-! ### INIT, RELEASE, SLVEN -/

theorem initBody_keeps (own mask bitrate : Byte) : (initBody own mask bitrate).Keeps State.beyondInit := by
  have v {m : Eng Unit} (h : m.Keeps State.beyondLines) : m.Keeps State.beyondInit := h.view _ fun _ => rfl
  exact Eng.keeps_bind (v releaseClockHigh_keeps) fun _ => Eng.keeps_bind (v releaseDataHigh_keeps) fun _ =>
    Eng.keeps_bind (v disableDataDriver_keeps) fun _ => Eng.keeps_bind (Eng.keeps_modify fun _ => rfl) fun _ =>
    Eng.keeps_pure _ _

theorem releaseBody_keeps : releaseBody.Keeps State.beyondRelease := by
  unfold releaseBody
  repeat' first
    | exact mStop_keeps.view _ fun _ => rfl
    | exact releaseClockHigh_keeps.view _ fun _ => rfl
    | exact Eng.keeps_modify fun _ => rfl
    | exact Eng.keeps_get _
    | exact Eng.keeps_pure _ _
    | apply Eng.keeps_bind
    | apply Eng.keeps_ite
    | intro _

theorem slvenBody_keeps (en : Bool) : (slvenBody en).Keeps State.beyondSlven := by
  unfold slvenBody
  repeat' first
    | exact releaseClockHigh_keeps.view _ fun _ => rfl
    | exact releaseDataHigh_keeps.view _ fun _ => rfl
    | exact disableDataDriver_keeps.view _ fun _ => rfl
    | exact Eng.keeps_modify fun _ => rfl
    | exact Eng.keeps_get _
    | exact Eng.keeps_pure _ _
    | apply Eng.keeps_bind
    | apply Eng.keeps_ite
    | intro _

/-! ### The master's commands -/

theorem mAbort_keeps : mAbort.Keeps State.beyondRelease := by
  unfold mAbort
  repeat' first
    | exact releaseClockHigh_keeps.view _ fun _ => rfl
    | exact releaseDataHigh_keeps.view _ fun _ => rfl
    | exact disableDataDriver_keeps.view _ fun _ => rfl
    | exact Eng.keeps_modify fun _ => rfl
    | apply Eng.keeps_bind
    | intro _

theorem mForceStop_keeps : mForceStop.Keeps State.beyondRelease := by
  unfold mForceStop
  repeat' first
    | exact mStop_keeps.view _ fun _ => rfl
    | exact Eng.keeps_modify fun _ => rfl
    | apply Eng.keeps_bind
    | intro _

theorem sendBody_keeps (v : Byte) : (sendBody v).Keeps State.beyondMaster := by
  refine Eng.keeps_bind (Eng.keeps_get _) fun s => Eng.keeps_ite ?_ ?_
  · refine Eng.keeps_bind ((mSendByte_keeps _ _).view _ fun _ => rfl) fun r => ?_
    cases r
    all_goals
      repeat' first
        | exact mAbort_keeps.view _ fun _ => rfl
        | exact mForceStop_keeps.view _ fun _ => rfl
        | exact Eng.keeps_modify fun _ => rfl
        | exact Eng.keeps_pure _ _
        | apply Eng.keeps_bind
        | intro _
  · exact Eng.keeps_bind (Eng.keeps_modify fun _ => rfl) fun _ => Eng.keeps_pure _ _

theorem recvBody_keeps (ack : Bool) : (recvBody ack).Keeps fun s => { s with draws := 0 }.beyondMaster := by
  refine Eng.keeps_bind (Eng.keeps_get _) fun s => Eng.keeps_ite ?_ ?_
  · refine Eng.keeps_bind ((mRecvByte_keeps _).view _ fun _ => rfl) fun r => ?_
    cases r
    all_goals
      repeat' first
        | exact mAbort_keeps.view _ fun _ => rfl
        | exact mForceStop_keeps.view _ fun _ => rfl
        | exact Eng.keeps_modify fun _ => rfl
        | exact Eng.keeps_get _
        | exact Eng.keeps_pure _ _
        | exact fun _ => rfl
        | apply Eng.keeps_bind
        | intro _
  · exact Eng.keeps_bind (Eng.keeps_modify fun _ => rfl) fun _ => Eng.keeps_bind (fun _ => rfl) fun _ => Eng.keeps_pure _ _

theorem openRestart_keeps (multi : Bool) : (openRestart multi).Keeps State.beyondRelease := by
  refine Eng.keeps_bind (mRestart_keeps.view _ fun _ => rfl) fun r => ?_
  cases r
  all_goals
    repeat' first
      | exact mAbort_keeps
      | exact Eng.keeps_modify fun _ => rfl
      | exact Eng.keeps_pure _ _
      | apply Eng.keeps_bind
      | apply Eng.keeps_ite
      | intro _

theorem openStart_keeps (multi : Bool) : (openStart multi).Keeps fun s => { s with bitcnt := 0 }.beyondRelease := by
  refine Eng.keeps_bind (Eng.keeps_get _) fun s => Eng.keeps_ite ?_ (Eng.keeps_ite ?_ ?_)
  · repeat' first
      | exact releaseClockHigh_keeps.view _ fun _ => rfl
      | exact Eng.keeps_modify fun _ => rfl
      | exact Eng.keeps_pure _ _
      | apply Eng.keeps_bind
      | apply Eng.keeps_ite
      | intro _
  · repeat' first
      | exact releaseClockHigh_keeps.view _ fun _ => rfl
      | exact Eng.keeps_modify fun _ => rfl
      | exact Eng.keeps_pure _ _
      | apply Eng.keeps_bind
      | intro _
  · refine Eng.keeps_bind (Eng.keeps_modify fun _ => rfl) fun _ => Eng.keeps_bind (Eng.keeps_modify fun _ => rfl) fun _ =>
      Eng.keeps_bind (mStart_keeps.view _ fun _ => rfl) fun r => ?_
    cases r
    all_goals
      repeat' first
        | exact mAbort_keeps.view _ fun _ => rfl
        | exact Eng.keeps_modify fun _ => rfl
        | exact Eng.keeps_pure _ _
        | apply Eng.keeps_bind
        | intro _

theorem openAddress_keeps (af : Byte) (multi : Bool) : (openAddress af multi).Keeps State.beyondOpen := by
  refine Eng.keeps_bind (Eng.keeps_modify fun _ => rfl) fun _ =>
    Eng.keeps_bind ((mSendByte_keeps _ _).view _ fun _ => rfl) fun r => ?_
  cases r
  all_goals
    repeat' first
      | exact mAbort_keeps.view _ fun _ => rfl
      | exact mForceStop_keeps.view _ fun _ => rfl
      | exact Eng.keeps_modify fun _ => rfl
      | exact Eng.keeps_get _
      | exact Eng.keeps_pure _ _
      | apply Eng.keeps_bind
      | apply Eng.keeps_ite
      | intro _

theorem openBody_keeps (af : Byte) : (openBody af).Keeps State.beyondOpen := by
  have rest (multi p : Bool) :
      (if p then (do openAddress af multi; pure Answer.none) else pure Answer.none : Eng Answer).Keeps State.beyondOpen :=
    Eng.keeps_ite (Eng.keeps_bind (openAddress_keeps _ _) fun _ => Eng.keeps_pure _ _) (Eng.keeps_pure _ _)
  have v1 (multi : Bool) : (openRestart multi).Keeps State.beyondOpen := (openRestart_keeps multi).view _ fun _ => rfl
  have v2 (multi : Bool) : (openStart multi).Keeps State.beyondOpen := (openStart_keeps multi).view _ fun _ => rfl
  refine Eng.keeps_bind (Eng.keeps_modify fun _ => rfl) fun _ => Eng.keeps_bind (Eng.keeps_get _) fun s =>
    Eng.keeps_ite (Eng.keeps_ite ?_ (Eng.keeps_ite ?_ ?_)) ?_
  · exact Eng.keeps_bind (v1 _) fun p => rest _ p
  · exact Eng.keeps_bind (Eng.keeps_pure _ _) fun p => rest _ p
  · exact Eng.keeps_bind (v2 _) fun p => rest _ p
  · exact Eng.keeps_bind (Eng.keeps_modify fun _ => rfl) fun _ => Eng.keeps_pure _ _

/-! ### The slave's commands -/

theorem sLeave_keeps : sLeave.Keeps fun s => { s with role := .idle, sstate := .watchingForStart }.beyondLines := by
  unfold sLeave
  repeat' first
    | exact releaseClockHigh_keeps.view _ fun _ => rfl
    | exact releaseDataHigh_keeps.view _ fun _ => rfl
    | exact disableDataDriver_keeps.view _ fun _ => rfl
    | exact Eng.keeps_modify fun _ => rfl
    | apply Eng.keeps_bind
    | intro _

theorem pollAnswer_keeps (cand : Byte) (r : ClockIn) : (pollAnswer cand r).Keeps State.beyondPoll := by
  cases r with
  | done =>
    refine Eng.keeps_bind (Eng.keeps_get _) fun s => Eng.keeps_ite ?_ ?_
    · refine Eng.keeps_bind (enableDataDriver_keeps.view _ fun _ => rfl) fun _ =>
        Eng.keeps_bind ((sPutBit_keeps _).view _ fun _ => rfl) fun a =>
        Eng.keeps_bind (releaseDataHigh_keeps.view _ fun _ => rfl) fun _ =>
        Eng.keeps_bind (disableDataDriver_keeps.view _ fun _ => rfl) fun _ => ?_
      cases a
      all_goals
        repeat' first
          | exact pullClockLow_keeps.view _ fun _ => rfl
          | exact sLeave_keeps.view _ fun _ => rfl
          | exact Eng.keeps_modify fun _ => rfl
          | exact Eng.keeps_get _
          | exact Eng.keeps_pure _ _
          | apply Eng.keeps_bind
          | intro _
    · exact Eng.keeps_bind (Eng.keeps_modify fun _ => rfl) fun _ => Eng.keeps_bind (Eng.keeps_modify fun _ => rfl) fun _ =>
        Eng.keeps_bind (sLeave_keeps.view _ fun _ => rfl) fun _ => Eng.keeps_pure _ _
  | stop | expired =>
    repeat' first
      | exact sLeave_keeps.view _ fun _ => rfl
      | exact Eng.keeps_modify fun _ => rfl
      | exact Eng.keeps_pure _ _
      | apply Eng.keeps_bind
      | intro _

theorem pollServe_keeps (cand : Byte) : (pollServe cand).Keeps State.beyondPoll :=
  Eng.keeps_bind (Eng.keeps_modify fun _ => rfl) fun _ => Eng.keeps_bind (Eng.keeps_get _) fun _ =>
    Eng.keeps_bind ((sClockIn_keeps _).view _ fun _ => rfl) fun _ => pollAnswer_keeps _ _

theorem pollBody_keeps (cand mask : Byte) : (pollBody cand mask).Keeps State.beyondPollCommand := by
  unfold pollBody
  repeat' first
    | exact (pollServe_keeps _).view _ fun _ => rfl
    | exact Eng.keeps_modify fun _ => rfl
    | exact Eng.keeps_get _
    | exact Eng.keeps_pure _ _
    | apply Eng.keeps_bind
    | apply Eng.keeps_ite
    | intro _

theorem ssendBody_keeps (v : Byte) (more : Bool) : (ssendBody v more).Keeps State.beyondSlave := by
  refine Eng.keeps_bind (Eng.keeps_get _) fun s => Eng.keeps_ite ?_ ?_
  · refine Eng.keeps_bind ((sSendByte_keeps _).view _ fun _ => rfl) fun r => Eng.keeps_bind (Eng.keeps_modify fun _ => rfl)
      fun _ => Eng.keeps_bind ?_ fun _ => Eng.keeps_pure _ _
    obtain ⟨r, c⟩ := r
    cases r with
    | acked => exact Eng.keeps_ite (pullClockLow_keeps.view _ fun _ => rfl) (sLeave_keeps.view _ fun _ => rfl)
    | nacked | stop | start | expired =>
      exact Eng.keeps_bind (Eng.keeps_modify fun _ => rfl) fun _ => sLeave_keeps.view _ fun _ => rfl
  · exact Eng.keeps_bind (Eng.keeps_modify fun _ => rfl) fun _ => Eng.keeps_pure _ _

theorem srecvBody_keeps (ack : Bool) : (srecvBody ack).Keeps fun s => { s with draws := 0 }.beyondSlave := by
  refine Eng.keeps_bind (Eng.keeps_get _) fun s => Eng.keeps_ite ?_ ?_
  · refine Eng.keeps_bind ((sRecvByte_keeps _).view _ fun _ => rfl) fun r => ?_
    cases r
    all_goals
      repeat' first
        | exact sLeave_keeps.view _ fun _ => rfl
        | exact pullClockLow_keeps.view _ fun _ => rfl
        | exact Eng.keeps_modify fun _ => rfl
        | exact Eng.keeps_get _
        | exact Eng.keeps_pure _ _
        | exact fun _ => rfl
        | apply Eng.keeps_bind
        | apply Eng.keeps_ite
        | intro _
  · exact Eng.keeps_bind (Eng.keeps_modify fun _ => rfl) fun _ => Eng.keeps_bind (fun _ => rfl) fun _ => Eng.keeps_pure _ _

/-- No command's body touches the parameters, the response port or the mark of a hung command. -/
theorem body_keeps (i : Instr) : (body i).Keeps fun s => (s.params, s.response, s.hung) := by
  cases i with
  | init => exact (initBody_keeps _ _ _).field (fun x : State => (x.params, x.response, x.hung)) fun _ => rfl
  | openDevice => exact (openBody_keeps _).field (fun x : State => (x.params, x.response, x.hung)) fun _ => rfl
  | send => exact (sendBody_keeps _).field (fun x : State => (x.params, x.response, x.hung)) fun _ => rfl
  | recv => exact fun s => (congrArg (fun x : State => (x.params, x.response, x.hung)) (recvBody_keeps _ s) :)
  | release => exact releaseBody_keeps.field (fun x : State => (x.params, x.response, x.hung)) fun _ => rfl
  | poll => exact (pollBody_keeps _ _).field (fun x : State => (x.params, x.response, x.hung)) fun _ => rfl
  | ssend => exact (ssendBody_keeps _ _).field (fun x : State => (x.params, x.response, x.hung)) fun _ => rfl
  | srecv => exact fun s => (congrArg (fun x : State => (x.params, x.response, x.hung)) (srecvBody_keeps _ s) :)
  | slven => exact (slvenBody_keeps _).field (fun x : State => (x.params, x.response, x.hung)) fun _ => rfl
  | status => exact fun _ => rfl

/-! ### A command the state does not allow (R115) -/

/-- Everything the body of a command does that is not allowed. -/
theorem body_not_allowed {i : Instr} {s : State} (h : i.allowed s = false) :
    (body i).run s = .ok
      ⟨false, match i with | .recv _ => Config.freeByte s.draws | .srecv _ => Config.freeByte s.draws | _ => 0⟩
      { s with
        status := setFlags (match i with | .openDevice _ => 0 | _ => s.status) Flag.protocolFail
        draws := (match i with | .recv _ => s.draws + 1 | .srecv _ => s.draws + 1 | _ => s.draws) } := by
  cases i with
  | init own mask bitrate => cases h
  | status => cases h
  | openDevice af =>
    have h' : ¬(s.params.masterEn && (s.role == .idle || s.role == .master)) = true := by
      simpa [Instr.allowed] using h
    rw [body, openBody]
    simp only [setStatus, Eng.bind_run, Eng.modify_run, EStateM.run_get]
    rw [if_neg h']
    rfl
  | send v =>
    have h' : ¬(s.params.masterEn && s.holding && s.dir == .write) = true := by
      simpa [Instr.allowed, State.holding, Bool.and_assoc] using h
    rw [body, sendBody]
    simp only [Eng.bind_run, EStateM.run_get]
    rw [if_neg h']
    rfl
  | recv ack =>
    have h' : ¬(s.params.masterEn && s.holding && s.dir == .read) = true := by
      simpa [Instr.allowed, State.holding, Bool.and_assoc] using h
    rw [body, recvBody]
    simp only [Eng.bind_run, EStateM.run_get]
    rw [if_neg h']
    rfl
  | release =>
    have h' : ¬(s.params.masterEn && (s.role == .idle || s.role == .master)) = true := by
      simpa [Instr.allowed] using h
    rw [body, releaseBody]
    simp only [Eng.bind_run, EStateM.run_get]
    rw [if_neg h']
    rfl
  | poll cand mask =>
    have h' : ¬s.params.slaveEn = true := by simpa [Instr.allowed] using h
    rw [body, pollBody]
    simp only [Eng.bind_run, EStateM.run_get]
    rw [if_neg h']
    rfl
  | ssend v more =>
    have h' : ¬(s.params.slaveEn && s.role == .slave && s.dir == .read) = true := by
      simpa [Instr.allowed] using h
    rw [body, ssendBody]
    simp only [Eng.bind_run, EStateM.run_get]
    rw [if_neg h']
    rfl
  | srecv ack =>
    have h' : ¬(s.params.slaveEn && s.role == .slave && s.dir == .write) = true := by
      simpa [Instr.allowed] using h
    rw [body, srecvBody]
    simp only [Eng.bind_run, EStateM.run_get]
    rw [if_neg h']
    rfl
  | slven en =>
    have h' : ¬s.params.slaveEn = true := by simpa [Instr.allowed] using h
    rw [body, slvenBody]
    simp only [Eng.bind_run, EStateM.run_get]
    rw [if_neg h']
    rfl

/-! ### How `exec` ends -/

/-- The fields of a response word (R89). -/
theorem responseWord_fields (r : Bool) (d : Byte) (st : Flags) :
    (responseWord r d st).getLsbD 31 = true ∧ (responseWord r d st).extractLsb' 25 6 = 0 ∧
    (responseWord r d st).extractLsb' 9 7 = 0 ∧ responseStatus (responseWord r d st) = st ∧
    responseR (responseWord r d st) = r ∧ responseData (responseWord r d st) = d := by
  simp only [responseStatus, responseR, responseData, responseWord]
  refine ⟨?_, ?_, ?_, ?_, ?_, ?_⟩
  case refine_1 =>
    simp only [BitVec.getLsbD_append]
    split_ifs <;> first | omega | rfl
  case refine_5 =>
    simp only [BitVec.getLsbD_append]
    split_ifs <;> first | omega | (cases r <;> rfl)
  all_goals
    ext i hi
    simp only [BitVec.getElem_extractLsb', BitVec.getLsbD_append]
    split_ifs <;> first | omega | (simp; done) | (rw [← BitVec.getLsbD_eq_getElem]; congr 1; omega)

/-- A next state of `exec` is that of a completed command, of a hung one, or of one the reset input has abandoned. -/
theorem exec_next {i : Instr} {s t : State} (h : exec i s = .next t) :
    (∃ a u, (body i).run { s with response := none } = .ok a u ∧
      t = State.settle { u with response := some (responseWord a.r a.data u.status) }) ∨
    (∃ u, (body i).run { s with response := none } = .error .hang u ∧ t = { u with hung := true }) ∨
    (∃ u, (body i).run { s with response := none } = .error .reset u ∧ t = u.resetInput) := by
  rw [exec_eq_complete] at h
  obtain ⟨a, u, h1, h2⟩ | ⟨u, h1, h2⟩ | ⟨u, h1, h2⟩ := complete_cases (body i) s
  · exact .inl ⟨a, u, h1, by rw [h2] at h; cases h; rfl⟩
  · exact .inr (.inl ⟨u, h1, by rw [h2] at h; cases h; rfl⟩)
  · exact .inr (.inr ⟨u, h1, by rw [h2] at h; cases h; rfl⟩)

/-- A command never faults and is never refused (R260). -/
theorem exec_answers (i : Instr) (s : State) : ∃ t, exec i s = .next t := by
  rw [exec_eq_complete]
  obtain ⟨a, u, -, h2⟩ | ⟨u, -, h2⟩ | ⟨u, -, h2⟩ := complete_cases (body i) s <;> exact ⟨_, h2⟩

end Sys2Proof.Machine
end

