-- ==== Sys2Proof/Laws/Latches.lean ====
section
/-! SUPPORT. Which computations leave `START_SEEN` and `BUS_BUSY` to the edge detector (10_state.md R20, R36, R37; 41 R146; 43
R182): a property of the two latches and the history that no edge can break survives all of them. -/

namespace Sys2Proof.Machine

variable {α β : Type}

/-! ### Properties that edges cannot break -/

/-- The property speaks of the two latches and the history only, and no change of a line breaks it. -/
structure EdgeClosed (P : State → Prop) : Prop where
  same : ∀ u v, P u → v.startSeen = u.startSeen → v.busBusy = u.busBusy → v.wire = u.wire → P v
  observe : ∀ u v, P u → v.startSeen = u.startSeen → v.busBusy = u.busBusy → v.wire = u.wire → P (u.observe v)

/-- Clearing `START_SEEN` does not break the property either. -/
structure ClearClosed (P : State → Prop) : Prop extends EdgeClosed P where
  clear : ∀ u v, P u → v.startSeen = false → v.busBusy = u.busBusy → v.wire = u.wire → P v

theorem EdgeClosed.act {P : State → Prop} (h : EdgeClosed P) (a : LineAct) (s : State) (hs : P s) : P (s.act a) := by
  cases a <;> exact h.observe _ _ hs rfl rfl rfl

theorem EdgeClosed.inputs {P : State → Prop} (h : EdgeClosed P) (l : List Input) (s : State) (hs : P s) :
    P { s with inputs := l } := h.same _ _ hs rfl rfl rfl

theorem EdgeClosed.settle {P : State → Prop} (h : EdgeClosed P) (s : State) (hs : P s) : P s.settle := by
  unfold State.settle
  split
  · exact h.same _ _ hs rfl rfl rfl
  · exact hs

/-- The computation writes neither latch of its own accord. -/
def Eng.ByEdges (m : Eng α) : Prop := ∀ P, EdgeClosed P → m.Preserves P

/-- The computation writes neither latch of its own accord, but for clearing `START_SEEN`. -/
def Eng.MayClear (m : Eng α) : Prop := ∀ P, ClearClosed P → m.Preserves P

theorem Eng.ByEdges.mayClear {m : Eng α} (h : m.ByEdges) : m.MayClear := fun P hP => h P hP.toEdgeClosed

theorem Eng.byEdges_pure (a : α) : (pure a : Eng α).ByEdges := fun _ _ => Eng.preserves_pure _ _

theorem Eng.byEdges_get : (get : Eng State).ByEdges := fun _ _ => Eng.preserves_get _

theorem Eng.byEdges_bind {m : Eng α} {k : α → Eng β} (hm : m.ByEdges) (hk : ∀ a, (k a).ByEdges) : (m >>= k).ByEdges :=
  fun P hP => Eng.preserves_bind (hm P hP) fun a => hk a P hP

theorem Eng.byEdges_ite {c : Prop} [Decidable c] {m n : Eng α} (hm : m.ByEdges) (hn : n.ByEdges) :
    (if c then m else n : Eng α).ByEdges := by
  split <;> assumption

/-- A register write that touches neither latch. -/
theorem Eng.byEdges_modify {f : State → State}
    (h : ∀ s, (f s).startSeen = s.startSeen ∧ (f s).busBusy = s.busBusy ∧ (f s).wire = s.wire) :
    (modify f : Eng Unit).ByEdges :=
  fun _ hP => Eng.preserves_modify fun s hs => hP.same _ _ hs (h s).1 (h s).2.1 (h s).2.2

theorem Eng.mayClear_bind {m : Eng α} {k : α → Eng β} (hm : m.MayClear) (hk : ∀ a, (k a).MayClear) : (m >>= k).MayClear :=
  fun P hP => Eng.preserves_bind (hm P hP) fun a => hk a P hP

theorem Eng.mayClear_ite {c : Prop} [Decidable c] {m n : Eng α} (hm : m.MayClear) (hn : n.MayClear) :
    (if c then m else n : Eng α).MayClear := by
  split <;> assumption

theorem consumeStart_mayClear : consumeStart.MayClear :=
  fun _ hP => Eng.preserves_modify fun _ hs => hP.clear _ _ hs rfl rfl rfl

/-! ### The shared operations -/

theorem races_byEdges : races.ByEdges := fun _ hP => races_preserves hP.act hP.inputs

theorem waitHalfBitPeriod_byEdges : waitHalfBitPeriod.ByEdges := fun _ hP => waitHalfBitPeriod_preserves hP.act hP.inputs

theorem waitUntil_byEdges (c : State → Bool) : (waitUntil c).ByEdges := fun _ hP => waitUntil_preserves hP.act hP.inputs c

theorem isDataHigh_byEdges : isDataHigh.ByEdges := fun _ hP => isDataHigh_preserves hP.act hP.inputs

theorem lineCall_byEdges {f : State → State}
    (h : ∀ s, (f s).startSeen = s.startSeen ∧ (f s).busBusy = s.busBusy ∧ (f s).wire = s.wire) : (lineCall f).ByEdges :=
  Eng.byEdges_bind races_byEdges fun _ _ hP =>
    Eng.preserves_modify fun s hs => hP.observe _ _ hs (h s).1 (h s).2.1 (h s).2.2

theorem pullClockLow_byEdges : pullClockLow.ByEdges := lineCall_byEdges fun _ => ⟨rfl, rfl, rfl⟩
theorem releaseClockHigh_byEdges : releaseClockHigh.ByEdges := lineCall_byEdges fun _ => ⟨rfl, rfl, rfl⟩
theorem pullDataLow_byEdges : pullDataLow.ByEdges := lineCall_byEdges fun _ => ⟨rfl, rfl, rfl⟩
theorem releaseDataHigh_byEdges : releaseDataHigh.ByEdges := lineCall_byEdges fun _ => ⟨rfl, rfl, rfl⟩
theorem enableDataDriver_byEdges : enableDataDriver.ByEdges := lineCall_byEdges fun _ => ⟨rfl, rfl, rfl⟩
theorem disableDataDriver_byEdges : disableDataDriver.ByEdges := lineCall_byEdges fun _ => ⟨rfl, rfl, rfl⟩

theorem putData_byEdges (out : Bool) : (putData out).ByEdges :=
  Eng.byEdges_ite releaseDataHigh_byEdges pullDataLow_byEdges

theorem flag_byEdges (f : Flags) : (flag f).ByEdges := Eng.byEdges_modify fun _ => ⟨rfl, rfl, rfl⟩
theorem unflag_byEdges (f : Flags) : (unflag f).ByEdges := Eng.byEdges_modify fun _ => ⟨rfl, rfl, rfl⟩
theorem setStatus_byEdges (v : Flags) : (setStatus v).ByEdges := Eng.byEdges_modify fun _ => ⟨rfl, rfl, rfl⟩
theorem setRole_byEdges (r : Role) : (setRole r).ByEdges := Eng.byEdges_modify fun _ => ⟨rfl, rfl, rfl⟩
theorem setMState_byEdges (m : MState) : (setMState m).ByEdges := Eng.byEdges_modify fun _ => ⟨rfl, rfl, rfl⟩
theorem setSState_byEdges (m : SState) : (setSState m).ByEdges := Eng.byEdges_modify fun _ => ⟨rfl, rfl, rfl⟩
theorem setDir_byEdges (d : Dir) : (setDir d).ByEdges := Eng.byEdges_modify fun _ => ⟨rfl, rfl, rfl⟩
theorem setBitcnt_byEdges (n : BitVec 4) : (setBitcnt n).ByEdges := Eng.byEdges_modify fun _ => ⟨rfl, rfl, rfl⟩
theorem setSr_byEdges (v : Byte) : (setSr v).ByEdges := Eng.byEdges_modify fun _ => ⟨rfl, rfl, rfl⟩
theorem shiftIn_byEdges (b : Bool) : (shiftIn b).ByEdges := Eng.byEdges_modify fun _ => ⟨rfl, rfl, rfl⟩
theorem notAllowed_byEdges : notAllowed.ByEdges := flag_byEdges _
theorem anyByte_byEdges : anyByte.ByEdges := fun _ hP _ hs => hP.same _ _ hs rfl rfl rfl

/-! ### The byte procedures (R146) -/

theorem mClockBit_byEdges (out arb : Bool) : (mClockBit out arb).ByEdges := by
  unfold mClockBit
  repeat' first
    | exact putData_byEdges _
    | exact waitHalfBitPeriod_byEdges
    | exact releaseClockHigh_byEdges
    | exact waitUntil_byEdges _
    | exact isDataHigh_byEdges
    | exact pullClockLow_byEdges
    | exact Eng.byEdges_get
    | exact Eng.byEdges_pure _
    | apply Eng.byEdges_bind
    | apply Eng.byEdges_ite
    | intro _

theorem mSendBits_byEdges (arb : Bool) (n : Nat) : (mSendBits arb n).ByEdges := by
  induction n with
  | zero => exact Eng.byEdges_pure _
  | succ n ih =>
    refine Eng.byEdges_bind Eng.byEdges_get fun s => Eng.byEdges_bind (mClockBit_byEdges _ _) fun r => ?_
    cases r with
    | bit b => exact Eng.byEdges_bind (shiftIn_byEdges _) fun _ => ih
    | lost =>
      exact Eng.byEdges_bind (shiftIn_byEdges _) fun _ => Eng.byEdges_bind releaseDataHigh_byEdges fun _ =>
        Eng.byEdges_bind disableDataDriver_byEdges fun _ => Eng.byEdges_pure _
    | expired | illegal => exact Eng.byEdges_pure _

theorem mSendByte_byEdges (v : Byte) (arb : Bool) : (mSendByte v arb).ByEdges := by
  refine Eng.byEdges_bind (setSr_byEdges _) fun _ => Eng.byEdges_bind (setBitcnt_byEdges _) fun _ =>
    Eng.byEdges_bind enableDataDriver_byEdges fun _ => Eng.byEdges_bind (mSendBits_byEdges _ _) fun r => ?_
  cases r with
  | some f => exact Eng.byEdges_pure _
  | none =>
    refine Eng.byEdges_bind releaseDataHigh_byEdges fun _ => Eng.byEdges_bind disableDataDriver_byEdges fun _ =>
      Eng.byEdges_bind (mClockBit_byEdges _ _) fun p => ?_
    rcases p with (_ | _) | _ | _ | _ <;> exact Eng.byEdges_pure _

theorem mRecvBits_byEdges (n : Nat) : (mRecvBits n).ByEdges := by
  induction n with
  | zero => exact Eng.byEdges_pure _
  | succ n ih =>
    refine Eng.byEdges_bind (mClockBit_byEdges _ _) fun r => ?_
    cases r with
    | bit b => exact Eng.byEdges_bind (shiftIn_byEdges _) fun _ => ih
    | lost | expired | illegal => exact Eng.byEdges_pure _

theorem mRecvByte_byEdges (ack : Bool) : (mRecvByte ack).ByEdges := by
  refine Eng.byEdges_bind releaseDataHigh_byEdges fun _ => Eng.byEdges_bind disableDataDriver_byEdges fun _ =>
    Eng.byEdges_bind (setBitcnt_byEdges _) fun _ => Eng.byEdges_bind (mRecvBits_byEdges _) fun r => ?_
  cases r with
  | done =>
    refine Eng.byEdges_ite ?_ (Eng.byEdges_bind (mClockBit_byEdges _ _) fun _ => Eng.byEdges_pure _)
    exact Eng.byEdges_bind enableDataDriver_byEdges fun _ => Eng.byEdges_bind (mClockBit_byEdges _ _) fun _ =>
      Eng.byEdges_bind releaseDataHigh_byEdges fun _ => Eng.byEdges_bind disableDataDriver_byEdges fun _ =>
      Eng.byEdges_pure _
  | expired | illegal => exact Eng.byEdges_pure _

theorem sWaitBit_byEdges : sWaitBit.ByEdges := by
  unfold sWaitBit
  repeat' first
    | exact waitUntil_byEdges _
    | exact isDataHigh_byEdges
    | exact Eng.byEdges_get
    | exact Eng.byEdges_pure _
    | apply Eng.byEdges_bind
    | apply Eng.byEdges_ite
    | intro _

theorem sPutBit_byEdges (out : Bool) : (sPutBit out).ByEdges :=
  Eng.byEdges_bind (putData_byEdges _) fun _ => Eng.byEdges_bind releaseClockHigh_byEdges fun _ => sWaitBit_byEdges

theorem sRecvBits_byEdges (n : Nat) : (sRecvBits n).ByEdges := by
  induction n with
  | zero => exact Eng.byEdges_pure _
  | succ n ih =>
    refine Eng.byEdges_bind (sPutBit_byEdges _) fun r => ?_
    cases r with
    | bit b => exact Eng.byEdges_bind (shiftIn_byEdges _) fun _ => ih
    | stop | start | expired => exact Eng.byEdges_pure _

theorem sRecvByte_byEdges (ack : Bool) : (sRecvByte ack).ByEdges := by
  refine Eng.byEdges_bind releaseDataHigh_byEdges fun _ => Eng.byEdges_bind disableDataDriver_byEdges fun _ =>
    Eng.byEdges_bind (setBitcnt_byEdges _) fun _ => Eng.byEdges_bind (sRecvBits_byEdges _) fun r => ?_
  cases r with
  | done =>
    refine Eng.byEdges_ite ?_ (Eng.byEdges_bind (sPutBit_byEdges _) fun _ => Eng.byEdges_pure _)
    exact Eng.byEdges_bind enableDataDriver_byEdges fun _ => Eng.byEdges_bind (sPutBit_byEdges _) fun _ =>
      Eng.byEdges_bind releaseDataHigh_byEdges fun _ => Eng.byEdges_bind disableDataDriver_byEdges fun _ =>
      Eng.byEdges_pure _
  | stop | start | expired => exact Eng.byEdges_pure _

theorem sSendBits_byEdges (n : Nat) (collided : Bool) : (sSendBits n collided).ByEdges := by
  induction n generalizing collided with
  | zero => exact Eng.byEdges_pure _
  | succ n ih =>
    refine Eng.byEdges_bind Eng.byEdges_get fun s => Eng.byEdges_bind (sPutBit_byEdges _) fun r => ?_
    cases r with
    | bit b => exact Eng.byEdges_bind Eng.byEdges_get fun _ => Eng.byEdges_bind (shiftIn_byEdges _) fun _ => ih _
    | stop | start | expired =>
      exact Eng.byEdges_bind releaseDataHigh_byEdges fun _ => Eng.byEdges_bind disableDataDriver_byEdges fun _ =>
        Eng.byEdges_pure _

theorem sSendByte_byEdges (v : Byte) : (sSendByte v).ByEdges := by
  refine Eng.byEdges_bind (setSr_byEdges _) fun _ => Eng.byEdges_bind (setBitcnt_byEdges _) fun _ =>
    Eng.byEdges_bind enableDataDriver_byEdges fun _ => Eng.byEdges_bind (sSendBits_byEdges _ _) fun r => ?_
  rcases r with ⟨_ | f, collided⟩
  · exact Eng.byEdges_bind releaseDataHigh_byEdges fun _ => Eng.byEdges_bind disableDataDriver_byEdges fun _ =>
      Eng.byEdges_bind (sPutBit_byEdges _) fun _ => Eng.byEdges_pure _
  · exact Eng.byEdges_pure _

/-! ### The commands that write neither latch -/

theorem mStop_byEdges : mStop.ByEdges := by
  unfold mStop
  repeat' first
    | exact pullClockLow_byEdges
    | exact enableDataDriver_byEdges
    | exact pullDataLow_byEdges
    | exact waitHalfBitPeriod_byEdges
    | exact releaseClockHigh_byEdges
    | exact releaseDataHigh_byEdges
    | exact disableDataDriver_byEdges
    | exact waitUntil_byEdges _
    | exact flag_byEdges _
    | exact Eng.byEdges_pure _
    | apply Eng.byEdges_bind
    | apply Eng.byEdges_ite
    | intro _

theorem mAbort_byEdges : mAbort.ByEdges :=
  Eng.byEdges_bind releaseDataHigh_byEdges fun _ => Eng.byEdges_bind disableDataDriver_byEdges fun _ =>
    Eng.byEdges_bind releaseClockHigh_byEdges fun _ => Eng.byEdges_bind (setRole_byEdges _) fun _ => setMState_byEdges _

theorem mForceStop_byEdges : mForceStop.ByEdges :=
  Eng.byEdges_bind mStop_byEdges fun _ => Eng.byEdges_bind (setRole_byEdges _) fun _ => setMState_byEdges _

theorem sLeave_byEdges : sLeave.ByEdges :=
  Eng.byEdges_bind releaseClockHigh_byEdges fun _ => Eng.byEdges_bind releaseDataHigh_byEdges fun _ =>
    Eng.byEdges_bind disableDataDriver_byEdges fun _ => Eng.byEdges_bind (setRole_byEdges _) fun _ => setSState_byEdges _

theorem sendBody_byEdges (v : Byte) : (sendBody v).ByEdges := by
  refine Eng.byEdges_bind Eng.byEdges_get fun s => Eng.byEdges_ite
    (Eng.byEdges_bind (mSendByte_byEdges _ _) fun r => ?_)
    (Eng.byEdges_bind notAllowed_byEdges fun _ => Eng.byEdges_pure _)
  cases r with
  | acked => exact Eng.byEdges_pure _
  | nacked => exact Eng.byEdges_bind (flag_byEdges _) fun _ => Eng.byEdges_pure _
  | lost =>
    exact Eng.byEdges_bind (flag_byEdges _) fun _ => Eng.byEdges_bind (setRole_byEdges _) fun _ =>
      Eng.byEdges_bind (setMState_byEdges _) fun _ => Eng.byEdges_pure _
  | expired =>
    exact Eng.byEdges_bind (flag_byEdges _) fun _ => Eng.byEdges_bind mAbort_byEdges fun _ => Eng.byEdges_pure _
  | illegal =>
    exact Eng.byEdges_bind (flag_byEdges _) fun _ => Eng.byEdges_bind mForceStop_byEdges fun _ => Eng.byEdges_pure _

theorem recvBody_byEdges (ack : Bool) : (recvBody ack).ByEdges := by
  refine Eng.byEdges_bind Eng.byEdges_get fun s => Eng.byEdges_ite
    (Eng.byEdges_bind (mRecvByte_byEdges _) fun r => ?_)
    (Eng.byEdges_bind notAllowed_byEdges fun _ => Eng.byEdges_bind anyByte_byEdges fun _ => Eng.byEdges_pure _)
  cases r with
  | done => exact Eng.byEdges_bind Eng.byEdges_get fun _ => Eng.byEdges_pure _
  | expired =>
    exact Eng.byEdges_bind (flag_byEdges _) fun _ => Eng.byEdges_bind mAbort_byEdges fun _ =>
      Eng.byEdges_bind anyByte_byEdges fun _ => Eng.byEdges_pure _
  | illegal =>
    exact Eng.byEdges_bind (flag_byEdges _) fun _ => Eng.byEdges_bind mForceStop_byEdges fun _ =>
      Eng.byEdges_bind anyByte_byEdges fun _ => Eng.byEdges_pure _

theorem releaseBody_byEdges : releaseBody.ByEdges := by
  unfold releaseBody
  repeat' first
    | exact mStop_byEdges
    | exact releaseClockHigh_byEdges
    | exact setRole_byEdges _
    | exact setMState_byEdges _
    | exact notAllowed_byEdges
    | exact Eng.byEdges_get
    | exact Eng.byEdges_pure _
    | apply Eng.byEdges_bind
    | apply Eng.byEdges_ite
    | intro _

theorem ssendEnd_byEdges (more collided : Bool) (r : SSend) : (ssendEnd more collided r).ByEdges := by
  cases r with
  | acked => exact Eng.byEdges_ite pullClockLow_byEdges sLeave_byEdges
  | nacked | stop | start | expired => exact Eng.byEdges_bind (flag_byEdges _) fun _ => sLeave_byEdges

theorem ssendBody_byEdges (v : Byte) (more : Bool) : (ssendBody v more).ByEdges :=
  Eng.byEdges_bind Eng.byEdges_get fun _ => Eng.byEdges_ite
    (Eng.byEdges_bind (sSendByte_byEdges _) fun _ => Eng.byEdges_bind (flag_byEdges _) fun _ =>
      Eng.byEdges_bind (ssendEnd_byEdges _ _ _) fun _ => Eng.byEdges_pure _)
    (Eng.byEdges_bind notAllowed_byEdges fun _ => Eng.byEdges_pure _)

theorem srecvBody_byEdges (ack : Bool) : (srecvBody ack).ByEdges := by
  refine Eng.byEdges_bind Eng.byEdges_get fun s => Eng.byEdges_ite
    (Eng.byEdges_bind (sRecvByte_byEdges _) fun r => ?_)
    (Eng.byEdges_bind notAllowed_byEdges fun _ => Eng.byEdges_bind anyByte_byEdges fun _ => Eng.byEdges_pure _)
  cases r with
  | done =>
    cases ack
    · exact Eng.byEdges_bind sLeave_byEdges fun _ => Eng.byEdges_bind Eng.byEdges_get fun _ => Eng.byEdges_pure _
    · exact Eng.byEdges_bind pullClockLow_byEdges fun _ => Eng.byEdges_bind Eng.byEdges_get fun _ => Eng.byEdges_pure _
  | stop | start | expired =>
    exact Eng.byEdges_bind (flag_byEdges _) fun _ => Eng.byEdges_bind sLeave_byEdges fun _ =>
      Eng.byEdges_bind anyByte_byEdges fun _ => Eng.byEdges_pure _

/-! ### The commands that clear `START_SEEN` -/

theorem mStart_mayClear : mStart.MayClear := by
  unfold mStart
  repeat' first
    | exact releaseClockHigh_byEdges.mayClear
    | exact releaseDataHigh_byEdges.mayClear
    | exact (waitUntil_byEdges _).mayClear
    | exact waitHalfBitPeriod_byEdges.mayClear
    | exact enableDataDriver_byEdges.mayClear
    | exact pullDataLow_byEdges.mayClear
    | exact consumeStart_mayClear
    | exact pullClockLow_byEdges.mayClear
    | exact (Eng.byEdges_pure _).mayClear
    | apply Eng.mayClear_bind
    | apply Eng.mayClear_ite
    | intro _

theorem mRestart_mayClear : mRestart.MayClear := by
  unfold mRestart
  repeat' first
    | exact releaseClockHigh_byEdges.mayClear
    | exact releaseDataHigh_byEdges.mayClear
    | exact disableDataDriver_byEdges.mayClear
    | exact (waitUntil_byEdges _).mayClear
    | exact waitHalfBitPeriod_byEdges.mayClear
    | exact enableDataDriver_byEdges.mayClear
    | exact pullDataLow_byEdges.mayClear
    | exact consumeStart_mayClear
    | exact pullClockLow_byEdges.mayClear
    | exact (Eng.byEdges_pure _).mayClear
    | apply Eng.mayClear_bind
    | apply Eng.mayClear_ite
    | intro _

theorem openRestart_mayClear (multi : Bool) : (openRestart multi).MayClear := by
  refine Eng.mayClear_bind mRestart_mayClear fun r => Eng.ByEdges.mayClear ?_
  cases r with
  | ok => exact Eng.byEdges_bind (setMState_byEdges _) fun _ => Eng.byEdges_pure _
  | stuck =>
    refine Eng.byEdges_ite ?_ ?_
    · exact Eng.byEdges_bind (flag_byEdges _) fun _ => Eng.byEdges_bind mAbort_byEdges fun _ =>
        Eng.byEdges_bind (setMState_byEdges _) fun _ => Eng.byEdges_pure _
    · exact Eng.byEdges_bind (flag_byEdges _) fun _ => Eng.byEdges_bind mAbort_byEdges fun _ => Eng.byEdges_pure _
  | expired | unconfirmed =>
    exact Eng.byEdges_bind (flag_byEdges _) fun _ => Eng.byEdges_bind mAbort_byEdges fun _ => Eng.byEdges_pure _

theorem openStart_mayClear (multi : Bool) : (openStart multi).MayClear := by
  refine Eng.mayClear_bind Eng.byEdges_get.mayClear fun s => Eng.mayClear_ite (Eng.ByEdges.mayClear ?_) <|
    Eng.mayClear_ite (Eng.ByEdges.mayClear ?_) ?_
  · refine Eng.byEdges_bind (flag_byEdges _) fun _ => Eng.byEdges_bind (setMState_byEdges _) fun _ =>
      Eng.byEdges_bind (setBitcnt_byEdges _) fun _ => Eng.byEdges_ite ?_ ?_
    · exact Eng.byEdges_bind (setRole_byEdges _) fun _ => Eng.byEdges_pure _
    · exact Eng.byEdges_bind (setRole_byEdges _) fun _ => Eng.byEdges_bind releaseClockHigh_byEdges fun _ =>
        Eng.byEdges_pure _
  · exact Eng.byEdges_bind (flag_byEdges _) fun _ => Eng.byEdges_bind (setMState_byEdges _) fun _ =>
      Eng.byEdges_bind (setRole_byEdges _) fun _ => Eng.byEdges_bind releaseClockHigh_byEdges fun _ =>
      Eng.byEdges_pure _
  · refine Eng.mayClear_bind (setRole_byEdges _).mayClear fun _ => Eng.mayClear_bind (setMState_byEdges _).mayClear fun _ =>
      Eng.mayClear_bind mStart_mayClear fun r => Eng.ByEdges.mayClear ?_
    cases r with
    | ok =>
      exact Eng.byEdges_bind (setRole_byEdges _) fun _ => Eng.byEdges_bind (setMState_byEdges _) fun _ =>
        Eng.byEdges_pure _
    | blocked | unconfirmed =>
      exact Eng.byEdges_bind (flag_byEdges _) fun _ => Eng.byEdges_bind mAbort_byEdges fun _ => Eng.byEdges_pure _

theorem openAddress_byEdges (af : Byte) (multi : Bool) : (openAddress af multi).ByEdges := by
  refine Eng.byEdges_bind (setDir_byEdges _) fun _ => Eng.byEdges_bind (mSendByte_byEdges _ _) fun r => ?_
  cases r with
  | acked | nacked =>
    exact Eng.byEdges_bind (setMState_byEdges _) fun _ => Eng.byEdges_bind (flag_byEdges _) fun _ => setMState_byEdges _
  | lost =>
    exact Eng.byEdges_bind (flag_byEdges _) fun _ => Eng.byEdges_bind (setMState_byEdges _) fun _ =>
      Eng.byEdges_bind Eng.byEdges_get fun _ => Eng.byEdges_ite (setRole_byEdges _) (setRole_byEdges _)
  | expired => exact Eng.byEdges_bind (flag_byEdges _) fun _ => mAbort_byEdges
  | illegal => exact Eng.byEdges_bind (flag_byEdges _) fun _ => mForceStop_byEdges

theorem openBody_mayClear (af : Byte) : (openBody af).MayClear := by
  unfold openBody
  repeat' first
    | exact openRestart_mayClear _
    | exact openStart_mayClear _
    | exact (openAddress_byEdges _ _).mayClear
    | exact (setStatus_byEdges _).mayClear
    | exact notAllowed_byEdges.mayClear
    | exact Eng.byEdges_get.mayClear
    | exact (Eng.byEdges_pure _).mayClear
    | apply Eng.mayClear_bind
    | apply Eng.mayClear_ite
    | intro _

theorem sClockByte_byEdges : sClockByte.ByEdges := by
  refine Eng.byEdges_bind (waitUntil_byEdges _) fun r => Eng.byEdges_ite (Eng.byEdges_pure _) <|
    Eng.byEdges_bind Eng.byEdges_get fun s => Eng.byEdges_ite (Eng.byEdges_pure _) <|
    Eng.byEdges_bind releaseDataHigh_byEdges fun _ => Eng.byEdges_bind disableDataDriver_byEdges fun _ =>
    Eng.byEdges_bind Eng.byEdges_get fun s => Eng.byEdges_bind (sRecvBits_byEdges _) fun r => ?_
  cases r with
  | done => exact Eng.byEdges_bind pullClockLow_byEdges fun _ => Eng.byEdges_pure _
  | start | stop | expired => exact Eng.byEdges_pure _

theorem sClockIn_mayClear (budget : Nat) : (sClockIn budget).MayClear := by
  induction budget with
  | zero => exact fun _ _ _ hs => hs
  | succ n ih =>
    refine Eng.mayClear_bind sClockByte_byEdges.mayClear fun r => ?_
    cases r with
    | some r => exact (Eng.byEdges_pure _).mayClear
    | none =>
      exact Eng.mayClear_bind (setSState_byEdges _).mayClear fun _ => Eng.mayClear_bind consumeStart_mayClear fun _ =>
        Eng.mayClear_bind (setBitcnt_byEdges _).mayClear fun _ => Eng.mayClear_bind (setSState_byEdges _).mayClear fun _ =>
        ih

theorem pollAnswer_byEdges (cand : Byte) (r : ClockIn) : (pollAnswer cand r).ByEdges := by
  cases r with
  | done =>
    refine Eng.byEdges_bind Eng.byEdges_get fun s => Eng.byEdges_ite ?_ ?_
    · refine Eng.byEdges_bind enableDataDriver_byEdges fun _ => Eng.byEdges_bind (sPutBit_byEdges _) fun a =>
        Eng.byEdges_bind releaseDataHigh_byEdges fun _ => Eng.byEdges_bind disableDataDriver_byEdges fun _ => ?_
      cases a with
      | bit b =>
        exact Eng.byEdges_bind pullClockLow_byEdges fun _ =>
          Eng.byEdges_bind (Eng.byEdges_modify fun _ => ⟨rfl, rfl, rfl⟩) fun _ =>
          Eng.byEdges_bind Eng.byEdges_get fun _ => Eng.byEdges_pure _
      | stop | start | expired =>
        exact Eng.byEdges_bind (flag_byEdges _) fun _ => Eng.byEdges_bind sLeave_byEdges fun _ => Eng.byEdges_pure _
    · exact Eng.byEdges_bind (setSState_byEdges _) fun _ => Eng.byEdges_bind (flag_byEdges _) fun _ =>
        Eng.byEdges_bind sLeave_byEdges fun _ => Eng.byEdges_pure _
  | stop =>
    exact Eng.byEdges_bind (setSState_byEdges _) fun _ => Eng.byEdges_bind (unflag_byEdges _) fun _ =>
      Eng.byEdges_bind sLeave_byEdges fun _ => Eng.byEdges_pure _
  | expired => exact Eng.byEdges_bind (flag_byEdges _) fun _ => Eng.byEdges_bind sLeave_byEdges fun _ => Eng.byEdges_pure _

theorem pollServe_mayClear (cand : Byte) : (pollServe cand).MayClear :=
  Eng.mayClear_bind (setSState_byEdges _).mayClear fun _ => Eng.mayClear_bind Eng.byEdges_get.mayClear fun _ =>
    Eng.mayClear_bind (sClockIn_mayClear _) fun _ => (pollAnswer_byEdges _ _).mayClear

theorem pollBody_mayClear (cand mask : Byte) : (pollBody cand mask).MayClear := by
  unfold pollBody
  repeat' first
    | exact pollServe_mayClear _
    | exact (unflag_byEdges _).mayClear
    | exact (setRole_byEdges _).mayClear
    | exact (setStatus_byEdges _).mayClear
    | exact (setBitcnt_byEdges _).mayClear
    | exact consumeStart_mayClear
    | exact notAllowed_byEdges.mayClear
    | exact Eng.ByEdges.mayClear (Eng.byEdges_modify fun _ => ⟨rfl, rfl, rfl⟩)
    | exact Eng.byEdges_get.mayClear
    | exact (Eng.byEdges_pure _).mayClear
    | apply Eng.mayClear_bind
    | apply Eng.mayClear_ite
    | intro _

theorem slvenBody_mayClear (en : Bool) : (slvenBody en).MayClear := by
  unfold slvenBody
  repeat' first
    | exact releaseClockHigh_byEdges.mayClear
    | exact releaseDataHigh_byEdges.mayClear
    | exact disableDataDriver_byEdges.mayClear
    | exact (setRole_byEdges _).mayClear
    | exact (setSState_byEdges _).mayClear
    | exact consumeStart_mayClear
    | exact notAllowed_byEdges.mayClear
    | exact Eng.ByEdges.mayClear (Eng.byEdges_modify fun _ => ⟨rfl, rfl, rfl⟩)
    | exact Eng.byEdges_get.mayClear
    | exact (Eng.byEdges_pure _).mayClear
    | apply Eng.mayClear_bind
    | apply Eng.mayClear_ite
    | intro _

/-! ### The body of a command, and the command -/

/-- R20: no command but INIT, OPEN, POLL and SLVEN writes a latch of its own accord. -/
theorem body_byEdges {i : Instr} (h : i.mnemonic ∉ ["INIT", "OPEN", "POLL", "SLVEN"]) : (body i).ByEdges := by
  cases i with
  | init own mask bitrate => exact absurd (by simp [Instr.mnemonic]) h
  | openDevice af => exact absurd (by simp [Instr.mnemonic]) h
  | send v => exact sendBody_byEdges _
  | recv ack => exact recvBody_byEdges _
  | release => exact releaseBody_byEdges
  | poll cand mask => exact absurd (by simp [Instr.mnemonic]) h
  | ssend v more => exact ssendBody_byEdges _ _
  | srecv ack => exact srecvBody_byEdges _
  | slven en => exact absurd (by simp [Instr.mnemonic]) h
  | status => exact Eng.byEdges_pure _

/-- R20, R36, R37: no command but INIT writes a latch of its own accord, but for clearing `START_SEEN`. -/
theorem body_mayClear {i : Instr} (h : i.mnemonic ≠ "INIT") : (body i).MayClear := by
  cases i with
  | init own mask bitrate => exact absurd rfl h
  | openDevice af => exact openBody_mayClear _
  | send v => exact (sendBody_byEdges _).mayClear
  | recv ack => exact (recvBody_byEdges _).mayClear
  | release => exact releaseBody_byEdges.mayClear
  | poll cand mask => exact pollBody_mayClear _ _
  | ssend v more => exact (ssendBody_byEdges _ _).mayClear
  | srecv ack => exact (srecvBody_byEdges _).mayClear
  | slven en => exact slvenBody_mayClear _
  | status => exact (Eng.byEdges_pure _).mayClear

/-- What survives a body survives its command, unless the reset input abandons it. -/
theorem complete_edges {P : State → Prop} (hP : EdgeClosed P) {m : Eng Answer} (hm : m.Preserves P) (ht : m.Tame)
    {s t : State} (hr : s.noReset) (hs : P s) (h : complete m s = .next t) : P t := by
  have p0 : P { s with response := none } := hP.same _ _ hs rfl rfl rfl
  have p1 := hm _ p0
  obtain ⟨a, u, e, e'⟩ | ⟨u, e, e'⟩ | ⟨u, e, -⟩ := complete_cases m s
  · rw [e'] at h
    cases h
    rw [Eng.final, e] at p1
    exact hP.settle _ (hP.same u _ p1 rfl rfl rfl)
  · rw [e'] at h
    cases h
    rw [Eng.final, e] at p1
    exact hP.same u _ p1 rfl rfl rfl
  · exact absurd (ht.reset_only _ _ e) hr

/-! ### The relations the claims use -/

theorem latchAfter_append (new old : List Symbol) (b : Bool) :
    latchAfter (new ++ old) b = latchAfter new (latchAfter old b) := by
  induction new with
  | nil => rfl
  | cons x new ih => cases x <;> simp [latchAfter, ih]

theorem State.LatchesByEdges.refl (s : State) : s.LatchesByEdges s := ⟨[], rfl, rfl, rfl⟩

/-- Up to `START_SEEN` having been cleared. -/
def State.LatchesCleared (s t : State) : Prop :=
  ∃ later, t.wire = later ++ s.wire ∧ t.busBusy = latchAfter later s.busBusy ∧
    (t.startSeen = true → latchAfter later s.startSeen = true)

theorem State.LatchesCleared.refl (s : State) : s.LatchesCleared s := ⟨[], rfl, rfl, fun h => h⟩

/-- The edge detector at a change of the lines: the history grows by the symbol that happened, if any, and the latches are
what that symbol makes of them. -/
theorem State.observe_latches (u v : State) :
    ∃ new, (u.observe v).wire = new ++ v.wire ∧ (u.observe v).startSeen = latchAfter new v.startSeen ∧
      (u.observe v).busBusy = latchAfter new v.busBusy := by
  unfold State.observe
  split
  · split
    · refine ⟨[if v.busBusy then .restart else .start], rfl, ?_, ?_⟩ <;> cases v.busBusy <;> rfl
    · split
      · exact ⟨[.stop], rfl, rfl, rfl⟩
      · exact ⟨[], rfl, rfl, rfl⟩
  · split
    · exact ⟨[.pulse v.sda], rfl, rfl, rfl⟩
    · exact ⟨[], rfl, rfl, rfl⟩

theorem latchesByEdges_closed (s : State) : EdgeClosed s.LatchesByEdges where
  same := by
    rintro u v ⟨l, h1, h2, h3⟩ e1 e2 e3
    exact ⟨l, e3 ▸ h1, e1 ▸ h2, e2 ▸ h3⟩
  observe := by
    rintro u v ⟨l, h1, h2, h3⟩ e1 e2 e3
    obtain ⟨n, o1, o2, o3⟩ := State.observe_latches u v
    exact ⟨n ++ l, by rw [o1, e3, h1, List.append_assoc], by rw [o2, e1, h2, latchAfter_append],
      by rw [o3, e2, h3, latchAfter_append]⟩

/-- A latch that is set at most when another is stays so through the same symbols. -/
theorem latchAfter_mono (l : List Symbol) {a b : Bool} (h : a = true → b = true) :
    latchAfter l a = true → latchAfter l b = true := by
  induction l with
  | nil => exact h
  | cons x l ih => cases x <;> first | exact ih | exact id

theorem latchesCleared_closed (s : State) : ClearClosed s.LatchesCleared where
  same := by
    rintro u v ⟨l, h1, h2, h3⟩ e1 e2 e3
    exact ⟨l, e3 ▸ h1, e2 ▸ h2, e1 ▸ h3⟩
  observe := by
    rintro u v ⟨l, h1, h2, h3⟩ e1 e2 e3
    obtain ⟨n, o1, o2, o3⟩ := State.observe_latches u v
    refine ⟨n ++ l, by rw [o1, e3, h1, List.append_assoc], by rw [o3, e2, h2, latchAfter_append], ?_⟩
    rw [o2, e1, latchAfter_append]
    exact latchAfter_mono n h3
  clear := by
    rintro u v ⟨l, h1, h2, h3⟩ e1 e2 e3
    exact ⟨l, e3 ▸ h1, e2 ▸ h2, fun h => by rw [e1] at h; cases h⟩

theorem Eng.ByEdges.ok {m : Eng α} (h : m.ByEdges) {s t : State} {a : α} (hs : m.run s = .ok a t) : s.LatchesByEdges t :=
  (h _ (latchesByEdges_closed s)).ok hs (.refl s)

theorem Eng.MayClear.ok {m : Eng α} (h : m.MayClear) {s t : State} {a : α} (hs : m.run s = .ok a t) : s.LatchesCleared t :=
  (h _ (latchesCleared_closed s)).ok hs (.refl s)

end Sys2Proof.Machine
end

