-- ==== Sys2Proof/Laws/PerInstr.lean ====
section
/-! SUPPORT. The family of statements about every command as syntax: the fields a command is encoded with are well-formed, so no
command's word is reserved (30_encoding.md R87, R90). -/

namespace Sys2Proof.Laws.FieldsWellFormed

/-- The fields of the command are well-formed. -/
def Statement (i : Instr) : Prop := i.fields.wellFormed = true

theorem init (own mask bitrate : Byte) : Statement (.init own mask bitrate) := rfl

theorem openDevice (af : Byte) : Statement (.openDevice af) := rfl

theorem send (v : Byte) : Statement (.send v) := rfl

theorem recv (ack : Bool) : Statement (.recv ack) := rfl

theorem release : Statement .release := rfl

theorem poll (cand mask : Byte) : Statement (.poll cand mask) := rfl

theorem ssend (v : Byte) (more : Bool) : Statement (.ssend v more) := rfl

theorem srecv (ack : Bool) : Statement (.srecv ack) := rfl

theorem slven (en : Bool) : Statement (.slven en) := rfl

theorem status : Statement .status := rfl

end Sys2Proof.Laws.FieldsWellFormed
end

