-- ==== Sys2Proof/Laws/Scripts.lean ====
section
/-! SUPPORT. Exact runs: what each procedure does, state for state, when the outside world behaves in one given way
(`levelInPulse`, `idlePulse`, `clockPulse`, `masterPulse` of Safety.lean). The worked examples of 95_test_vectors.md are
instances. -/

namespace Sys2Proof.Machine

/-! ### The shift law over several bits (R141) -/

@[simp] theorem bits_length (v : Byte) : (bits v).length = 8 := by simp [bits]

theorem bits_shiftInto (v : Byte) (b : Bool) : bits (shiftInto v b) = (bits v).tail ++ [b] := by
  revert v b; decide

theorem bits_cons (v : Byte) : bits v = v.msb :: (bits v).tail := by
  revert v; decide

theorem bits_injective {v w : Byte} (h : bits v = bits w) : v = w := by
  have h' : ∀ v : Byte, v = BitVec.ofNat 8 ((bits v).foldl (fun n b => 2 * n + b.toNat) 0) := by decide
  rw [h' v, h' w, h]

/-- Shifting pushes bits out at the top and in at the bottom (R141). -/
theorem bits_foldl_shiftInto (bs : List Bool) (r : Byte) (h : bs.length ≤ 8) :
    bits (bs.foldl shiftInto r) = (bits r).drop bs.length ++ bs := by
  induction bs using List.reverseRecOn with
  | nil => simp
  | append_singleton bs b ih =>
    rw [List.foldl_append, List.foldl_cons, List.foldl_nil, bits_shiftInto, ih (by simp at h; omega)]
    have : ((bits r).drop bs.length).length ≠ 0 := by simp at h ⊢; omega
    rw [List.tail_append_of_ne_nil (by intro e; simp [e] at this)]
    simp [List.tail_drop]

/-- The bit a sender puts on the bus next is the next bit of the byte it loaded, whatever has been shifted in (R141). -/
theorem msb_foldl_shiftInto (bs : List Bool) (r : Byte) (h : bs.length < 8) :
    (bs.foldl shiftInto r).msb = r.getMsbD bs.length := by
  have h1 := congrArg List.head? (bits_foldl_shiftInto bs r (by omega))
  have h2 : ((bits r).drop bs.length).head? = some (r.getMsbD bs.length) := by
    rw [List.head?_drop]; simp [bits, h]
  rw [List.head?_append, h2, bits_cons] at h1
  simpa using h1

/-- Eight shifts leave the byte that was on the bus, whatever the register held (R141). -/
theorem foldl_shiftInto_bits (v r : Byte) : (bits v).foldl shiftInto r = v :=
  bits_injective (by rw [bits_foldl_shiftInto _ _ (by simp)]; simp)

/-- Shifting in the bits still missing completes a byte whose first `k` bits are in the register already (R225). -/
theorem foldl_shiftInto_drop {v r : Byte} {k : Nat} (h : (bits r).drop (8 - k) = (bits v).take k) :
    ((bits v).drop k).foldl shiftInto r = v := by
  apply bits_injective
  rw [bits_foldl_shiftInto _ _ (by simp)]
  simp [h]

/-- A sender puts its register's top bit on the bus and shifts it in again: after `n` bits the next ones follow (R141). -/
theorem bits_resend (v : Byte) (n : Nat) (h : n < 8) :
    (bits (shiftInto v v.msb)).take n = ((bits v).tail).take n := by
  rw [bits_shiftInto, List.take_append_of_le_length (by simp; omega)]

/-! ### The master's clock pulses (R132) -/

/-- The engine holds the clock low on a bus nobody else pulls the clock of, after its own START (R168). -/
structure State.Clocking (s : State) : Prop where
  scl_low : s.sclLow = true
  scl_free : s.sclExt = true
  no_start : s.startSeen = false
  busy : s.busBusy = true

section
variable {s : State} {rest : List Input} {level b : Bool} (out arb : Bool)

/-- One pulse in which another device puts `level` on the data line (R132). -/
theorem mClockBit_level (c : s.Clocking) (hi : s.inputs = levelInPulse level ++ rest) (hr : calm rest = true)
    (ha : arb = true → out = true → level = true) (hb : (level && (out || !s.sdaOe)) = b) :
    (mClockBit out arb).run s = .ok (.bit b)
      { s with sdaLow := !out, sdaExt := level, inputs := rest, wire := .pulse b :: s.wire } := by
  obtain ⟨h1, h2, h3, h4⟩ := c
  obtain ⟨⟩ := s
  simp only at h1 h2 h3 h4 hi ⊢
  subst h1 h2 h3 h4 hi hb
  cases out <;> cases level <;> cases arb <;>
    simp_all [mClockBit, putData, lineCall_calm, releaseDataHigh, pullDataLow, releaseClockHigh, pullClockLow,
      waitHalfBitPeriod_run, runHalfBit, levelInPulse, waitUntil_calm, isDataHigh_calm, State.observe, State.scl,
      State.sda, State.act]

/-- One pulse in which nobody does anything and nobody pulls the data line (R132). -/
theorem mClockBit_idle (c : s.Clocking) (hd : s.sdaExt = true) (hi : s.inputs = idlePulse ++ rest)
    (hr : calm rest = true) (hb : (out || !s.sdaOe) = b) :
    (mClockBit out arb).run s = .ok (.bit b)
      { s with sdaLow := !out, inputs := rest, wire := .pulse b :: s.wire } := by
  obtain ⟨h1, h2, h3, h4⟩ := c
  obtain ⟨⟩ := s
  simp only at h1 h2 h3 h4 hd hi ⊢
  subst h1 h2 h3 h4 hd hi hb
  cases out <;> cases arb <;>
    simp_all [mClockBit, putData, lineCall_calm, releaseDataHigh, pullDataLow, releaseClockHigh, pullClockLow,
      waitHalfBitPeriod_run, runHalfBit, idlePulse, waitUntil_calm, isDataHigh_calm, State.observe, State.scl,
      State.sda]

/-- One pulse in which the engine sends 1 and another master 0: arbitration is lost, the clock line is left released (R132
step 7). -/
theorem mClockBit_lost (c : s.Clocking) (hi : s.inputs = .env (.sda false) :: .pass :: rest) (hr : calm rest = true) :
    (mClockBit true true).run s = .ok .lost
      { s with sdaLow := false, sclLow := false, sdaExt := false, inputs := rest, wire := .pulse false :: s.wire } := by
  obtain ⟨h1, h2, h3, h4⟩ := c
  obtain ⟨⟩ := s
  simp only at h1 h2 h3 h4 hi ⊢
  subst h1 h2 h3 h4 hi
  simp_all [mClockBit, putData, lineCall_calm, releaseDataHigh, releaseClockHigh, waitHalfBitPeriod_run,
    runHalfBit, waitUntil_calm, isDataHigh_calm, State.observe, State.scl, State.sda,
    State.act]

end

/-- An expiry that is to come concerns the next wait, no line-driver call (log 5). -/
theorem lineCall_before_expire {f : State → State} {s : State} {rest : List Input} (h : s.inputs = .expire :: rest) :
    (lineCall f).run s = .ok () (s.observe (f s)) := by
  have hr : races.run s = .ok () s := by
    change runRaces s.inputs s = _
    obtain ⟨⟩ := s
    subst h
    rfl
  rw [lineCall, Eng.bind_of_ok hr]; rfl

/-- A wait for the clock that expires in a pulse (R132 step 4): the clock line is left released. -/
theorem mClockBit_expired {s : State} {rest : List Input} (arb : Bool) (c : s.Clocking) (hl : s.sdaLow = false)
    (ho : s.sdaOe = false) (ht : s.params.timeoutEnforced = true) (hi : s.inputs = .pass :: .expire :: rest) :
    (mClockBit true arb).run s = .ok .expired
      { s with sclLow := false, inputs := rest, wire := .pulse s.sdaExt :: s.wire } := by
  obtain ⟨h1, h2, h3, h4⟩ := c
  obtain ⟨⟩ := s
  simp only at h1 h2 h3 h4 hl ho ht hi ⊢
  subst h1 h2 h3 h4 hl ho hi
  simp_all [mClockBit, putData, lineCall_calm, releaseDataHigh, waitHalfBitPeriod_run, runHalfBit, waitUntil_run, runWait,
    State.observe, State.scl, State.sda, releaseClockHigh, lineCall_before_expire]

theorem onWire_cons (b : Bool) (bs : List Bool) (w : List Symbol) : onWire bs ++ .pulse b :: w = onWire (b :: bs) ++ w := by
  simp [onWire]

theorem count_succ (c : BitVec 4) (n : Nat) : c + 1 + BitVec.ofNat 4 n = c + BitVec.ofNat 4 (n + 1) := by
  apply BitVec.eq_of_toNat_eq
  simp only [BitVec.toNat_add, BitVec.toNat_ofNat, show (1 : BitVec 4).toNat = 1 from rfl]
  omega

/-- The first `n` bits of a byte the engine sends while nobody does anything (R133). -/
theorem mSendBits_idle (arb : Bool) (n : Nat) (hn : n ≤ 8) (s : State) (rest : List Input) (c : s.Clocking)
    (hd : s.sdaExt = true) (ho : s.sdaOe = true) (hi : s.inputs = (List.replicate n idlePulse).flatten ++ rest)
    (hr : calm rest = true) (more : Nat) :
    ∃ low, (mSendBits arb (n + more)).run s = (mSendBits arb more).run
      { s with
        sr := ((bits s.sr).take n).foldl shiftInto s.sr, bitcnt := s.bitcnt + BitVec.ofNat 4 n, sdaLow := low,
        inputs := rest, wire := onWire ((bits s.sr).take n) ++ s.wire } := by
  induction n generalizing s with
  | zero =>
    refine ⟨s.sdaLow, ?_⟩
    obtain ⟨⟩ := s
    simp_all [onWire]
  | succ n ih =>
    have hr' : calm ((List.replicate n idlePulse).flatten ++ rest) = true := by
      cases n <;> simp [List.replicate_succ, idlePulse, hr]
    have hp := mClockBit_idle s.sr.msb arb c hd (by rw [hi]; simp [List.replicate_succ]) hr' (b := s.sr.msb) (by simp [ho])
    have e : n + 1 + more = (n + more) + 1 := by omega
    have c' : State.Clocking { s with
        sr := shiftInto s.sr s.sr.msb, bitcnt := s.bitcnt + 1, sdaLow := !s.sr.msb,
        inputs := (List.replicate n idlePulse).flatten ++ rest, wire := .pulse s.sr.msb :: s.wire } :=
      ⟨c.scl_low, c.scl_free, c.no_start, c.busy⟩
    obtain ⟨low, h⟩ := ih (by omega) _ c' hd ho rfl
    refine ⟨low, ?_⟩
    rw [e, mSendBits, Eng.bind_run]
    simp only [EStateM.run_get, Eng.bind_run, hp]
    simp only [shiftIn, Eng.modify_run]
    rw [h, bits_resend _ _ (by omega), onWire_cons]
    rw [show (bits s.sr).take (n + 1) = s.sr.msb :: (bits s.sr).tail.take n by rw [bits_cons, List.take_succ_cons]; rfl]
    congr 2
    exact count_succ _ _

/-- The engine sends a whole byte and nobody pulls the data line in its data bits; in the ninth pulse the receiver's level
is `ack`, low for `A` (R133). -/
theorem mSendByte_answered (v : Byte) (arb ack : Bool) (s : State) (rest : List Input) (c : s.Clocking)
    (hd : s.sdaExt = true) (hi : s.inputs = idleByte ++ levelInPulse ack ++ rest) (hr : calm rest = true) :
    (mSendByte v arb).run s = .ok (if ack then .nacked else .acked)
      { s with
        sr := v, bitcnt := 8, sdaLow := false, sdaOe := false, sdaExt := ack, inputs := rest,
        wire := .pulse ack :: onWire (bits v) ++ s.wire } := by
  have c' : State.Clocking { s with sr := v, bitcnt := 0, sdaOe := true } :=
    ⟨c.scl_low, c.scl_free, c.no_start, c.busy⟩
  have hs : calm s.inputs = true := by rw [hi]; simp [idleByte, idlePulse, List.replicate]
  obtain ⟨low, h⟩ := mSendBits_idle arb 8 (by omega) { s with sr := v, bitcnt := 0, sdaOe := true }
    (levelInPulse ack ++ rest) c' hd rfl (by simp [hi, idleByte]) (by simp [levelInPulse]) 0
  have hp := mClockBit_level (s := { s with
      sr := v, bitcnt := 8, sdaLow := false, sdaOe := false, inputs := levelInPulse ack ++ rest,
      wire := onWire (bits v) ++ s.wire }) (b := ack) true false
    ⟨c.scl_low, c.scl_free, c.no_start, c.busy⟩ rfl hr (by simp) (by simp)
  have h' : (mSendBits arb 8).run { s with sr := v, bitcnt := 0, sdaOe := true } = .ok none
      { s with
        sr := v, bitcnt := 8, sdaLow := low, sdaOe := true, inputs := levelInPulse ack ++ rest,
        wire := onWire (bits v) ++ s.wire } := by
    rw [show mSendBits arb 8 = mSendBits arb (8 + 0) from rfl, h]
    simp [mSendBits, List.take_of_length_le, foldl_shiftInto_bits]
  have e : s.scl = false := State.scl_of_sclLow c.scl_low
  rw [mSendByte, setSr, setBitcnt]
  simp only [Eng.bind_run, Eng.modify_run]
  rw [enableDataDriver_low (by exact hs) (by exact e)]
  simp only [h']
  simp only [Eng.bind_run]
  rw [releaseDataHigh_low (by simp [levelInPulse]) (by exact e)]
  simp only
  rw [disableDataDriver_low (by simp [levelInPulse]) (by exact e)]
  simp only [hp]
  cases ack <;> rfl

theorem releaseDataHigh_same {s : State} (h : calm s.inputs = true) (hs : s.sdaLow = false) :
    releaseDataHigh.run s = .ok () { s with sdaLow := false } := by
  rw [releaseDataHigh, lineCall_calm h, State.observe_same (by exact rfl) (by simp [State.sda, hs])]

theorem disableDataDriver_same {s : State} (h : calm s.inputs = true) (hs : s.sdaLow = false) :
    disableDataDriver.run s = .ok () { s with sdaOe := false } := by
  rw [disableDataDriver, lineCall_calm h, State.observe_same (by exact rfl) (by simp [State.sda, hs])]

/-- The engine sends `k` bits undisturbed, then sends 1 while another master sends 0: the byte is lost, the lost bit is shifted
in as 0, both lines are let go (R133, R230). -/
theorem mSendByte_lost (v : Byte) (k : Nat) (hk : k < 8) (hv : v.getMsbD k = true) (s : State) (rest : List Input)
    (c : s.Clocking) (hd : s.sdaExt = true)
    (hi : s.inputs = (List.replicate k idlePulse).flatten ++ .env (.sda false) :: .pass :: rest) (hr : calm rest = true) :
    (mSendByte v true).run s = .ok .lost
      { s with
        sr := shiftInto (((bits v).take k).foldl shiftInto v) false, bitcnt := BitVec.ofNat 4 (k + 1), sclLow := false,
        sdaLow := false, sdaOe := false, sdaExt := false, inputs := rest,
        wire := .pulse false :: onWire ((bits v).take k) ++ s.wire } := by
  have hs : calm s.inputs = true := by
    rw [hi]; cases k <;> simp [List.replicate_succ, idlePulse]
  have e : s.scl = false := State.scl_of_sclLow c.scl_low
  obtain ⟨low, h⟩ := mSendBits_idle true k (by omega) { s with sr := v, bitcnt := 0, sdaOe := true }
    (.env (.sda false) :: .pass :: rest) ⟨c.scl_low, c.scl_free, c.no_start, c.busy⟩ hd rfl hi (by simp) (7 - k + 1)
  rw [show k + (7 - k + 1) = 8 by omega] at h
  have hp := mClockBit_lost (s := { s with
      sr := ((bits v).take k).foldl shiftInto v, bitcnt := 0 + BitVec.ofNat 4 k, sdaLow := low, sdaOe := true,
      inputs := .env (.sda false) :: .pass :: rest, wire := onWire ((bits v).take k) ++ s.wire })
    ⟨c.scl_low, c.scl_free, c.no_start, c.busy⟩ rfl hr
  have hm : (((bits v).take k).foldl shiftInto v).msb = true := by 
    rw [msb_foldl_shiftInto _ _ (by simp; omega), List.length_take, bits_length, min_eq_left (by omega), hv]
  rw [mSendByte, setSr, setBitcnt]
  simp only [Eng.bind_run, Eng.modify_run]
  rw [enableDataDriver_low (by exact hs) (by exact e)]
  simp only [h]
  rw [mSendBits]
  simp only [Eng.bind_run, EStateM.run_get, hm, hp, shiftIn, Eng.modify_run]
  rw [releaseDataHigh_same (by exact hr) rfl]
  simp only
  rw [disableDataDriver_same (by exact hr) rfl]
  simp only [EStateM.run_pure]
  congr 2
  apply BitVec.eq_of_toNat_eq
  simp only [BitVec.toNat_add, BitVec.toNat_ofNat, show (1 : BitVec 4).toNat = 1 from rfl,
    show (0 : BitVec 4).toNat = 0 from rfl]
  omega

/-! ### The master receives (R134) -/

/-- Another device puts these levels on the data line while the engine clocks; then `more` bits are still to come (R134). -/
theorem mRecvBits_more (bs : List Bool) (more : Nat) (s : State) (rest : List Input) (c : s.Clocking)
    (hl : s.sdaLow = false) (ho : s.sdaOe = false) (hi : s.inputs = bs.flatMap levelInPulse ++ rest)
    (hr : calm rest = true) :
    (mRecvBits (bs.length + more)).run s = (mRecvBits more).run
      { s with
        sr := bs.foldl shiftInto s.sr, bitcnt := s.bitcnt + BitVec.ofNat 4 bs.length,
        sdaExt := bs.getLastD s.sdaExt, inputs := rest, wire := onWire bs ++ s.wire } := by
  induction bs generalizing s with
  | nil =>
    rw [List.length_nil, Nat.zero_add]
    congr 1
    obtain ⟨⟩ := s
    simp_all [onWire]
  | cons b bs ih =>
    have hr' : calm (bs.flatMap levelInPulse ++ rest) = true := by
      cases bs <;> simp [levelInPulse, hr]
    have hp := mClockBit_level (b := b) true false c (by rw [hi, List.flatMap_cons, List.append_assoc]) hr' (by simp)
      (by simp)
    have h := ih { s with
        sr := shiftInto s.sr b, bitcnt := s.bitcnt + 1, sdaLow := false, sdaExt := b,
        inputs := bs.flatMap levelInPulse ++ rest, wire := .pulse b :: s.wire }
      ⟨c.scl_low, c.scl_free, c.no_start, c.busy⟩ rfl ho rfl
    rw [List.length_cons, show bs.length + 1 + more = (bs.length + more) + 1 by omega, mRecvBits]
    simp only [Eng.bind_run, hp, shiftIn, Eng.modify_run]
    simp only [Bool.not_true]
    rw [h, onWire_cons]
    simp only [List.foldl_cons, ← count_succ]
    congr 2
    · exact hl.symm
    · cases bs with
      | nil => rfl
      | cons b' bs => simp [List.getLastD]

/-- Another device puts these levels on the data line while the engine clocks (R134). -/
theorem mRecvBits_levels (bs : List Bool) (s : State) (rest : List Input) (c : s.Clocking) (hl : s.sdaLow = false)
    (ho : s.sdaOe = false) (hi : s.inputs = bs.flatMap levelInPulse ++ rest) (hr : calm rest = true) :
    (mRecvBits bs.length).run s = .ok .done
      { s with
        sr := bs.foldl shiftInto s.sr, bitcnt := s.bitcnt + BitVec.ofNat 4 bs.length,
        sdaExt := bs.getLastD s.sdaExt, inputs := rest, wire := onWire bs ++ s.wire } :=
  mRecvBits_more bs 0 s rest c hl ho hi hr

theorem getLastD_bits (v : Byte) (b : Bool) : (bits v).getLastD b = v.getLsbD 0 := by
  revert v b; decide

/-- The engine receives a whole byte; in the ninth pulse it drives `A` or leaves `N`, and nobody else pulls the line (R134). -/
theorem mRecvByte_byte (v : Byte) (ack : Bool) (s : State) (rest : List Input) (c : s.Clocking)
    (hi : s.inputs = (bits v).flatMap levelInPulse ++ levelInPulse true ++ rest) (hr : calm rest = true) :
    (mRecvByte ack).run s = .ok .done
      { s with
        sr := v, bitcnt := 8, sdaLow := false, sdaOe := false, sdaExt := true, inputs := rest,
        wire := .pulse (!ack) :: onWire (bits v) ++ s.wire } := by
  have hs : calm s.inputs = true := by rw [hi, bits_cons]; simp [levelInPulse]
  have e : s.scl = false := State.scl_of_sclLow c.scl_low
  have h := mRecvBits_levels (bits v) { s with bitcnt := 0, sdaLow := false, sdaOe := false }
    (levelInPulse true ++ rest) ⟨c.scl_low, c.scl_free, c.no_start, c.busy⟩ rfl rfl (by simp [hi])
    (by simp [levelInPulse])
  simp only [bits_length, foldl_shiftInto_bits, getLastD_bits] at h
  rw [mRecvByte, setBitcnt]
  simp only [Eng.bind_run, Eng.modify_run]
  rw [releaseDataHigh_low (by exact hs) (by exact e)]
  simp only
  rw [disableDataDriver_low (by exact hs) (by exact e)]
  simp only [h]
  cases ack
  · have hp := mClockBit_level (s := { s with
        sr := v, bitcnt := 0 + BitVec.ofNat 4 8, sdaLow := false, sdaOe := false, sdaExt := v.getLsbD 0,
        inputs := levelInPulse true ++ rest, wire := onWire (bits v) ++ s.wire }) (b := true) true false
      ⟨c.scl_low, c.scl_free, c.no_start, c.busy⟩ rfl hr (by simp) (by simp)
    simp only [Bool.false_eq_true, if_false, EStateM.run_bind, hp]
    simp [MPulse.ofRecv]
  · have hp := mClockBit_level (s := { s with
        sr := v, bitcnt := 0 + BitVec.ofNat 4 8, sdaLow := false, sdaOe := true, sdaExt := v.getLsbD 0,
        inputs := levelInPulse true ++ rest, wire := onWire (bits v) ++ s.wire }) (b := false) false false
      ⟨c.scl_low, c.scl_free, c.no_start, c.busy⟩ rfl hr (by simp) (by simp)
    simp only [if_true, Eng.bind_run]
    rw [enableDataDriver_low (by simp [levelInPulse]) (by exact e)]
    simp only [hp]
    rw [releaseDataHigh_low (by exact hr) (by exact e)]
    simp only
    rw [disableDataDriver_low (by exact hr) (by exact e)]
    simp [MPulse.ofRecv]

/-! ### START, repeated START, STOP (R160, R161, R210) -/

/-- A START on an idle bus (R160). -/
theorem mStart_idle (s : State) (rest : List Input) (h1 : s.sclLow = false) (h2 : s.sdaLow = false)
    (h3 : s.sdaOe = false) (h4 : s.sclExt = true) (h5 : s.sdaExt = true) (h6 : s.busBusy = false)
    (hi : s.inputs = .pass :: .pass :: rest) (hr : calm rest = true) :
    mStart.run s = .ok .ok
      { s with
        sclLow := true, sdaLow := true, sdaOe := true, startSeen := false, busBusy := true, inputs := rest,
        wire := .start :: s.wire } := by
  obtain ⟨⟩ := s
  simp only at h1 h2 h3 h4 h5 h6 hi ⊢
  subst h1 h2 h3 h4 h5 h6 hi
  simp_all [mStart, lineCall_calm, releaseClockHigh, releaseDataHigh, enableDataDriver, pullDataLow, pullClockLow,
    consumeStart, waitHalfBitPeriod_run, runHalfBit, waitUntil_calm, State.observe, State.scl, State.sda]

/-- A repeated START on a bus the engine holds (R161). -/
theorem mRestart_held (s : State) (rest : List Input) (c : s.Clocking) (h2 : s.sdaLow = false) (h3 : s.sdaOe = false)
    (h5 : s.sdaExt = true) (hi : s.inputs = .pass :: .pass :: .pass :: rest) (hr : calm rest = true) :
    mRestart.run s = .ok .ok
      { s with
        sclLow := true, sdaLow := true, sdaOe := true, startSeen := false, busBusy := true, inputs := rest,
        wire := .restart :: .pulse true :: s.wire } := by
  obtain ⟨h1, h4, h6, h7⟩ := c
  obtain ⟨⟩ := s
  simp only at h1 h2 h3 h4 h5 h6 h7 hi ⊢
  subst h1 h2 h3 h4 h5 h6 h7 hi
  simp_all [mRestart, lineCall_calm, releaseClockHigh, releaseDataHigh, disableDataDriver, enableDataDriver,
    pullDataLow, pullClockLow, consumeStart, waitHalfBitPeriod_run, runHalfBit, waitUntil_calm, State.observe,
    State.scl, State.sda]

/-- A STOP on a bus the engine holds (R210). -/
theorem mStop_held (s : State) (rest : List Input) (c : s.Clocking) (h2 : s.sdaLow = false) (h3 : s.sdaOe = false)
    (h5 : s.sdaExt = true) (hi : s.inputs = .pass :: .pass :: .pass :: rest) (hr : calm rest = true) :
    mStop.run s = .ok ()
      { s with
        sclLow := false, sdaLow := false, sdaOe := false, startSeen := false, busBusy := false, inputs := rest,
        wire := .stop :: .pulse false :: s.wire } := by
  obtain ⟨h1, h4, h6, h7⟩ := c
  obtain ⟨⟩ := s
  simp only at h1 h2 h3 h4 h5 h6 h7 hi ⊢
  subst h1 h2 h3 h4 h5 h6 h7 hi
  simp_all [mStop, lineCall_calm, releaseClockHigh, releaseDataHigh, disableDataDriver, enableDataDriver,
    pullDataLow, pullClockLow, waitHalfBitPeriod_run, runHalfBit, waitUntil_calm, State.observe, State.scl, State.sda]

/-! ### The slave follows another master's clock (R135, R136) -/

/-- A wait whose condition does not hold yet takes the environment's next act (R130). -/
theorem runWait_act {c : State → Bool} {s : State} (h : c s = false) (a : LineAct) (l : List Input) :
    runWait c (.env a :: l) s = runWait c l (s.act a) := by
  simp [runWait, h]

theorem runWait_calm {c : State → Bool} {s : State} {l : List Input} (h : calm l = true) (hc : c s = true) :
    runWait c l s = .ok .ok { s with inputs := l } := by
  rcases l with _ | ⟨_ | _ | _ | _ | _ | _, _⟩ <;> first | (cases h; done) | simp [runWait, hc]

section
variable {s : State} {rest : List Input} {level b : Bool} (out : Bool)

/-- One pulse of another master that puts `level` on the data line first (R136). -/
theorem sPutBit_level (he : s.sclExt = false) (hi : s.inputs = masterPulse level ++ rest) (hr : calm rest = true)
    (hb : (level && (out || !s.sdaOe)) = b) :
    (sPutBit out).run s = .ok (.bit b)
      { s with
        sdaLow := !out, sclLow := false, sdaExt := level, inputs := rest, wire := .pulse b :: s.wire } := by
  obtain ⟨⟩ := s
  simp only at he hi hb ⊢
  subst he hi hb
  cases out <;> cases level <;>
    simp_all [sPutBit, putData, sWaitBit, lineCall_calm, releaseDataHigh, pullDataLow, releaseClockHigh, waitUntil_run,
      masterPulse, runWait_act, runWait_calm, isDataHigh_calm, State.observe, State.scl, State.sda, State.act]

/-- One pulse of another master, or of nobody the engine hears of, that leaves the data line alone (R136). -/
theorem sPutBit_clock (he : s.sclExt = false) (hi : s.inputs = clockPulse ++ rest) (hr : calm rest = true)
    (hb : (s.sdaExt && (out || !s.sdaOe)) = b) :
    (sPutBit out).run s = .ok (.bit b)
      { s with sdaLow := !out, sclLow := false, inputs := rest, wire := .pulse b :: s.wire } := by
  obtain ⟨⟩ := s
  simp only at he hi hb ⊢
  subst he hi hb
  rename_i oe _ ext _ _ _ _
  cases out <;> cases oe <;> cases ext <;>
    simp_all [sPutBit, putData, sWaitBit, lineCall_calm, releaseDataHigh, pullDataLow, releaseClockHigh, waitUntil_run,
      clockPulse, runWait_act, runWait_calm, isDataHigh_calm, State.observe, State.scl, State.sda, State.act]

/-- A pulse in which the data line rises while the clock is high: a STOP (R135 step 4). -/
theorem sPutBit_stop (he : s.sclExt = false) (ho : s.sdaOe = false)
    (hi : s.inputs = .env (.sda false) :: .env (.scl true) :: .env (.sda true) :: rest) (hr : calm rest = true) :
    (sPutBit true).run s = .ok .stop
      { s with
        sdaLow := false, sclLow := false, sclExt := true, sdaExt := true, startSeen := false, busBusy := false,
        inputs := rest, wire := .stop :: .pulse false :: s.wire } := by
  obtain ⟨⟩ := s
  simp only at he ho hi ⊢
  subst he ho hi
  simp_all [sPutBit, putData, sWaitBit, lineCall_calm, releaseDataHigh, releaseClockHigh, waitUntil_run, runWait_act,
    runWait_calm, isDataHigh_calm, State.observe, State.scl, State.sda, State.act]

/-- A pulse in which the data line falls while the clock is high: a START (R135 step 4). -/
theorem sPutBit_start (he : s.sclExt = false) (ho : s.sdaOe = false) (hb : s.busBusy = true)
    (hi : s.inputs = .env (.sda true) :: .env (.scl true) :: .env (.sda false) :: rest) (hr : calm rest = true) :
    (sPutBit true).run s = .ok .start
      { s with
        sdaLow := false, sclLow := false, sclExt := true, sdaExt := false, startSeen := true, busBusy := true,
        inputs := rest, wire := .restart :: .pulse true :: s.wire } := by
  obtain ⟨⟩ := s
  simp only at he ho hb hi ⊢
  subst he ho hb hi
  simp_all [sPutBit, putData, sWaitBit, lineCall_calm, releaseDataHigh, releaseClockHigh, waitUntil_run, runWait_act,
    runWait_calm, isDataHigh_calm, State.observe, State.scl, State.sda, State.act]

end

/-- Another master clocks these bits in; then `more` bits are still to come (R137, R184). -/
theorem sRecvBits_more (bs : List Bool) (more : Nat) (s : State) (rest : List Input) (he : s.sclExt = false)
    (hl : s.sdaLow = false) (ho : s.sdaOe = false) (hi : s.inputs = bs.flatMap masterPulse ++ rest)
    (hr : calm rest = true) :
    (sRecvBits (bs.length + more)).run s = (sRecvBits more).run
      { s with
        sr := bs.foldl shiftInto s.sr, bitcnt := s.bitcnt + BitVec.ofNat 4 bs.length,
        sclLow := bs.isEmpty && s.sclLow, sdaExt := bs.getLastD s.sdaExt, inputs := rest,
        wire := onWire bs ++ s.wire } := by
  induction bs generalizing s with
  | nil =>
    rw [List.length_nil, Nat.zero_add]
    congr 1
    obtain ⟨⟩ := s
    simp_all [onWire]
  | cons b bs ih =>
    have hr' : calm (bs.flatMap masterPulse ++ rest) = true := by
      cases bs <;> simp [masterPulse, hr]
    have hp := sPutBit_level (b := b) true he (by rw [hi, List.flatMap_cons, List.append_assoc]) hr' (by simp)
    have h := ih { s with
        sr := shiftInto s.sr b, bitcnt := s.bitcnt + 1, sclLow := false, sdaLow := false, sdaExt := b,
        inputs := bs.flatMap masterPulse ++ rest, wire := .pulse b :: s.wire } he rfl ho rfl
    rw [List.length_cons, show bs.length + 1 + more = (bs.length + more) + 1 by omega, sRecvBits]
    simp only [Eng.bind_run, hp, shiftIn, Eng.modify_run]
    simp only [Bool.not_true]
    rw [h, onWire_cons]
    simp only [List.foldl_cons, ← count_succ]
    congr 2
    · simp
    · exact hl.symm
    · cases bs with
      | nil => rfl
      | cons b' bs => simp [List.getLastD]

/-- Another master clocks these bits in (R137, R184). -/
theorem sRecvBits_levels (bs : List Bool) (s : State) (rest : List Input) (he : s.sclExt = false)
    (hl : s.sdaLow = false) (ho : s.sdaOe = false) (hi : s.inputs = bs.flatMap masterPulse ++ rest)
    (hr : calm rest = true) :
    (sRecvBits bs.length).run s = .ok .done
      { s with
        sr := bs.foldl shiftInto s.sr, bitcnt := s.bitcnt + BitVec.ofNat 4 bs.length,
        sclLow := bs.isEmpty && s.sclLow, sdaExt := bs.getLastD s.sdaExt, inputs := rest,
        wire := onWire bs ++ s.wire } :=
  sRecvBits_more bs 0 s rest he hl ho hi hr

/-- A whole byte clocked in by another master; in the ninth pulse the engine drives `A` or leaves `N` (R137). -/
theorem sRecvByte_byte (v : Byte) (ack : Bool) (s : State) (rest : List Input) (he : s.sclExt = false)
    (hl : s.scl = false) (hi : s.inputs = (bits v).flatMap masterPulse ++ masterPulse true ++ rest)
    (hr : calm rest = true) :
    (sRecvByte ack).run s = .ok .done
      { s with
        sr := v, bitcnt := 8, sclLow := false, sdaLow := false, sdaOe := false, sdaExt := true, inputs := rest,
        wire := .pulse (!ack) :: onWire (bits v) ++ s.wire } := by
  have hs : calm s.inputs = true := by rw [hi, bits_cons]; simp [masterPulse]
  have h := sRecvBits_levels (bits v) { s with bitcnt := 0, sdaLow := false, sdaOe := false }
    (masterPulse true ++ rest) he rfl rfl (by simp [hi]) (by simp [masterPulse])
  simp only [bits_length, foldl_shiftInto_bits, getLastD_bits] at h
  have hb : (bits v).isEmpty = false := by rw [bits_cons]; rfl
  simp only [hb, Bool.false_and] at h
  rw [sRecvByte, setBitcnt]
  simp only [Eng.bind_run, Eng.modify_run]
  rw [releaseDataHigh_low (by exact hs) (by exact hl)]
  simp only
  rw [disableDataDriver_low (by exact hs) (by exact hl)]
  simp only [h]
  have hc : ∀ t : State, t.sclExt = false → t.scl = false := fun t h => by simp [State.scl, h]
  cases ack
  · have hp := sPutBit_level (s := { s with
        sr := v, bitcnt := 0 + BitVec.ofNat 4 8, sclLow := false, sdaLow := false, sdaOe := false,
        sdaExt := v.getLsbD 0, inputs := masterPulse true ++ rest, wire := onWire (bits v) ++ s.wire }) (b := true) true
      he rfl hr (by simp)
    simp only [Bool.false_eq_true, if_false, EStateM.run_bind, hp]
    simp [SPulse.ofRecv]
  · have hp := sPutBit_level (s := { s with
        sr := v, bitcnt := 0 + BitVec.ofNat 4 8, sclLow := false, sdaLow := false, sdaOe := true,
        sdaExt := v.getLsbD 0, inputs := masterPulse true ++ rest, wire := onWire (bits v) ++ s.wire }) (b := false)
      false he rfl hr (by simp)
    simp only [if_true, Eng.bind_run]
    rw [enableDataDriver_low (by simp [masterPulse]) (hc _ (by exact he))]
    simp only [hp]
    rw [releaseDataHigh_low (by exact hr) (hc _ (by exact he))]
    simp only
    rw [disableDataDriver_low (by exact hr) (hc _ (by exact he))]
    simp [SPulse.ofRecv]

/-! ### The slave sends (R145) -/

/-- What the bus shows, and whether a collision has been seen, when the engine as slave sends the bits `own` while the other
devices put `levels` on the data line; `collided` is what has been seen before (R145). -/
def slaveBus : List Bool → List Bool → Bool → List Bool × Bool
  | o :: own, l :: levels, collided =>
    let b := (collided || o) && l
    let r := slaveBus own levels (collided || (o && !b))
    (b :: r.1, r.2)
  | _, _, collided => ([], collided)

/-- A collision is seen exactly when the engine has sent 1 where another device sent 0 (R145, R269). -/
theorem slaveBus_collided (own levels : List Bool) (collided : Bool) :
    (slaveBus own levels collided).2 = (collided || (own.zip levels).any fun p => p.1 && !p.2) := by
  induction own generalizing levels collided with
  | nil => simp [slaveBus]
  | cons o own ih =>
    cases levels with
    | nil => simp [slaveBus]
    | cons l levels => cases o <;> cases l <;> cases collided <;> simp [slaveBus, ih]

/-- Without a collision the bus shows the engine's bits (R145). -/
theorem slaveBus_own (own levels : List Bool) (h : own.length = levels.length)
    (hc : (slaveBus own levels false).2 = false) : (slaveBus own levels false).1 = own := by
  induction own generalizing levels with
  | nil => simp [slaveBus]
  | cons o own ih =>
    cases levels with
    | nil => simp at h
    | cons l levels => cases o <;> cases l <;> simp_all [slaveBus, slaveBus_collided]

theorem sSendBits_levels (levels : List Bool) (hn : levels.length ≤ 8) (collided : Bool) (s : State) (rest : List Input)
    (he : s.sclExt = false) (ho : s.sdaOe = true) (hi : s.inputs = levels.flatMap masterPulse ++ rest)
    (hr : calm rest = true) :
    ∃ low, (sSendBits levels.length collided).run s =
      .ok (none, (slaveBus ((bits s.sr).take levels.length) levels collided).2)
      { s with
        sr := (slaveBus ((bits s.sr).take levels.length) levels collided).1.foldl shiftInto s.sr,
        bitcnt := s.bitcnt + BitVec.ofNat 4 levels.length, sclLow := levels.isEmpty && s.sclLow, sdaLow := low,
        sdaExt := levels.getLastD s.sdaExt, inputs := rest,
        wire := onWire (slaveBus ((bits s.sr).take levels.length) levels collided).1 ++ s.wire } := by
  induction levels generalizing s collided with
  | nil => refine ⟨s.sdaLow, ?_⟩; obtain ⟨⟩ := s; simp_all [sSendBits, onWire, slaveBus]
  | cons l levels ih =>
    have hr' : calm (levels.flatMap masterPulse ++ rest) = true := by
      cases levels <;> simp [masterPulse, hr]
    have hp := sPutBit_level (b := (collided || s.sr.msb) && l) (collided || s.sr.msb) he
      (by rw [hi, List.flatMap_cons, List.append_assoc]) hr' (by simp [ho, Bool.and_comm])
    obtain ⟨low, h⟩ := ih (by simp at hn; omega) (collided || (s.sr.msb && !((collided || s.sr.msb) && l))) { s with
        sr := shiftInto s.sr ((collided || s.sr.msb) && l), bitcnt := s.bitcnt + 1, sclLow := false,
        sdaLow := !(collided || s.sr.msb), sdaExt := l, inputs := levels.flatMap masterPulse ++ rest,
        wire := .pulse ((collided || s.sr.msb) && l) :: s.wire } he ho rfl
    have hx : (collided || ((collided || s.sr.msb) && s.sr.msb && !((collided || s.sr.msb) && l) && !collided)) =
        (collided || (s.sr.msb && !((collided || s.sr.msb) && l))) := by
      cases collided <;> cases s.sr.msb <;> simp
    have hb : (bits (shiftInto s.sr ((collided || s.sr.msb) && l))).take levels.length =
        (bits s.sr).tail.take levels.length := by
      rw [bits_shiftInto, List.take_append_of_le_length (by simp at hn ⊢; omega)]
    have ht : (bits s.sr).take (levels.length + 1) = s.sr.msb :: (bits s.sr).tail.take levels.length := by
      rw [bits_cons, List.take_succ_cons]; rfl
    refine ⟨low, ?_⟩
    rw [List.length_cons, sSendBits]
    simp only [Eng.bind_run, EStateM.run_get, hp, shiftIn, Eng.modify_run]
    simp only [hx, h, hb, ht]
    simp only [slaveBus, ← onWire_cons, List.foldl_cons, ← count_succ]
    congr 2
    · simp
    · cases levels with
      | nil => rfl
      | cons b' bs => simp [List.getLastD]

/-- A whole byte the engine sends as slave while the other devices put the bits of `w` on the data line; the master answers
with `ack`, low for `A` (R145). -/
theorem sSendByte_levels (v w : Byte) (ack : Bool) (s : State) (rest : List Input) (he : s.sclExt = false)
    (hi : s.inputs = (bits w).flatMap masterPulse ++ masterPulse ack ++ rest) (hr : calm rest = true) :
    (sSendByte v).run s =
      .ok (if ack then .nacked else .acked, (slaveBus (bits v) (bits w) false).2)
      { s with
        sr := (slaveBus (bits v) (bits w) false).1.foldl shiftInto v, bitcnt := 8, sclLow := false, sdaLow := false,
        sdaOe := false, sdaExt := ack, inputs := rest,
        wire := .pulse ack :: onWire (slaveBus (bits v) (bits w) false).1 ++ s.wire } := by
  have hs : calm s.inputs = true := by rw [hi, bits_cons]; simp [masterPulse]
  have hl : ∀ t : State, t.sclExt = false → t.scl = false := fun t h => by simp [State.scl, h]
  obtain ⟨low, h⟩ := sSendBits_levels (bits w) (by simp) false { s with sr := v, bitcnt := 0, sdaOe := true }
    (masterPulse ack ++ rest) he rfl (by simp [hi]) (by simp [masterPulse])
  have hb : (bits w).isEmpty = false := by rw [bits_cons]; rfl
  have ht : (bits v).take 8 = bits v := List.take_of_length_le (by simp)
  simp only [bits_length, hb, Bool.false_and, ht] at h
  have hp := sPutBit_level (s := { s with
      sr := (slaveBus (bits v) (bits w) false).1.foldl shiftInto v, bitcnt := 0 + BitVec.ofNat 4 8, sclLow := false,
      sdaLow := false, sdaOe := false, sdaExt := (bits w).getLastD s.sdaExt, inputs := masterPulse ack ++ rest,
      wire := onWire (slaveBus (bits v) (bits w) false).1 ++ s.wire }) (b := ack) true he rfl hr (by simp)
  rw [sSendByte, setSr, setBitcnt]
  simp only [Eng.bind_run, Eng.modify_run]
  rw [enableDataDriver_low (by exact hs) (hl _ (by exact he))]
  simp only [h]
  simp only [Eng.bind_run]
  rw [releaseDataHigh_low (by simp [masterPulse]) (hl _ (by exact he))]
  simp only
  rw [disableDataDriver_low (by simp [masterPulse]) (hl _ (by exact he))]
  simp only [hp, EStateM.run_pure]
  cases ack <;> simp [SPulse.ofSend]

/-! ### The slave clocks an address in (R184) -/

/-- The bits of an address field still missing are clocked in by another master, which keeps the clock low meanwhile (R184). -/
theorem sClockIn_levels (bs : List Bool) (budget : Nat) (s : State) (rest : List Input) (he : s.sclExt = false)
    (hl : s.sdaLow = false) (ho : s.sdaOe = false) (hb : s.busBusy = true) (hk : s.bitcnt.toNat + bs.length = 8)
    (hi : s.inputs = bs.flatMap masterPulse ++ rest) (hr : calm rest = true) :
    (sClockIn (budget + 1)).run s = .ok .done
      { s with
        sr := bs.foldl shiftInto s.sr, bitcnt := 8, sclLow := true, sdaExt := bs.getLastD s.sdaExt, inputs := rest,
        wire := onWire bs ++ s.wire } := by
  have hs : calm s.inputs = true := by rw [hi]; cases bs <;> simp [masterPulse, hr]
  have hc : s.scl = false := by simp [State.scl, he]
  have h := sRecvBits_levels bs { s with sdaLow := false, sdaOe := false } rest he rfl rfl (by exact hi) hr
  have hn : 8 - s.bitcnt.toNat = bs.length := by omega
  have h8 : s.bitcnt + BitVec.ofNat 4 bs.length = 8 := by
    apply BitVec.eq_of_toNat_eq
    simp only [BitVec.toNat_add, BitVec.toNat_ofNat, show (8 : BitVec 4).toNat = 8 from rfl]
    omega
  rw [sClockIn, sClockByte]
  simp only [Eng.bind_run]
  rw [waitUntil_calm hs (by simp [hc])]
  simp only [reduceCtorEq, if_false, EStateM.run_bind, EStateM.run_get, hb, Bool.not_true,
    Bool.false_eq_true]
  rw [releaseDataHigh_low hs hc]
  simp only
  rw [disableDataDriver_low (by exact hs) (by exact hc)]
  simp only [hn, h]
  rw [EStateM.run_bind, pullClockLow_calm (by exact hr)]
  simp only [h8, EStateM.run_pure]
  obtain ⟨⟩ := s
  simp_all

end Sys2Proof.Machine
end

