-- ==== Sys2Proof/Laws/SlaveQuiet.lean ====
section
/-! SUPPORT. A slave on an unraced bus sees no START and no STOP while its byte is clocked (43_slave_match.md R183, R191; R321):
what the slave's procedures do to the two latches when they go on. -/

namespace Sys2Proof.Machine

/-- Both latches of `t` are as in `s`. -/
def State.still (s t : State) : Prop := t.startSeen = s.startSeen ∧ t.busBusy = s.busBusy

theorem State.still.refl (s : State) : s.still s := ⟨rfl, rfl⟩

theorem State.still.trans {s t u : State} (h : s.still t) (h' : t.still u) : s.still u :=
  ⟨h'.1.trans h.1, h'.2.trans h.2⟩

theorem State.still.quiet {s t : State} (h : s.still t) (hq : s.quiet) : t.quiet := ⟨h.1.trans hq.1, h.2.trans hq.2⟩

/-! ### The lines -/

theorem State.observe_still {u v : State} (h : u.scl = false ∨ v.scl = false ∨ v.sda = u.sda) : v.still (u.observe v) := by
  unfold State.observe State.still
  rcases h with h | h | h
  · simp only [h, Bool.false_and, Bool.false_eq_true, if_false]
    split <;> exact ⟨rfl, rfl⟩
  · simp [h]
  · rw [h]
    cases u.scl <;> cases v.scl <;> cases u.sda <;> exact ⟨rfl, rfl⟩

theorem State.act_still {a : LineAct} {s : State} (h : s.scl = false ∨ (s.act a).scl = false ∨ (s.act a).sda = s.sda) :
    s.still (s.act a) := by
  cases a <;> exact State.observe_still (by simpa [State.act] using h)

/-- A line-driver call while the clock is low, on an unraced bus. -/
theorem lineCall_still {f : State → State} {s t : State} (h : (lineCall f).run s = .ok () t) (hu : s.unraced)
    (hl : s.scl = false) (hf : ∀ s : State, s.still (f s)) : s.still t ∧ t.scl = (f s).scl := by
  rw [lineCall_unraced hu h]
  exact ⟨(hf s).trans (State.observe_still (.inl hl)), by simp⟩

section
variable {s t : State} (hu : s.unraced) (hl : s.scl = false)
include hu hl

theorem pullClockLow_still (h : pullClockLow.run s = .ok () t) : s.still t ∧ t.scl = false := by
  obtain ⟨h1, h2⟩ := lineCall_still h hu hl fun _ => ⟨rfl, rfl⟩
  exact ⟨h1, h2.trans (by simp [State.scl])⟩

theorem releaseClockHigh_still (h : releaseClockHigh.run s = .ok () t) : s.still t :=
  (lineCall_still h hu hl fun _ => ⟨rfl, rfl⟩).1

theorem pullDataLow_still (h : pullDataLow.run s = .ok () t) : s.still t ∧ t.scl = false := by
  obtain ⟨h1, h2⟩ := lineCall_still h hu hl fun _ => ⟨rfl, rfl⟩
  exact ⟨h1, h2.trans hl⟩

theorem releaseDataHigh_still (h : releaseDataHigh.run s = .ok () t) : s.still t ∧ t.scl = false := by
  obtain ⟨h1, h2⟩ := lineCall_still h hu hl fun _ => ⟨rfl, rfl⟩
  exact ⟨h1, h2.trans hl⟩

theorem enableDataDriver_still (h : enableDataDriver.run s = .ok () t) : s.still t ∧ t.scl = false := by
  obtain ⟨h1, h2⟩ := lineCall_still h hu hl fun _ => ⟨rfl, rfl⟩
  exact ⟨h1, h2.trans hl⟩

theorem disableDataDriver_still (h : disableDataDriver.run s = .ok () t) : s.still t ∧ t.scl = false := by
  obtain ⟨h1, h2⟩ := lineCall_still h hu hl fun _ => ⟨rfl, rfl⟩
  exact ⟨h1, h2.trans hl⟩

theorem putData_still {out : Bool} (h : (putData out).run s = .ok () t) : s.still t ∧ t.scl = false := by
  cases out
  · exact pullDataLow_still hu hl h
  · exact releaseDataHigh_still hu hl h

end

theorem isDataHigh_unraced {s t : State} {b : Bool} (hu : s.unraced) (h : isDataHigh.run s = .ok b t) :
    s.sda = b ∧ s = t := by
  obtain ⟨_, u, hr, hg⟩ := Eng.bind_ok_iff.mp h
  obtain rfl := races_unraced hu hr
  simpa using hg

/-! ### Waits -/

/-- A property that the environment's acts keep as long as the condition does not hold survives the wait. -/
theorem runWait_invariant {P : State → Prop} {c : State → Bool} (hact : ∀ a s, P s → c s = false → P (s.act a))
    (hin : ∀ l s, P s → P { s with inputs := l }) (is : List Input) (s : State) (h : P s) :
    P (endState (runWait c is s)) := by
  induction is generalizing s with
  | nil =>
    unfold runWait
    repeat' split
    all_goals exact hin _ _ h
  | cons i is ih =>
    cases i <;> unfold runWait <;> repeat' split
    all_goals first
      | exact hin _ _ h
      | exact ih _ h
      | exact ih _ (hact _ _ h (by simp_all))

theorem waitUntil_invariant {P : State → Prop} {c : State → Bool} (hact : ∀ a s, P s → c s = false → P (s.act a))
    (hin : ∀ l s, P s → P { s with inputs := l }) {s t : State} {r : WaitResult} (h : P s)
    (hr : (waitUntil c).run s = .ok r t) : P t := by
  have := runWait_invariant hact hin s.inputs s h
  rwa [show runWait c s.inputs s = .ok r t from hr] at this

/-- Waiting for the clock to rise no START and no STOP is seen (R71: both need a high clock). -/
theorem waitClock_still {s t : State} {r : WaitResult} (h : (waitUntil State.scl).run s = .ok r t) : s.still t :=
  waitUntil_invariant (P := s.still) (fun _ _ hp hc => hp.trans (State.act_still (.inl hc))) (fun _ _ hp => hp) (.refl s) h

/-- Waiting for the clock to fall or the data line to change (R135 step 3): a START or STOP ends the wait with the clock
high. -/
theorem waitPulse_still {b : Bool} {s t : State} {r : WaitResult}
    (h : (waitUntil fun s => !s.scl || s.sda != b).run s = .ok r t) : s.still t ∨ t.scl = true ∧ t.sda = !b := by
  refine waitUntil_invariant (P := fun u => s.still u ∨ u.scl = true ∧ u.sda = !b) ?_ (fun _ _ hp => hp) (.inl (.refl s)) h
  intro a u hp hc
  simp only [Bool.or_eq_false_iff, Bool.not_eq_false', bne_eq_false_iff_eq] at hc
  have hp : s.still u := hp.resolve_right fun x => by simp [hc.2] at x
  rcases Bool.eq_false_or_eq_true (u.act a).scl with hk | hk
  · by_cases hd : (u.act a).sda = u.sda
    · exact .inl (hp.trans (State.act_still (.inr (.inr hd))))
    · exact .inr ⟨hk, by rw [hc.2] at hd; cases b <;> simpa using hd⟩
  · exact .inl (hp.trans (State.act_still (.inr (.inl hk))))

/-! ### One pulse (R135, R136) -/

theorem sWaitBit_still {s t : State} {r : SPulse} (hu : s.unraced) (h : sWaitBit.run s = .ok r t) :
    (∀ b, r = .bit b → s.still t ∧ t.scl = false) ∧ (r = .start → t.sda = false) := by
  unfold sWaitBit at h
  obtain ⟨r1, s1, h1, h⟩ := Eng.bind_ok_iff.mp h
  have u1 := (waitUntil_tame scl_inputs).unraced h1 hu
  have q1 := waitClock_still h1
  clear h1
  split at h
  · obtain ⟨rfl, rfl⟩ := Eng.pure_ok_iff.mp h
    simp
  · obtain ⟨b, s2, h2, h⟩ := Eng.bind_ok_iff.mp h
    obtain ⟨rfl, rfl⟩ := isDataHigh_unraced u1 h2
    obtain ⟨r3, s3, h3, h⟩ := Eng.bind_ok_iff.mp h
    split at h
    · obtain ⟨rfl, rfl⟩ := Eng.pure_ok_iff.mp h
      simp
    · rename_i hx
      have hx' : r3 = .ok := by cases r3 <;> simp_all
      subst hx'
      have q3 := waitPulse_still h3
      have c3 := (waitUntil_ok (fun _ _ => rfl) h3).1
      obtain ⟨_, _, hg, h⟩ := Eng.bind_ok_iff.mp h
      obtain ⟨rfl, rfl⟩ := Eng.get_ok_iff.mp hg
      split at h
      · rename_i hk
        have c3 : s3.sda ≠ s1.sda := by simpa [hk] using c3
        split at h
        · rename_i hb
          obtain ⟨rfl, rfl⟩ := Eng.pure_ok_iff.mp h
          exact ⟨by simp, fun _ => by simpa [hb] using c3⟩
        · obtain ⟨rfl, rfl⟩ := Eng.pure_ok_iff.mp h
          simp
      · rename_i hk
        obtain ⟨rfl, rfl⟩ := Eng.pure_ok_iff.mp h
        exact ⟨fun _ _ => ⟨q1.trans (q3.resolve_right fun x => hk x.1), by simpa using hk⟩, by simp⟩

/-- A followed pulse that begins with the clock low: a bit leaves the latches and the clock low, a START the data line low. -/
theorem sPutBit_still {out : Bool} {s t : State} {r : SPulse} (hu : s.unraced) (hl : s.scl = false)
    (h : (sPutBit out).run s = .ok r t) : (∀ b, r = .bit b → s.still t ∧ t.scl = false) ∧ (r = .start → t.sda = false) := by
  obtain ⟨_, s1, h1, h⟩ := Eng.bind_ok_iff.mp h
  obtain ⟨_, s2, h2, h⟩ := Eng.bind_ok_iff.mp h
  obtain ⟨q1, l1⟩ := putData_still hu hl h1
  have u1 := (putData_tame _).unraced h1 hu
  have q2 := releaseClockHigh_still u1 l1 h2
  obtain ⟨g1, g2⟩ := sWaitBit_still (releaseClockHigh_tame.unraced h2 u1) h
  exact ⟨fun b hb => ⟨(q1.trans q2).trans (g1 b hb).1, (g1 b hb).2⟩, g2⟩

/-! ### Bytes (R137, R145) -/

theorem sRecvBits_still {n : Nat} {s t : State} {r : SRecv} (hu : s.unraced) (hl : s.scl = false)
    (h : (sRecvBits n).run s = .ok r t) : (r = .done → s.still t ∧ t.scl = false) ∧ (r = .start → t.sda = false) := by
  induction n generalizing s with
  | zero =>
    obtain ⟨rfl, rfl⟩ := Eng.pure_ok_iff.mp h
    exact ⟨fun _ => ⟨.refl _, hl⟩, by simp⟩
  | succ n ih =>
    rw [sRecvBits] at h
    obtain ⟨p, s1, h1, h⟩ := Eng.bind_ok_iff.mp h
    obtain ⟨g1, g2⟩ := sPutBit_still hu hl h1
    have u1 := (sPutBit_tame _).unraced h1 hu
    clear h1
    cases p with
    | bit b =>
      obtain ⟨_, s2, h2, h⟩ := Eng.bind_ok_iff.mp h
      obtain rfl := Eng.modify_ok_iff.mp h2
      obtain ⟨i1, i2⟩ := ih (by exact u1) (by exact (g1 b rfl).2) h
      exact ⟨fun hr => ⟨(g1 b rfl).1.trans (i1 hr).1, (i1 hr).2⟩, i2⟩
    | start =>
      obtain ⟨rfl, rfl⟩ := Eng.pure_ok_iff.mp h
      exact ⟨by simp [SPulse.ofRecv], fun _ => g2 rfl⟩
    | stop | expired =>
      obtain ⟨rfl, rfl⟩ := Eng.pure_ok_iff.mp h
      simp [SPulse.ofRecv]

theorem sRecvByte_still {ack : Bool} {s t : State} (hu : s.unraced) (hl : s.scl = false)
    (h : (sRecvByte ack).run s = .ok .done t) : s.still t ∧ t.scl = false := by
  rw [sRecvByte] at h
  obtain ⟨_, s1, h1, h⟩ := Eng.bind_ok_iff.mp h
  obtain ⟨_, s2, h2, h⟩ := Eng.bind_ok_iff.mp h
  obtain ⟨_, s3, h3, h⟩ := Eng.bind_ok_iff.mp h
  obtain ⟨p, s4, h4, h⟩ := Eng.bind_ok_iff.mp h
  obtain ⟨q1, l1⟩ := releaseDataHigh_still hu hl h1
  have u1 := releaseDataHigh_tame.unraced h1 hu
  obtain ⟨q2, l2⟩ := disableDataDriver_still u1 l1 h2
  have u2 := disableDataDriver_tame.unraced h2 u1
  obtain rfl := Eng.modify_ok_iff.mp h3
  have g4 := (sRecvBits_still (by exact u2) (by exact l2) h4).1
  have u4 := (sRecvBits_tame _).unraced h4 (by exact u2)
  clear h1 h2 h3 h4
  cases p with
  | done =>
    have q4 : s.still s4 := (q1.trans q2).trans (g4 rfl).1
    have l4 := (g4 rfl).2
    simp only at h
    split at h
    · obtain ⟨_, s5, h5, h⟩ := Eng.bind_ok_iff.mp h
      obtain ⟨q, s6, h6, h⟩ := Eng.bind_ok_iff.mp h
      obtain ⟨_, s7, h7, h⟩ := Eng.bind_ok_iff.mp h
      obtain ⟨_, s8, h8, h⟩ := Eng.bind_ok_iff.mp h
      obtain ⟨hq, rfl⟩ := Eng.pure_ok_iff.mp h
      obtain ⟨b, rfl⟩ : ∃ b, q = .bit b := by cases q <;> simp_all [SPulse.ofRecv]
      obtain ⟨q5, l5⟩ := enableDataDriver_still u4 l4 h5
      have u5 := enableDataDriver_tame.unraced h5 u4
      obtain ⟨q6, l6⟩ := (sPutBit_still u5 l5 h6).1 b rfl
      have u6 := (sPutBit_tame _).unraced h6 u5
      obtain ⟨q7, l7⟩ := releaseDataHigh_still u6 l6 h7
      obtain ⟨q8, l8⟩ := disableDataDriver_still (releaseDataHigh_tame.unraced h7 u6) l7 h8
      exact ⟨q4.trans (q5.trans (q6.trans (q7.trans q8))), l8⟩
    · obtain ⟨q, s6, h6, h⟩ := Eng.bind_ok_iff.mp h
      obtain ⟨hq, rfl⟩ := Eng.pure_ok_iff.mp h
      obtain ⟨b, rfl⟩ : ∃ b, q = .bit b := by cases q <;> simp_all [SPulse.ofRecv]
      obtain ⟨q6, l6⟩ := (sPutBit_still u4 l4 h6).1 b rfl
      exact ⟨q4.trans q6, l6⟩
  | stop | start | expired => simp at h

theorem sSendBits_still {n : Nat} {c c' : Bool} {s t : State} (hu : s.unraced) (hl : s.scl = false)
    (h : (sSendBits n c).run s = .ok (none, c') t) : s.still t ∧ t.scl = false := by
  induction n generalizing s c with
  | zero =>
    obtain ⟨-, rfl⟩ := Eng.pure_ok_iff.mp h
    exact ⟨.refl _, hl⟩
  | succ n ih =>
    rw [sSendBits] at h
    obtain ⟨_, _, hg, h⟩ := Eng.bind_ok_iff.mp h
    obtain ⟨rfl, rfl⟩ := Eng.get_ok_iff.mp hg
    obtain ⟨p, s1, h1, h⟩ := Eng.bind_ok_iff.mp h
    have g1 := (sPutBit_still hu hl h1).1
    have u1 := (sPutBit_tame _).unraced h1 hu
    clear h1
    cases p with
    | bit b =>
      obtain ⟨_, _, hg, h⟩ := Eng.bind_ok_iff.mp h
      obtain ⟨rfl, rfl⟩ := Eng.get_ok_iff.mp hg
      obtain ⟨_, s2, h2, h⟩ := Eng.bind_ok_iff.mp h
      obtain rfl := Eng.modify_ok_iff.mp h2
      obtain ⟨i1, i2⟩ := ih (by exact u1) (by exact (g1 b rfl).2) h
      exact ⟨(g1 b rfl).1.trans i1, i2⟩
    | stop | start | expired =>
      obtain ⟨_, _, -, h⟩ := Eng.bind_ok_iff.mp h
      obtain ⟨_, _, -, h⟩ := Eng.bind_ok_iff.mp h
      simp at h

theorem sSendByte_still {v : Byte} {c : Bool} {s t : State} (hu : s.unraced) (hl : s.scl = false)
    (h : (sSendByte v).run s = .ok (.acked, c) t) : s.still t ∧ t.scl = false := by
  rw [sSendByte] at h
  obtain ⟨_, s1, h1, h⟩ := Eng.bind_ok_iff.mp h
  obtain ⟨_, s2, h2, h⟩ := Eng.bind_ok_iff.mp h
  obtain ⟨_, s3, h3, h⟩ := Eng.bind_ok_iff.mp h
  obtain ⟨⟨f, c'⟩, s4, h4, h⟩ := Eng.bind_ok_iff.mp h
  obtain rfl := Eng.modify_ok_iff.mp h1
  obtain rfl := Eng.modify_ok_iff.mp h2
  obtain ⟨q3, l3⟩ := enableDataDriver_still (by exact hu) (by exact hl) h3
  have u3 := enableDataDriver_tame.unraced h3 (by exact hu)
  have u4 := (sSendBits_tame _ _).unraced h4 u3
  cases f with
  | none =>
    obtain ⟨q4, l4⟩ := sSendBits_still u3 l3 h4
    obtain ⟨_, s5, h5, h⟩ := Eng.bind_ok_iff.mp h
    obtain ⟨_, s6, h6, h⟩ := Eng.bind_ok_iff.mp h
    obtain ⟨p, s7, h7, h⟩ := Eng.bind_ok_iff.mp h
    obtain ⟨hp, rfl⟩ := Eng.pure_ok_iff.mp h
    obtain rfl : p = .bit false := by rcases p with (_ | _) | _ | _ | _ <;> simp_all [SPulse.ofSend]
    obtain ⟨q5, l5⟩ := releaseDataHigh_still u4 l4 h5
    have u5 := releaseDataHigh_tame.unraced h5 u4
    obtain ⟨q6, l6⟩ := disableDataDriver_still u5 l5 h6
    obtain ⟨q7, l7⟩ := (sPutBit_still (disableDataDriver_tame.unraced h6 u5) l6 h7).1 _ rfl
    exact ⟨State.still.trans q3 (q4.trans (q5.trans (q6.trans q7))), l7⟩
  | some f =>
    have := sSendBits_failure h4
    simp at h
    simp_all

/-! ### SSEND and SRECV (R191) -/

theorem sLeave_idle {s t : State} (h : sLeave.run s = .ok () t) : t.role = .idle := (sLeave_left h).1.1

/-- An SSEND that stays in the slave role, begun with the clock held, leaves both latches. -/
theorem ssendBody_still {v : Byte} {more : Bool} {s t : State} {a : Answer} (hu : s.unraced) (hl : s.scl = false)
    (hs : (Instr.ssend v more).allowed s = true) (h : (ssendBody v more).run s = .ok a t) (ht : t.role = .slave) :
    s.still t := by
  unfold ssendBody at h
  obtain ⟨_, _, hg, h⟩ := Eng.bind_ok_iff.mp h
  obtain ⟨rfl, rfl⟩ := Eng.get_ok_iff.mp hg
  rw [if_pos (by exact hs)] at h
  obtain ⟨⟨r, c⟩, s1, h1, h⟩ := Eng.bind_ok_iff.mp h
  obtain ⟨_, s2, h2, h⟩ := Eng.bind_ok_iff.mp h
  obtain rfl := Eng.modify_ok_iff.mp h2
  obtain ⟨_, s3, h3, h⟩ := Eng.bind_ok_iff.mp h
  obtain ⟨-, rfl⟩ := Eng.pure_ok_iff.mp h
  cases r with
  | acked =>
    obtain ⟨q1, l1⟩ := sSendByte_still hu hl h1
    have u1 := (sSendByte_tame _).unraced h1 hu
    rw [ssendEnd] at h3
    split at h3
    · exact State.still.trans q1 (pullClockLow_still (by exact u1) (by exact l1) h3).1
    · rw [sLeave_idle h3] at ht; cases ht
  | nacked | stop | start | expired =>
    obtain ⟨_, s4, -, h3⟩ := Eng.bind_ok_iff.mp h3
    rw [sLeave_idle h3] at ht; cases ht

/-- A SRECV that stays in the slave role, begun with the clock held, leaves both latches. -/
theorem srecvBody_still {ack : Bool} {s t : State} {a : Answer} (hu : s.unraced) (hl : s.scl = false)
    (hs : (Instr.srecv ack).allowed s = true) (h : (srecvBody ack).run s = .ok a t) (ht : t.role = .slave) :
    s.still t := by
  unfold srecvBody at h
  obtain ⟨_, _, hg, h⟩ := Eng.bind_ok_iff.mp h
  obtain ⟨rfl, rfl⟩ := Eng.get_ok_iff.mp hg
  rw [if_pos (by exact hs)] at h
  obtain ⟨r, s1, h1, h⟩ := Eng.bind_ok_iff.mp h
  cases r with
  | done =>
    obtain ⟨q1, l1⟩ := sRecvByte_still hu hl h1
    cases ack
    · obtain ⟨_, s2, h2, h⟩ := Eng.bind_ok_iff.mp h
      obtain ⟨_, _, hg, h⟩ := Eng.bind_ok_iff.mp h
      obtain ⟨rfl, rfl⟩ := Eng.get_ok_iff.mp hg
      obtain ⟨-, rfl⟩ := Eng.pure_ok_iff.mp h
      rw [sLeave_idle h2] at ht; cases ht
    · obtain ⟨_, s2, h2, h⟩ := Eng.bind_ok_iff.mp h
      obtain ⟨_, _, hg, h⟩ := Eng.bind_ok_iff.mp h
      obtain ⟨rfl, rfl⟩ := Eng.get_ok_iff.mp hg
      obtain ⟨-, rfl⟩ := Eng.pure_ok_iff.mp h
      exact q1.trans (pullClockLow_still ((sRecvByte_tame _).unraced h1 hu) l1 h2).1
  | stop | start | expired =>
    obtain ⟨_, s2, -, h⟩ := Eng.bind_ok_iff.mp h
    obtain ⟨_, s3, h3, h⟩ := Eng.bind_ok_iff.mp h
    obtain ⟨v, s4, h4, h⟩ := Eng.bind_ok_iff.mp h
    obtain ⟨-, rfl⟩ := Eng.pure_ok_iff.mp h
    obtain ⟨-, rfl⟩ := anyByte_ok h4
    rw [show ({ s3 with draws := s3.draws + 1 } : State).role = s3.role from rfl, sLeave_idle h3] at ht
    cases ht

/-! ### POLL (R183, R184) -/

/-- One attempt at an address byte, begun with no START pending and not after one that has gone stale. -/
theorem sClockByte_still {s t : State} {r : Option ClockIn} (hu : s.unraced) (hn : s.startSeen = false)
    (hf : s.scl = true → s.sda = false) (h : sClockByte.run s = .ok r t) :
    (r = some .done → t.quiet ∧ t.scl = false) ∧ (r = none → t.sda = false) := by
  unfold sClockByte at h
  obtain ⟨r1, s1, h1, h⟩ := Eng.bind_ok_iff.mp h
  have u1 := (waitUntil_tame clock_or_free_inputs).unraced h1 hu
  have p1 : s1.startSeen = false ∧ (s1.scl = true → s1.sda = false ∨ s1.busBusy = false) := by
    refine waitUntil_invariant (P := fun u => u.startSeen = false ∧ (u.scl = true → u.sda = false ∨ u.busBusy = false)) ?_
      (fun _ _ hp => hp) ⟨hn, fun hk => .inl (hf hk)⟩ h1
    intro a u ⟨p1, p2⟩ hc
    simp only [Bool.or_eq_false_iff, Bool.not_eq_false'] at hc
    have hd : u.sda = false := (p2 hc.1).resolve_right (by simp [hc.2])
    cases a with
    | scl released =>
      have e := State.act_still (a := .scl released) (s := u) (.inr (.inr (by simp [State.act, State.sda])))
      exact ⟨e.1.trans p1, fun _ => .inl (by simpa [State.act, State.sda] using hd)⟩
    | sda released =>
      have k : (({ u with sdaExt := released } : State)).scl = true := hc.1
      have e : u.act (.sda released) = if ({ u with sdaExt := released } : State).sda
          then { u with sdaExt := released, startSeen := false, busBusy := false, wire := .stop :: u.wire }
          else { u with sdaExt := released } := by
        simp [State.act, State.observe, hc.1, k, hd]
      rw [e]
      split
      · exact ⟨rfl, fun _ => .inr rfl⟩
      · rename_i hd'
        exact ⟨p1, fun _ => .inl (by simpa using hd')⟩
  have c1 : r1 = .ok → s1.scl = false ∨ s1.busBusy = false := fun hr => by
    subst hr
    simpa using (waitUntil_ok clock_or_free_inputs h1).1
  clear h1
  split at h
  · obtain ⟨rfl, rfl⟩ := Eng.pure_ok_iff.mp h
    simp
  · rename_i hx
    have c1 := c1 (by cases r1 <;> simp_all)
    obtain ⟨_, _, hg, h⟩ := Eng.bind_ok_iff.mp h
    obtain ⟨rfl, rfl⟩ := Eng.get_ok_iff.mp hg
    split at h
    · obtain ⟨rfl, rfl⟩ := Eng.pure_ok_iff.mp h
      simp
    · rename_i hb
      have hb : s1.busBusy = true := by simpa using hb
      have l1 : s1.scl = false := c1.resolve_right (by simp [hb])
      obtain ⟨_, s3, h3, h⟩ := Eng.bind_ok_iff.mp h
      obtain ⟨_, s4, h4, h⟩ := Eng.bind_ok_iff.mp h
      obtain ⟨_, _, hg, h⟩ := Eng.bind_ok_iff.mp h
      obtain ⟨rfl, rfl⟩ := Eng.get_ok_iff.mp hg
      obtain ⟨p, s5, h5, h⟩ := Eng.bind_ok_iff.mp h
      obtain ⟨q3, l3⟩ := releaseDataHigh_still u1 l1 h3
      have u3 := releaseDataHigh_tame.unraced h3 u1
      obtain ⟨q4, l4⟩ := disableDataDriver_still u3 l3 h4
      have u4 := disableDataDriver_tame.unraced h4 u3
      obtain ⟨g1, g2⟩ := sRecvBits_still u4 l4 h5
      have u5 := (sRecvBits_tame _).unraced h5 u4
      cases p with
      | done =>
        obtain ⟨_, s6, h6, h⟩ := Eng.bind_ok_iff.mp h
        obtain ⟨rfl, rfl⟩ := Eng.pure_ok_iff.mp h
        obtain ⟨q5, l5⟩ := g1 rfl
        obtain ⟨q6, l6⟩ := pullClockLow_still u5 l5 h6
        exact ⟨fun _ => ⟨(q3.trans (q4.trans (q5.trans q6))).quiet ⟨p1.1, hb⟩, l6⟩, by simp⟩
      | start =>
        obtain ⟨rfl, rfl⟩ := Eng.pure_ok_iff.mp h
        exact ⟨by simp, fun _ => g2 rfl⟩
      | stop | expired =>
        obtain ⟨rfl, rfl⟩ := Eng.pure_ok_iff.mp h
        simp

theorem sClockIn_still {budget : Nat} {s t : State} (hu : s.unraced) (hn : s.startSeen = false)
    (hf : s.scl = true → s.sda = false) (h : (sClockIn budget).run s = .ok .done t) :
    t.quiet ∧ t.scl = false ∧ t.unraced := by
  induction budget generalizing s with
  | zero => simp [sClockIn] at h
  | succ n ih =>
    rw [sClockIn] at h
    obtain ⟨p, s1, h1, h⟩ := Eng.bind_ok_iff.mp h
    obtain ⟨g1, g2⟩ := sClockByte_still hu hn hf h1
    have u1 := sClockByte_tame.unraced h1 hu
    clear h1
    cases p with
    | some r =>
      obtain ⟨rfl, rfl⟩ := Eng.pure_ok_iff.mp h
      exact ⟨(g1 rfl).1, (g1 rfl).2, u1⟩
    | none =>
      obtain ⟨_, s2, h2, h⟩ := Eng.bind_ok_iff.mp h
      obtain ⟨_, s3, h3, h⟩ := Eng.bind_ok_iff.mp h
      obtain ⟨_, s4, h4, h⟩ := Eng.bind_ok_iff.mp h
      obtain ⟨_, s5, h5, h⟩ := Eng.bind_ok_iff.mp h
      obtain rfl := Eng.modify_ok_iff.mp h2
      obtain rfl := Eng.modify_ok_iff.mp h3
      obtain rfl := Eng.modify_ok_iff.mp h4
      obtain rfl := Eng.modify_ok_iff.mp h5
      exact ih (by exact u1) rfl (fun _ => by exact g2 rfl) h

theorem pollAnswer_still {cand : Byte} {r : ClockIn} {s t : State} {a : Answer}
    (hd : r = .done → s.quiet ∧ s.scl = false ∧ s.unraced) (h : (pollAnswer cand r).run s = .ok a t) (ht : t.role = .slave) :
    t.quiet := by
  cases r with
  | done =>
    obtain ⟨q, l, u⟩ := hd rfl
    obtain ⟨_, _, hg, h⟩ := Eng.bind_ok_iff.mp h
    obtain ⟨rfl, rfl⟩ := Eng.get_ok_iff.mp hg
    split at h
    · obtain ⟨_, s1, h1, h⟩ := Eng.bind_ok_iff.mp h
      obtain ⟨p, s2, h2, h⟩ := Eng.bind_ok_iff.mp h
      obtain ⟨_, s3, h3, h⟩ := Eng.bind_ok_iff.mp h
      obtain ⟨_, s4, h4, h⟩ := Eng.bind_ok_iff.mp h
      obtain ⟨q1, l1⟩ := enableDataDriver_still u l h1
      have u1 := enableDataDriver_tame.unraced h1 u
      cases p with
      | bit b =>
        obtain ⟨q2, l2⟩ := (sPutBit_still u1 l1 h2).1 b rfl
        have u2 := (sPutBit_tame _).unraced h2 u1
        obtain ⟨q3, l3⟩ := releaseDataHigh_still u2 l2 h3
        have u3 := releaseDataHigh_tame.unraced h3 u2
        obtain ⟨q4, l4⟩ := disableDataDriver_still u3 l3 h4
        obtain ⟨_, s5, h5, h⟩ := Eng.bind_ok_iff.mp h
        obtain ⟨q5, -⟩ := pullClockLow_still (disableDataDriver_tame.unraced h4 u3) l4 h5
        obtain ⟨_, s6, h6, h⟩ := Eng.bind_ok_iff.mp h
        obtain rfl := Eng.modify_ok_iff.mp h6
        obtain ⟨_, _, hg, h⟩ := Eng.bind_ok_iff.mp h
        obtain ⟨rfl, rfl⟩ := Eng.get_ok_iff.mp hg
        obtain ⟨-, rfl⟩ := Eng.pure_ok_iff.mp h
        exact (q1.trans (q2.trans (q3.trans (q4.trans q5)))).quiet q
      | stop | start | expired =>
        obtain ⟨_, s5, -, h⟩ := Eng.bind_ok_iff.mp h
        obtain ⟨_, s6, h6, h⟩ := Eng.bind_ok_iff.mp h
        obtain ⟨-, rfl⟩ := Eng.pure_ok_iff.mp h
        rw [sLeave_idle h6] at ht; cases ht
    · obtain ⟨_, s4, -, h⟩ := Eng.bind_ok_iff.mp h
      obtain ⟨_, s5, -, h⟩ := Eng.bind_ok_iff.mp h
      obtain ⟨_, s6, h6, h⟩ := Eng.bind_ok_iff.mp h
      obtain ⟨-, rfl⟩ := Eng.pure_ok_iff.mp h
      rw [sLeave_idle h6] at ht; cases ht
  | stop =>
    obtain ⟨_, s4, -, h⟩ := Eng.bind_ok_iff.mp h
    obtain ⟨_, s5, -, h⟩ := Eng.bind_ok_iff.mp h
    obtain ⟨_, s6, h6, h⟩ := Eng.bind_ok_iff.mp h
    obtain ⟨-, rfl⟩ := Eng.pure_ok_iff.mp h
    rw [sLeave_idle h6] at ht; cases ht
  | expired =>
    obtain ⟨_, s5, -, h⟩ := Eng.bind_ok_iff.mp h
    obtain ⟨_, s6, h6, h⟩ := Eng.bind_ok_iff.mp h
    obtain ⟨-, rfl⟩ := Eng.pure_ok_iff.mp h
    rw [sLeave_idle h6] at ht; cases ht

/-- A POLL that serves a START that has not gone stale ends in the slave role only with no START pending and a busy bus. -/
theorem pollServe_still {cand : Byte} {s t : State} {a : Answer} (hu : s.unraced) (hn : s.startSeen = false)
    (hf : s.scl = true → s.sda = false) (h : (pollServe cand).run s = .ok a t) (ht : t.role = .slave) : t.quiet := by
  obtain ⟨_, s1, h1, h⟩ := Eng.bind_ok_iff.mp h
  obtain rfl := Eng.modify_ok_iff.mp h1
  obtain ⟨_, _, hg, h⟩ := Eng.bind_ok_iff.mp h
  obtain ⟨rfl, rfl⟩ := Eng.get_ok_iff.mp hg
  obtain ⟨r, s2, h2, h⟩ := Eng.bind_ok_iff.mp h
  refine pollAnswer_still ?_ h ht
  rintro rfl
  exact sClockIn_still (by exact hu) (by exact hn) (by exact hf) h2

end Sys2Proof.Machine
end

