-- ==== Sys2Proof/Tests/Slice0.lean ====
section
/-! SUPPORT. The model's own tests. Expected values are those of 95_test_vectors.md (the section is named at each test) or are
written out from the encodings of 30_encoding.md. The last part shows, for every statement with premises, a state and operands
that meet them. -/

namespace Sys2Proof.Tests

open Sys2Proof.Machine

set_option Elab.async false

/-! ### Well-formedness: each check refuses an ill-formed term -/

theorem test_reserved_opcode_refused :
    ({ op := 0xB, z := 0, f := false, a := 0, b := 0, c := 0 } : CommandFields).wellFormed = false ∧
    ({ op := 0x0, z := 0, f := false, a := 0, b := 0, c := 0 } : CommandFields).opAssigned = false := by decide

theorem test_nonzero_z_refused :
    ({ op := 0x2, z := 1, f := false, a := 0xA0, b := 0, c := 0 } : CommandFields).wellFormed = false ∧
    ({ op := 0x2, z := 7, f := false, a := 0xA0, b := 0, c := 0 } : CommandFields).zZero = false := by decide

theorem test_unused_field_refused :
    ({ op := 0x5, z := 0, f := false, a := 0, b := 0, c := 1 } : CommandFields).wellFormed = false ∧
    ({ op := 0x2, z := 0, f := true, a := 0xA0, b := 0, c := 0 } : CommandFields).unusedZero = false ∧
    ({ op := 0x4, z := 0, f := true, a := 0, b := 1, c := 0 } : CommandFields).unusedZero = false := by decide

theorem test_well_formed_accepted :
    ({ op := 0x1, z := 0, f := false, a := 0xFF, b := 0xFF, c := 0xFF } : CommandFields).wellFormed = true ∧
    ({ op := 0x7, z := 0, f := true, a := 0x3C, b := 0, c := 0 } : CommandFields).wellFormed = true := by decide

/-! ### Decoding: words written out bit by bit, fields `OP Z F A B C` (R86, R87) -/

theorem test_decode_init : decode 0b0001_000_0_10100000_00001110_00000011 = .ok (.init 0xA0 0x0E 0x03) := by decide

theorem test_decode_open : decode 0b0010_000_0_10100001_00000000_00000000 = .ok (.openDevice 0xA1) := by decide

theorem test_decode_send : decode 0b0011_000_0_01011010_00000000_00000000 = .ok (.send 0x5A) := by decide

theorem test_decode_recv :
    decode 0b0100_000_1_00000000_00000000_00000000 = .ok (.recv true) ∧
    decode 0b0100_000_0_00000000_00000000_00000000 = .ok (.recv false) := by decide

theorem test_decode_release : decode 0b0101_000_0_00000000_00000000_00000000 = .ok .release := by decide

theorem test_decode_poll : decode 0b0110_000_0_10100000_00001110_00000000 = .ok (.poll 0xA0 0x0E) := by decide

theorem test_decode_ssend :
    decode 0b0111_000_1_00111100_00000000_00000000 = .ok (.ssend 0x3C true) ∧
    decode 0b0111_000_0_01111110_00000000_00000000 = .ok (.ssend 0x7E false) := by decide

theorem test_decode_srecv :
    decode 0b1000_000_1_00000000_00000000_00000000 = .ok (.srecv true) ∧
    decode 0b1000_000_0_00000000_00000000_00000000 = .ok (.srecv false) := by decide

theorem test_decode_slven :
    decode 0b1001_000_1_00000000_00000000_00000000 = .ok (.slven true) ∧
    decode 0b1001_000_0_00000000_00000000_00000000 = .ok (.slven false) := by decide

theorem test_decode_status : decode 0b1010_000_0_00000000_00000000_00000000 = .ok .status := by decide

/-- The reserved words of section 2.2. -/
theorem test_reserved_words :
    ([0x00000000, 0x0FFFFFFF, 0xB0000000, 0xC0000000, 0xD0000000, 0xE0000000, 0xF0000000] : List Word).all
      (decode · == .error .reservedOpcode) = true ∧
    ([0x22A00000, 0x2EA00000] : List Word).all (decode · == .error .nonzeroZ) = true ∧
    ([0x21A00000, 0x20A00001, 0x20A00100, 0x30000001, 0x40010000, 0x41000100, 0x50000001, 0x51000000, 0x60A00E01,
      0x61A00E00, 0x713C0100, 0x80800000, 0x90000001, 0xA1000000, 0xA0000001, 0x11000000] : List Word).all
      (decode · == .error .nonzeroUnusedField) = true := by decide +kernel

/-- Words of section 2.2 and of the programs of section 3. -/
theorem test_encode :
    encode (.init 0x01 0x02 0x03) = 0x10010203 ∧ encode (.openDevice 0xFF) = 0x20FF0000 ∧
    encode (.send 0x77) = 0x30770000 ∧ encode (.recv false) = 0x40000000 ∧ encode (.recv true) = 0x41000000 ∧
    encode .release = 0x50000000 ∧ encode (.poll 0xFF 0xFF) = 0x60FFFF00 ∧ encode (.ssend 0xFF true) = 0x71FF0000 ∧
    encode (.ssend 0x7E false) = 0x707E0000 ∧ encode (.srecv true) = 0x81000000 ∧ encode (.slven true) = 0x91000000 ∧
    encode .status = 0xA0000000 := by decide

/-- Two different rows of R88's table differ in a bit both of them fix. -/
theorem test_opcode_rows_disjoint :
    opcodeRows.Pairwise (fun r q => r.mask &&& q.mask &&& (r.value ^^^ q.value) ≠ 0) := by decide +kernel

/-- Responses of section 2.2. -/
theorem test_response_words :
    responseWord false 0x00 0x000 = 0x80000000 ∧ responseWord true 0xA0 0x001 = 0x81A00001 ∧
    responseWord false 0x5A 0x001 = 0x805A0001 ∧ responseWord false 0xA0 0x100 = 0x80A00100 ∧
    responseWord false 0x00 0x140 = 0x80000140 ∧ responseWord true 0xFF 0x1FF = 0x81FF01FF := by decide

/-- R92's textual forms. -/
theorem test_text :
    (Instr.init 0xA0 0x0E 0x00).text = "INIT 0xA0, 0x0E, 0x00" ∧ (Instr.ssend 0x3C true).text = "SSEND 0x3C, 1" ∧
    Instr.release.text = "RELEASE" ∧ flagsText 0x140 = "ArbitrationLost|Restarted" := by decide +kernel

/-! ### Arithmetic (sections 2.1, 2.3, 2.4) -/

theorem test_flags :
    setFlags 0x000 Flag.success = 0x001 ∧ setFlags 0x001 Flag.noAck = 0x003 ∧ setFlags 0x001 Flag.stopped = 0x005 ∧
    setFlags 0x021 Flag.protocolFail = 0x021 ∧ setFlags 0x003 Flag.slaveCollision = 0x083 ∧
    setFlags 0x000 (Flag.arbitrationLost ||| Flag.restarted) = 0x140 ∧ clearFlags 0x140 Flag.arbitrationLost = 0x100 ∧
    clearFlags 0x1FF Flag.restarted = 0x0FF := by decide

theorem test_predicates :
    [0x001, 0x003, 0x000].all isOk = true ∧ [0x005, 0x009, 0x021, 0x101].any isOk = false ∧
    [0x002, 0x140, 0x010].all isRetryable = true ∧ [0x020, 0x005].any isRetryable = false := by decide

theorem test_shift :
    shiftInto 0x7F true = 0xFF ∧ shiftInto 0xA5 false = 0x4A ∧ shiftInto 0xA5 true = 0x4B ∧ shiftInto 0x80 false = 0x00 ∧
    [true, true, false, false].foldl shiftInto 0x3C = 0xCC ∧
    [false, true, false, false, false, false, true, false].foldl shiftInto 0xFF = 0x42 := by decide

theorem test_match :
    [(0xA8, 0xA0, 0x0E), (0xA1, 0xA0, 0x00), (0x01, 0xA0, 0x01), (0xA0, 0xA1, 0x00), (0x37, 0xA0, 0xFE), (0x00, 0x01, 0x00),
      (0xA0, 0x20, 0x80), (0x00, 0xA0, 0x0F)].all (fun p => addressMatch p.1 p.2.1 p.2.2) = true ∧
    [(0xB0, 0xA0, 0x0E), (0x20, 0xA0, 0x0E), (0x00, 0xA0, 0x00), (0x02, 0xA0, 0x01), (0x00, 0xA1, 0x00),
      (0x90, 0x46, 0x00)].any (fun p => addressMatch p.1 p.2.1 p.2.2) = false := by decide

/-- Section 2.4: with `0xA0 / 0x0F` exactly 18 fields match. -/
theorem test_match_count :
    ((List.range 256).filter fun n => addressMatch (BitVec.ofNat 8 n) 0xA0 0x0F).length = 18 := by decide +kernel

/-! ### Helpers for one step on a small state -/

/-- The next state of a command. -/
def after (i : Instr) (s : State) : Option State :=
  match exec i s with
  | .next t => some t
  | _ => none

/-- The next state of a step. -/
def stepped (s : State) : Option State :=
  match step s with
  | .next t => some t
  | _ => none

/-- A command answers a next state with the property `p`. -/
def Answers (i : Instr) (s : State) (p : State → Bool) : Prop := ∃ t, exec i s = .next t ∧ p t = true

/-- A step answers a next state with the property `p`. -/
def Steps (s : State) (p : State → Bool) : Prop := ∃ t, step s = .next t ∧ p t = true

theorem answers_of {i : Instr} {s : State} {p : State → Bool} (h : (after i s).any p = true) : Answers i s p := by
  unfold after at h
  cases e : exec i s with
  | next t => rw [e] at h; exact ⟨t, e, h⟩
  | fault r => rw [e] at h; cases h
  | refused r => rw [e] at h; cases h

theorem steps_of {s : State} {p : State → Bool} (h : (stepped s).any p = true) : Steps s p := by
  unfold stepped at h
  cases e : step s with
  | next t => rw [e] at h; exact ⟨t, e, h⟩
  | fault r => rw [e] at h; cases h
  | refused r => rw [e] at h; cases h

/-- A device right after reset. -/
def device (c : Configuration) : State := .resetWith ⟨c, .bitBang, true⟩

/-- A device whose line driver does not bound its waits. -/
def unbounded (c : Configuration) : State := .resetWith ⟨c, .bitBang, false⟩

/-- The engine holds the bus as master after an `A`. -/
def holder (c : Configuration) (d : Dir) : State :=
  { device c with status := 0x001, role := .master, mstate := .acked, dir := d, sclLow := true, busBusy := true }

/-- A slave that has seen a START and holds the clock. -/
def addressed : State :=
  { device .slaveOnly with slven := true, startSeen := true, busBusy := true, sclLow := true, sclExt := false, sdaExt := false }

/-- An addressed slave that holds the clock. -/
def matched (d : Dir) : State :=
  { device .slaveOnly with
    status := 0x001, role := .slave, sstate := .matched, slven := true, dir := d, busBusy := true, sclLow := true,
    sclExt := false }

/-- A device that lost arbitration after the first `k` bits of `v`. -/
def recovering (v : Byte) (k : Nat) : State :=
  { device .multiMasterSlave with
    status := 0x140, role := .master, mstate := .arbitrationLost, slven := true, busBusy := true, sclLow := true,
    sclExt := false, sdaExt := false, sr := ((bits v).take k).foldl shiftInto 0xA0, bitcnt := BitVec.ofNat 4 k }

/-! ### One step of each command (sections 2.6 to 2.11) -/

/-- 2.9 row 2. -/
theorem test_init : Answers (.init 0x01 0x02 0x03)
    { device .singleMaster with sr := 0xA0, status := 0x022, role := .master, busBusy := true } fun t =>
    t.faddr == 0x01 && t.fmask == 0x02 && t.bitrate == 0x03 && t.status == 0 && t.role == .idle && !t.busBusy &&
      t.sr == 0xA0 && t.response == some 0x80000000 := answers_of (by decide +kernel)

/-- 2.6 row 2, program 3.2. -/
theorem test_open_no_responder : Answers (.openDevice 0x42)
    { device .singleMaster with status := 0x1FF, inputs := [.pass, .pass] ++ idleByte ++ levelInPulse true } fun t =>
    t.role == .master && t.mstate == .nacked && t.sr == 0x42 && t.bitcnt == 8 && t.sclLow && !t.sdaLow && !t.sdaOe &&
      t.busBusy && t.response == some 0x80000002 && t.wire.reverse == .start :: [.pulse false, .pulse true, .pulse false,
      .pulse false, .pulse false, .pulse false, .pulse true, .pulse false, .pulse true] := answers_of (by decide +kernel)

/-- 2.5 row 2: `0xA0` against `0x90`, lost at the third bit. -/
theorem test_open_loses : Answers (.openDevice 0xA0)
    { device .multiMasterSlave with
      slven := true
      inputs := [.pass, .pass] ++ (List.replicate 2 idlePulse).flatten ++ [.env (.sda false), .pass] } fun t =>
    t.sr == 0x04 && t.bitcnt == 3 && t.role == .master && t.mstate == .arbitrationLost && !t.sdaLow && !t.sdaOe &&
      t.response == some 0x80000140 := answers_of (by decide +kernel)

/-- 2.7 row 1. -/
theorem test_send : Answers (.send 0x5A)
    { holder .singleMaster .write with inputs := idleByte ++ levelInPulse false } fun t =>
    t.sr == 0x5A && t.bitcnt == 8 && t.mstate == .acked && t.response == some 0x80000001 := answers_of (by decide +kernel)

/-- 2.7 row 11. -/
theorem test_send_loses : Answers (.send 0xF0)
    { holder .multiMaster .write with inputs := [.env (.sda false), .pass] } fun t =>
    t.role == .idle && t.mstate == .arbitrationLost && t.sr == 0xE0 && t.bitcnt == 1 && !t.sclLow &&
      t.response == some 0x80000041 := answers_of (by decide +kernel)

/-- 2.7 row 3. -/
theorem test_recv : Answers (.recv true)
    { holder .singleMaster .read with inputs := (bits 0x5A).flatMap levelInPulse ++ levelInPulse true } fun t =>
    t.sr == 0x5A && t.wire.head? == some (.pulse false) && t.response == some 0x805A0001 := answers_of (by decide +kernel)

/-- 2.7 row 13. -/
theorem test_recv_clock_clamped : Answers (.recv true)
    { holder .singleMaster .read with inputs := [.env (.scl false)] } fun t =>
    t.role == .idle && t.mstate == .busError && t.status == 0x009 && !t.sclLow := answers_of (by decide +kernel)

/-- 2.8 row 3. -/
theorem test_release : Answers .release { holder .singleMaster .write with mstate := .nacked, status := 0x002 } fun t =>
    t.role == .idle && t.mstate == .idle && !t.busBusy && t.scl && t.sda && !t.sdaOe && t.response == some 0x80000002 :=
  answers_of (by decide +kernel)

/-- 2.8 row 6. -/
theorem test_release_data_stuck : Answers .release { holder .singleMaster .write with sdaExt := false } fun t =>
    t.role == .idle && t.mstate == .idle && t.busBusy && !t.sclLow && t.response == some 0x80000011 :=
  answers_of (by decide +kernel)

/-- 2.10 row 3 (scenario C). -/
theorem test_poll_match : Answers (.poll 0xA0 0x0E)
    { addressed with inputs := (bits 0xA8).flatMap masterPulse ++ clockPulse } fun t =>
    t.role == .slave && t.sstate == .matched && t.rxaddr == 0xA8 && t.dir == .write && t.sclLow && !t.startSeen &&
      t.response == some 0x81A80001 := answers_of (by decide +kernel)

/-- 2.10 row 8: a repeated START after three bits is followed inside the same POLL. -/
theorem test_poll_follows_restart : Answers (.poll 0xA0 0x00)
    { addressed with
      inputs := [true, false, true].flatMap masterPulse ++
        [.env (.sda true), .env (.scl true), .env (.sda false), .env (.scl false)] ++ (bits 0xA1).flatMap masterPulse ++
        clockPulse } fun t =>
    t.role == .slave && t.rxaddr == 0xA1 && t.dir == .read && t.response == some 0x81A10001 :=
  answers_of (by decide +kernel)

/-- 2.11 row 12: another slave sends `0x70`, the master answers `N`. -/
theorem test_ssend_collision : Answers (.ssend 0xF0 true)
    { matched .read with inputs := (bits 0x70).flatMap masterPulse ++ masterPulse true } fun t =>
    t.role == .idle && !t.sclLow && t.response == some 0x80000083 := answers_of (by decide +kernel)

/-- 2.11 row 6. -/
theorem test_ssend : Answers (.ssend 0x5A true)
    { matched .read with inputs := (bits 0x5A).flatMap masterPulse ++ masterPulse false } fun t =>
    t.role == .slave && t.sclLow && t.response == some 0x80000001 := answers_of (by decide +kernel)

/-- 2.11 row 4: four bits, then a STOP. -/
theorem test_srecv_stopped : Answers (.srecv true)
    { matched .write with
      sr := 0x3C
      inputs := [true, true, false, false].flatMap masterPulse ++
        [.env (.sda false), .env (.scl true), .env (.sda true)] } fun t =>
    t.bitcnt == 4 && t.sr == 0xCC && t.role == .idle && t.status == 0x005 := answers_of (by decide +kernel)

/-- 2.11 row 5. -/
theorem test_srecv_last : Answers (.srecv false)
    { matched .write with inputs := (bits 0x06).flatMap masterPulse ++ masterPulse true } fun t =>
    t.role == .idle && !t.sclLow && t.wire.head? == some (.pulse true) && t.response == some 0x80060001 :=
  answers_of (by decide +kernel)

/-- 2.9 row 4. -/
theorem test_slven_on : Answers (.slven true) { device .slaveOnly with startSeen := true, busBusy := true } fun t =>
    t.slven && !t.startSeen && t.response == some 0x80000000 := answers_of (by decide +kernel)

/-- 2.9 row 6. -/
theorem test_slven_off : Answers (.slven false) (matched .write) fun t =>
    !t.slven && t.role == .idle && t.sstate == .watchingForStart && !t.sclLow := answers_of (by decide +kernel)

/-- 2.9 row 3. -/
theorem test_status : Answers .status { device .singleMaster with status := 0x002 } fun t =>
    t.status == 0x002 && t.response == some 0x80000002 := answers_of (by decide +kernel)

/-- 2.6 row 6: the clock clamped, no bound on waits. -/
theorem test_open_hangs : Answers (.openDevice 0xA0)
    { unbounded .singleMaster with inputs := [.pass, .env (.scl false)] } fun t =>
    t.hung && t.role == .master && t.mstate == .startAsserted && t.sdaOe && t.response == none :=
  answers_of (by decide +kernel)

/-- A presented word is the next command: `STATUS` right after reset (R86, R113). -/
theorem test_fetch_status : Steps (State.reset.withFetchWord 32 0xA0000000) fun t => t.response == some 0x80000000 :=
  steps_of (by decide +kernel)

/-! ### Witnesses: for every statement with premises, a state and operands that meet them -/

theorem witness_DecodedWordIsItsEncoding : decode 0x20A00000 = .ok (.openDevice 0xA0) := by decide

theorem witness_OpcodeTableRecognisesCommands :
    (⟨"OPEN", 0x20000000, 0xFF00FFFF⟩ : OpcodeRow) ∈ opcodeRows ∧ (0x20A00000 : Word) &&& 0xFF00FFFF = 0x20000000 ∧
    decode 0x20A00000 = .ok (.openDevice 0xA0) ∧
    (0x0FFFFFFF : Word).extractLsb' 28 4 ∈ ([0x0, 0xB, 0xC, 0xD, 0xE, 0xF] : List (BitVec 4)) ∧
    (0xB0000000 : Word).extractLsb' 28 4 ∈ ([0x0, 0xB, 0xC, 0xD, 0xE, 0xF] : List (BitVec 4)) := by decide

/-- Both a reserved word and one that is not can be presented. -/
theorem witness_ReservedWordsAreRefused :
    reservedWord 0x22A00000 ∧ ¬reservedWord 0x20A00000 ∧ State.reset.hung = false ∧
    (State.reset.withFetchWord 32 0x22A00000).inputs = [.command 0x22A00000] ∧
    (State.reset.withFetchWord 32 0x20A00000).inputs = [.command 0x20A00000] := by
  refine ⟨?_, ?_, rfl, rfl, rfl⟩ <;> unfold reservedWord <;> decide

/-- A matching and a silent POLL, a RECV that reads a byte and one that answers a free byte, a hung command. -/
theorem witness_ResponseWordOfEachCommand :
    Answers (.poll 0xA0 0x0E) { addressed with inputs := (bits 0xA8).flatMap masterPulse ++ clockPulse }
      (fun t => t.response.any responseR) ∧
    Answers (.poll 0xA0 0x0E) (device .slaveOnly) (fun t => t.response.any fun w => !responseR w) ∧
    Answers (.recv true) { holder .singleMaster .read with inputs := (bits 0x5A).flatMap levelInPulse ++ levelInPulse true }
      (fun t => t.response.isSome && t.draws == 0) ∧
    Answers (.recv true) (device .singleMaster) (fun t => t.response.isSome && t.draws == 1) ∧
    Answers (.srecv true) (device .slaveOnly) (fun t => t.response.isSome && t.draws == 1) ∧
    Answers .release (device .singleMaster) (fun t => t.response.isSome) ∧
    Answers (.openDevice 0xA0) { unbounded .singleMaster with inputs := [.env (.scl false)] }
      (fun t => t.hung && t.response.isNone) := by
  refine ⟨?_, ?_, ?_, ?_, ?_, ?_, ?_⟩ <;> exact answers_of (by decide +kernel)

theorem witness_StepRunsPresentedCommand :
    decode 0xA0000000 = .ok .status ∧ decodeTableWord 32 0xA0000000 = some .status ∧ State.reset.hung = false := by decide

/-- A line change, a moment that passes and no input at all are such steps; one of them changes a latch. -/
theorem witness_BetweenCommandsOnlyTheEdgeDetectorActs :
    Steps { State.reset with inputs := [.env (.sda false)] } (fun t => t.startSeen && t.busBusy) ∧
    Steps { addressed with sclLow := false, inputs := [.pass] } (fun t => t.sclLow) ∧
    Steps State.reset (fun t => t == State.reset) := by
  refine ⟨?_, ?_, ?_⟩ <;> exact steps_of (by decide +kernel)

/-- All three ends occur. -/
theorem witness_EveryCommandEnds :
    Answers .status State.reset (fun t => t.response.isSome && !t.hung) ∧
    Answers (.openDevice 0xA0) { unbounded .singleMaster with inputs := [.env (.scl false)] } (fun t => t.hung) ∧
    Answers (.openDevice 0xA0) { device .singleMaster with inputs := [.reset] } (fun t => t.response.isNone && !t.hung) := by
  refine ⟨?_, ?_, ?_⟩ <;> exact answers_of (by decide +kernel)

theorem witness_OnlyResetEndsAHang :
    Steps { unbounded .singleMaster with hung := true, inputs := [.command 0xA0000000] } (fun t => t.hung) ∧
    Steps { unbounded .singleMaster with hung := true, inputs := [.reset] } (fun t => !t.hung) := by
  refine ⟨?_, ?_⟩ <;> exact steps_of (by decide +kernel)

theorem witness_ResetValues :
    Steps { holder .singleMaster .write with inputs := [.reset] } (fun t => t.role == .idle) ∧
    Answers (.openDevice 0xA0) { device .singleMaster with inputs := [.reset] } (fun t => t.response.isNone && !t.hung) :=
  ⟨steps_of (by decide +kernel), answers_of (by decide +kernel)⟩

/-- The hold engages for a pending START and for a pending recovery, and is not due otherwise. -/
theorem witness_HoldIsEngagedWheneverDue :
    Steps { addressed with sclLow := false, sclExt := true, inputs := [.env (.scl false)] }
      (fun t => !t.hung && t.slven && !t.scl && t.startSeen) ∧
    Steps { recovering 0x46 1 with sclLow := false, sclExt := true, inputs := [.env (.scl false)] }
      (fun t => !t.hung && t.slven && !t.scl && t.recoveryPending) := by
  refine ⟨?_, ?_⟩ <;> exact steps_of (by decide +kernel)

/-- A START and a STOP made by another device, and a START made by the engine's own call. -/
theorem witness_EdgeDetectorReportsAnyonesEdges :
    ((State.reset.act (.sda false)).startSeen = true ∧ (State.reset.act (.sda false)).busBusy = true) ∧
    (((State.reset.act (.sda false)).act (.sda true)).startSeen = false) ∧
    (∃ t, pullDataLow.run { State.reset with sdaOe := true } = .ok () t ∧ t.startSeen = true) :=
  ⟨by decide, by decide, _, rfl, rfl⟩

theorem witness_NothingHappensWhileClockIsHeld :
    (matched .write).hung = false ∧ (matched .write).sclLow = true ∧
    { matched .write with inputs := [.env (.sda false)] }.inputs = [.env (.sda false)] ∧
    { matched .write with inputs := [.race (.scl true)] }.inputs = [.race (.scl true)] := ⟨rfl, rfl, rfl, rfl⟩

theorem witness_RecoveryHoldEngagesAtClockFall :
    let s : State := { recovering 0x46 1 with sclLow := false, sclExt := true, inputs := [.env (.scl false)] }
    s.hung = false ∧ s.recoveryPending = true ∧ s.slven = true ∧ s.scl = true ∧ s.inputs = [.env (.scl false)] :=
  ⟨rfl, rfl, rfl, rfl, rfl⟩

theorem witness_InitEffect : State.reset.noReset := by simp [State.noReset, State.reset, State.resetWith]

/-- A hold that is due and engaged, and one that is not due. -/
theorem witness_StatusEffect :
    (addressed.holdDue = true ∧ addressed.sclLow = true) ∧ State.reset.holdDue = false := by decide

/-- A slave, a pending recovery, an idle device, and the engine holding the bus as master; no act of another device comes before
the line-driver calls and the data line is not driven, and the START pending there stays pending. -/
theorem witness_SlvenEffect :
    (matched .write).params.slaveEn = true ∧ (matched .write).role = .slave ∧ (matched .write).noReset ∧
    (recovering 0x46 1).params.slaveEn = true ∧ (recovering 0x46 1).recoveryPending = true ∧
    (recovering 0x46 1).noReset ∧ State.reset.params.slaveEn = true ∧ State.reset.role = .idle ∧
    (holder .multiMasterSlave .write).params.slaveEn = true ∧ (holder .multiMasterSlave .write).holding = true ∧
    ((∀ a rest, addressed.inputs ≠ .race a :: rest) ∧ (addressed.sdaLow && addressed.sdaOe) = false) ∧
    Answers (.slven false) addressed (fun t => !t.slven && t.startSeen && t.busBusy && !t.sclLow) := by
  refine ⟨rfl, rfl, ?_, rfl, rfl, ?_, rfl, rfl, rfl, rfl, ⟨?_, rfl⟩, answers_of (by decide +kernel)⟩
  · exact fun h => by cases h
  · exact fun h => by cases h
  · exact fun _ _ h => by cases h

/-- Every command but INIT and STATUS can be not allowed; the two no-ops. -/
theorem witness_NotAllowedCommandsOnlyFlag :
    [Instr.openDevice 0xA0, .release].all (fun i => !i.allowed (device .slaveOnly)) = true ∧
    [Instr.send 0, .recv true, .poll 0xA0 0, .ssend 0 true, .srecv true, .slven true].all
      (fun i => !i.allowed (device .singleMaster)) = true ∧
    (device .singleMaster).params.masterEn = true ∧ (device .singleMaster).role = .idle ∧
    (device .slaveOnly).params.slaveEn = true ∧ (device .slaveOnly).recoveryPending = false ∧
    (device .slaveOnly).startSeen = false := by decide

theorem masterIdle_reset (c : Configuration) (v : Bool) (l : List Input) (h : c ≠ .slaveOnly) :
    State.MasterIdle { device c with slven := v, inputs := l } where
  master_en := by cases c <;> first | rfl | exact absurd rfl h
  idle := rfl
  lines := ⟨rfl, rfl, rfl⟩
  scl_free := rfl
  sda_free := rfl
  no_start := rfl
  not_busy := rfl

theorem masterHolds_holder (c : Configuration) (d : Dir) (l : List Input) (h : c ≠ .slaveOnly) :
    State.MasterHolds { holder c d with inputs := l } where
  master_en := by cases c <;> first | rfl | exact absurd rfl h
  holds := rfl
  lines := ⟨rfl, rfl, rfl⟩
  scl_free := rfl
  sda_free := rfl
  no_start := rfl
  busy := rfl

theorem slaveAddressed_addressed (l : List Input) : State.SlaveAddressed { addressed with inputs := l } :=
  ⟨rfl, rfl, rfl, rfl, rfl, rfl, rfl, rfl⟩

theorem slaveHolds_matched (d : Dir) (l : List Input) : State.SlaveHolds { matched d with inputs := l } :=
  ⟨rfl, rfl, ⟨rfl, rfl, rfl⟩, rfl, rfl, rfl⟩

theorem witness_OpenOnIdleBus : State.MasterIdle { device .singleMaster with
    slven := false, inputs := [.pass, .pass] ++ idleByte ++ levelInPulse true ++ [] } ∧ calm [] = true :=
  ⟨masterIdle_reset _ _ _ (by decide), rfl⟩

theorem witness_OpenRepeatsStart : State.MasterHolds { holder .singleMaster .write with
    inputs := [.pass, .pass, .pass] ++ idleByte ++ levelInPulse false ++ [.pass] } ∧ calm [.pass] = true :=
  ⟨masterHolds_holder _ _ _ (by decide), rfl⟩

/-- The three cases: a foreign START with `SLVEN` set and clear, a busy bus. -/
theorem witness_OpenOnTakenBus :
    (let s : State := { device .multiMasterSlave with slven := true, startSeen := true, busBusy := true }
     s.params.masterEn = true ∧ s.params.multi = true ∧ s.role = .idle ∧ s.startSeen = true ∧ s.slven = true) ∧
    (let s : State := { device .multiMaster with startSeen := true, busBusy := true }
     s.params.multi = true ∧ s.startSeen = true ∧ s.slven = false ∧ calm s.inputs = true ∧ s.sclLow = false) ∧
    (let s : State := { recovering 0x46 1 with sclLow := false }
     s.params.multi = true ∧ s.recoveryPending = true ∧ s.startSeen = false ∧ s.busBusy = true ∧ calm s.inputs = true) := by
  decide

/-- The first and the last bit of the field. -/
theorem witness_OpenLosesArbitration :
    State.MasterIdle { device .multiMasterSlave with
      slven := true, inputs := [.pass, .pass] ++ (List.replicate 0 idlePulse).flatten ++ [.env (.sda false), .pass] ++ [] } ∧
    (0x80 : Byte).getMsbD 0 = true ∧
    State.MasterIdle { device .multiMaster with
      slven := false, inputs := [.pass, .pass] ++ (List.replicate 7 idlePulse).flatten ++ [.env (.sda false), .pass] ++ [] } ∧
    (0x01 : Byte).getMsbD 7 = true ∧ (device .multiMaster).params.multi = true ∧
    (device .multiMasterSlave).params.multi = true ∧ calm [] = true :=
  ⟨masterIdle_reset _ _ _ (by decide), rfl, masterIdle_reset _ _ _ (by decide), rfl, rfl, rfl, rfl⟩

theorem witness_SendAnswered : State.MasterHolds { holder .singleMaster .write with
    inputs := idleByte ++ levelInPulse true ++ [] } ∧ (holder .singleMaster .write).dir = .write ∧ calm [] = true :=
  ⟨masterHolds_holder _ _ _ (by decide), rfl, rfl⟩

theorem witness_SendLosesArbitration :
    State.MasterHolds { holder .multiMaster .write with
      inputs := (List.replicate 0 idlePulse).flatten ++ [.env (.sda false), .pass] ++ [] } ∧
    State.MasterHolds { holder .multiMaster .write with
      inputs := (List.replicate 7 idlePulse).flatten ++ [.env (.sda false), .pass] ++ [] } ∧
    (0x80 : Byte).getMsbD 0 = true ∧ (0x01 : Byte).getMsbD 7 = true ∧ (holder .multiMaster .write).params.multi = true ∧
    (holder .multiMaster .write).dir = .write ∧ calm [] = true :=
  ⟨masterHolds_holder _ _ _ (by decide), masterHolds_holder _ _ _ (by decide), rfl, rfl, rfl, rfl, rfl⟩

theorem witness_RecvReadsByte : State.MasterHolds { holder .singleMaster .read with
    inputs := (bits 0x5A).flatMap levelInPulse ++ levelInPulse true ++ [] } ∧
    (holder .singleMaster .read).dir = .read ∧ calm [] = true :=
  ⟨masterHolds_holder _ _ _ (by decide), rfl, rfl⟩

/-- No bit and seven bits before the expiry. -/
theorem witness_RecvTimeoutAnswersFreeByte :
    State.MasterHolds { holder .singleMaster .read with inputs := [].flatMap levelInPulse ++ [.pass, .expire] ++ [] } ∧
    State.MasterHolds { holder .singleMaster .read with
      inputs := (List.replicate 7 true).flatMap levelInPulse ++ [.pass, .expire] ++ [] } ∧
    (holder .singleMaster .read).dir = .read ∧ (holder .singleMaster .read).params.timeoutEnforced = true ∧
    (List.replicate 7 true).length < 8 ∧ calm [] = true :=
  ⟨masterHolds_holder _ _ _ (by decide), masterHolds_holder _ _ _ (by decide), rfl, rfl, by decide, rfl⟩

theorem witness_ReleasePutsStop : State.MasterHolds { holder .singleMaster .write with
    inputs := [.pass, .pass, .pass] ++ [.env (.scl false)] } ∧ calm [.env (.scl false)] = true :=
  ⟨masterHolds_holder _ _ _ (by decide), rfl⟩

/-- The bus held and a recovery pending, a STOP that succeeds and one that does not. -/
theorem witness_ReleaseAlwaysLetsGo :
    (holder .singleMaster .write).holding = true ∧
    Answers .release (holder .singleMaster .write) (fun t => t.response.isSome && t.status == 0x001) ∧
    Answers .release { holder .singleMaster .write with sdaExt := false }
      (fun t => t.response.isSome && t.status == 0x011) ∧
    Answers .release { holder .singleMaster .write with sclExt := false }
      (fun t => t.response.isSome && t.status == 0x009) ∧
    (recovering 0x46 1).recoveryPending = true ∧ (recovering 0x46 1).sdaLow = false ∧ (recovering 0x46 1).sdaOe = false ∧
    Answers .release (recovering 0x46 1) (fun t => t.response.isSome && t.role == .idle) := by
  refine ⟨rfl, ?_, ?_, ?_, rfl, rfl, rfl, ?_⟩ <;> exact answers_of (by decide +kernel)

theorem witness_ReleaseIsIdempotent :
    Answers .release (holder .singleMaster .write) (fun t => t.response.isSome) ∧
    Answers .release (device .slaveOnly) (fun t => t.response.isSome) := by
  refine ⟨?_, ?_⟩ <;> exact answers_of (by decide +kernel)

theorem witness_ReleaseWithoutFlagsMadeStop :
    (holder .singleMaster .write).clockLeftAlone ∧ (holder .singleMaster .write).holding = true ∧
    Answers .release (holder .singleMaster .write) (fun t =>
      t.response.isSome && t.status &&& (Flag.timedOut ||| Flag.lineBlocked) == 0) :=
  ⟨⟨fun h => (by cases h), fun h => (by cases h)⟩, rfl, answers_of (by decide +kernel)⟩

theorem witness_PollWhileDisabled :
    (device .slaveOnly).params.slaveEn = true ∧ (device .slaveOnly).slven = false ∧
    Steps { device .slaveOnly with sclLow := true, inputs := [.env (.sda false)] } (fun t => t.sclLow) :=
  ⟨rfl, rfl, steps_of (by decide +kernel)⟩

/-- A match and a mismatch. -/
theorem witness_PollServesStart :
    State.SlaveAddressed { addressed with inputs := (bits 0xA8).flatMap masterPulse ++ clockPulse ++ [] } ∧
    addressMatch 0xA8 0xA0 0x0E = true ∧
    State.SlaveAddressed { addressed with inputs := (bits 0x90).flatMap masterPulse ++ [] } ∧
    addressMatch 0x90 0xA0 0x01 = false ∧ calm [] = true :=
  ⟨slaveAddressed_addressed _, by decide, slaveAddressed_addressed _, by decide, rfl⟩

/-- No bit and all eight bits before the loss, and the case of section 2.5. -/
theorem witness_RecoveryKeepsTheAddressByte :
    (recovering 0x46 0).RecoveryHolds 0x46 0 ∧ (recovering 0x46 1).RecoveryHolds 0x46 1 ∧
    (recovering 0xA0 8).RecoveryHolds 0xA0 8 ∧ addressMatch 0x46 0x46 0 = true ∧ addressMatch 0x46 0x22 0 = false ∧
    calm [] = true := by
  refine ⟨?_, ?_, ?_, by decide, by decide, rfl⟩
  all_goals exact ⟨rfl, rfl, rfl, rfl, rfl, rfl, rfl, rfl, rfl, by decide, by decide⟩

/-- The loss in the first bit and in the last, and program 3.5. -/
theorem witness_ArbitrationLoserAnswersTheWinner :
    (∀ l, State.MasterIdle { device .multiMasterSlave with slven := true, inputs := l }) ∧
    (device .multiMasterSlave).hung = false ∧
    ((bits 0x46).take 0 = (bits 0xA0).take 0 ∧ (0xA0 : Byte).getMsbD 0 = true ∧ (0x46 : Byte).getMsbD 0 = false) ∧
    ((bits 0xA0).take 7 = (bits 0xA1).take 7 ∧ (0xA1 : Byte).getMsbD 7 = true ∧ (0xA0 : Byte).getMsbD 7 = false) ∧
    calm [.pass] = true ∧ (∀ w ∈ [Input.pass], w = .pass) :=
  ⟨fun _ => masterIdle_reset _ _ _ (by decide), rfl, by decide, by decide, rfl, by decide⟩

/-- A collision and none. -/
theorem witness_SsendEffect :
    State.SlaveHolds { matched .read with inputs := (bits 0x70).flatMap masterPulse ++ masterPulse true ++ [] } ∧
    (0xF0 : Byte) &&& ~~~0x70 ≠ 0 ∧ (0x5A : Byte) &&& ~~~0x5A = 0 ∧ (matched .read).dir = .read ∧ calm [] = true :=
  ⟨slaveHolds_matched _ _, by decide, by decide, rfl, rfl⟩

theorem witness_SrecvReadsByte :
    State.SlaveHolds { matched .write with inputs := (bits 0x06).flatMap masterPulse ++ masterPulse true ++ [] } ∧
    (matched .write).dir = .write ∧ calm [] = true :=
  ⟨slaveHolds_matched _ _, rfl, rfl⟩

/-- A STOP before the first bit and a repeated START after the seventh. -/
theorem witness_SrecvEndedByStopOrStart :
    State.SlaveHolds { matched .write with
      inputs := [].flatMap masterPulse ++ [.env (.sda !true), .env (.scl true), .env (.sda true)] ++ [] } ∧
    State.SlaveHolds { matched .write with
      inputs := (List.replicate 7 true).flatMap masterPulse ++
        [.env (.sda !false), .env (.scl true), .env (.sda false)] ++ [] } ∧
    (List.replicate 7 true).length < 8 ∧ (matched .write).dir = .write ∧ calm [] = true :=
  ⟨slaveHolds_matched _ _, slaveHolds_matched _ _, by decide, rfl, rfl⟩

/-- A recovery is pending and the winner's STOP has made the bus free again. -/
def freed : State := { recovering 0x46 1 with sclLow := false, sclExt := true, sdaExt := true, busBusy := false }

/-- Each group of outcomes occurs (section 2.6), and an OPEN with a recovery pending on a free bus makes a START. -/
theorem witness_OpenOutcomes :
    Answers (.openDevice 0xA0) { device .singleMaster with inputs := [.pass, .pass] ++ idleByte ++ levelInPulse false }
      (fun t => t.response.isSome && t.status == 0x001) ∧
    Answers (.openDevice 0x42) (device .singleMaster) (fun t => t.response.isSome && t.status == 0x002) ∧
    Answers (.openDevice 0x42) { device .multiMaster with busBusy := true }
      (fun t => t.response.isSome && t.status == 0x040) ∧
    Answers (.openDevice 0x42) { device .multiMaster with startSeen := true }
      (fun t => t.response.isSome && t.status == 0x140) ∧
    Answers (.openDevice 0x42) { device .singleMaster with inputs := [.pass, .env (.scl false)] }
      (fun t => t.response.isSome && t.status == 0x008) ∧
    Answers (.openDevice 0x42) { device .singleMaster with sdaExt := false }
      (fun t => t.response.isSome && t.status == 0x010) ∧
    Answers (.openDevice 0xFF) { device .singleMaster with
      inputs := List.replicate 6 .pass ++ [.env (.sda false), .pass, .env (.sda true)] }
      (fun t => t.response.isSome && t.status == 0x020) ∧
    (freed.params.masterEn = true ∧ freed.recoveryPending = true ∧ freed.sdaLow = false ∧ freed.sdaOe = false) ∧
    Answers (.openDevice 0x42) freed (fun t => t.response.isSome && t.status == 0x002 && t.holding) := by
  refine ⟨?_, ?_, ?_, ?_, ?_, ?_, ?_, ⟨rfl, rfl, rfl, rfl⟩, ?_⟩ <;> exact answers_of (by decide +kernel)

theorem witness_MasterTransferOutcomes :
    (Instr.send 0x5A).allowed (holder .singleMaster .write) = true ∧
    (Instr.recv true).allowed (holder .singleMaster .read) = true ∧
    Answers (.send 0x5A) (holder .singleMaster .write) (fun t => t.response.isSome && t.status == 0x003) ∧
    Answers (.send 0xF0) { holder .multiMaster .write with inputs := [.env (.sda false), .pass] }
      (fun t => t.response.isSome && t.status == 0x041) ∧
    Answers (.recv true) { holder .singleMaster .read with inputs := [.env (.scl false)] }
      (fun t => t.response.isSome && t.status == 0x009) ∧
    Answers (.recv true) { holder .singleMaster .read with inputs := [.pass, .env (.sda false), .pass, .env (.sda true)] }
      (fun t => t.response.isSome && t.status == 0x021) := by
  refine ⟨rfl, rfl, ?_, ?_, ?_, ?_⟩ <;> exact answers_of (by decide +kernel)

/-- A START and a recovery to serve, with each kind of outcome. -/
theorem witness_PollOutcomes :
    addressed.params.slaveEn = true ∧ addressed.slven = true ∧ addressed.recoveryPending = false ∧
    addressed.startSeen = true ∧ addressed.bitcnt.toNat ≤ 8 ∧ (recovering 0xA0 8).recoveryPending = true ∧
    (recovering 0xA0 8).bitcnt.toNat ≤ 8 ∧
    Answers (.poll 0xA0 0) { recovering 0xA0 8 with inputs := clockPulse }
      (fun t => t.response.isSome && t.role == .slave && t.status == 0x001) ∧
    Answers (.poll 0xA0 0) { addressed with inputs := (bits 0x90).flatMap masterPulse }
      (fun t => t.response.isSome && t.status == 0x100) ∧
    Answers (.poll 0xA0 0) { addressed with inputs := [.env (.sda false), .env (.scl true), .env (.sda true)] }
      (fun t => t.response.isSome && t.status == 0x000) ∧
    Answers (.poll 0xA0 0) { addressed with inputs := [true, true, true].flatMap masterPulse }
      (fun t => t.response.isSome && t.status == 0x008) := by
  refine ⟨rfl, rfl, rfl, rfl, by decide, rfl, by decide, ?_, ?_, ?_, ?_⟩ <;> exact answers_of (by decide +kernel)

/-- SSEND that goes on and that ends; SRECV with a whole byte, acknowledged or not, and ended by a STOP, a START and an
expiry. -/
theorem witness_SlaveTransferOutcomes :
    (Instr.ssend 0x5A true).allowed (matched .read) = true ∧ (Instr.srecv true).allowed (matched .write) = true ∧
    Answers (.ssend 0x5A true) { matched .read with inputs := (bits 0x5A).flatMap masterPulse ++ masterPulse false }
      (fun t => t.response.isSome && t.role == .slave) ∧
    Answers (.srecv true) (matched .write) (fun t => t.response.isSome && t.status == 0x009) ∧
    Answers (.ssend 0xF0 true) { matched .read with inputs := (bits 0x70).flatMap masterPulse ++ masterPulse true }
      (fun t => t.response.isSome && t.status == 0x083) ∧
    Answers (.srecv true) { matched .write with inputs := (bits 0x06).flatMap masterPulse ++ masterPulse true }
      (fun t => t.response == some (responseWord false 0x06 0x001) && t.role == .slave && t.sclLow) ∧
    Answers (.srecv false) { matched .write with inputs := (bits 0x06).flatMap masterPulse ++ masterPulse true }
      (fun t => t.response == some (responseWord false 0x06 0x001) && t.role == .idle && !t.sclLow) ∧
    Answers (.srecv true) { matched .write with inputs := [.env (.sda false), .env (.scl true), .env (.sda true)] }
      (fun t => t.response.isSome && t.status == 0x005 && t.draws == 1) ∧
    Answers (.srecv true) { matched .write with inputs := [.env (.sda true), .env (.scl true), .env (.sda false)] }
      (fun t => t.response.isSome && t.status == 0x101 && t.draws == 1) := by
  refine ⟨rfl, rfl, ?_, ?_, ?_, ?_, ?_, ?_, ?_⟩ <;> exact answers_of (by decide +kernel)

/-- Each branch: OPEN, a device without the slave role, nothing to serve, a START, a recovery with and without
`ProtocolFail`. -/
theorem witness_StatusValuesOfOpenAndPoll :
    Answers (.openDevice 0x10) (device .slaveOnly) (fun t => t.response.isSome && t.status == 0x020) ∧
    (State.reset.pendingStatus ∧ (recovering 0x46 1).pendingStatus ∧ { recovering 0x46 1 with status := 0x160 }.pendingStatus) ∧
    Answers (.poll 0xA0 0) (device .singleMaster) (fun t => t.response.isSome && t.status == 0x020) ∧
    Answers (.poll 0xA0 0) { device .slaveOnly with status := 0x003 } (fun t => t.response.isSome && t.status == 0x003) ∧
    Answers (.poll 0xA0 0) { addressed with inputs := (bits 0x90).flatMap masterPulse }
      (fun t => t.response.isSome && t.status == 0x100) ∧
    Answers (.poll 0x22 0) (recovering 0x46 1) (fun t => t.response.isSome && t.status == 0x108) ∧
    Answers (.poll 0x22 0) { recovering 0x46 1 with status := 0x160 } (fun t => t.response.isSome && t.status == 0x128) := by
  refine ⟨?_, ⟨fun _ h => ?_, fun _ _ => .inl rfl, fun _ _ => .inr rfl⟩, ?_, ?_, ?_, ?_, ?_⟩
  case refine_2 => cases h
  all_goals exact answers_of (by decide +kernel)

/-- A register written by its commands; the latches cleared by the STOP of a RELEASE; a START served by POLL. -/
theorem witness_OnlyNamedWritersWrite :
    State.reset.noReset ∧ Answers (.init 0xA0 0x0E 0x01) State.reset (fun t => t.faddr != State.reset.faddr) ∧
    Answers (.poll 0xA0 0) (device .slaveOnly) (fun t => t.faddr != (device .slaveOnly).faddr) ∧
    Instr.release.mnemonic ∉ ["INIT", "OPEN", "POLL", "SLVEN"] ∧
    Answers .release (holder .singleMaster .write) (fun t => !t.busBusy && t.wire.head? == some .stop) ∧
    Answers (.poll 0xA0 0) { addressed with inputs := (bits 0x90).flatMap masterPulse }
      (fun t => t.busBusy && !t.startSeen) :=
  ⟨witness_InitEffect, answers_of (by decide +kernel), answers_of (by decide +kernel), by decide,
    answers_of (by decide +kernel), answers_of (by decide +kernel)⟩

theorem witness_FlagsAccumulate :
    (holder .singleMaster .write).noReset ∧ (Instr.send 0x5A).mnemonic ∉ ["INIT", "OPEN", "POLL"] ∧
    Answers (.send 0x5A) (holder .singleMaster .write) (fun t => t.status == 0x003) :=
  ⟨fun h => (by cases h), by decide, answers_of (by decide +kernel)⟩

/-- Each flag but `Success` newly set where the statement allows it. -/
theorem witness_FlagsAreSetOnlyByTheirCommands :
    Answers (.send 0x5A) (holder .singleMaster .write)
      (fun t => t.response.isSome && t.status &&& ~~~(0x001 : Flags) &&& Flag.noAck != 0) ∧
    Answers (.srecv true)
      { matched .write with inputs := [.env (.sda false), .env (.scl true), .env (.sda true)] }
      (fun t => t.response.isSome && t.status &&& ~~~(0x001 : Flags) &&& Flag.stopped != 0) ∧
    Answers (.ssend 0xF0 true) { matched .read with inputs := (bits 0x70).flatMap masterPulse ++ masterPulse true }
      (fun t => t.response.isSome && t.status &&& ~~~(0x001 : Flags) &&& Flag.slaveCollision != 0) ∧
    Answers (.openDevice 0x42) { device .multiMaster with startSeen := true }
      (fun t => t.response.isSome && t.status &&& Flag.arbitrationLost != 0 && t.status &&& Flag.restarted != 0) := by
  refine ⟨?_, ?_, ?_, ?_⟩ <;> exact answers_of (by decide +kernel)

theorem witness_NoTimeoutsUnlessEnforced :
    (unbounded .singleMaster).params.timeoutEnforced = false ∧
    Answers (.openDevice 0x42) (unbounded .singleMaster) (fun t => t.response.isSome && t.status == 0x002) :=
  ⟨rfl, answers_of (by decide +kernel)⟩

/-- To `Slave` by POLL from idle and from a pending recovery, to `Master` by OPEN, from `Slave` to idle by SRECV and SLVEN, from
`Master` to idle by RELEASE, and with a recovery pending by POLL and SLVEN. -/
theorem witness_RoleTransitions :
    (∀ s ∈ [addressed, matched .write, recovering 0xA0 8, holder .singleMaster .write],
      s.role ≠ .masterProbingForSlaveRole ∧ (s.role = .master → s.startSeen = true → s.recoveryPending = true) ∧
      (s.role = .slave → s.startSeen = false)) ∧
    Answers (.poll 0xA0 0x0E) { addressed with inputs := (bits 0xA8).flatMap masterPulse ++ clockPulse }
      (fun t => !t.hung && t.role == .slave) ∧
    Answers (.poll 0xA0 0) { recovering 0xA0 8 with inputs := clockPulse } (fun t => !t.hung && t.role == .slave) ∧
    Answers (.openDevice 0x42) (device .singleMaster) (fun t => !t.hung && t.role == .master) ∧
    Answers (.srecv true) (matched .write) (fun t => !t.hung && t.role == .idle && t.response.isSome) ∧
    Answers (.slven false) (matched .write) (fun t => !t.hung && t.role == .idle && t.response.isSome) ∧
    Answers .release (holder .singleMaster .write) (fun t => !t.hung && t.role == .idle && t.response.isSome) ∧
    Answers (.poll 0x22 0) (recovering 0x46 1) (fun t => !t.hung && t.role == .idle && t.response.isSome) ∧
    Answers (.slven false) (recovering 0x46 1) (fun t => !t.hung && t.role == .idle && t.response.isSome) := by
  refine ⟨by decide, ?_, ?_, ?_, ?_, ?_, ?_, ?_, ?_⟩ <;> exact answers_of (by decide +kernel)

theorem sound_inputs {s : State} (h : s.Sound) (l : List Input) : State.Sound { s with inputs := l } := fun e => by
  cases h e
  constructor <;> assumption

theorem sound_matched : (matched .write).Sound := by
  intro _
  constructor <;> first | decide | (unfold State.clockHeld; decide)

theorem sound_addressed : addressed.Sound := by
  intro _
  constructor <;> first | decide | (unfold State.clockHeld; decide)

theorem sound_holder : (holder .singleMaster .write).Sound := by
  intro _
  constructor <;> first | decide | (unfold State.clockHeld; decide)

/-- A held bus with a command presented, and a slave whose master changes a line. -/
theorem witness_InvariantKeptByEveryStep :
    (matched .write).Sound ∧ (holder .singleMaster .write).Sound ∧
    Steps { holder .singleMaster .write with inputs := [.command 0x50000000] } (fun t => t.role == .idle) ∧
    Steps { matched .write with inputs := [.env (.sda false)] } (fun t => t.role == .slave) := by
  refine ⟨sound_matched, sound_holder, ?_, ?_⟩ <;> exact steps_of (by decide +kernel)

theorem witness_HoldingMasterIsUndisturbed :
    (holder .singleMaster .write).Sound ∧ (holder .singleMaster .write).unraced ∧
    (holder .singleMaster .write).quietHold ∧
    Steps { holder .singleMaster .write with inputs := [.command 0x305A0000] } (fun t => t.holding) :=
  ⟨sound_holder, fun _ h => (by cases h), fun _ _ => ⟨rfl, rfl⟩, steps_of (by decide +kernel)⟩

/-- An addressed slave that receives a byte, and one that becomes addressed: a POLL word and the field `0xA8` of section 2.4. -/
theorem witness_AddressedSlaveSeesNoStart :
    (let s : State := { matched .write with
       inputs := .command 0x81000000 :: (bits 0x06).flatMap masterPulse ++ masterPulse true }
     s.Sound ∧ s.unraced ∧ s.quietSlave ∧ (s.startSeen = true ∨ s.recoveryPending = true → s.scl = true → s.sda = false) ∧
       Steps s (fun t => !t.hung && t.role == .slave)) ∧
    (let s : State := { addressed with
       inputs := .command 0x60A00E00 :: (bits 0xA8).flatMap masterPulse ++ clockPulse }
     s.Sound ∧ s.unraced ∧ s.quietSlave ∧ (s.startSeen = true ∨ s.recoveryPending = true → s.scl = true → s.sda = false) ∧
       Steps s (fun t => !t.hung && t.role == .slave)) := by
  refine ⟨⟨sound_inputs sound_matched _, ?_, fun _ _ => ⟨rfl, rfl⟩, by decide, steps_of (by decide +kernel)⟩,
    ⟨sound_inputs sound_addressed _, ?_, fun _ h => (by cases h), by decide, steps_of (by decide +kernel)⟩⟩ <;>
  exact fun a h => by revert h; cases a <;> rename_i b <;> cases b <;> decide

theorem witness_PendingStatusIsKept :
    (recovering 0x46 1).Sound ∧ (recovering 0x46 1).pendingStatus ∧ (recovering 0x46 1).recoveryPending = true ∧
    Steps { recovering 0x46 1 with inputs := [.command 0x30000000] } (fun t => t.status == 0x160 && t.recoveryPending) := by
  refine ⟨fun _ => ?_, fun _ _ => .inl rfl, rfl, steps_of (by decide +kernel)⟩
  constructor <;> first | decide | (unfold State.clockHeld; decide)

/-- Every answer of a bounded wait occurs. -/
theorem witness_WaitLaws :
    (∃ t, (waitUntil fun s => s.scl).run State.reset = .ok .ok t) ∧
    (∃ t, (waitUntil fun s => s.scl).run { State.reset with inputs := [.expire] } = .ok .expired t) ∧
    (∃ t, (waitUntil fun s => s.startSeen).run (unbounded .singleMaster) = .error .hang t) ∧
    (unbounded .singleMaster).params.timeoutEnforced = false ∧ (unbounded .singleMaster).inputs = [] ∧
    (unbounded .singleMaster).startSeen = false := ⟨⟨_, rfl⟩, ⟨_, rfl⟩, ⟨_, rfl⟩, rfl, rfl, rfl⟩

/-- A STOP, a START and a bit. -/
theorem witness_FollowedPulseAgreesWithEdgeDetector :
    (∃ t, sWaitBit.run { device .slaveOnly with busBusy := true, sdaExt := false, inputs := [.env (.sda true)] } =
      .ok .stop t) ∧
    (∃ t, sWaitBit.run { device .slaveOnly with inputs := [.env (.sda false)] } = .ok .start t) ∧
    (∃ t, sWaitBit.run { device .slaveOnly with inputs := [.env (.scl false)] } = .ok (.bit true) t) :=
  ⟨⟨_, rfl⟩, ⟨_, rfl⟩, ⟨_, rfl⟩⟩

/-- A computation of the sequencer answers. -/
def finishes {α : Type} (m : Eng α) (s : State) : Bool :=
  match m.run s with
  | .ok _ _ => true
  | _ => false

theorem run_of_finishes {α : Type} {m : Eng α} {s : State} (h : finishes m s = true) : ∃ r t, m.run s = .ok r t := by
  unfold finishes at h
  cases e : m.run s with
  | ok r t => exact ⟨r, t, rfl⟩
  | error x t => rw [e] at h; cases h

theorem witness_ByteProceduresWriteOnlyTheirRegisters :
    (∃ r t, (mClockBit true false).run (holder .singleMaster .write) = .ok r t) ∧
    (∃ r t, (mSendByte 0x5A true).run (holder .singleMaster .write) = .ok r t) ∧
    (∃ r t, (mRecvByte true).run (holder .singleMaster .read) = .ok r t) ∧
    (∃ r t, (sPutBit true).run { matched .write with inputs := clockPulse } = .ok r t) ∧
    (∃ r t, (sRecvByte true).run (matched .write) = .ok r t) ∧
    (∃ r t, (sSendByte 0x5A).run (matched .read) = .ok r t) := by
  refine ⟨?_, ?_, ?_, ?_, ?_, ?_⟩ <;> exact run_of_finishes (by decide +kernel)

/-- Clauses (a), (b) and (c). -/
theorem witness_MatchCornerCases :
    (0x01 : Byte).getLsbD 0 = true ∧
    ((0x0E : Byte).getLsbD 0 = false ∧ (0x0E : Byte) &&& ~~~0x0E &&& 0xFE = 0) ∧ (0xFE : Byte) &&& 0xFE = 0xFE := by decide

theorem witness_ShiftLawConsequences : (bits 0x42).length = 8 ∧ ((bits 0x42).take 7).length < 8 := by decide

end Sys2Proof.Tests
end

section
/-! PROOFS. The statements of 00_scope.md: the step that runs a command, the step between commands, and waits without a bound. -/

namespace Sys2Proof.Machine

/-! ### The step that runs a command (R8, R86) -/

/-- Unless it is hung, the engine takes a command word that comes next and decodes (R8, R86). -/
theorem step_command {s : State} {w : Word} {rest : List Input} {i : Instr} (hh : s.hung = false)
    (hi : s.inputs = .command w :: rest) (hd : decode w = .ok i) : step s = exec i { s with inputs := rest } := by
  have ht : takeInput s = .presented w { s with inputs := rest } := by simp [takeInput, hi, hh]
  simp only [step, ht, hd]

theorem decode_of_decodeTableWord {nbits w : Nat} {i : Instr} (h : decodeTableWord nbits w = some i) :
    decode (tableWord nbits w) = .ok i := by
  unfold decodeTableWord at h
  cases hd : decode (tableWord nbits w) with
  | ok j => rw [hd] at h; cases h; rfl
  | error e => rw [hd] at h; cases h

/-- Settles O7: the word at the head of the inputs is taken and decoded; `withFetchWord` puts one there. -/
theorem stepRunsPresentedCommand : Obligations.StepRunsPresentedCommand :=
  ⟨fun _ _ _ _ hh hi hd => step_command hh hi hd,
    fun _ _ _ _ hh hd => step_command hh rfl (decode_of_decodeTableWord hd)⟩

/-! ### The step between commands (R8, R9, R182) -/

/-- From `s` to `t` only the environment and the edge detector have acted: every other register is as before, and a clock held
low stays held (R20, R182). -/
structure State.OnlyEdges (s t : State) : Prop where
  beyond : t.beyondLines = s.beyondLines
  sdaLow : t.sdaLow = s.sdaLow
  sdaOe : t.sdaOe = s.sdaOe
  held : s.sclLow = true → t.sclLow = true

theorem State.OnlyEdges.refl (s : State) : s.OnlyEdges s := ⟨rfl, rfl, rfl, id⟩

theorem State.OnlyEdges.inputs {s t : State} (h : s.OnlyEdges t) (l : List Input) : s.OnlyEdges { t with inputs := l } :=
  ⟨h.beyond, h.sdaLow, h.sdaOe, h.held⟩

theorem State.OnlyEdges.act {s t : State} (h : s.OnlyEdges t) (a : LineAct) : s.OnlyEdges (t.act a) :=
  ⟨by simp [h.beyond], by simp [h.sdaLow], by simp [h.sdaOe], by simpa using h.held⟩

@[simp] theorem State.settle_beyondLines (s : State) : s.settle.beyondLines = s.beyondLines := by simp [State.beyondLines]

theorem State.OnlyEdges.settle {s t : State} (h : s.OnlyEdges t) : s.OnlyEdges t.settle :=
  ⟨by simp [h.beyond], by simp [h.sdaLow], by simp [h.sdaOe], fun hs => by simp [h.held hs]⟩

/-- What a step between commands leaves, written out register by register. -/
theorem State.OnlyEdges.eq {s t : State} (h : s.OnlyEdges t) :
    s = { t with
      startSeen := s.startSeen, busBusy := s.busBusy, sclLow := s.sclLow, sclExt := s.sclExt, sdaExt := s.sdaExt,
      inputs := s.inputs, wire := s.wire } := by
  calc
    s = { s with sdaLow := t.sdaLow, sdaOe := t.sdaOe } := by rw [h.sdaLow, h.sdaOe]
    _ = _ := congrArg (fun x : State => { x with
      startSeen := s.startSeen, busBusy := s.busBusy, sclLow := s.sclLow, sdaLow := t.sdaLow, sdaOe := t.sdaOe,
      sclExt := s.sclExt, sdaExt := s.sdaExt, inputs := s.inputs, wire := s.wire }) h.beyond.symm

/-- With neither a command word nor the reset input next, a step lets at most the environment and the edge detector act. -/
theorem step_between {s t : State} (h : step s = .next t) (hc : ∀ w rest, s.inputs ≠ .command w :: rest)
    (hr : ∀ rest, s.inputs ≠ .reset :: rest) : s.OnlyEdges t := by
  have quiet {u : State} (hu : takeInput s = .quiet u) (k : s.OnlyEdges u) : s.OnlyEdges t := by
    simp only [step, hu] at h; cases h; exact k
  have unchanged := State.OnlyEdges.refl s
  by_cases hh : s.hung = true
  · refine quiet (u := s) ?_ unchanged
    unfold takeInput
    split
    next rest hi => exact absurd hi (hr rest)
    next => rw [if_pos hh]
  · cases hi : s.inputs with
    | nil => exact quiet (by simp only [takeInput, hi, if_neg hh]) unchanged.settle
    | cons i rest =>
      cases i with
      | command w => exact absurd hi (hc w rest)
      | reset => exact absurd hi (hr rest)
      | env a | race a => exact quiet (by simp only [takeInput, hi, if_neg hh]) ((unchanged.inputs rest).act a).settle
      | pass | expire => exact quiet (by simp only [takeInput, hi, if_neg hh]) (unchanged.inputs rest).settle

/-- Settles O8: such a step is an act of the environment, seen by the edge detector, or none, and then the hold. -/
theorem betweenCommandsOnlyTheEdgeDetectorActs : Obligations.BetweenCommandsOnlyTheEdgeDetectorActs := by
  intro s t h hc hr
  have k := step_between h hc hr
  exact ⟨k.eq, k.held⟩

/-! ### Waits without a bound (R6, R265, R266) -/

/-- A command that has completed has run its body to the end (R89). -/
theorem exec_completed {i : Instr} {s t : State} (h : exec i s = .next t) (hc : t.completed) :
    ∃ a u, (body i).run { s with response := none } = .ok a u ∧
      t = State.settle { u with response := some (responseWord a.r a.data u.status) } := by
  rcases exec_next h with hok | ⟨u, hu, rfl⟩ | ⟨u, hu, rfl⟩
  · exact hok
  · have hn : u.response = none := congrArg (·.2.1) ((body_keeps i).error hu)
    simp [State.completed, hn] at hc
  · cases hc

/-- The two flags that only an expired wait sets (R265, R266). -/
def expiryFlags : Flags := Flag.timedOut ||| Flag.lineBlocked

/-- Each of the two flags that is in the status `new` is in `old` already. -/
def NoNewExpiry (old new : Flags) : Prop := new &&& ~~~old &&& expiryFlags = 0

theorem NoNewExpiry.refl (old : Flags) : NoNewExpiry old old := by simp [NoNewExpiry]

/-- A status without the two flags adds neither. -/
theorem NoNewExpiry.of_clear (old : Flags) {new : Flags} (h : new &&& expiryFlags = 0) : NoNewExpiry old new := by
  unfold NoNewExpiry
  rw [BitVec.and_assoc, BitVec.and_comm (~~~old), ← BitVec.and_assoc, h]
  exact BitVec.zero_and

/-- Setting other flags adds neither. -/
theorem NoNewExpiry.setFlags {old new f : Flags} (h : NoNewExpiry old new) (hf : f &&& expiryFlags = 0) :
    NoNewExpiry old (setFlags new f) := by
  have hf' : NoNewExpiry old f := .of_clear old hf
  unfold NoNewExpiry Machine.setFlags at *
  rw [BitVec.and_or_distrib_right, BitVec.and_or_distrib_right, h, hf']
  rfl

/-- Clearing flags adds neither. -/
theorem NoNewExpiry.clearFlags {old new : Flags} (h : NoNewExpiry old new) (f : Flags) :
    NoNewExpiry old (clearFlags new f) := by
  have e : new &&& ~~~f &&& ~~~old &&& expiryFlags = new &&& ~~~old &&& expiryFlags &&& ~~~f := by ac_rfl
  exact e.trans (by rw [h]; exact BitVec.zero_and)

/-- Of the flags with which a slave's byte may end, only `TimedOut` is one of the two (R189, R190). -/
theorem clear_of_ne_timedOut {f : Flags} (hf : f ∈ [0, Flag.noAck, Flag.stopped, Flag.restarted, Flag.timedOut])
    (hx : f ≠ Flag.timedOut) : f &&& expiryFlags = 0 := by
  revert f; decide

section
variable {s t : State} {a : Answer} (hu : s.params.timeoutEnforced = false)
include hu

theorem sendBody_noNewExpiry {v : Byte} (ha : (Instr.send v).allowed s = true) (h : (sendBody v).run s = .ok a t) :
    NoNewExpiry s.status t.status := by
  obtain ⟨-, -, -, g⟩ := sendBody_ok ha h
  simp only [hu, Bool.false_eq_true, and_false, false_and, or_false, false_or] at g
  have keep := NoNewExpiry.refl s.status
  rcases g with ⟨-, -, -, -, -, e | e⟩ | ⟨-, -, -, e, -⟩ | ⟨-, e⟩ <;> rw [e]
  · exact keep
  all_goals exact keep.setFlags (by decide)

theorem recvBody_noNewExpiry {ack : Bool} (ha : (Instr.recv ack).allowed s = true) (h : (recvBody ack).run s = .ok a t) :
    NoNewExpiry s.status t.status := by
  obtain ⟨-, -, -, g⟩ := recvBody_ok ha h
  simp only [hu, Bool.false_eq_true, and_false, false_and, or_false, false_or] at g
  have keep := NoNewExpiry.refl s.status
  rcases g with ⟨-, -, -, -, -, e, -⟩ | ⟨-, -, e⟩ <;> rw [e]
  · exact keep
  · exact keep.setFlags (by decide)

theorem releaseBody_noNewExpiry (ha : Instr.release.allowed s = true) (h : releaseBody.run s = .ok a t) :
    NoNewExpiry s.status t.status := by
  obtain ⟨-, g⟩ := releaseBody_ok ha h
  simp only [hu, Bool.false_eq_true, false_and, or_false] at g
  have e : t.status = s.status := by
    rcases g with ⟨-, -, -, -, -, -, -, e⟩ | ⟨-, -, -, -, -, -, e⟩ | ⟨-, -, e⟩
    · exact e
    · exact (congrArg State.status e :)
    · rw [e]
  rw [e]
  exact .refl _

theorem openBody_noNewExpiry {af : Byte} (ha : (Instr.openDevice af).allowed s = true)
    (h : (openBody af).run s = .ok a t) : NoNewExpiry s.status t.status := by
  obtain ⟨-, -, -, -, g⟩ := openBody_ok ha h
  simp only [hu, Bool.false_eq_true, and_false, false_and, or_false] at g
  refine .of_clear _ ?_
  rcases g with ⟨-, -, -, -, -, ⟨-, e⟩ | ⟨-, e⟩⟩ | ⟨-, -, g⟩ | ⟨-, e⟩
  · rw [e]; decide
  · rw [e]; decide
  · rcases g with ⟨e, -⟩ | ⟨-, -, -, rfl⟩ | ⟨-, -, -, e, -⟩ | ⟨-, -, e, -⟩
    · rw [e]; decide
    · exact (by decide : (0x140 : Flags) &&& expiryFlags = 0)
    · rw [e]; decide
    · rw [e]; decide
  · rw [e]; decide

/-- Serving an address, POLL adds neither flag to the status it begins with. -/
theorem State.pollLeaves.noNewExpiry {cand : Byte} (g : s.pollLeaves cand t a) {old : Flags}
    (hs : NoNewExpiry old s.status) : NoNewExpiry old t.status := by
  obtain ⟨-, -, g⟩ := g
  simp only [hu, Bool.false_eq_true, and_false, or_false] at g
  rcases g with ⟨-, -, e, -⟩ | ⟨-, -, -, -, ⟨e, -⟩ | e⟩ <;> rw [e]
  · exact .of_clear _ (by decide)
  · exact hs.setFlags (by decide)
  · exact hs.clearFlags _

theorem pollBody_noNewExpiry {cand mask : Byte} (ha : (Instr.poll cand mask).allowed s = true)
    (h : (pollBody cand mask).run s = .ok a t) : NoNewExpiry s.status t.status := by
  rcases pollBody_ok ha h with ⟨-, -, rfl⟩ | ⟨-, ⟨-, g⟩ | ⟨-, -, g⟩⟩
  · exact .refl _
  · exact State.pollLeaves.noNewExpiry (by exact hu) g ((NoNewExpiry.refl s.status).clearFlags Flag.arbitrationLost)
  · exact State.pollLeaves.noNewExpiry (by exact hu) g (.of_clear s.status (new := 0) (by decide))

theorem ssendBody_noNewExpiry {v : Byte} {more : Bool} (ha : (Instr.ssend v more).allowed s = true)
    (h : (ssendBody v more).run s = .ok a t) : NoNewExpiry s.status t.status := by
  obtain ⟨-, -, -, g⟩ := ssendBody_ok ha h
  have keep := NoNewExpiry.refl s.status
  rcases g with ⟨-, -, -, -, -, e⟩ | ⟨-, c, f, hf, e, hx⟩ <;> rw [e]
  · exact keep
  · simp only [hu, Bool.false_eq_true, imp_false] at hx
    exact (keep.setFlags (by cases c <;> decide)).setFlags (clear_of_ne_timedOut hf hx)

theorem srecvBody_noNewExpiry {ack : Bool} (ha : (Instr.srecv ack).allowed s = true)
    (h : (srecvBody ack).run s = .ok a t) : NoNewExpiry s.status t.status := by
  obtain ⟨-, -, -, g⟩ := srecvBody_ok ha h
  have keep := NoNewExpiry.refl s.status
  rcases g with ⟨e, -⟩ | ⟨-, -, -, f, hf, e, hx⟩ <;> rw [e]
  · exact keep
  · simp only [hu, Bool.false_eq_true, imp_false] at hx
    exact keep.setFlags (clear_of_ne_timedOut (List.mem_cons_of_mem _ (List.mem_cons_of_mem _ hf)) hx)

end

theorem slvenBody_status {en : Bool} {s t : State} {a : Answer} (hs : s.params.slaveEn = true)
    (h : (slvenBody en).run s = .ok a t) : t.status = s.status := by
  cases en with
  | true => rw [slvenBody_on hs] at h; cases h; rfl
  | false =>
    obtain ⟨-, k, -⟩ := slvenBody_off hs h
    exact (congrArg State.status k :)

theorem body_not_allowed_noNewExpiry {i : Instr} {s t : State} {a : Answer} (ha : i.allowed s = false)
    (h : (body i).run s = .ok a t) : NoNewExpiry s.status t.status := by
  rw [body_not_allowed ha] at h
  cases h
  refine NoNewExpiry.setFlags ?_ (by decide)
  split
  · exact .of_clear _ (by decide)
  · exact .refl _

/-- Without a bound on waits no command that runs to its end adds one of the two flags. -/
theorem body_noNewExpiry {i : Instr} {s t : State} {a : Answer} (hu : s.params.timeoutEnforced = false)
    (h : (body i).run s = .ok a t) : NoNewExpiry s.status t.status := by
  cases ha : i.allowed s with
  | false => exact body_not_allowed_noNewExpiry ha h
  | true =>
    cases i with
    | init own mask bitrate =>
      obtain ⟨-, ⟨e, -⟩, -⟩ := initBody_ok h
      exact .of_clear _ (by rw [e]; decide)
    | openDevice af => exact openBody_noNewExpiry hu ha h
    | send v => exact sendBody_noNewExpiry hu ha h
    | recv ack => exact recvBody_noNewExpiry hu ha h
    | release => exact releaseBody_noNewExpiry hu ha h
    | poll cand mask => exact pollBody_noNewExpiry hu ha h
    | ssend v more => exact ssendBody_noNewExpiry hu ha h
    | srecv ack => exact srecvBody_noNewExpiry hu ha h
    | slven en => rw [slvenBody_status ha h]; exact .refl _
    | status => cases h; exact .refl _

/-- Settles O47: a completed command has run its body to the end, and only an expired wait sets one of the two flags. -/
theorem noTimeoutsUnlessEnforced : Obligations.NoTimeoutsUnlessEnforced := by
  intro i s t hu h hc
  obtain ⟨a, u, hb, rfl⟩ := exec_completed h hc
  rw [State.settle_status]
  have k := body_noNewExpiry (by exact hu) hb
  exact k

end Sys2Proof.Machine
end

section
/-! PROOFS. The statements of 10_state.md: the ten invariants between commands (R42), and which commands write which register
(R20). -/

namespace Sys2Proof.Machine

/-! ### R42, role by role -/

/-- The invariants of R42 that speak of no role: (ii), the slave's enable of (ix), (x). -/
structure State.Rests (s : State) : Prop where
  mstate : s.mstate ≠ .startAsserted ∧ s.mstate ≠ .addressSent
  slven : s.slven = true → s.params.slaveEn = true
  bitcnt : s.bitcnt.toNat ≤ 8

theorem State.Between.rests {s : State} (h : s.Between) : s.Rests := ⟨h.mstate_rests, h.slven_needs_slave, h.bitcnt_le⟩

/-- R42 for an idle engine that has let go of the lines. -/
theorem State.Rests.idle {s : State} (h : s.Rests) (hr : s.role = .idle) (hm : s.sstate = .watchingForStart)
    (hl : s.released) : s.Between where
  role_rests := by simp [hr]
  mstate_rests := h.mstate
  sstate_rests := .inl hm
  matched_iff_slave := by simp [hr, hm]
  master_state := by simp [hr]
  holding_lines := by simp [hr]
  pending_lines := by simp [hr]
  slave_lines := by simp [hr]
  idle_lines := fun _ => hl.2
  idle_clock := by simp [hl.1]
  slven_needs_slave := h.slven
  master_needs_master := by simp [hr]
  bitcnt_le := h.bitcnt

/-- R42 for a master that holds the bus, or has a recovery pending. -/
theorem State.Rests.master {s : State} (h : s.Rests) (hr : s.role = .master) (hm : s.sstate = .watchingForStart)
    (he : s.params.masterEn = true)
    (hl : (s.mstate = .acked ∨ s.mstate = .nacked) ∧ s.clockHeld ∨
      s.mstate = .arbitrationLost ∧ s.slven = true ∧ s.sdaLow = false ∧ s.sdaOe = false) : s.Between where
  role_rests := by simp [hr]
  mstate_rests := h.mstate
  sstate_rests := .inl hm
  matched_iff_slave := by simp [hr, hm]
  master_state := fun _ => by
    rcases hl with ⟨h | h, -⟩ | ⟨h, -⟩ <;> simp [h]
  holding_lines := fun _ ha => by
    rcases hl with ⟨-, h⟩ | ⟨h, -⟩
    · exact h
    · simp [h] at ha
  pending_lines := fun _ hp => by
    rcases hl with ⟨h | h, -⟩ | ⟨-, h⟩
    · simp [h] at hp
    · simp [h] at hp
    · exact h
  slave_lines := by simp [hr]
  idle_lines := by simp [hr]
  idle_clock := by simp [hr]
  slven_needs_slave := h.slven
  master_needs_master := fun _ => he
  bitcnt_le := h.bitcnt

/-- R42 for an addressed slave. -/
theorem State.Rests.slave {s : State} (h : s.Rests) (hr : s.role = .slave) (hm : s.sstate = .matched) (hl : s.clockHeld)
    (hv : s.slven = true) : s.Between where
  role_rests := by simp [hr]
  mstate_rests := h.mstate
  sstate_rests := .inr hm
  matched_iff_slave := by simp [hr, hm]
  master_state := by simp [hr]
  holding_lines := by simp [hr]
  pending_lines := by simp [hr]
  slave_lines := fun _ => ⟨hl, hv⟩
  idle_lines := by simp [hr]
  idle_clock := by simp [hr]
  slven_needs_slave := h.slven
  master_needs_master := by simp [hr]
  bitcnt_le := h.bitcnt

/-- Only an addressed slave has matched (R42 (iii)). -/
theorem State.Between.watching {s : State} (h : s.Between) (hr : s.role ≠ .slave) : s.sstate = .watchingForStart :=
  h.sstate_rests.resolve_right fun hm => hr (h.matched_iff_slave.mp hm)

/-- In every role the data line is released between commands (R42 (v) to (viii)). -/
theorem State.Between.data_released {s : State} (h : s.Between) : s.sdaLow = false ∧ s.sdaOe = false := by
  cases hr : s.role with
  | idle => exact h.idle_lines hr
  | slave => exact (h.slave_lines hr).1.2
  | masterProbingForSlaveRole => exact absurd hr h.role_rests
  | master =>
    rcases h.master_state hr with hm | hm | hm
    · exact (h.holding_lines hr (.inl hm)).2
    · exact (h.holding_lines hr (.inr hm)).2
    · exact (h.pending_lines hr hm).2

/-! ### Reset (R43, R300) -/

theorem State.resetWith_controlReset (p : Params) : (State.resetWith p).controlReset :=
  ⟨rfl, rfl, rfl, rfl, rfl, rfl, rfl, rfl, rfl, rfl, rfl⟩

theorem State.resetInput_controlReset (s : State) : s.resetInput.controlReset := State.resetWith_controlReset s.params

/-- With every control register at its value after reset R42 holds. -/
theorem State.controlReset.between {s : State} (h : s.controlReset) : s.Between := by
  obtain ⟨-, hr, hm, hs, hv, -, -, hb, hl⟩ := h
  exact State.Rests.idle ⟨by simp [hm], by simp [hv], by simp [hb]⟩ hr hs hl

/-- Settles O49: R42 holds whenever the control registers have their values after reset, as they have in every device. -/
theorem invariantAtReset : Obligations.InvariantAtReset :=
  ⟨fun p _ => (State.resetWith_controlReset p).between, fun _ => (State.resetWith_controlReset _).between⟩

/-! ### What happens between commands -/

/-- With the clock held by the engine no act is an edge; with the clock let go by it R42 asks nothing of the latches. -/
theorem State.Between.act {s : State} (h : s.Between) (a : LineAct) : (s.act a).Between where
  role_rests := by simpa using h.role_rests
  mstate_rests := by simpa using h.mstate_rests
  sstate_rests := by simpa using h.sstate_rests
  matched_iff_slave := by simpa using h.matched_iff_slave
  master_state := by simpa using h.master_state
  holding_lines := by simpa [State.clockHeld] using h.holding_lines
  pending_lines := by simpa using h.pending_lines
  slave_lines := by simpa [State.clockHeld] using h.slave_lines
  idle_lines := by simpa using h.idle_lines
  idle_clock := fun hr hc => by
    rw [State.act_role] at hr
    rw [State.act_sclLow] at hc
    rw [State.act_of_sclLow a hc]
    cases a <;> exact h.idle_clock hr hc
  slven_needs_slave := by simpa using h.slven_needs_slave
  master_needs_master := by simpa using h.master_needs_master
  bitcnt_le := by simpa using h.bitcnt_le

/-- An idle engine's hold is due to a START, and only with the slave response enabled (R182). -/
theorem State.holdDue_idle {s : State} (hd : s.holdDue = true) (hr : s.role = .idle) :
    s.startSeen = true ∧ s.slven = true := by
  simp_all [State.holdDue, State.recoveryPending]

theorem State.Between.settle {s : State} (h : s.Between) : s.settle.Between where
  role_rests := by simpa using h.role_rests
  mstate_rests := by simpa using h.mstate_rests
  sstate_rests := by simpa using h.sstate_rests
  matched_iff_slave := by simpa using h.matched_iff_slave
  master_state := by simpa using h.master_state
  holding_lines := fun hr hm => by
    rw [State.settle_role] at hr
    rw [State.settle_mstate] at hm
    simpa [State.clockHeld] using (h.holding_lines hr hm).imp_left .inr
  pending_lines := by simpa using h.pending_lines
  slave_lines := fun hr => by
    rw [State.settle_role] at hr
    simpa [State.clockHeld] using (h.slave_lines hr).imp_left (And.imp_left .inr)
  idle_lines := by simpa using h.idle_lines
  idle_clock := fun hr hc => by
    simp only [State.settle_role, State.settle_sclLow, Bool.or_eq_true, State.settle_startSeen, State.settle_slven] at *
    exact hc.elim (State.holdDue_idle · hr) (h.idle_clock hr)
  slven_needs_slave := by simpa using h.slven_needs_slave
  master_needs_master := by simpa using h.master_needs_master
  bitcnt_le := by simpa using h.bitcnt_le

theorem State.Between.inputs {s : State} (h : s.Between) (l : List Input) : State.Between { s with inputs := l } := { h with }

theorem State.Between.response {s : State} (h : s.Between) (w : Option Word) : State.Between { s with response := w } :=
  { h with }

/-- Without a command R42 survives what the next input does. -/
theorem takeInput_quiet_sound {s t : State} (h : s.Sound) (ht : takeInput s = .quiet t) : t.Sound := by
  unfold takeInput at ht
  split at ht
  next rest hi =>
    cases ht
    exact fun _ => (State.resetInput_controlReset _).between
  next =>
    split at ht
    next => cases ht; exact h
    next hh =>
      have hb : s.Between := h (by simpa using hh)
      split at ht <;> cases ht
      next a rest _ => exact fun _ => ((hb.inputs rest).act a).settle
      next a rest _ => exact fun _ => ((hb.inputs rest).act a).settle
      next rest _ _ _ _ => exact fun _ => (hb.inputs rest).settle
      next => exact fun _ => hb.settle

/-- The engine takes a command word only when it is not hung, and nothing but the inputs changes (R8, R318). -/
theorem takeInput_presented {s t : State} {w : Word} (ht : takeInput s = .presented w t) :
    s.hung = false ∧ ∃ rest, t = { s with inputs := rest } := by
  unfold takeInput at ht
  split at ht
  next => cases ht
  next =>
    split at ht
    next => cases ht
    next hh =>
      split at ht <;> cases ht
      exact ⟨by simpa using hh, _, rfl⟩

/-! ### The commands keep R42 -/

/-- The parameters and the slave response enable, which only INIT and SLVEN change. -/
def State.enables (s : State) : Params × Bool := (s.params, s.slven)

theorem State.enables_eq {s t : State} (h : t.enables = s.enables) : t.params = s.params ∧ t.slven = s.slven :=
  Prod.mk.inj h

/-- The invariants that speak of no role, at the end of a command that leaves the enables alone. -/
theorem State.Rests.of_enables {s t : State} (h : s.Rests) (hk : t.enables = s.enables)
    (hm : t.mstate ≠ .startAsserted ∧ t.mstate ≠ .addressSent) (hb : t.bitcnt.toNat ≤ 8) : t.Rests := by
  obtain ⟨hp, hv⟩ := State.enables_eq hk
  exact ⟨hm, by rw [hp, hv]; exact h.slven, hb⟩

/-- The end of a failed master command (R138). -/
theorem State.Rests.failed {s t : State} (h : s.Rests) (hk : t.enables = s.enables) (hm : t.sstate = .watchingForStart)
    (hb : t.bitcnt.toNat ≤ 8) (hf : t.failed) : t.Between := by
  obtain ⟨hr, he, hl⟩ := hf
  exact (h.of_enables hk (by simp [he]) hb).idle hr hm hl

/-- The end of a slave command that leaves the bus (R183). -/
theorem State.Rests.left {s t : State} (h : s.Rests) (hk : t.enables = s.enables) (hm : t.mstate = s.mstate)
    (hb : t.bitcnt.toNat ≤ 8) (hl : t.left) : t.Between := by
  obtain ⟨hr, hs, hl⟩ := hl
  exact (h.of_enables hk (by rw [hm]; exact h.mstate) hb).idle hr hs hl

section
variable {s t : State} {a : Answer} (hs : s.Between)
include hs

theorem sendBody_between {v : Byte} (ha : (Instr.send v).allowed s = true) (h : (sendBody v).run s = .ok a t) :
    t.Between := by
  obtain ⟨-, k, hb, g⟩ := sendBody_ok ha h
  simp only [Instr.allowed, Bool.and_eq_true, Bool.or_eq_true, beq_iff_eq] at ha
  obtain ⟨⟨⟨he, hr⟩, hm⟩, -⟩ := ha
  have ke : t.enables = s.enables := (congrArg State.enables k :)
  have kw : t.sstate = .watchingForStart := (congrArg State.sstate k :).trans (hs.watching (by simp [hr]))
  rcases g with ⟨gr, gm, gl, -⟩ | ⟨gr, gm, gl, -⟩ | ⟨gf, -⟩ | ⟨gf, -⟩
  · exact (hs.rests.of_enables ke (gm ▸ hs.mstate_rests) hb).master (gr.trans hr) kw
      (by rw [(State.enables_eq ke).1]; exact he) (.inl ⟨gm ▸ hm, gl⟩)
  · exact (hs.rests.of_enables ke (by simp [gm]) hb).idle gr kw gl
  · exact hs.rests.failed ke kw hb gf
  · exact hs.rests.failed ke kw hb gf

theorem recvBody_between {ack : Bool} (ha : (Instr.recv ack).allowed s = true) (h : (recvBody ack).run s = .ok a t) :
    t.Between := by
  obtain ⟨-, k, hb, g⟩ := recvBody_ok ha h
  simp only [Instr.allowed, Bool.and_eq_true, Bool.or_eq_true, beq_iff_eq] at ha
  obtain ⟨⟨⟨he, hr⟩, hm⟩, -⟩ := ha
  have ke : t.enables = s.enables := (congrArg State.enables k :)
  have kw : t.sstate = .watchingForStart := (congrArg State.sstate k :).trans (hs.watching (by simp [hr]))
  rcases g with ⟨gr, gm, gl, -⟩ | ⟨-, ⟨gf, -⟩ | ⟨gf, -⟩⟩
  · exact (hs.rests.of_enables ke (gm ▸ hs.mstate_rests) hb).master (gr.trans hr) kw
      (by rw [(State.enables_eq ke).1]; exact he) (.inl ⟨gm ▸ hm, gl⟩)
  · exact hs.rests.failed ke kw hb gf
  · exact hs.rests.failed ke kw hb gf

theorem releaseBody_between (ha : Instr.release.allowed s = true) (h : releaseBody.run s = .ok a t) : t.Between := by
  obtain ⟨-, g⟩ := releaseBody_ok ha h
  simp only [Instr.allowed, Bool.and_eq_true, Bool.or_eq_true, beq_iff_eq] at ha
  have hw : s.sstate = .watchingForStart := hs.watching (by rcases ha.2 with hr | hr <;> simp [hr])
  rcases g with ⟨-, gr, gm, gl, gb, -, k, -⟩ | ⟨-, gr, gm, gc, gd, go, k⟩ | ⟨-, -, rfl⟩
  · have ke : t.enables = s.enables := (congrArg State.enables k :)
    exact (hs.rests.of_enables ke (by simp [gm]) (gb ▸ hs.bitcnt_le)).idle gr ((congrArg State.sstate k :).trans hw) gl
  · have ke : t.enables = s.enables := (congrArg State.enables k :)
    have gb : t.bitcnt = s.bitcnt := (congrArg State.bitcnt k :)
    obtain ⟨hd, ho⟩ := hs.data_released
    exact (hs.rests.of_enables ke (by simp [gm]) (gb ▸ hs.bitcnt_le)).idle gr ((congrArg State.sstate k :).trans hw)
      ⟨gc, gd.trans hd, go.trans ho⟩
  · exact hs

theorem openBody_between {af : Byte} (ha : (Instr.openDevice af).allowed s = true) (h : (openBody af).run s = .ok a t) :
    t.Between := by
  obtain ⟨-, k, gb, -, g⟩ := openBody_ok ha h
  simp only [Instr.allowed, Bool.and_eq_true, Bool.or_eq_true, beq_iff_eq] at ha
  obtain ⟨he, hr⟩ := ha
  have ke : t.enables = s.enables := (congrArg State.enables k :)
  obtain ⟨kp, kv⟩ := State.enables_eq ke
  have kw : t.sstate = .watchingForStart :=
    (congrArg State.sstate k :).trans (hs.watching (by rcases hr with hr | hr <;> simp [hr]))
  have hb : t.bitcnt.toNat ≤ 8 := gb.elim id fun e => by rw [e]; exact hs.bitcnt_le
  have he : t.params.masterEn = true := by rw [kp]; exact he
  obtain ⟨hd, ho⟩ := hs.data_released
  rcases g with ⟨gr, gl, -, -, -, gm⟩ | ⟨gm, -, g⟩ | ⟨gf, -⟩
  · have gm : t.mstate = .acked ∨ t.mstate = .nacked := gm.imp And.left And.left
    exact (hs.rests.of_enables ke (by rcases gm with gm | gm <;> simp [gm]) hb).master gr kw he (.inl ⟨gm, gl⟩)
  · have rests : t.Rests := hs.rests.of_enables ke (by simp [gm]) hb
    rcases g with ⟨-, gr, gl⟩ | ⟨-, -, hv, e⟩ | ⟨-, -, -, -, gr, gc, gd, go⟩ | ⟨-, -, -, gr, gc, gd, go⟩ | ⟨-, gr, gl, -⟩
    · cases hv : s.slven with
      | true => exact rests.master (by simp [gr, hv]) kw he (.inr ⟨gm, kv.trans hv, gl.2⟩)
      | false => exact rests.idle (by simp [gr, hv]) kw gl
    · exact rests.master (by rw [e]) kw he (.inr ⟨gm, kv.trans hv, by rw [e]; exact ⟨hd, ho⟩⟩)
    · exact rests.idle gr kw ⟨gc, gd.trans hd, go.trans ho⟩
    · exact rests.idle gr kw ⟨gc, gd.trans hd, go.trans ho⟩
    · exact rests.idle gr kw gl
  · exact hs.rests.failed ke kw hb gf

theorem ssendBody_between {v : Byte} {more : Bool} (ha : (Instr.ssend v more).allowed s = true)
    (h : (ssendBody v more).run s = .ok a t) : t.Between := by
  obtain ⟨-, k, hb, g⟩ := ssendBody_ok ha h
  simp only [Instr.allowed, Bool.and_eq_true, beq_iff_eq] at ha
  have ke : t.enables = s.enables := (congrArg State.enables k :)
  have km : t.mstate = s.mstate := (congrArg State.mstate k :)
  rcases g with ⟨-, gr, gs, gl, -⟩ | ⟨gl, -⟩
  · exact (hs.rests.of_enables ke (km ▸ hs.mstate_rests) hb).slave (gr.trans ha.1.2)
      (gs.trans (hs.matched_iff_slave.mpr ha.1.2)) gl ((State.enables_eq ke).2.trans (hs.slave_lines ha.1.2).2)
  · exact hs.rests.left ke km hb gl

theorem srecvBody_between {ack : Bool} (ha : (Instr.srecv ack).allowed s = true) (h : (srecvBody ack).run s = .ok a t) :
    t.Between := by
  obtain ⟨-, k, hb, g⟩ := srecvBody_ok ha h
  simp only [Instr.allowed, Bool.and_eq_true, beq_iff_eq] at ha
  have ke : t.enables = s.enables := (congrArg State.enables k :)
  have km : t.mstate = s.mstate := (congrArg State.mstate k :)
  rcases g with ⟨-, -, -, -, ⟨-, gr, gs, gl⟩ | ⟨-, gl⟩⟩ | ⟨gl, -⟩
  · exact (hs.rests.of_enables ke (km ▸ hs.mstate_rests) hb).slave (gr.trans ha.1.2)
      (gs.trans (hs.matched_iff_slave.mpr ha.1.2)) gl ((State.enables_eq ke).2.trans (hs.slave_lines ha.1.2).2)
  · exact hs.rests.left ke km hb gl
  · exact hs.rests.left ke km hb gl

end

/-- Whatever role it began in, a POLL that serves an address ends as an addressed slave or idle (R185 to R187). -/
theorem State.pollLeaves.between {s t : State} {a : Answer} {cand : Byte} (g : s.pollLeaves cand t a) (h : s.Rests)
    (hv : s.slven = true) : t.Between := by
  obtain ⟨k, gb, g⟩ := g
  have ke : t.enables = s.enables := (congrArg State.enables k :)
  have km : t.mstate = s.mstate := (congrArg State.mstate k :)
  rcases g with ⟨gr, gs, -, gl, -⟩ | ⟨-, gl, -⟩
  · exact (h.of_enables ke (km ▸ h.mstate) (gb h.bitcnt)).slave gr gs gl ((State.enables_eq ke).2.trans hv)
  · exact h.left ke km (gb h.bitcnt) gl

section
variable {s t : State} {a : Answer} (hs : s.Between)
include hs

theorem pollBody_between {cand mask : Byte} (ha : s.params.slaveEn = true) (h : (pollBody cand mask).run s = .ok a t) :
    t.Between := by
  rcases pollBody_ok ha h with ⟨-, -, rfl⟩ | ⟨hv, ⟨-, g⟩ | ⟨-, -, g⟩⟩
  · exact { hs with }
  · exact g.between ⟨hs.mstate_rests, hs.slven_needs_slave, hs.bitcnt_le⟩ hv
  · exact g.between ⟨hs.mstate_rests, hs.slven_needs_slave, Nat.zero_le _⟩ hv

theorem slvenBody_on_between (ha : s.params.slaveEn = true) (h : (slvenBody true).run s = .ok a t) : t.Between := by
  rw [slvenBody_on ha] at h
  cases h
  refine { hs with
    pending_lines := fun _ _ => ⟨rfl, hs.data_released⟩
    slave_lines := fun hr => ⟨(hs.slave_lines hr).1, rfl⟩
    idle_clock := fun hr hc => ?_
    slven_needs_slave := fun _ => ha }
  obtain ⟨hn, hv⟩ := hs.idle_clock hr hc
  simp [hn, hv]

theorem slvenBody_off_between (ha : s.params.slaveEn = true) (h : (slvenBody false).run s = .ok a t) : t.Between := by
  obtain ⟨-, k, gv, gl, gu, gr, gs⟩ := slvenBody_off ha h
  by_cases hc : s.role = .slave ∨ s.recoveryPending = true ∨ s.role = .idle
  · have kb : t.bitcnt = s.bitcnt := (congrArg State.bitcnt k :)
    have km : t.mstate = s.mstate := (congrArg State.mstate k :)
    refine State.Rests.idle ⟨km ▸ hs.mstate_rests, by simp [gv], kb ▸ hs.bitcnt_le⟩ ?_ ?_ (gl hc)
    · rw [gr]
      split
      next => rfl
      next hn => exact (hc.resolve_left fun e => hn (.inl e)).resolve_left fun e => hn (.inr e)
    · rw [gs]
      split
      next => rfl
      next hn => exact hs.watching hn
  · rw [gu hc]
    have hp : ¬(s.role = .master ∧ s.mstate = .arbitrationLost) := fun hp =>
      hc (.inr (.inl (by simp [State.recoveryPending, hp])))
    exact { hs with
      pending_lines := fun hr hm => absurd ⟨hr, hm⟩ hp
      slave_lines := fun hr => absurd (.inl hr) hc
      idle_clock := fun hr => absurd (.inr (.inr hr)) hc
      slven_needs_slave := nofun }

/-- A command that is not allowed touches nothing R42 speaks of (R115). -/
theorem body_not_allowed_between {i : Instr} (ha : i.allowed s = false) (h : (body i).run s = .ok a t) : t.Between := by
  rw [body_not_allowed ha] at h
  cases h
  exact { hs with }

/-- Every command that runs to its end keeps R42. -/
theorem body_between {i : Instr} (h : (body i).run s = .ok a t) : t.Between := by
  cases ha : i.allowed s with
  | false => exact body_not_allowed_between hs ha h
  | true =>
    cases i with
    | init own mask bitrate => exact (initBody_ok h).2.1.between
    | openDevice af => exact openBody_between hs ha h
    | send v => exact sendBody_between hs ha h
    | recv ack => exact recvBody_between hs ha h
    | release => exact releaseBody_between hs ha h
    | poll cand mask => exact pollBody_between hs ha h
    | ssend v more => exact ssendBody_between hs ha h
    | srecv ack => exact srecvBody_between hs ha h
    | slven en =>
      cases en with
      | true => exact slvenBody_on_between hs ha h
      | false => exact slvenBody_off_between hs ha h
    | status => cases h; exact hs

theorem exec_sound {i : Instr} (h : exec i s = .next t) : t.Sound := by
  rcases exec_next h with ⟨a, u, hu, rfl⟩ | ⟨u, -, rfl⟩ | ⟨u, -, rfl⟩
  · exact fun _ => ((body_between (hs.response none) hu).response _).settle
  · exact nofun
  · exact fun _ => u.resetInput_controlReset.between

end

/-- Settles O50: the next input is an act of the outside world, which keeps R42, or a command, whose every end has it. -/
theorem invariantKeptByEveryStep : Obligations.InvariantKeptByEveryStep := by
  intro s t hs h
  unfold step at h
  split at h
  next u hu => cases h; exact takeInput_quiet_sound hs hu
  next w u hu =>
    obtain ⟨hh, rest, rfl⟩ := takeInput_presented hu
    split at h
    next i hi => exact exec_sound ((hs hh).inputs rest) h
    next => cases h

/-! ### Which commands write which register (R20) -/

/-- The state without what the end of a command writes beyond the lines: the response and the mark of a hang. -/
def State.unmarked (s : State) : State := { s with response := none, hung := false }

/-- The registers beyond the lines. -/
def State.registers (s : State) : State := s.beyondLines.unmarked

@[simp] theorem State.settle_registers (s : State) : s.settle.registers = s.registers := by simp [State.registers]

/-- The state without the registers that the command may write (R20, R112, R163, R165, R192, R226). -/
def unwritten : Instr → State → State
  | .init _ _ _, s => s.beyondInit
  | .openDevice _, s => s.beyondOpen
  | .send _, s => s.beyondMaster
  | .recv _, s => { s with draws := 0 }.beyondMaster
  | .release, s => s.beyondRelease
  | .poll _ _, s => s.beyondPollCommand
  | .ssend _ _, s => s.beyondSlave
  | .srecv _, s => { s with draws := 0 }.beyondSlave
  | .slven _, s => s.beyondSlven
  | .status, s => s

theorem body_keeps_unwritten (i : Instr) : (body i).Keeps fun s => unwritten i s.registers := by
  cases i with
  | init own mask bitrate => exact (initBody_keeps _ _ _).comp State.unmarked
  | openDevice af => exact (openBody_keeps _).comp State.unmarked
  | send v => exact (sendBody_keeps _).comp State.unmarked
  | recv ack => exact (recvBody_keeps _).comp State.unmarked
  | release => exact releaseBody_keeps.comp State.unmarked
  | poll cand mask => exact (pollBody_keeps _ _).comp State.unmarked
  | ssend v more => exact (ssendBody_keeps _ _).comp State.unmarked
  | srecv ack => exact (srecvBody_keeps _).comp State.unmarked
  | slven en => exact (slvenBody_keeps _).comp State.unmarked
  | status => exact Eng.keeps_pure _ _

/-- Unless reset comes, a command's end writes no register beyond the lines: its body has written them all. -/
theorem exec_registers {i : Instr} {s t : State} (hr : s.noReset) (h : exec i s = .next t) :
    t.registers = ((body i).final { s with response := none }).registers := by
  rcases exec_next h with ⟨a, u, hu, rfl⟩ | ⟨u, hu, rfl⟩ | ⟨u, hu, -⟩
  · rw [State.settle_registers, Eng.final, hu]; rfl
  · rw [Eng.final, hu]; rfl
  · exact absurd ((body_tame i).reset_only _ _ hu) hr

theorem exec_unwritten {i : Instr} {s t : State} (hr : s.noReset) (h : exec i s = .next t) :
    unwritten i t.registers = unwritten i s.registers := by
  rw [exec_registers hr h]
  exact body_keeps_unwritten i { s with response := none }

/-- Register by register: what differs between two states that agree beyond the registers a command may write. -/
theorem named_of_unwritten {i : Instr} {s t : State} (h : unwritten i t.registers = unwritten i s.registers) :
    t.params = s.params ∧
    (t.faddr ≠ s.faddr ∨ t.fmask ≠ s.fmask → i.mnemonic ∈ ["INIT", "POLL"]) ∧
    (t.bitrate ≠ s.bitrate → i.mnemonic = "INIT") ∧
    (t.rxaddr ≠ s.rxaddr → i.mnemonic = "POLL") ∧
    (t.dir ≠ s.dir → i.mnemonic ∈ ["OPEN", "POLL"]) ∧
    (t.slven ≠ s.slven → i.mnemonic ∈ ["INIT", "SLVEN"]) ∧
    (t.sr ≠ s.sr → i.mnemonic ∈ ["OPEN", "SEND", "RECV", "POLL", "SSEND", "SRECV"]) ∧
    (t.bitcnt ≠ s.bitcnt → i.mnemonic ∈ ["INIT", "OPEN", "SEND", "RECV", "POLL", "SSEND", "SRECV"]) ∧
    (t.mstate ≠ s.mstate → i.mnemonic ∈ ["INIT", "OPEN", "SEND", "RECV", "RELEASE"]) ∧
    (t.sstate ≠ s.sstate → i.mnemonic ∈ ["INIT", "POLL", "SSEND", "SRECV", "SLVEN"]) ∧
    (t.role ≠ s.role → i.mnemonic ≠ "STATUS") ∧
    (t.draws ≠ s.draws → i.mnemonic ∈ ["RECV", "SRECV"]) := by
  cases i
  all_goals
    simp only [unwritten, State.registers, State.unmarked, State.beyondInit, State.beyondOpen, State.beyondMaster,
      State.beyondRelease, State.beyondPollCommand, State.beyondPoll, State.beyondSlave, State.beyondSlven,
      State.beyondByte, State.beyondLines, State.mk.injEq] at h
    simp [Instr.mnemonic, h]

/-! ### What a command makes of the latches (R36, R37, R182) -/

/-- From `s` to `t` the history has grown by symbols of which `START_SEEN` is not set but by their last START. -/
def State.StartByEdges (s t : State) : Prop :=
  ∃ later, t.wire = later ++ s.wire ∧ (t.startSeen = true → latchAfter later s.startSeen = true)

theorem startByEdges_closed (s : State) : EdgeClosed s.StartByEdges where
  same := by
    rintro u v ⟨l, h1, h2⟩ e1 - e3
    exact ⟨l, e3 ▸ h1, e1 ▸ h2⟩
  observe := by
    rintro u v ⟨l, h1, h2⟩ e1 - e3
    obtain ⟨n, o1, o2, -⟩ := State.observe_latches u v
    refine ⟨n ++ l, by rw [o1, e3, h1, List.append_assoc], ?_⟩
    rw [o2, e1, latchAfter_append]
    exact latchAfter_mono n h2

/-- INIT clears `START_SEEN` and leaves the history to the edges of its three line-driver calls (R112). -/
theorem initBody_startByEdges (own mask bitrate : Byte) (s : State) :
    (initBody own mask bitrate).Preserves s.StartByEdges := by
  have hP := startByEdges_closed s
  exact Eng.preserves_bind (releaseClockHigh_byEdges _ hP) fun _ => Eng.preserves_bind (releaseDataHigh_byEdges _ hP) fun _ =>
    Eng.preserves_bind (disableDataDriver_byEdges _ hP) fun _ =>
    Eng.preserves_bind (Eng.preserves_modify fun _ ⟨l, hw, _⟩ => ⟨l, hw, nofun⟩) fun _ => Eng.preserves_pure _ _

/-- A command that leaves the latches to the edge detector (R20). -/
theorem exec_latchesByEdges {i : Instr} {s t : State} (hi : i.mnemonic ∉ ["INIT", "OPEN", "POLL", "SLVEN"])
    (hr : s.noReset) (h : exec i s = .next t) : s.LatchesByEdges t := by
  rw [exec_eq_complete] at h
  have hP := latchesByEdges_closed s
  exact complete_edges hP (body_byEdges hi _ hP) (body_tame i) hr (.refl s) h

/-- A command other than INIT leaves the latches to the edge detector, but for clearing `START_SEEN` (R36, R37). -/
theorem exec_latchesCleared {i : Instr} {s t : State} (hi : i.mnemonic ≠ "INIT") (hr : s.noReset)
    (h : exec i s = .next t) : s.LatchesCleared t := by
  rw [exec_eq_complete] at h
  have hP := latchesCleared_closed s
  exact complete_edges hP.toEdgeClosed (body_mayClear hi _ hP) (body_tame i) hr (.refl s) h

theorem execInit_startByEdges {own mask bitrate : Byte} {s t : State} (hr : s.noReset)
    (h : exec (.init own mask bitrate) s = .next t) : s.StartByEdges t :=
  complete_edges (startByEdges_closed s) (initBody_startByEdges _ _ _ s) (initBody_tame _ _ _) hr ⟨[], rfl, id⟩ h

/-- The latches after any command: only INIT writes `BUS_BUSY`, and no command sets `START_SEEN` (R36, R37). -/
theorem exec_latches {i : Instr} {s t : State} (hr : s.noReset) (h : exec i s = .next t) :
    ∃ later, t.wire = later ++ s.wire ∧
      (i.mnemonic ≠ "INIT" → t.busBusy = latchAfter later s.busBusy) ∧
      (t.startSeen = true → latchAfter later s.startSeen = true) := by
  by_cases hi : i.mnemonic = "INIT"
  · cases i with
    | init own mask bitrate =>
      obtain ⟨l, hw, hs⟩ := execInit_startByEdges hr h
      exact ⟨l, hw, fun hn => absurd hi hn, hs⟩
    | _ => simp [Instr.mnemonic] at hi
  · obtain ⟨l, hw, hb, hs⟩ := exec_latchesCleared hi hr h
    exact ⟨l, hw, fun _ => hb, hs⟩

/-- Settles O44: the registers by what each command's body leaves alone, the latches by what the edge detector makes of them. -/
theorem onlyNamedWritersWrite : Obligations.OnlyNamedWritersWrite := by
  intro i s t hr h
  obtain ⟨params, filter, bitrate, rxaddr, dir, slven, sr, bitcnt, mstate, sstate, role, draws⟩ :=
    named_of_unwritten (exec_unwritten hr h)
  exact ⟨params, filter, bitrate, rxaddr, dir, slven, sr, bitcnt, mstate, sstate, role, draws,
    fun hi => exec_latchesByEdges hi hr h, exec_latches hr h⟩

end Sys2Proof.Machine
end

section
/-! PROOFS. The statements of 20_memory.md: the edge detector and the two lines (R71). -/

namespace Sys2Proof.Machine

/-! ### The edge detector, edge by edge (R71, R182) -/

/-- The data line falls while the clock stays high: a START. -/
theorem State.observe_fall {s t : State} (hs : s.scl = true) (ht : t.scl = true) (hd : s.sda = true)
    (hd' : t.sda = false) :
    s.observe t =
      { t with startSeen := true, busBusy := true, wire := (if t.busBusy then .restart else .start) :: t.wire } := by
  simp [State.observe, hs, ht, hd, hd']

/-- The data line rises while the clock stays high: a STOP. -/
theorem State.observe_rise {s t : State} (hs : s.scl = true) (ht : t.scl = true) (hd : s.sda = false)
    (hd' : t.sda = true) :
    s.observe t = { t with startSeen := false, busBusy := false, wire := .stop :: t.wire } := by
  simp [State.observe, hs, ht, hd, hd']

/-- With the clock low before or after, or the data line at its level, no latch changes. -/
theorem State.observe_noEdge {s t : State} (h : s.scl = false ∨ t.scl = false ∨ t.sda = s.sda) :
    (s.observe t).startSeen = t.startSeen ∧ (s.observe t).busBusy = t.busBusy := by
  by_cases hs : s.scl = false
  · rw [State.observe_of_low t hs]
    split <;> exact ⟨rfl, rfl⟩
  by_cases ht : t.scl = false
  · rw [State.observe_to_low s ht]
    exact ⟨rfl, rfl⟩
  · have hd : t.sda = s.sda := (h.resolve_left hs).resolve_left ht
    rw [Bool.not_eq_false] at hs ht
    rw [State.observe_same (ht.trans hs.symm) hd]
    exact ⟨rfl, rfl⟩

/-- A change that writes neither latch itself obeys R71 once the edge detector has seen it. -/
theorem edgeRule_observe {s t : State} (hs : t.startSeen = s.startSeen) (hb : t.busBusy = s.busBusy) :
    EdgeRule s (s.observe t) where
  start h h' hd hd' := by
    rw [State.observe_scl] at h'
    rw [State.observe_sda] at hd'
    rw [State.observe_fall h h' hd hd']
    exact ⟨rfl, rfl⟩
  stop h h' hd hd' := by
    rw [State.observe_scl] at h'
    rw [State.observe_sda] at hd'
    rw [State.observe_rise h h' hd hd']
    exact ⟨rfl, rfl⟩
  other h := by
    rw [State.observe_scl, State.observe_sda] at h
    obtain ⟨es, eb⟩ := State.observe_noEdge h
    exact ⟨es.trans hs, eb.trans hb⟩

/-- What another device does to a line (R74). -/
theorem edgeRule_act (a : LineAct) (s : State) : EdgeRule s (s.act a) := by
  cases a <;> exact edgeRule_observe rfl rfl

/-- What a line-driver call does to a line, when no act of another device comes before it (R131). -/
theorem edgeRule_lineCall {f : State → State} {s t : State}
    (hf : (f s).startSeen = s.startSeen ∧ (f s).busBusy = s.busBusy) (hs : calm s.inputs = true)
    (h : (lineCall f).run s = .ok () t) : EdgeRule s t := by
  rw [lineCall_calm hs] at h
  cases h
  exact edgeRule_observe hf.1 hf.2

/-- Settles O13: acts and line-driver calls alike only change a line, and the edge detector sees the change. -/
theorem edgeDetectorReportsAnyonesEdges : Obligations.EdgeDetectorReportsAnyonesEdges := by
  refine ⟨edgeRule_act, fun call hcall s t hs h => ?_⟩
  simp only [List.mem_cons, List.not_mem_nil, or_false] at hcall
  rcases hcall with rfl | rfl | rfl | rfl | rfl | rfl <;> exact edgeRule_lineCall ⟨rfl, rfl⟩ hs h

end Sys2Proof.Machine
end

section
/-! PROOFS. The statements of 30_encoding.md: decoding and encoding are inverse (R86, R87), the table of R88, reserved words (R90),
and the response word (R89). -/

namespace Sys2Proof

/-! ### Decoding and encoding are inverse (R86, R87) -/

theorem Instr.fields_wellFormed (i : Instr) : i.fields.wellFormed = true := by
  cases i with
  | init => exact Laws.FieldsWellFormed.init ..
  | openDevice => exact Laws.FieldsWellFormed.openDevice ..
  | send => exact Laws.FieldsWellFormed.send ..
  | recv => exact Laws.FieldsWellFormed.recv ..
  | release => exact Laws.FieldsWellFormed.release
  | poll => exact Laws.FieldsWellFormed.poll ..
  | ssend => exact Laws.FieldsWellFormed.ssend ..
  | srecv => exact Laws.FieldsWellFormed.srecv ..
  | slven => exact Laws.FieldsWellFormed.slven ..
  | status => exact Laws.FieldsWellFormed.status

@[simp] theorem Instr.toInstr_fields (i : Instr) : i.fields.toInstr = some i := by cases i <;> rfl

/-- The opcode is assigned when it is none of the six reserved ones (R88). -/
theorem CommandFields.opAssigned_iff (x : CommandFields) :
    x.opAssigned = true ↔ x.op ∉ ([0x0, 0xB, 0xC, 0xD, 0xE, 0xF] : List (BitVec 4)) := by
  unfold opAssigned
  generalize x.op = op
  revert op
  decide

/-- The ten assigned opcodes (R88). -/
theorem CommandFields.op_cases {x : CommandFields} (h : x.opAssigned = true) :
    x.op = 1 ∨ x.op = 2 ∨ x.op = 3 ∨ x.op = 4 ∨ x.op = 5 ∨ x.op = 6 ∨ x.op = 7 ∨ x.op = 8 ∨ x.op = 9 ∨ x.op = 10 := by
  unfold opAssigned at h
  generalize x.op = op at h
  revert op
  decide

/-- The well-formed fields are the fields of the commands (R87, R90). -/
theorem CommandFields.wellFormed_iff {x : CommandFields} : x.wellFormed = true ↔ ∃ i : Instr, x = i.fields := by
  constructor
  · intro h
    simp only [wellFormed, zZero, Bool.and_eq_true, beq_iff_eq] at h
    obtain ⟨⟨ha, hz⟩, hu⟩ := h
    have ho := op_cases ha
    clear ha
    obtain ⟨op, z, f, a, b, c⟩ := x
    obtain rfl : z = 0 := hz
    rcases ho with rfl | rfl | rfl | rfl | rfl | rfl | rfl | rfl | rfl | rfl <;> simp [unusedZero] at hu
    · exact ⟨.init a b c, by simp [Instr.fields, hu]⟩
    · exact ⟨.openDevice a, by simp [Instr.fields, hu]⟩
    · exact ⟨.send a, by simp [Instr.fields, hu]⟩
    · exact ⟨.recv f, by simp [Instr.fields, hu]⟩
    · exact ⟨.release, by simp [Instr.fields, hu]⟩
    · exact ⟨.poll a b, by simp [Instr.fields, hu]⟩
    · exact ⟨.ssend a f, by simp [Instr.fields, hu]⟩
    · exact ⟨.srecv f, by simp [Instr.fields, hu]⟩
    · exact ⟨.slven f, by simp [Instr.fields, hu]⟩
    · exact ⟨.status, by simp [Instr.fields, hu]⟩
  · rintro ⟨i, rfl⟩
    exact i.fields_wellFormed

@[simp] theorem CommandFields.classify_fields (i : Instr) : i.fields.classify = .ok i := by
  have hw := i.fields_wellFormed
  simp only [wellFormed, Bool.and_eq_true] at hw
  simp [classify, hw]

/-- Fields that are not well-formed are rejected (R90). -/
theorem CommandFields.classify_of_not_wellFormed {x : CommandFields} (h : x.wellFormed = false) :
    ∃ e, x.classify = .error e := by
  unfold classify
  split_ifs with ho hz hu
  · exact ⟨_, rfl⟩
  · exact ⟨_, rfl⟩
  · exact ⟨_, rfl⟩
  · simp_all [wellFormed]

/-- A word decodes to a command exactly when it is the command's encoding (R86 to R88). -/
theorem decode_eq_ok_iff {w : Word} {i : Instr} : decode w = .ok i ↔ w = encode i := by
  constructor
  · intro h
    cases hw : (fieldsOfWord w).wellFormed with
    | true =>
      obtain ⟨j, hj⟩ := CommandFields.wellFormed_iff.mp hw
      rw [decode, hj, CommandFields.classify_fields] at h
      cases h
      rw [encode, ← hj, toWord_fieldsOfWord]
    | false =>
      obtain ⟨e, he⟩ := CommandFields.classify_of_not_wellFormed hw
      rw [decode, he] at h
      cases h
  · rintro rfl
    rw [decode, encode, fieldsOfWord_toWord, CommandFields.classify_fields]

/-- A word is rejected exactly when its fields are not well-formed (R90). -/
theorem decode_eq_error_iff {w : Word} : (∃ e, decode w = .error e) ↔ (fieldsOfWord w).wellFormed = false := by
  refine ⟨fun ⟨e, he⟩ => ?_, fun h => CommandFields.classify_of_not_wellFormed h⟩
  by_contra hw
  obtain ⟨i, hi⟩ := CommandFields.wellFormed_iff.mp (Bool.not_eq_false _ ▸ hw)
  rw [decode, hi, CommandFields.classify_fields] at he
  cases he

/-- Settles O2: the encoding's fields are the command's, and those decode to it. -/
theorem everyCommandRoundTrips : Obligations.EveryCommandRoundTrips := fun _ => decode_eq_ok_iff.mpr rfl

/-- Settles O3: only the encoding of a command decodes to it. -/
theorem decodedWordIsItsEncoding : Obligations.DecodedWordIsItsEncoding := fun _ _ h => (decode_eq_ok_iff.mp h).symm

/-- Settles O1: each word's fields are read off and classified. -/
theorem writtenWordsDecode : Obligations.WrittenWordsDecode := by
  unfold Obligations.WrittenWordsDecode
  decide

/-! ### The table of R88 -/

/-- Fields under a mask. -/
def CommandFields.masked (x m : CommandFields) : CommandFields where
  op := x.op &&& m.op
  z := x.z &&& m.z
  f := x.f && m.f
  a := x.a &&& m.a
  b := x.b &&& m.b
  c := x.c &&& m.c

/-- The fields of a masked word are the masked fields. -/
theorem fieldsOfWord_and (w m : Word) : fieldsOfWord (w &&& m) = (fieldsOfWord w).masked (fieldsOfWord m) := by
  simp [fieldsOfWord, CommandFields.masked, BitVec.extractLsb'_and]

/-- A word agrees with `v` under the mask `m` when its fields do. -/
theorem and_eq_iff_masked {w m v : Word} :
    w &&& m = v ↔ (fieldsOfWord w).masked (fieldsOfWord m) = fieldsOfWord v := by
  rw [← fieldsOfWord_and]
  exact (Function.LeftInverse.injective toWord_fieldsOfWord).eq_iff.symm

/-- A word that agrees with a row of R88's table is the encoding of a command of that row: the mask leaves out exactly the
operands. -/
theorem exists_encode_of_accepted {w : Word} {r : OpcodeRow} (hr : r ∈ opcodeRows) (h : w &&& r.mask = r.value) :
    ∃ i, w = encode i ∧ i.mnemonic = r.mnemonic := by
  suffices k : ∃ i : Instr, fieldsOfWord w = i.fields ∧ i.mnemonic = r.mnemonic by
    obtain ⟨i, hi, hm⟩ := k
    exact ⟨i, by rw [encode, ← hi, toWord_fieldsOfWord], hm⟩
  rw [and_eq_iff_masked] at h
  generalize fieldsOfWord w = x at h
  obtain ⟨op, z, f, a, b, c⟩ := x
  have hop (y : BitVec 4) : y &&& 15#4 = y := BitVec.and_allOnes
  have hz (y : BitVec 3) : y &&& 7#3 = y := BitVec.and_allOnes
  have hbyte (y : Byte) : y &&& 255#8 = y := BitVec.and_allOnes
  simp only [opcodeRows, List.mem_cons, List.not_mem_nil, or_false] at hr
  rcases hr with rfl | rfl | rfl | rfl | rfl | rfl | rfl | rfl | rfl | rfl <;>
    simp [CommandFields.masked, fieldsOfWord, hop, hz, hbyte] at h
  · exact ⟨.init a b c, by simp [Instr.fields, h], rfl⟩
  · exact ⟨.openDevice a, by simp [Instr.fields, h], rfl⟩
  · exact ⟨.send a, by simp [Instr.fields, h], rfl⟩
  · exact ⟨.recv f, by simp [Instr.fields, h], rfl⟩
  · exact ⟨.release, by simp [Instr.fields, h], rfl⟩
  · exact ⟨.poll a b, by simp [Instr.fields, h], rfl⟩
  · exact ⟨.ssend a f, by simp [Instr.fields, h], rfl⟩
  · exact ⟨.srecv f, by simp [Instr.fields, h], rfl⟩
  · exact ⟨.slven f, by simp [Instr.fields, h], rfl⟩
  · exact ⟨.status, by simp [Instr.fields, h], rfl⟩

/-- A command's encoding agrees with the row of its mnemonic: an operand of the command meets a zero of the mask. -/
theorem encode_accepted (i : Instr) : ∃ r ∈ opcodeRows, r.mnemonic = i.mnemonic ∧ encode i &&& r.mask = r.value := by
  simp only [and_eq_iff_masked, encode, fieldsOfWord_toWord]
  cases i <;> simp [opcodeRows, Instr.mnemonic, Instr.fields, CommandFields.masked, fieldsOfWord]

/-- No two rows share a mnemonic. -/
theorem opcodeRow_eq_of_mnemonic {r q : OpcodeRow} (hr : r ∈ opcodeRows) (hq : q ∈ opcodeRows)
    (h : r.mnemonic = q.mnemonic) : r = q := by
  have k : ∀ r ∈ opcodeRows, ∀ q ∈ opcodeRows, r.mnemonic = q.mnemonic → r = q := by decide
  exact k r hr q hq h

/-- A word with a reserved opcode does not decode (R88, R90). -/
theorem decode_of_reservedOpcode {w : Word} (h : w.extractLsb' 28 4 ∈ ([0x0, 0xB, 0xC, 0xD, 0xE, 0xF] : List (BitVec 4))) :
    ∃ e, decode w = .error e := by
  have ho : (fieldsOfWord w).opAssigned ≠ true := fun ho => (CommandFields.opAssigned_iff _).mp ho h
  exact decode_eq_error_iff.mpr (by simp [CommandFields.wellFormed, ho])

/-- Settles O4: the words of a row are the encodings of its commands, and encodings determine the command. -/
theorem opcodeTableRecognisesCommands : Obligations.OpcodeTableRecognisesCommands := by
  refine ⟨fun w r hr => ⟨fun h => ?_, ?_⟩, fun w i h => ?_, fun w r q hr hq hwr hwq => ?_, fun _ => decode_of_reservedOpcode⟩
  · obtain ⟨i, hi, hm⟩ := exists_encode_of_accepted hr h
    exact ⟨i, decode_eq_ok_iff.mpr hi, hm⟩
  · rintro ⟨i, hi, hm⟩
    obtain ⟨q, hq, hqm, hw⟩ := encode_accepted i
    obtain rfl := opcodeRow_eq_of_mnemonic hr hq (hm.symm.trans hqm.symm)
    rwa [decode_eq_ok_iff.mp hi]
  · rw [decode_eq_ok_iff.mp h]
    exact encode_accepted i
  · obtain ⟨i, hi, hir⟩ := exists_encode_of_accepted hr hwr
    obtain ⟨j, hj, hjq⟩ := exists_encode_of_accepted hq hwq
    have hij : (Except.ok i : Except DecodeError Instr) = .ok j :=
      (decode_eq_ok_iff.mpr hi).symm.trans (decode_eq_ok_iff.mpr hj)
    cases hij
    exact opcodeRow_eq_of_mnemonic hr hq (hir.symm.trans hjq)

/-! ### Reserved words (R90) -/

/-- R90's masks of the unused fields, one per opcode, find the word whose unused fields are not all zero. -/
theorem reservedWord_iff {w : Word} : Machine.reservedWord w ↔ (fieldsOfWord w).wellFormed = false := by
  have hop : w.extractLsb' 28 4 = (fieldsOfWord w).op := rfl
  have hz : w.extractLsb' 25 3 = (fieldsOfWord w).z := rfl
  rw [Machine.reservedWord, hop, hz, ← not_iff_not, not_or, not_or, not_not, not_not, and_eq_iff_masked,
    Bool.not_eq_false, CommandFields.wellFormed, Bool.and_eq_true, Bool.and_eq_true, CommandFields.opAssigned_iff, and_assoc]
  generalize fieldsOfWord w = x
  refine and_congr_right fun ha => and_congr (by simp [CommandFields.zZero]) ?_
  have hc := CommandFields.op_cases (x.opAssigned_iff.mpr ha)
  obtain ⟨op, z, f, a, b, c⟩ := x
  have hbyte (y : Byte) : y &&& 255#8 = y := BitVec.and_allOnes
  rcases hc with rfl | rfl | rfl | rfl | rfl | rfl | rfl | rfl | rfl | rfl <;>
    simp [CommandFields.masked, CommandFields.unusedZero, fieldsOfWord, hbyte, and_assoc]

namespace Machine

/-- Unless it is hung, the engine refuses a word that comes next and does not decode, by the decoder's reason (R90). -/
theorem step_reserved {s : State} {w : Word} {rest : List Input} {e : DecodeError} (hh : s.hung = false)
    (hi : s.inputs = .command w :: rest) (hd : decode w = .error e) : step s = .refused (.reservedWord e) := by
  have ht : takeInput s = .presented w { s with inputs := rest } := by simp [takeInput, hi, hh]
  simp only [step, ht, hd]

/-- Settles O5: a word that decodes is run, and no command is refused; one that does not decode is refused. -/
theorem reservedWordsAreRefused : Obligations.ReservedWordsAreRefused := by
  intro s w rest hh hi
  rw [reservedWord_iff, ← decode_eq_error_iff]
  cases hd : decode w with
  | ok i =>
    obtain ⟨t, ht⟩ := exec_answers i { s with inputs := rest }
    rw [step_command hh hi hd, ht]
    simp
  | error e =>
    rw [step_reserved hh hi hd]
    simp

/-! ### The response word (R89) -/

/-- What the body of a command started in `s` and left in `t` answers as `R` and `DATA` (R89, R143). -/
def Answer.Fits (i : Instr) (s t : State) (a : Answer) : Prop :=
  match i with
  | .poll cand _ =>
    (a.r = true → a.data = t.rxaddr) ∧ (a.r = false → s.params.slaveEn = true → a.data = cand)
  | .recv _ | .srecv _ =>
    a.r = false ∧ (a.data = t.sr ∨ a.data = Config.freeByte s.draws ∧ t.draws = s.draws + 1)
  | _ => a = .none

/-- A POLL that serves an address answers it as captured, or its own operand (R183). -/
theorem State.pollLeaves.fits {cand mask : Byte} {s u t : State} {a : Answer} (h : u.pollLeaves cand t a) :
    a.Fits (.poll cand mask) s t := by
  obtain ⟨-, -, ⟨-, -, -, -, -, -, hx, -, rfl⟩ | ⟨rfl, -⟩⟩ := h
  · exact ⟨fun _ => hx.symm, nofun⟩
  · exact ⟨nofun, fun _ _ => rfl⟩

/-- A command that is not allowed answers nothing, RECV and SRECV a free byte (R115). -/
theorem body_fits_of_not_allowed {i : Instr} {s t : State} {a : Answer} (ha : i.allowed s = false)
    (h : (body i).run s = .ok a t) : a.Fits i s t := by
  rw [body_not_allowed ha] at h
  cases h
  cases i with
  | poll => exact ⟨nofun, fun _ hs => nomatch hs.symm.trans ha⟩
  | recv | srecv => exact ⟨rfl, .inr ⟨rfl, rfl⟩⟩
  | _ => rfl

/-- A command's body that runs to its end answers `R` and `DATA` as R89 says. -/
theorem body_fits {i : Instr} {s t : State} {a : Answer} (h : (body i).run s = .ok a t) : a.Fits i s t := by
  cases ha : i.allowed s with
  | false => exact body_fits_of_not_allowed ha h
  | true =>
    cases i with
    | init => exact (initBody_ok h).1
    | openDevice => exact (openBody_ok ha h).1
    | send => exact (sendBody_ok ha h).1
    | recv =>
      obtain ⟨hr, -, -, ⟨-, -, -, -, -, -, -, hd⟩ | ⟨⟨ht, hd⟩, -⟩⟩ := recvBody_ok ha h
      · exact ⟨hr, .inl hd⟩
      · exact ⟨hr, .inr ⟨hd, ht⟩⟩
    | release => exact (releaseBody_ok ha h).1
    | poll =>
      rcases pollBody_ok ha h with ⟨-, rfl, -⟩ | ⟨-, ⟨-, g⟩ | ⟨-, -, g⟩⟩
      · exact ⟨nofun, fun _ _ => rfl⟩
      · exact g.fits
      · exact g.fits
    | ssend => exact (ssendBody_ok ha h).1
    | srecv =>
      obtain ⟨hr, -, -, ⟨-, -, -, hd, -⟩ | ⟨-, ht, hd, -⟩⟩ := srecvBody_ok ha h
      · exact ⟨hr, .inl hd⟩
      · exact ⟨hr, .inr ⟨hd, ht⟩⟩
    | slven en =>
      cases en with
      | true => rw [body, slvenBody_on ha] at h; cases h; rfl
      | false => exact (slvenBody_off ha h).1
    | status => cases h; rfl

/-- After a command a hung engine presents no response (R6, R318). -/
theorem exec_hung_response {i : Instr} {s t : State} (hs : s.hung = false) (h : exec i s = .next t)
    (ht : t.hung = true) : t.response = none := by
  have keeps := body_keeps i
  rcases exec_next h with ⟨a, u, hu, rfl⟩ | ⟨u, hu, rfl⟩ | ⟨u, -, rfl⟩
  · have hn : u.hung = s.hung := congrArg (·.2.2) (keeps.ok hu)
    rw [State.settle_hung] at ht
    cases (hn.trans hs).symm.trans ht
  · exact congrArg (·.2.1) (keeps.error hu)
  · rfl

/-- Settles O6: the response word is made from the answer of the command's body and the status it leaves. -/
theorem responseWordOfEachCommand : Obligations.ResponseWordOfEachCommand := by
  intro i s t hs h
  refine ⟨exec_hung_response hs h, fun w hw => ?_⟩
  have hc : t.completed := by rw [State.completed, hw]; rfl
  obtain ⟨a, u, hu, rfl⟩ := exec_completed h hc
  have fits := body_fits hu
  obtain ⟨hdone, hz, hz', hst, hr, hd⟩ := responseWord_fields a.r a.data u.status
  rw [State.settle_response] at hw
  cases hw
  refine ⟨hdone, hz, hz', by rw [hst, State.settle_status], ?_⟩
  rw [hr, hd]
  cases i with
  | poll => rw [State.settle_rxaddr]; exact fits
  | recv | srecv => rw [State.settle_sr, State.settle_draws]; exact fits
  | _ => rw [show a = .none from fits]; exact ⟨rfl, rfl⟩

end Machine
end Sys2Proof
end

section
/-! PROOFS. The statements of 40_status_and_setup.md: STATUS and INIT (R112, R113), SLVEN (R114), commands that are not allowed
(R115), the flags that accumulate (R110, R111) and the named predicates (R117). -/

namespace Sys2Proof.Machine

variable {α β : Type}

/-- A command whose body answers completes (R89, R116). -/
theorem exec_of_ok (i : Instr) {s u : State} {a : Answer} (h : (body i).run { s with response := none } = .ok a u) :
    exec i s = .next (State.settle { u with response := some (responseWord a.r a.data u.status) }) := by
  rw [exec_eq_complete, complete_of_ok h]

/-! ### STATUS (R113) -/

/-- The response presented last plays no part in the next command (log 20). -/
theorem exec_response (i : Instr) (s : State) (w : Option Word) : exec i { s with response := w } = exec i s := by
  rw [exec_eq_complete, exec_eq_complete]
  simp only [complete]

/-- STATUS answers the status, and the edge detector may hold the clock afterwards (R113, R182). -/
theorem exec_status (s : State) :
    exec .status s = .next (State.settle { s with response := some (responseWord false 0 s.status) }) := by
  have run : (body .status).run { s with response := none } = .ok .none { s with response := none } := rfl
  rw [exec_of_ok .status run]
  rfl

/-- Settles O17: STATUS writes the response only, and no command reads that. -/
theorem statusEffect : Obligations.StatusEffect := by
  intro s hs
  have status_is : exec .status s = .next { s with response := some (responseWord false 0 s.status) } := by
    rw [exec_status, State.settle_of (by exact hs)]
  refine ⟨status_is, fun i t ht => ?_⟩
  cases status_is.symm.trans ht
  exact exec_response i s _

/-! ### Commands that wait for nothing -/

/-- The computation answers in every state in which no reset input is to come: it never waits, so it never hangs (R6). -/
def Eng.Prompt (m : Eng α) : Prop := ∀ s, s.noReset → ∃ a t, m.run s = .ok a t ∧ t.noReset

theorem Eng.prompt_pure (a : α) : (pure a : Eng α).Prompt := fun s hs => ⟨a, s, rfl, hs⟩

theorem Eng.prompt_get : (get : Eng State).Prompt := fun s hs => ⟨s, s, rfl, hs⟩

theorem Eng.prompt_modify {f : State → State} (hf : ∀ s, (f s).inputs = s.inputs) : (modify f : Eng Unit).Prompt :=
  fun s hs => ⟨(), f s, rfl, by rw [State.noReset, hf s]; exact hs⟩

theorem Eng.prompt_bind {m : Eng α} {k : α → Eng β} (hm : m.Prompt) (hk : ∀ a, (k a).Prompt) : (m >>= k).Prompt := by
  intro s hs
  obtain ⟨a, u, hu, hr⟩ := hm s hs
  rw [Eng.bind_of_ok hu]
  exact hk a u hr

theorem Eng.prompt_ite {c : Prop} [Decidable c] {m n : Eng α} (hm : m.Prompt) (hn : n.Prompt) :
    (if c then m else n : Eng α).Prompt := by
  split <;> assumption

theorem races_prompt : races.Prompt := by
  intro s hs
  cases h : races.run s with
  | ok a t => exact ⟨a, t, rfl, races_tame.noReset h hs⟩
  | error e t =>
    obtain ⟨-, hm⟩ := (runRaces_inputs s.inputs s).2 e t h
    exact absurd hm hs

theorem lineCall_prompt {f : State → State} (hf : ∀ s, (f s).inputs = s.inputs) : (lineCall f).Prompt :=
  Eng.prompt_bind races_prompt fun _ => Eng.prompt_modify fun s => by rw [State.observe_inputs, hf]

theorem releaseClockHigh_prompt : releaseClockHigh.Prompt := lineCall_prompt fun _ => rfl
theorem releaseDataHigh_prompt : releaseDataHigh.Prompt := lineCall_prompt fun _ => rfl
theorem disableDataDriver_prompt : disableDataDriver.Prompt := lineCall_prompt fun _ => rfl

theorem initBody_prompt (own mask bitrate : Byte) : (initBody own mask bitrate).Prompt :=
  Eng.prompt_bind releaseClockHigh_prompt fun _ => Eng.prompt_bind releaseDataHigh_prompt fun _ =>
    Eng.prompt_bind disableDataDriver_prompt fun _ => Eng.prompt_bind (Eng.prompt_modify fun _ => rfl) fun _ =>
    Eng.prompt_pure _

theorem slvenBody_prompt (en : Bool) : (slvenBody en).Prompt := by
  unfold slvenBody
  repeat' first
    | exact releaseClockHigh_prompt
    | exact releaseDataHigh_prompt
    | exact disableDataDriver_prompt
    | exact Eng.prompt_modify fun _ => rfl
    | exact Eng.prompt_get
    | exact Eng.prompt_pure _
    | apply Eng.prompt_bind
    | apply Eng.prompt_ite
    | intro _

/-- A command that waits for nothing completes, unless a reset input comes. -/
theorem exec_of_prompt {i : Instr} {s : State} (hi : (body i).Prompt) (hs : s.noReset) :
    ∃ a u, (body i).run { s with response := none } = .ok a u ∧
      exec i s = .next (State.settle { u with response := some (responseWord a.r a.data u.status) }) := by
  obtain ⟨a, u, hu, -⟩ := hi { s with response := none } hs
  exact ⟨a, u, hu, exec_of_ok i hu⟩

/-- With `SLVEN = 0` the edge detector never holds the clock (R182). -/
theorem State.settle_of_disabled {s : State} (h : s.slven = false) : s.settle = s :=
  State.settle_of fun hd => by simp [State.holdDue, h] at hd

/-! ### INIT (R112) -/

/-- Settles O16: INIT waits for nothing, and with `SLVEN = 0` no hold follows it. -/
theorem initEffect : Obligations.InitEffect := by
  intro own mask bitrate s hs
  obtain ⟨a, u, hu, he⟩ := exec_of_prompt (i := .init own mask bitrate) (initBody_prompt own mask bitrate) hs
  obtain ⟨rfl, reset, faddr, fmask, rate, sr, rxaddr, dir, params, draws⟩ := initBody_ok hu
  have ⟨status, _, _, _, slven, _⟩ := reset
  rw [State.settle_of_disabled (by exact slven)] at he
  exact ⟨_, he, reset, faddr, fmask, rate, sr, rxaddr, dir, by rw [status]; rfl, params, draws⟩

/-! ### SLVEN (R114) -/

theorem exec_slven_on {s : State} (hs : s.params.slaveEn = true) :
    exec (.slven true) s = .next (State.settle { s with
      slven := true, startSeen := s.startSeen && s.slven, response := some (responseWord false 0 s.status) }) := by
  have run := slvenBody_on (s := { s with response := none }) hs
  rw [exec_of_ok (.slven true) run]
  rfl

/-- While the engine holds the bus as master, SLVEN 0 writes `SLVEN` and calls the line driver for nothing. -/
theorem slvenBody_off_of_holding {s : State} (hs : s.params.slaveEn = true) (hh : s.holding = true) :
    (slvenBody false).run s = .ok .none { s with slven := false } := by
  simp only [State.holding, Bool.and_eq_true, Bool.or_eq_true, beq_iff_eq] at hh
  obtain ⟨role, mstate⟩ := hh
  have pending : s.recoveryPending = false := by
    rcases mstate with h | h <;> simp [State.recoveryPending, h]
  simp [slvenBody, hs, role, pending]

theorem exec_slven_off_of_holding {s : State} (hs : s.params.slaveEn = true) (hh : s.holding = true) :
    exec (.slven false) s =
      .next { s with slven := false, response := some (responseWord false 0 s.status) } := by
  have run := slvenBody_off_of_holding (s := { s with response := none }) hs hh
  rw [exec_of_ok (.slven false) run, State.settle_of_disabled rfl]
  rfl

/-- Nothing comes before the next line-driver call, and the engine does not drive the data line: letting go of the lines makes
no edge. -/
structure State.Undisturbed (s : State) : Prop where
  no_reset : s.noReset
  no_race : ∀ a rest, s.inputs ≠ .race a :: rest
  undriven : (s.sdaLow && s.sdaOe) = false

/-- Undisturbed, with the two latches of `s`. -/
def State.LatchesStay (s t : State) : Prop := t.Undisturbed ∧ t.startSeen = s.startSeen ∧ t.busBusy = s.busBusy

theorem races_of_undisturbed {s : State} (h : s.Undisturbed) : races.run s = .ok () s := by
  have no_reset := h.no_reset
  have no_race := h.no_race
  change runRaces s.inputs s = _
  unfold State.noReset at no_reset
  unfold runRaces
  split
  next a rest hi => exact absurd hi (no_race a rest)
  next rest hi => rw [hi] at no_reset; exact absurd (List.mem_cons_self ..) no_reset
  next => rfl

theorem lineCall_latchesStay (s : State) {f : State → State}
    (hf : ∀ u, (f u).inputs = u.inputs ∧ (f u).startSeen = u.startSeen ∧ (f u).busBusy = u.busBusy ∧
      (f u).sdaExt = u.sdaExt ∧ ((u.sdaLow && u.sdaOe) = false → ((f u).sdaLow && (f u).sdaOe) = false)) :
    (lineCall f).Preserves s.LatchesStay := by
  intro u ⟨still, start, busy⟩
  obtain ⟨inputs, start', busy', ext, undriven⟩ := hf u
  have driven := undriven still.undriven
  have sda : (f u).sda = u.sda := by rw [State.sda_eq, State.sda_eq, driven, still.undriven, ext]
  obtain ⟨noStart, noStop⟩ := State.observe_noEdge (s := u) (t := f u) (.inr (.inr sda))
  have run : (lineCall f).run u = .ok () (u.observe (f u)) := by
    rw [lineCall, Eng.bind_of_ok (races_of_undisturbed still)]; rfl
  rw [Eng.final, run]
  refine ⟨⟨?_, ?_, ?_⟩, noStart.trans (start'.trans start), noStop.trans (busy'.trans busy)⟩
  · rw [endState_ok, State.noReset, State.observe_inputs, inputs]; exact still.no_reset
  · rw [endState_ok, State.observe_inputs, inputs]; exact still.no_race
  · rw [endState_ok, State.observe_sdaLow, State.observe_sdaOe]; exact driven

theorem releaseClockHigh_latchesStay (s : State) : releaseClockHigh.Preserves s.LatchesStay :=
  lineCall_latchesStay s fun _ => ⟨rfl, rfl, rfl, rfl, id⟩

theorem releaseDataHigh_latchesStay (s : State) : releaseDataHigh.Preserves s.LatchesStay :=
  lineCall_latchesStay s fun _ => ⟨rfl, rfl, rfl, rfl, fun _ => rfl⟩

theorem disableDataDriver_latchesStay (s : State) : disableDataDriver.Preserves s.LatchesStay :=
  lineCall_latchesStay s fun _ => ⟨rfl, rfl, rfl, rfl, fun _ => Bool.and_false _⟩

/-- A register write beside the lines and latches. -/
theorem modify_latchesStay (s : State) {f : State → State}
    (hf : ∀ u, (f u).inputs = u.inputs ∧ (f u).startSeen = u.startSeen ∧ (f u).busBusy = u.busBusy ∧
      (f u).sdaLow = u.sdaLow ∧ (f u).sdaOe = u.sdaOe) : (modify f : Eng Unit).Preserves s.LatchesStay :=
  Eng.preserves_modify fun u ⟨still, start, busy⟩ => by
    obtain ⟨inputs, start', busy', low, oe⟩ := hf u
    refine ⟨⟨?_, ?_, ?_⟩, start'.trans start, busy'.trans busy⟩
    · rw [State.noReset, inputs]; exact still.no_reset
    · rw [inputs]; exact still.no_race
    · rw [low, oe]; exact still.undriven

theorem slvenBody_off_latchesStay (s : State) : (slvenBody false).Preserves s.LatchesStay := by
  refine Eng.preserves_bind (Eng.preserves_get _) fun u => Eng.preserves_ite ?_ ?_
  · rw [if_neg Bool.false_ne_true]
    repeat' first
      | exact releaseClockHigh_latchesStay s
      | exact releaseDataHigh_latchesStay s
      | exact disableDataDriver_latchesStay s
      | exact modify_latchesStay s fun _ => ⟨rfl, rfl, rfl, rfl, rfl⟩
      | exact Eng.preserves_pure _ _
      | apply Eng.preserves_bind
      | apply Eng.preserves_ite
      | intro _
  · exact Eng.preserves_bind (modify_latchesStay s fun _ => ⟨rfl, rfl, rfl, rfl, rfl⟩) fun _ => Eng.preserves_pure _ _

/-- SLVEN 0 completes and leaves what its body leaves: with `SLVEN = 0` no hold follows it. -/
theorem exec_slven_off {s : State} (hs : s.params.slaveEn = true) (hr : s.noReset) :
    ∃ u, (slvenBody false).run { s with response := none } = .ok .none u ∧
      exec (.slven false) s = .next { u with response := some (responseWord false 0 s.status) } := by
  obtain ⟨a, u, hu, he⟩ := exec_of_prompt (i := .slven false) (slvenBody_prompt false) hr
  obtain ⟨rfl, beyond, slven, -⟩ := slvenBody_off (s := { s with response := none }) hs hu
  have status : u.status = s.status := (congrArg State.status beyond :)
  rw [State.settle_of_disabled (by exact slven)] at he
  exact ⟨u, hu, by rw [he, status]; rfl⟩

/-- Settles O18: what the bodies leave; the latches stay when letting go of the lines makes no edge. -/
theorem slvenEffect : Obligations.SlvenEffect := by
  intro s hs
  refine ⟨exec_slven_on hs, exec_slven_off_of_holding hs, fun hr => ?_⟩
  obtain ⟨u, hu, he⟩ := exec_slven_off hs hr
  obtain ⟨-, beyond, slven, released, unchanged, role, sstate⟩ := slvenBody_off (s := { s with response := none }) hs hu
  refine ⟨_, he, slven, (congrArg State.status beyond :), rfl, released, fun hn => ?_, fun no_race undriven => ?_, role, sstate,
    (congrArg State.mstate beyond :), (congrArg State.sr beyond :), (congrArg State.bitcnt beyond :),
    (congrArg State.faddr beyond :), (congrArg State.fmask beyond :), (congrArg State.rxaddr beyond :),
    (congrArg State.dir beyond :), (congrArg State.bitrate beyond :), (congrArg State.params beyond :),
    (congrArg State.draws beyond :), (congrArg State.hung beyond :)⟩
  · rw [unchanged hn]
    exact ⟨rfl, rfl, rfl⟩
  · obtain ⟨-, latches⟩ := (slvenBody_off_latchesStay s).ok hu ⟨⟨hr, no_race, undriven⟩, rfl, rfl⟩
    exact latches

/-! ### Commands that are not allowed (R115) -/

/-- RELEASE does nothing when the engine is idle (R115, R211). -/
theorem releaseBody_of_idle {s : State} (hm : s.params.masterEn = true) (hr : s.role = .idle) :
    releaseBody.run s = .ok .none s := by
  simp [releaseBody, State.holding, State.recoveryPending, hm, hr]

/-- POLL with nothing pending sets the filter and answers its candidate (R115, R183). -/
theorem pollBody_of_nothing_pending {cand mask : Byte} {s : State} (hs : s.params.slaveEn = true)
    (hp : s.recoveryPending = false) (hn : s.startSeen = false) :
    (pollBody cand mask).run s = .ok ⟨false, cand⟩ { s with faddr := cand, fmask := mask } := by
  simp [pollBody, hs, hp, hn]

/-- Settles O19: a command that is not allowed flags and nothing else; the no-ops write no more than R115 says. -/
theorem notAllowedCommandsOnlyFlag : Obligations.NotAllowedCommandsOnlyFlag := by
  refine ⟨fun i s h => ?_, fun s hm hr => ?_, fun cand mask s hs hp hn => ?_, fun _ _ _ _ => ⟨rfl, rfl⟩⟩
  · rw [exec_of_ok i (body_not_allowed (s := { s with response := none }) h)]
    cases i <;> rfl
  · have run := releaseBody_of_idle (s := { s with response := none }) hm hr
    rw [exec_of_ok .release run]
    rfl
  · have run := pollBody_of_nothing_pending (cand := cand) (mask := mask) (s := { s with response := none }) hs hp hn
    rw [exec_of_ok (.poll cand mask) run]

/-! ### Flags bit by bit -/

theorem flags_and_eq_zero_iff (s m : Flags) : s &&& m = 0 ↔ ∀ i < 9, s.getLsbD i = true → m.getLsbD i = false := by
  simp [BitVec.eq_of_getLsbD_eq_iff]

theorem flags_and_ne_zero_iff (s m : Flags) : s &&& m ≠ 0 ↔ ∃ i < 9, s.getLsbD i = true ∧ m.getLsbD i = true := by
  rw [Ne, flags_and_eq_zero_iff]
  simp

theorem isOk_iff (s : Flags) : isOk s = true ↔ ∀ i, 2 ≤ i → i ≤ 8 → s.getLsbD i = false := by
  have mask : ∀ i < 9, (~~~(Flag.success ||| Flag.noAck)).getLsbD i = false ↔ i < 2 := by decide
  rw [isOk, clearFlags, beq_iff_eq, flags_and_eq_zero_iff]
  refine forall_congr' fun i => ⟨fun h low high => ?_, fun h high set => ?_⟩
  · by_contra set
    have := (mask i (by omega)).mp (h (by omega) (by simpa using set))
    omega
  · rw [mask i high]
    by_contra low
    simp [h (by omega) (by omega)] at set

theorem isRetryable_iff (s : Flags) : isRetryable s = true ↔
    s.getLsbD 1 = true ∨ s.getLsbD 3 = true ∨ s.getLsbD 4 = true ∨ s.getLsbD 6 = true := by
  have mask : ∀ i < 9, (Flag.noAck ||| Flag.timedOut ||| Flag.lineBlocked ||| Flag.arbitrationLost).getLsbD i = true ↔
    i = 1 ∨ i = 3 ∨ i = 4 ∨ i = 6 := by decide
  rw [isRetryable, bne_iff_ne, flags_and_ne_zero_iff]
  constructor
  · rintro ⟨i, hi, set, named⟩
    rcases (mask i hi).mp named with rfl | rfl | rfl | rfl <;> simp [set]
  · rintro (set | set | set | set)
    all_goals exact ⟨_, by decide, set, by decide⟩

theorem isProtocolViolation_iff (s : Flags) : isProtocolViolation s = true ↔ s.getLsbD 5 = true := by
  have mask : ∀ i < 9, Flag.protocolFail.getLsbD i = true ↔ i = 5 := by decide
  rw [isProtocolViolation, bne_iff_ne, flags_and_ne_zero_iff]
  constructor
  · rintro ⟨i, hi, set, named⟩
    rwa [(mask i hi).mp named] at set
  · exact fun set => ⟨5, by decide, set, by decide⟩

/-- Settles O59: each predicate tests a mask, whose bits are the flags that the rule names. -/
theorem namedPredicates : Obligations.NamedPredicates :=
  fun s => ⟨isOk_iff s, isRetryable_iff s, isProtocolViolation_iff s, rfl⟩

/-! ### Flags accumulate (R110, R111) -/

/-- Every flag of the status `old` is in `new`. -/
def FlagsStay (old new : Flags) : Prop := old &&& ~~~new = 0

theorem FlagsStay.refl (f : Flags) : FlagsStay f f := by simp [FlagsStay]

theorem flagsStay_iff {old new : Flags} : FlagsStay old new ↔ ∀ i < 9, old.getLsbD i = true → new.getLsbD i = true := by
  rw [FlagsStay, flags_and_eq_zero_iff]
  refine forall₂_congr fun i hi => ?_
  simp [hi]

theorem FlagsStay.trans {f g h : Flags} (hfg : FlagsStay f g) (hgh : FlagsStay g h) : FlagsStay f h :=
  flagsStay_iff.mpr fun i hi hf => flagsStay_iff.mp hgh i hi (flagsStay_iff.mp hfg i hi hf)

theorem flagsStay_setFlags (old f : Flags) : FlagsStay old (setFlags old f) :=
  flagsStay_iff.mpr fun i _ h => by simp [setFlags, h]

/-- The computation clears no flag, whether it answers or halts. -/
structure Eng.Accumulates (m : Eng α) : Prop where
  stays : ∀ s, FlagsStay s.status (m.final s).status

theorem Eng.accumulates_bind {m : Eng α} {k : α → Eng β} (hm : m.Accumulates) (hk : ∀ a, (k a).Accumulates) :
    (m >>= k).Accumulates where
  stays s := Eng.preserves_bind (P := fun u => FlagsStay s.status u.status) (fun _ hu => hu.trans (hm.stays _))
    (fun a _ hu => hu.trans ((hk a).stays _)) s (.refl _)

theorem Eng.accumulates_ite {c : Prop} [Decidable c] {m n : Eng α} (hm : m.Accumulates) (hn : n.Accumulates) :
    (if c then m else n : Eng α).Accumulates := by
  split <;> assumption

/-- A computation that leaves the status alone. -/
theorem Eng.Keeps.accumulates {m : Eng α} {f : State → State} (h : m.Keeps f) (hf : ∀ s, (f s).status = s.status) :
    m.Accumulates where
  stays s := by rw [h.field State.status hf s]; exact .refl _

/-- A register write beside the status. -/
theorem Eng.accumulates_modify {f : State → State} (hf : ∀ s, (f s).status = s.status) :
    (modify f : Eng Unit).Accumulates where
  stays s := by change FlagsStay s.status (f s).status; rw [hf]; exact .refl _

theorem Eng.accumulates_pure (a : α) : (pure a : Eng α).Accumulates := ⟨fun _ => .refl _⟩

theorem Eng.accumulates_get : (get : Eng State).Accumulates := ⟨fun _ => .refl _⟩

theorem flag_accumulates (f : Flags) : (flag f).Accumulates := ⟨fun s => flagsStay_setFlags s.status f⟩

theorem anyByte_accumulates : anyByte.Accumulates := ⟨fun _ => .refl _⟩

/-- The answer of a failed RECV or SRECV (R143). -/
theorem freeAnswer_accumulates : (do return { r := false, data := ← anyByte } : Eng Answer).Accumulates :=
  Eng.accumulates_bind anyByte_accumulates fun _ => Eng.accumulates_pure _

theorem pullClockLow_accumulates : pullClockLow.Accumulates := pullClockLow_keeps.accumulates fun _ => rfl
theorem releaseClockHigh_accumulates : releaseClockHigh.Accumulates := releaseClockHigh_keeps.accumulates fun _ => rfl
theorem pullDataLow_accumulates : pullDataLow.Accumulates := pullDataLow_keeps.accumulates fun _ => rfl
theorem releaseDataHigh_accumulates : releaseDataHigh.Accumulates := releaseDataHigh_keeps.accumulates fun _ => rfl
theorem enableDataDriver_accumulates : enableDataDriver.Accumulates := enableDataDriver_keeps.accumulates fun _ => rfl
theorem disableDataDriver_accumulates : disableDataDriver.Accumulates := disableDataDriver_keeps.accumulates fun _ => rfl

theorem mStop_accumulates : mStop.Accumulates := by
  unfold mStop
  repeat' first
    | exact pullClockLow_accumulates
    | exact releaseClockHigh_accumulates
    | exact pullDataLow_accumulates
    | exact releaseDataHigh_accumulates
    | exact enableDataDriver_accumulates
    | exact disableDataDriver_accumulates
    | exact waitHalfBitPeriod_keeps.accumulates fun _ => rfl
    | exact (waitUntil_keeps _).accumulates fun _ => rfl
    | exact flag_accumulates _
    | exact Eng.accumulates_pure _
    | apply Eng.accumulates_bind
    | apply Eng.accumulates_ite
    | intro _

theorem mAbort_accumulates : mAbort.Accumulates :=
  Eng.accumulates_bind releaseDataHigh_accumulates fun _ => Eng.accumulates_bind disableDataDriver_accumulates fun _ =>
    Eng.accumulates_bind releaseClockHigh_accumulates fun _ =>
    Eng.accumulates_bind (Eng.accumulates_modify fun _ => rfl) fun _ => Eng.accumulates_modify fun _ => rfl

theorem mForceStop_accumulates : mForceStop.Accumulates :=
  Eng.accumulates_bind mStop_accumulates fun _ => Eng.accumulates_bind (Eng.accumulates_modify fun _ => rfl) fun _ =>
    Eng.accumulates_modify fun _ => rfl

theorem sLeave_accumulates : sLeave.Accumulates := sLeave_keeps.accumulates fun _ => rfl

theorem notAllowed_accumulates : notAllowed.Accumulates := flag_accumulates _

theorem sendBody_accumulates (v : Byte) : (sendBody v).Accumulates := by
  refine Eng.accumulates_bind Eng.accumulates_get fun s => Eng.accumulates_ite
    (Eng.accumulates_bind ((mSendByte_keeps _ _).accumulates fun _ => rfl) fun r => ?_)
    (Eng.accumulates_bind notAllowed_accumulates fun _ => Eng.accumulates_pure _)
  cases r with
  | acked => exact Eng.accumulates_pure _
  | nacked => exact Eng.accumulates_bind (flag_accumulates _) fun _ => Eng.accumulates_pure _
  | lost =>
    exact Eng.accumulates_bind (flag_accumulates _) fun _ =>
      Eng.accumulates_bind (Eng.accumulates_modify fun _ => rfl) fun _ =>
      Eng.accumulates_bind (Eng.accumulates_modify fun _ => rfl) fun _ => Eng.accumulates_pure _
  | expired =>
    exact Eng.accumulates_bind (flag_accumulates _) fun _ => Eng.accumulates_bind mAbort_accumulates fun _ =>
      Eng.accumulates_pure _
  | illegal =>
    exact Eng.accumulates_bind (flag_accumulates _) fun _ => Eng.accumulates_bind mForceStop_accumulates fun _ =>
      Eng.accumulates_pure _

theorem recvBody_accumulates (ack : Bool) : (recvBody ack).Accumulates := by
  refine Eng.accumulates_bind Eng.accumulates_get fun s => Eng.accumulates_ite
    (Eng.accumulates_bind ((mRecvByte_keeps _).accumulates fun _ => rfl) fun r => ?_)
    (Eng.accumulates_bind notAllowed_accumulates fun _ => freeAnswer_accumulates)
  cases r with
  | done => exact Eng.accumulates_bind Eng.accumulates_get fun _ => Eng.accumulates_pure _
  | expired =>
    exact Eng.accumulates_bind (flag_accumulates _) fun _ => Eng.accumulates_bind mAbort_accumulates fun _ =>
      freeAnswer_accumulates
  | illegal =>
    exact Eng.accumulates_bind (flag_accumulates _) fun _ => Eng.accumulates_bind mForceStop_accumulates fun _ =>
      freeAnswer_accumulates

theorem releaseBody_accumulates : releaseBody.Accumulates := by
  unfold releaseBody
  repeat' first
    | exact mStop_accumulates
    | exact releaseClockHigh_accumulates
    | exact notAllowed_accumulates
    | exact Eng.accumulates_modify fun _ => rfl
    | exact Eng.accumulates_get
    | exact Eng.accumulates_pure _
    | apply Eng.accumulates_bind
    | apply Eng.accumulates_ite
    | intro _

theorem ssendEnd_accumulates (more collided : Bool) (r : SSend) : (ssendEnd more collided r).Accumulates := by
  cases r with
  | acked => exact Eng.accumulates_ite pullClockLow_accumulates sLeave_accumulates
  | nacked | stop | start | expired => exact Eng.accumulates_bind (flag_accumulates _) fun _ => sLeave_accumulates

theorem ssendBody_accumulates (v : Byte) (more : Bool) : (ssendBody v more).Accumulates :=
  Eng.accumulates_bind Eng.accumulates_get fun _ => Eng.accumulates_ite
    (Eng.accumulates_bind ((sSendByte_keeps _).accumulates fun _ => rfl) fun _ =>
      Eng.accumulates_bind (flag_accumulates _) fun _ => Eng.accumulates_bind (ssendEnd_accumulates _ _ _) fun _ =>
      Eng.accumulates_pure _)
    (Eng.accumulates_bind notAllowed_accumulates fun _ => Eng.accumulates_pure _)

theorem srecvBody_accumulates (ack : Bool) : (srecvBody ack).Accumulates := by
  refine Eng.accumulates_bind Eng.accumulates_get fun s => Eng.accumulates_ite
    (Eng.accumulates_bind ((sRecvByte_keeps _).accumulates fun _ => rfl) fun r => ?_)
    (Eng.accumulates_bind notAllowed_accumulates fun _ => freeAnswer_accumulates)
  cases r with
  | done =>
    have answer : (do return { r := false, data := (← get).sr } : Eng Answer).Accumulates :=
      Eng.accumulates_bind Eng.accumulates_get fun _ => Eng.accumulates_pure _
    exact Eng.accumulates_ite (Eng.accumulates_bind pullClockLow_accumulates fun _ => answer)
      (Eng.accumulates_bind sLeave_accumulates fun _ => answer)
  | stop | start | expired =>
    exact Eng.accumulates_bind (flag_accumulates _) fun _ => Eng.accumulates_bind sLeave_accumulates fun _ =>
      freeAnswer_accumulates

theorem slvenBody_accumulates (en : Bool) : (slvenBody en).Accumulates := by
  unfold slvenBody
  repeat' first
    | exact releaseClockHigh_accumulates
    | exact releaseDataHigh_accumulates
    | exact disableDataDriver_accumulates
    | exact notAllowed_accumulates
    | exact Eng.accumulates_modify fun _ => rfl
    | exact Eng.accumulates_get
    | exact Eng.accumulates_pure _
    | apply Eng.accumulates_bind
    | apply Eng.accumulates_ite
    | intro _

/-- Only INIT, OPEN and POLL have a body that may clear a flag (R111). -/
theorem body_accumulates {i : Instr} (hi : i.mnemonic ∉ ["INIT", "OPEN", "POLL"]) : (body i).Accumulates := by
  cases i with
  | init | openDevice | poll => simp [Instr.mnemonic] at hi
  | send v => exact sendBody_accumulates v
  | recv ack => exact recvBody_accumulates ack
  | release => exact releaseBody_accumulates
  | ssend v more => exact ssendBody_accumulates v more
  | srecv ack => exact srecvBody_accumulates ack
  | slven en => exact slvenBody_accumulates en
  | status => exact Eng.accumulates_pure _

/-- Settles O45: unless reset comes, the status after a command is the one its body leaves. -/
theorem flagsAccumulate : Obligations.FlagsAccumulate := by
  intro i s t hr hi h
  have status : t.status = ((body i).final { s with response := none }).status :=
    (congrArg State.status (exec_registers hr h) :)
  rw [status]
  exact (body_accumulates hi).stays { s with response := none }

end Sys2Proof.Machine
end

section
/-! PROOFS. The statements of 41_byte_transfer.md about the bounded wait, the slave's reading of a pulse, the shift law and the
frame of the byte procedures (R130, R135, R141, R146). -/

namespace Sys2Proof.Machine

/-! ### The bounded wait (R130) -/

/-- A wait that hangs has no bound, and its condition does not hold (R6, R130). -/
theorem waitUntil_hang {c : State → Bool} (hc : ∀ l s, c { s with inputs := l } = c s) {s t : State}
    (h : (waitUntil c).run s = .error .hang t) : s.params.timeoutEnforced = false ∧ c t = false := by
  have spec := (runWait_spec hc s.inputs s).2.2
  rwa [show runWait c s.inputs s = .error .hang t from h] at spec

/-- Settles O53: the first three clauses are the wait's specification, for a condition that does not read the inputs; in the
last two the wait ends at its first look at the inputs. -/
theorem waitLaws : Obligations.WaitLaws := by
  intro p s
  refine ⟨fun t h => (waitUntil_ok (fun _ _ => rfl) h).1, fun t h => waitUntil_expired (fun _ _ => rfl) h,
    fun t h => waitUntil_hang (fun _ _ => rfl) h, ?_, ?_⟩
  · intro hb hi hp
    rw [waitUntil_run, hi, runWait, if_neg (by simp [hp]), if_neg (by simp [hb]), ← hi]
  · intro rest hb hi
    rw [waitUntil_run, hi, runWait, if_pos hb]

/-! ### The slave's reading of a pulse (R135, R182) -/

/-- The level read is that of the data line in the state the reading leaves, whatever the environment did before it. -/
theorem isDataHigh_ok {s t : State} {b : Bool} (h : isDataHigh.run s = .ok b t) : t.sda = b := by
  obtain ⟨_, u, -, hg⟩ := Eng.bind_ok_iff.mp h
  obtain ⟨rfl, rfl⟩ : u.sda = b ∧ u = t := by simpa using hg
  rfl

/-- Every way `s_wait_bit` answers: it expires, or it has sampled the data line and then waited for the clock to fall or the
data line to change (R135). -/
theorem sWaitBit_ok {s t : State} {r : SPulse} (h : sWaitBit.run s = .ok r t) :
    r = .expired ∨ ∃ u b, u.sda = b ∧ (waitUntil fun s => !s.scl || s.sda != b).run u = .ok .ok t ∧
      r = if t.scl then (if b then .start else .stop) else .bit b := by
  unfold sWaitBit at h
  obtain ⟨r1, s1, -, h⟩ := Eng.bind_ok_iff.mp h
  split at h
  next => exact .inl (Eng.pure_ok_iff.mp h).1.symm
  next =>
    obtain ⟨b, u, h2, h⟩ := Eng.bind_ok_iff.mp h
    obtain ⟨r3, s3, h3, h⟩ := Eng.bind_ok_iff.mp h
    cases r3 with
    | expired => exact .inl (Eng.pure_ok_iff.mp h).1.symm
    | ok =>
      refine .inr ⟨u, b, isDataHigh_ok h2, ?_⟩
      obtain ⟨_, _, hg, h⟩ := Eng.bind_ok_iff.mp h
      obtain ⟨rfl, rfl⟩ := Eng.get_ok_iff.mp hg
      have answer : (pure (if s3.scl then (if b then .start else .stop) else .bit b) : Eng SPulse).run s3 = .ok r t := by
        rw [← h]
        cases s3.scl <;> cases b <;> rfl
      obtain ⟨rfl, rfl⟩ := Eng.pure_ok_iff.mp answer
      exact ⟨h3, rfl⟩

/-- If the clock is high, the data line is at the sampled level `b`, or its change has been a START (`b` was 1) or a STOP (`b`
was 0) to the edge detector. -/
def State.ChangeSeen (b : Bool) (s : State) : Prop := s.scl = true → s.sda = b ∨ s.startSeen = b ∧ s.busBusy = b

/-- While the clock is high and the data line at the sampled level, the environment's next act cannot escape the edge detector
(R71). -/
theorem State.changeSeen_act {b : Bool} {s : State} (hc : s.scl = true) (hd : s.sda = b) (a : LineAct) :
    (s.act a).ChangeSeen b := by
  intro hc'
  have edge := edgeRule_act a s
  by_cases hd' : (s.act a).sda = b
  · exact .inl hd'
  · cases b with
    | true => exact .inr (edge.start hc hc' hd (by simpa using hd'))
    | false => exact .inr (edge.stop hc hc' hd (by simpa using hd'))

/-- Waiting for the clock to fall or the data line to leave the sampled level, no START or STOP escapes the edge detector. -/
theorem waitPulse_changeSeen {b : Bool} {s t : State} {r : WaitResult} (hs : s.sda = b)
    (h : (waitUntil fun s => !s.scl || s.sda != b).run s = .ok r t) : t.ChangeSeen b := by
  refine waitUntil_invariant (P := State.ChangeSeen b) (fun a u _ hc => ?_) (fun _ _ hp => hp) (fun _ => .inl hs) h
  simp only [Bool.or_eq_false_iff, Bool.not_eq_false', bne_eq_false_iff_eq] at hc
  exact State.changeSeen_act hc.1 hc.2 a

/-- What holds when `s_wait_bit` answers: the latches after a STOP or a START, the clock after a bit (R135, R182). -/
theorem sWaitBit_latches {s t : State} {r : SPulse} :
    sWaitBit.run s = .ok r t →
    match r with
    | .stop => t.startSeen = false ∧ t.busBusy = false
    | .start => t.startSeen = true ∧ t.busBusy = true
    | .bit _ => t.scl = false
    | .expired => True := by
  intro h
  obtain rfl | ⟨u, b, hu, hw, rfl⟩ := sWaitBit_ok h
  · trivial
  · cases hk : t.scl with
    | false => rfl
    | true =>
      have moved : t.sda ≠ b := by simpa [hk] using (waitUntil_ok (clock_or_data_inputs b) hw).1
      have latches := (waitPulse_changeSeen hu hw hk).resolve_left moved
      cases b <;> exact latches

/-- Settles O54: while the clock is high, the change of the data line that ends the pulse is the edge detector's too. -/
theorem followedPulseAgreesWithEdgeDetector : Obligations.FollowedPulseAgreesWithEdgeDetector :=
  fun _ _ => ⟨sWaitBit_latches, sWaitBit_latches, fun _ => sWaitBit_latches⟩

/-! ### The shift law (R141) -/

/-- The bits shifted in are the register's last ones (R141). -/
theorem drop_bits_foldl_shiftInto (bs : List Bool) (r : Byte) (h : bs.length ≤ 8) :
    (bits (bs.foldl shiftInto r)).drop (8 - bs.length) = bs := by
  rw [bits_foldl_shiftInto bs r h, List.drop_left' (by simp)]

/-- Settles O58: after `n` shifts the register holds the loaded byte's bits from bit `n` on, then those shifted in. -/
theorem shiftLawConsequences : Obligations.ShiftLawConsequences := by
  intro v bs
  refine ⟨fun hn => ?_, fun hn => ?_⟩
  · rw [msb_foldl_shiftInto bs v hn, BitVec.getMsbD]
    simp [hn]
  · simpa [hn] using drop_bits_foldl_shiftInto bs v hn.le

/-! ### The frame of the byte procedures (R146) -/

/-- Settles O55: each procedure keeps the registers beyond its own and leaves the latches to the edge detector. -/
theorem byteProceduresWriteOnlyTheirRegisters : Obligations.ByteProceduresWriteOnlyTheirRegisters := fun _ _ _ _ _ _ =>
  ⟨fun _ h => ⟨(mClockBit_keeps _ _).byte.ok h, (mClockBit_byEdges _ _).ok h⟩,
    fun _ h => ⟨(mSendByte_keeps _ _).ok h, (mSendByte_byEdges _ _).ok h⟩,
    fun _ h => ⟨(mRecvByte_keeps _).ok h, (mRecvByte_byEdges _).ok h⟩,
    fun _ h => ⟨(sPutBit_keeps _).byte.ok h, (sPutBit_byEdges _).ok h⟩,
    fun _ h => ⟨(sRecvByte_keeps _).ok h, (sRecvByte_byEdges _).ok h⟩,
    fun _ h => ⟨(sSendByte_keeps _).ok h, (sSendByte_byEdges _).ok h⟩⟩

end Sys2Proof.Machine
end

section
/-! PROOFS. The statements of 41_byte_transfer.md about SEND and RECV (R139, R140) and of 43_slave_match.md about SSEND and SRECV
(R189, R190). -/

namespace Sys2Proof.Machine

/-! ### How the commands end -/

/-- No hold is due with no START and no recovery pending (R182). -/
theorem State.settle_of_nothing_pending {s : State} (hs : s.startSeen = false) (hr : s.recoveryPending = false) :
    s.settle = s :=
  State.settle_of fun hd => by simp [State.holdDue, hs, hr] at hd

/-- Lines that a command has released are let go when the edge detector has settled (R182, R305). -/
theorem State.released.letGo_settle {s : State} (h : s.released) : s.settle.letGo := by
  obtain ⟨hc, hd, ho⟩ := h
  refine ⟨by simpa using hd, by simpa using ho, fun hs => ?_⟩
  have hold : s.holdDue = true := by simpa [hc] using hs
  simpa [State.holdDue, State.recoveryPending] using hold

/-- A clock that a command holds stays held when the edge detector has settled (R182). -/
theorem State.clockHeld.settle {s : State} (h : s.clockHeld) : s.settle.clockHeld := by
  obtain ⟨hc, hd, ho⟩ := h
  exact ⟨by simp [hc], by simp [hd], by simp [ho]⟩

/-! ### SEND on an undisturbed bus (R139) -/

theorem State.MasterHolds.response {s : State} (h : s.MasterHolds) (w : Option Word) :
    State.MasterHolds { s with response := w } := { h with }

theorem State.MasterHolds.clocking {s : State} (h : s.MasterHolds) : s.Clocking :=
  ⟨h.lines.1, h.scl_free, h.no_start, h.busy⟩

section
variable {s u : State} (h : s.MasterHolds)
include h

/-- The byte was answered: the level of the ninth pulse decides `NoAck` (R139). -/
theorem sendBody_of_answered {v : Byte} {high : Bool} (hd : s.dir = .write)
    (hb : (mSendByte v s.params.multi).run s = .ok (if high then .nacked else .acked) u) :
    (sendBody v).run s = .ok .none { u with status := if high then setFlags u.status Flag.noAck else u.status } := by
  cases high <;> simp [sendBody, h.master_en, h.holds, hd, hb, flag]

/-- Arbitration was lost in the byte (R139, R223). -/
theorem sendBody_of_lost {v : Byte} (hd : s.dir = .write) (hb : (mSendByte v s.params.multi).run s = .ok .lost u) :
    (sendBody v).run s = .ok .none { u with
      status := setFlags u.status Flag.arbitrationLost, role := .idle, mstate := .arbitrationLost } := by
  simp [sendBody, h.master_en, h.holds, hd, hb, flag, setRole, setMState]

/-- The whole byte was received (R140). -/
theorem recvBody_of_done {ack : Bool} (hd : s.dir = .read) (hb : (mRecvByte ack).run s = .ok .done u) :
    (recvBody ack).run s = .ok ⟨false, u.sr⟩ u := by
  simp [recvBody, h.master_en, h.holds, hd, hb]

/-- A wait expired in the byte (R140). -/
theorem recvBody_of_expired {ack : Bool} {t : State} (hd : s.dir = .read)
    (hb : (mRecvByte ack).run s = .ok .expired u)
    (ha : mAbort.run { u with status := setFlags u.status Flag.timedOut } = .ok () t) :
    (recvBody ack).run s = .ok ⟨false, Config.freeByte t.draws⟩ { t with draws := t.draws + 1 } := by
  simp [recvBody, h.master_en, h.holds, hd, hb, ha, flag, anyByte]

end

/-- Settles O24: the run of `m_send_byte` on an undisturbed bus; the engine holds the clock already, so no hold follows. -/
theorem sendAnswered : Obligations.SendAnswered := by
  intro v high s rest h hd hr hi
  have run := mSendByte_answered v s.params.multi high { s with response := none } rest (h.response none).clocking h.sda_free
    hi hr
  rw [exec_of_ok (.send v) (s := s) (sendBody_of_answered (h.response none) hd run),
    State.settle_of (by exact fun _ => h.lines.1)]
  obtain ⟨-, hl, ho⟩ := h.lines
  obtain ⟨⟩ := s
  cases high <;> simp_all [Answer.none]

/-- Settles O25: the run of `m_send_byte` that loses bit `k`; an idle engine without a START pending holds no clock. -/
theorem sendLosesArbitration : Obligations.SendLosesArbitration := by
  intro v k s rest h hm hd hk hv hr hi
  have run := mSendByte_lost v k hk hv { s with response := none } rest (h.response none).clocking h.sda_free
    (by simpa using hi) hr
  refine ⟨shiftInto (((bits v).take k).foldl shiftInto v) false, ?_, ?_⟩
  · have hl : 8 - ((bits v).take k ++ [false]).length = 7 - k := by simp; omega
    have last := drop_bits_foldl_shiftInto ((bits v).take k ++ [false]) v (by simp; omega)
    rwa [hl, List.foldl_append] at last
  · rw [exec_of_ok (.send v) (s := s) (sendBody_of_lost (h.response none) hd (by rw [← hm] at run; exact run)),
      State.settle_of_nothing_pending (by exact h.no_start) (by rfl)]
    obtain ⟨-, hl, ho⟩ := h.lines
    obtain ⟨⟩ := s
    simp_all [Answer.none]

/-! ### RECV on an undisturbed bus (R140) -/

/-- Settles O26: the run of `m_recv_byte` on an undisturbed bus. -/
theorem recvReadsByte : Obligations.RecvReadsByte := by
  intro v ack s rest h hd hr hi
  have run := mRecvByte_byte v ack { s with response := none } rest (h.response none).clocking hi hr
  rw [exec_of_ok (.recv ack) (s := s) (recvBody_of_done (h.response none) hd run),
    State.settle_of (by exact fun _ => h.lines.1)]
  obtain ⟨-, hl, ho⟩ := h.lines
  obtain ⟨⟩ := s
  simp_all

/-- A wait for the clock expires after fewer bits than were to come: the clock is left released (R134). -/
theorem mRecvBits_expired (bs : List Bool) {n : Nat} (hn : bs.length < n) (s : State) (rest : List Input) (c : s.Clocking)
    (hl : s.sdaLow = false) (ho : s.sdaOe = false) (ht : s.params.timeoutEnforced = true)
    (hi : s.inputs = bs.flatMap levelInPulse ++ .pass :: .expire :: rest) :
    (mRecvBits n).run s = .ok .expired
      { s with
        sr := bs.foldl shiftInto s.sr, bitcnt := s.bitcnt + BitVec.ofNat 4 bs.length, sclLow := false,
        sdaExt := bs.getLastD s.sdaExt, inputs := rest, wire := .pulse (bs.getLastD s.sdaExt) :: onWire bs ++ s.wire } := by
  obtain ⟨more, rfl⟩ : ∃ more, n = bs.length + (more + 1) := ⟨n - bs.length - 1, by omega⟩
  rw [mRecvBits_more bs (more + 1) s _ c hl ho hi rfl, mRecvBits, Eng.bind_of_ok (mClockBit_expired false
    ⟨by exact c.scl_low, by exact c.scl_free, by exact c.no_start, by exact c.busy⟩ (by exact hl) (by exact ho)
    (by exact ht) (by rfl))]
  rfl

/-- A wait for the clock expires after the bits `bs` of a received byte (R134). -/
theorem mRecvByte_expired (bs : List Bool) (ack : Bool) (hn : bs.length < 8) (s : State) (rest : List Input)
    (c : s.Clocking) (ht : s.params.timeoutEnforced = true)
    (hi : s.inputs = bs.flatMap levelInPulse ++ .pass :: .expire :: rest) :
    (mRecvByte ack).run s = .ok .expired
      { s with
        sr := bs.foldl shiftInto s.sr, bitcnt := BitVec.ofNat 4 bs.length, sclLow := false, sdaLow := false, sdaOe := false,
        sdaExt := bs.getLastD s.sdaExt, inputs := rest, wire := .pulse (bs.getLastD s.sdaExt) :: onWire bs ++ s.wire } := by
  have hs : calm s.inputs = true := by rw [hi]; cases bs <;> simp [levelInPulse]
  have e : s.scl = false := State.scl_of_sclLow c.scl_low
  have failed := mRecvBits_expired bs hn { s with bitcnt := 0, sdaLow := false, sdaOe := false } rest
    ⟨c.scl_low, c.scl_free, c.no_start, c.busy⟩ rfl rfl ht hi
  rw [mRecvByte, setBitcnt, Eng.bind_of_ok (releaseDataHigh_low hs e),
    Eng.bind_of_ok (disableDataDriver_low (by exact hs) (by exact e)), Eng.bind_of_ok (Eng.modify_run _ _),
    Eng.bind_of_ok failed]
  simp

/-- `m_abort` with both lines released already changes no line (R138). -/
theorem mAbort_of_released {s : State} (h : calm s.inputs = true) (hc : s.sclLow = false) (hd : s.sdaLow = false) :
    mAbort.run s = .ok ()
      { s with sclLow := false, sdaLow := false, sdaOe := false, role := .idle, mstate := .busError } := by
  rw [mAbort, Eng.bind_of_ok (releaseDataHigh_same h hd),
    Eng.bind_of_ok (disableDataDriver_same (by exact h) (by rfl)), releaseClockHigh, Eng.bind_of_ok (lineCall_calm (by exact h)),
    State.observe_same (by simp [State.scl, hc]) (by rfl)]
  rfl

/-- Settles O27: the run of `m_recv_byte` that expires, then `m_abort`; an idle engine without a START pending holds no clock. -/
theorem recvTimeoutAnswersFreeByte : Obligations.RecvTimeoutAnswersFreeByte := by
  intro ack bs s rest h hd ht hn hr hi
  have run := mRecvByte_expired bs ack hn { s with response := none } rest (h.response none).clocking ht (by simpa using hi)
  refine ⟨_, exec_of_ok (.recv ack) (s := s) (recvBody_of_expired (h.response none) hd run
    (mAbort_of_released hr rfl rfl)), ?_⟩
  rw [State.settle_of_nothing_pending (by exact h.no_start) (by rfl)]
  exact ⟨rfl, rfl, rfl, ⟨rfl, rfl, rfl⟩, rfl, rfl, rfl, rfl, rfl⟩

/-! ### SEND and RECV, whatever the environment does (R139, R140, R271) -/

/-- What is left of a SEND or RECV that has failed, as its body reports it, when the edge detector has settled (R271). -/
theorem failed_outcomes {s u t : State} {w : Option Word}
    (g : u.failed ∧ u.status = setFlags s.status Flag.timedOut ∧ s.params.timeoutEnforced = true ∨
      u.failed ∧ (u.status = setFlags s.status Flag.protocolFail ∨
        s.params.timeoutEnforced = true ∧
          (u.status = setFlags (setFlags s.status Flag.protocolFail) Flag.timedOut ∨
            u.status = setFlags (setFlags s.status Flag.protocolFail) Flag.lineBlocked)))
    (ht : t = State.settle { u with response := w }) :
    t.role = .idle ∧ t.mstate = .busError ∧ t.letGo ∧
      (t.status = setFlags s.status Flag.timedOut ∧ s.params.timeoutEnforced = true ∨
        t.status = setFlags s.status Flag.protocolFail ∨
        t.status = setFlags (setFlags s.status Flag.protocolFail) Flag.timedOut ∨
        t.status = setFlags (setFlags s.status Flag.protocolFail) Flag.lineBlocked) := by
  have hf : u.failed := g.elim And.left And.left
  have hs : t.status = u.status := by simp [ht]
  obtain ⟨hr, hm, hl⟩ := hf
  refine ⟨by simp [ht, hr], by simp [ht, hm], ht ▸ State.released.letGo_settle (by exact hl), ?_⟩
  rw [hs]
  rcases g with ⟨-, g⟩ | ⟨-, g | ⟨-, g | g⟩⟩
  · exact .inl g
  · exact .inr (.inl g)
  · exact .inr (.inr (.inl g))
  · exact .inr (.inr (.inr g))

/-- Settles O40: the outcomes of the two bodies, after which the edge detector may hold the clock. -/
theorem masterTransferOutcomes : Obligations.MasterTransferOutcomes := by
  rintro i s t (⟨v, rfl⟩ | ⟨ack, rfl⟩) ha h hc <;> obtain ⟨a, u, hb, rfl⟩ := exec_completed h hc <;>
    have role : s.role = .master := by simp_all [Instr.allowed]
  · obtain ⟨-, k, -, ⟨gr, gm, gl, gb, -, gs⟩ | ⟨gr, gm, gl, gs, hm⟩ | g⟩ := sendBody_ok (by exact ha) hb
    · have kd : u.draws = s.draws := (congrArg State.draws k :)
      refine .inl ⟨by simp [gr, role], by simp [gm], State.clockHeld.settle (by exact gl), by simp [gb], by simp [kd], ?_⟩
      simpa using gs
    · exact .inr (.inl ⟨by simp [gr], by simp [gm], State.released.letGo_settle (by exact gl), by simp [gs], hm, v, rfl⟩)
    · obtain ⟨fr, fm, fl, fs⟩ := failed_outcomes (s := s) g rfl
      exact .inr (.inr ⟨fr, fm, fl, fs, nofun⟩)
  · obtain ⟨ar, -, -, ⟨gr, gm, gl, gb, -, gs, gd, -⟩ | ⟨⟨gd, ad⟩, g⟩⟩ := recvBody_ok (by exact ha) hb
    · exact .inl ⟨by simp [gr, role], by simp [gm], State.clockHeld.settle (by exact gl), by simp [gb], by simp [gd],
        .inl (by simp [gs])⟩
    · obtain ⟨fr, fm, fl, fs⟩ := failed_outcomes (s := s) g rfl
      exact .inr (.inr ⟨fr, fm, fl, fs, fun _ => ⟨by simp [ar, ad], by simp [gd]⟩⟩)

/-! ### Leaving the slave role (R183) -/

theorem State.SlaveHolds.response {s : State} (h : s.SlaveHolds) (w : Option Word) :
    State.SlaveHolds { s with response := w } := { h with }

theorem State.scl_of_sclExt {s : State} (h : s.sclExt = false) : s.scl = false := by simp [State.scl, h]

/-- While the master keeps the clock low nobody sees the slave leave (R183). -/
theorem sLeave_masked {s : State} (h : calm s.inputs = true) (he : s.sclExt = false) :
    sLeave.run s = .ok ()
      { s with sclLow := false, sdaLow := false, sdaOe := false, role := .idle, sstate := .watchingForStart } := by
  have low : ∀ u : State, u.sclExt = false → u.scl = false := fun u => State.scl_of_sclExt
  rw [sLeave, Eng.bind_of_ok (releaseClockHigh_masked h he),
    Eng.bind_of_ok (releaseDataHigh_low (by exact h) (low _ (by exact he))),
    Eng.bind_of_ok (disableDataDriver_low (by exact h) (low _ (by exact he)))]
  rfl

/-- The slave goes on with the clock held, or has left the role with all lines let go (R183, R191). -/
def State.goesOn (stays : Bool) (u : State) : State :=
  if stays then { u with sclLow := true }
  else { u with sclLow := false, sdaLow := false, sdaOe := false, role := .idle, sstate := .watchingForStart }

/-- Without a START pending no further hold follows (R182). -/
theorem State.goesOn_settle {u : State} (stays : Bool) (w : Option Word) (hs : u.startSeen = false) (hr : u.role = .slave) :
    State.settle { u.goesOn stays with response := w } = { u.goesOn stays with response := w } :=
  State.settle_of_nothing_pending (by cases stays <;> exact hs)
    (by cases stays <;> simp [State.goesOn, State.recoveryPending, hr])

/-- What SSEND does with the master's answer: `A` lets it go on with more bytes expected and no collision (R189). -/
theorem ssendEnd_of_answered {u : State} (more high collided : Bool) (hr : calm u.inputs = true) (he : u.sclExt = false) :
    (ssendEnd more collided (if high then .nacked else .acked)).run u = .ok ()
      (State.goesOn (more && !high && !collided) { u with status := u.status ||| (if high then Flag.noAck else 0) }) := by
  cases high with
  | true =>
    have leave := sLeave_masked (s := { u with status := u.status ||| Flag.noAck }) hr he
    simp [ssendEnd, flag, setFlags, leave, State.goesOn]
  | false =>
    cases stays : more && !collided with
    | true => simp [ssendEnd, stays, pullClockLow_calm hr, State.goesOn]
    | false => simp [ssendEnd, stays, sLeave_masked hr he, State.goesOn]

section
variable {s u : State} (h : s.SlaveHolds)
include h

/-- The whole byte was received (R190). -/
theorem srecvBody_of_done {ack : Bool} (hd : s.dir = .write) (hb : (sRecvByte ack).run s = .ok .done u)
    (hr : calm u.inputs = true) (he : u.sclExt = false) :
    (srecvBody ack).run s = .ok ⟨false, u.sr⟩ (u.goesOn ack) := by
  cases ack <;>
    simp [srecvBody, h.slave_en, h.slave, hd, hb, pullClockLow_calm hr, sLeave_masked hr he, State.goesOn]

/-- The master answered the byte: `NoAck` by the level of the ninth pulse, `SlaveCollision` by what the byte met (R189). -/
theorem ssendBody_of_answered {v : Byte} {more high collided : Bool} (hd : s.dir = .read)
    (hb : (sSendByte v).run s = .ok (if high then .nacked else .acked, collided) u) (hr : calm u.inputs = true)
    (he : u.sclExt = false) :
    (ssendBody v more).run s = .ok .none (State.goesOn (more && !high && !collided) { u with
      status := u.status ||| (if collided then Flag.slaveCollision else 0) ||| (if high then Flag.noAck else 0) }) := by
  have ended := ssendEnd_of_answered (u := { u with
    status := u.status ||| (if collided then Flag.slaveCollision else 0) }) more high collided hr he
  simp only [ssendBody, Eng.bind_run, EStateM.run_get, h.slave_en, h.slave, hd, beq_self_eq_true, Bool.and_self, if_true, hb,
    flag, Eng.modify_run, setFlags, ended, EStateM.run_pure]

end

/-- Settles O37: the run of `s_recv_byte`, after which the slave goes on exactly when it has driven `A`. -/
theorem srecvReadsByte : Obligations.SrecvReadsByte := by
  intro v ack s rest h hd hr hi
  have run := sRecvByte_byte v ack { s with response := none } rest h.scl_low (State.scl_of_sclExt h.scl_low) hi hr
  rw [exec_of_ok (.srecv ack) (s := s) (srecvBody_of_done (h.response none) hd run hr h.scl_low),
    State.goesOn_settle ack _ (by exact h.no_start) (by exact h.slave)]
  have role := h.slave
  obtain ⟨-, hl, ho⟩ := h.lines
  obtain ⟨⟩ := s
  cases ack <;> simp_all [State.goesOn]

/-- The bus shows no collision exactly when no bit of `v` is 1 where that of `w` is 0 (R145, R269). -/
theorem slaveBus_no_collision_iff (v w : Byte) : (slaveBus (bits v) (bits w) false).2 = false ↔ v &&& ~~~w = 0 := by
  have zip : (bits v).zip (bits w) = (List.range 8).map fun i => (v.getMsbD i, w.getMsbD i) := List.zip_map' ..
  have bitwise : v &&& ~~~w = 0 ↔ ∀ i < 8, v.getMsbD i = true → w.getMsbD i = true := by
    constructor
    · intro h0 i hi hv
      simpa [hi, hv] using congrArg (BitVec.getMsbD · i) h0
    · intro hb
      exact BitVec.eq_of_getMsbD_eq fun i hi => by simpa [hi] using hb i hi
  rw [slaveBus_collided, Bool.false_or, zip, bitwise, List.any_eq_false]
  simp

/-- Settles O36: the run of `s_send_byte`, its collision read off the two bytes; the slave goes on after `A` with more bytes
expected and no collision. -/
theorem ssendEffect : Obligations.SsendEffect := by
  intro v w more high s rest h hd hr hi
  have run := sSendByte_levels v w high { s with response := none } rest h.scl_low hi hr
  have own := slaveBus_own (bits v) (bits w) (by simp)
  refine ⟨_, exec_of_ok (.ssend v more) (s := s) (ssendBody_of_answered (h.response none) hd run hr h.scl_low), ?_⟩
  rw [State.goesOn_settle _ _ (by exact h.no_start) (by exact h.slave)]
  simp only [← slaveBus_no_collision_iff]
  cases hc : (slaveBus (bits v) (bits w) false).2 with
  | true => simp [State.goesOn, Answer.none, State.released, h.no_start, h.busy]
  | false =>
    rw [own hc, foldl_shiftInto_bits]
    cases more <;> cases high <;>
      simp [State.goesOn, Answer.none, State.released, State.clockHeld, h.no_start, h.busy, h.slave]

end Sys2Proof.Machine
end

section
/-! PROOFS. The statements of 42_master_addressing.md: the undisturbed hold (R168), OPEN on an idle, a held and a taken bus (R160
to R165, R169, R222), and every way it can complete (R271). -/

namespace Sys2Proof.Machine

/-! ### Between commands -/

/-- Everything a step can do: the reset input, nothing in a hung engine, an act of the environment or none, after which the hold
may engage, or a command (R8, R182, R300, R318). -/
theorem step_cases {s t : State} (h : step s = .next t) :
    (∃ rest, rest <:+ s.inputs ∧ t = State.resetInput { s with inputs := rest }) ∨
    s.hung = true ∧ t = s ∨
    s.hung = false ∧ ∃ rest, rest <:+ s.inputs ∧
      ((∃ a, t = (State.act a { s with inputs := rest }).settle) ∨ t = State.settle { s with inputs := rest } ∨
        ∃ i, exec i { s with inputs := rest } = .next t) := by
  have quiet {u : State} (hu : takeInput s = .quiet u) : t = u := by
    simp only [step, hu] at h; cases h; rfl
  cases hi : s.inputs with
  | nil =>
    rcases Bool.eq_false_or_eq_true s.hung with hh | hh
    · exact .inr (.inl ⟨hh, quiet (by simp [takeInput, hi, hh])⟩)
    · have settled : t = s.settle := quiet (by simp [takeInput, hi, hh])
      exact .inr (.inr ⟨hh, [], List.suffix_rfl, .inr (.inl (by rw [settled, ← hi]))⟩)
  | cons item rest =>
    have tail : rest <:+ item :: rest := List.suffix_cons ..
    by_cases hr : item = .reset
    · exact .inl ⟨rest, tail, quiet (by simp [takeInput, hi, hr])⟩
    rcases Bool.eq_false_or_eq_true s.hung with hh | hh
    · exact .inr (.inl ⟨hh, quiet (by cases item <;> simp_all [takeInput])⟩)
    refine .inr (.inr ⟨hh, rest, tail, ?_⟩)
    cases item with
    | reset => exact absurd rfl hr
    | env a | race a => exact .inl ⟨a, quiet (by simp [takeInput, hi, hh])⟩
    | pass | expire => exact .inr (.inl (quiet (by simp [takeInput, hi, hh])))
    | command w =>
      cases hd : decode w with
      | ok i => exact .inr (.inr ⟨i, by rw [← step_command hh hi hd, h]⟩)
      | error e => rw [step_reserved hh hi hd] at h; cases h

/-- A step with a line change next in an engine that is not hung (R74, R182). -/
theorem step_act {s : State} {a : LineAct} {rest : List Input} (hh : s.hung = false)
    (hi : s.inputs = .env a :: rest ∨ s.inputs = .race a :: rest) :
    step s = .next (State.act a { s with inputs := rest }).settle := by
  have ht : takeInput s = .quiet (State.act a { s with inputs := rest }).settle := by
    rcases hi with hi | hi <;> simp [takeInput, hi, hh]
  simp only [step, ht]

/-- Settles O14: with the clock held by the engine no act is an edge, and the hold has nothing left to engage. -/
theorem nothingHappensWhileClockIsHeld : Obligations.NothingHappensWhileClockIsHeld := by
  intro s a rest hh hl hi
  have engaged : (State.act a { s with inputs := rest }).settle = State.act a { s with inputs := rest } :=
    State.settle_of fun _ => by simpa using hl
  refine ⟨_, step_act hh hi, ?_, ?_⟩
  · exact (State.settle_scl _).trans (State.scl_of_sclLow (by simpa using hl))
  · rw [engaged, State.act_of_sclLow a (by exact hl)]
    cases a <;> rfl

/-! ### The undisturbed hold (R168) -/

/-- If the engine holds the bus, no START is pending and the bus is busy (R168). -/
def State.HoldsQuietly (s : State) : Prop := s.holding = true → s.quiet

theorem State.holding_iff {s : State} :
    s.holding = true ↔ s.role = .master ∧ (s.mstate = .acked ∨ s.mstate = .nacked) := by
  simp [State.holding]

theorem State.HoldsQuietly.of_role {s : State} (h : s.role ≠ .master) : s.HoldsQuietly :=
  fun hh => absurd (State.holding_iff.mp hh).1 h

/-- Only the role, the master's state and the two latches matter. -/
theorem State.HoldsQuietly.of_same {s t : State} (h : s.HoldsQuietly) (hr : t.role = s.role) (hm : t.mstate = s.mstate)
    (hl : s.still t) : t.HoldsQuietly := fun hh =>
  hl.quiet (h (by rwa [State.holding, hr, hm] at hh))

theorem State.HoldsQuietly.settle {s : State} (h : s.HoldsQuietly) : s.settle.HoldsQuietly :=
  h.of_same (by simp) (by simp) ⟨by simp, by simp⟩

/-- A master that holds the bus holds the clock, so no act is an edge (R42 (v), R168). -/
theorem State.HoldsQuietly.act {s : State} (h : s.HoldsQuietly) (hb : s.Between) (a : LineAct) :
    (s.act a).HoldsQuietly := by
  intro hh
  obtain ⟨hr, hm⟩ := State.holding_iff.mp hh
  rw [State.act_role] at hr
  rw [State.act_mstate] at hm
  have low : s.scl = false := State.scl_of_sclLow (hb.holding_lines hr hm).1
  exact (State.act_still (.inl low)).quiet (h (State.holding_iff.mpr ⟨hr, hm⟩))

section
variable {s t : State} {a : Answer} (hq : s.HoldsQuietly)
include hq

theorem releaseBody_holdsQuietly (ha : Instr.release.allowed s = true) (h : releaseBody.run s = .ok a t) :
    t.HoldsQuietly := by
  obtain ⟨-, ⟨-, gr, -⟩ | ⟨-, gr, -⟩ | ⟨-, -, rfl⟩⟩ := releaseBody_ok ha h
  · exact .of_role (by simp [gr])
  · exact .of_role (by simp [gr])
  · exact hq

theorem pollBody_holdsQuietly {cand mask : Byte} (ha : s.params.slaveEn = true)
    (h : (pollBody cand mask).run s = .ok a t) : t.HoldsQuietly := by
  have served {u : State} (g : u.pollLeaves cand t a) : t.role ≠ .master := by
    obtain ⟨-, -, ⟨gr, -⟩ | ⟨-, ⟨gr, -⟩, -⟩⟩ := g <;> simp [gr]
  rcases pollBody_ok ha h with ⟨-, -, rfl⟩ | ⟨-, ⟨-, g⟩ | ⟨-, -, g⟩⟩
  · exact hq
  · exact .of_role (served g)
  · exact .of_role (served g)

theorem slvenBody_holdsQuietly {en : Bool} (ha : s.params.slaveEn = true) (h : (slvenBody en).run s = .ok a t) :
    t.HoldsQuietly := by
  cases en with
  | true =>
    rw [slvenBody_on ha] at h
    cases h
    intro hh
    obtain ⟨no_start, busy⟩ := hq hh
    exact ⟨by simp [no_start], busy⟩
  | false =>
    obtain ⟨-, -, -, -, unchanged, gr, -⟩ := slvenBody_off ha h
    by_cases hm : s.role = .slave ∨ s.recoveryPending = true ∨ s.role = .idle
    · refine .of_role ?_
      rw [gr]
      split
      next => nofun
      next hn => rw [(or_assoc.mpr hm).resolve_left hn]; nofun
    · rw [unchanged hm]
      exact hq

/-- A command that is not allowed writes neither a role nor a latch (R115). -/
theorem body_not_allowed_holdsQuietly {i : Instr} (ha : i.allowed s = false) (h : (body i).run s = .ok a t) :
    t.HoldsQuietly := by
  rw [body_not_allowed ha] at h
  cases h
  exact hq

end

section
variable {s t : State} {a : Answer} (hu : s.unraced)
include hu

theorem openBody_holdsQuietly {af : Byte} (ha : (Instr.openDevice af).allowed s = true)
    (h : (openBody af).run s = .ok a t) : t.HoldsQuietly := by
  obtain ⟨-, -, -, -, ⟨-, -, -, quiet, -⟩ | ⟨gm, -⟩ | ⟨⟨gr, -⟩, -⟩⟩ := openBody_ok ha h
  · exact fun _ => quiet hu
  · exact fun hh => by simp [State.holding, gm] at hh
  · exact .of_role (by simp [gr])

theorem sendBody_holdsQuietly {v : Byte} (ha : (Instr.send v).allowed s = true) (h : (sendBody v).run s = .ok a t) :
    t.HoldsQuietly := by
  obtain ⟨-, -, -, ⟨-, -, -, -, quiet, -⟩ | ⟨gr, -⟩ | ⟨⟨gr, -⟩, -⟩ | ⟨⟨gr, -⟩, -⟩⟩ := sendBody_ok ha h
  · exact fun _ => quiet hu
  all_goals exact .of_role (by simp [gr])

theorem recvBody_holdsQuietly {ack : Bool} (ha : (Instr.recv ack).allowed s = true)
    (h : (recvBody ack).run s = .ok a t) : t.HoldsQuietly := by
  obtain ⟨-, -, -, ⟨-, -, -, -, quiet, -⟩ | ⟨-, ⟨⟨gr, -⟩, -⟩ | ⟨⟨gr, -⟩, -⟩⟩⟩ := recvBody_ok ha h
  · exact fun _ => quiet hu
  all_goals exact .of_role (by simp [gr])

end

theorem ssendBody_holdsQuietly {v : Byte} {more : Bool} {s t : State} {a : Answer}
    (ha : (Instr.ssend v more).allowed s = true) (h : (ssendBody v more).run s = .ok a t) : t.HoldsQuietly := by
  have slave : s.role = .slave := by simp_all [Instr.allowed]
  obtain ⟨-, -, -, ⟨-, gr, -⟩ | ⟨⟨gr, -⟩, -⟩⟩ := ssendBody_ok ha h
  · exact .of_role (by simp [gr, slave])
  · exact .of_role (by simp [gr])

theorem srecvBody_holdsQuietly {ack : Bool} {s t : State} {a : Answer} (ha : (Instr.srecv ack).allowed s = true)
    (h : (srecvBody ack).run s = .ok a t) : t.HoldsQuietly := by
  have slave : s.role = .slave := by simp_all [Instr.allowed]
  obtain ⟨-, -, -, ⟨-, -, -, -, ⟨-, gr, -⟩ | ⟨-, gr, -⟩⟩ | ⟨⟨gr, -⟩, -⟩⟩ := srecvBody_ok ha h
  · exact .of_role (by simp [gr, slave])
  all_goals exact .of_role (by simp [gr])

/-- Every command that runs to its end on an unraced bus: it holds the bus after a byte whose pulses saw no START and no STOP
(R132 step 9), or it has left the latches alone, or it does not hold the bus. -/
theorem body_holdsQuietly {i : Instr} {s t : State} {a : Answer} (hu : s.unraced) (hq : s.HoldsQuietly)
    (h : (body i).run s = .ok a t) : t.HoldsQuietly := by
  cases ha : i.allowed s with
  | false => exact body_not_allowed_holdsQuietly hq ha h
  | true =>
    cases i with
    | init own mask bitrate =>
      obtain ⟨-, ⟨-, role, -⟩, -⟩ := initBody_ok h
      exact .of_role (by simp [role])
    | openDevice af => exact openBody_holdsQuietly hu ha h
    | send v => exact sendBody_holdsQuietly hu ha h
    | recv ack => exact recvBody_holdsQuietly hu ha h
    | release => exact releaseBody_holdsQuietly hq ha h
    | poll cand mask => exact pollBody_holdsQuietly hq ha h
    | ssend v more => exact ssendBody_holdsQuietly ha h
    | srecv ack => exact srecvBody_holdsQuietly ha h
    | slven en => exact slvenBody_holdsQuietly hq ha h
    | status => cases h; exact hq

theorem exec_quietHold {i : Instr} {s t : State} (hu : s.unraced) (hq : s.HoldsQuietly) (h : exec i s = .next t) :
    t.quietHold := by
  rcases exec_next h with ⟨a, u, hb, rfl⟩ | ⟨u, -, rfl⟩ | ⟨u, -, rfl⟩
  · have quietly : u.HoldsQuietly := body_holdsQuietly (by exact hu) (by exact hq) hb
    exact fun _ => State.HoldsQuietly.settle quietly
  · exact nofun
  · exact fun _ => State.HoldsQuietly.of_role nofun

/-! A step uses inputs and adds none. -/

theorem exec_inputs {i : Instr} {s t : State} (h : exec i s = .next t) : t.inputs <:+ s.inputs := by
  have used := (body_tame i).suffix { s with response := none }
  rcases exec_next h with ⟨a, u, hu, rfl⟩ | ⟨u, hu, rfl⟩ | ⟨u, hu, rfl⟩ <;> simpa [Eng.final, hu] using used

theorem step_inputs {s t : State} (h : step s = .next t) : t.inputs <:+ s.inputs := by
  rcases step_cases h with ⟨rest, hr, rfl⟩ | ⟨-, rfl⟩ | ⟨-, rest, hr, ⟨a, rfl⟩ | rfl | ⟨i, hx⟩⟩
  · exact hr
  · exact List.suffix_rfl
  · simpa using hr
  · simpa using hr
  · exact (exec_inputs hx).trans hr

theorem State.unraced.of_suffix {s t : State} (hu : s.unraced) (h : t.inputs <:+ s.inputs) : t.unraced :=
  fun a ha => hu a (h.subset ha)

/-- Settles O51: between commands a held clock masks every act, and a command that ends holding the bus has left both latches as
R168 says. -/
theorem holdingMasterIsUndisturbed : Obligations.HoldingMasterIsUndisturbed := by
  intro s t hs hu hq h
  refine ⟨?_, hu.of_suffix (step_inputs h)⟩
  rcases step_cases h with ⟨rest, -, rfl⟩ | ⟨-, rfl⟩ | ⟨hh, rest, hr, hx⟩
  · exact fun _ => State.HoldsQuietly.of_role nofun
  · exact hq
  · have quietly : State.HoldsQuietly { s with inputs := rest } := hq hh
    rcases hx with ⟨a, rfl⟩ | rfl | ⟨i, hx⟩
    · exact fun _ => (quietly.act ((hs hh).inputs rest) a).settle
    · exact fun _ => quietly.settle
    · exact exec_quietHold (hu.of_suffix hr) quietly hx

/-! ### OPEN, part by part (R163) -/

/-- OPEN from its START on: what `start` does decides whether the address is sent (R163). -/
def openAfter (start : Eng Bool) (af : Byte) (multi : Bool) : Eng Answer := do
  if ← start then openAddress af multi
  return .none

section
variable {start : Eng Bool} {af : Byte} {multi : Bool} {s u t : State}

theorem openAfter_of_proceed (hs : start.run s = .ok true u) (hb : (openAddress af multi).run u = .ok () t) :
    (openAfter start af multi).run s = .ok .none t := by
  rw [openAfter, Eng.bind_of_ok hs, if_pos rfl, Eng.bind_of_ok hb]
  rfl

theorem openAfter_of_end (hs : start.run s = .ok false u) : (openAfter start af multi).run s = .ok .none u := by
  rw [openAfter, Eng.bind_of_ok hs]
  rfl

/-- While the engine holds the bus OPEN makes a repeated START (R162, R163). -/
theorem openBody_of_holding (he : s.params.masterEn = true) (hh : s.holding = true) :
    (openBody af).run s = (openAfter (openRestart s.params.multi) af s.params.multi).run { s with status := 0 } := by
  have allowed : (s.params.masterEn && (s.role == .idle || s.role == .master)) = true := by
    simp [he, (State.holding_iff.mp hh).1]
  rw [openBody, setStatus, Eng.bind_of_ok (Eng.modify_run _ _), Eng.bind_of_ok (EStateM.run_get _),
    if_pos (by exact allowed), if_pos (by exact hh)]
  rfl

/-- OPEN of an idle device or with a recovery pending makes a START, unless the bus is taken (R163, R169). -/
theorem openBody_of_idle (he : s.params.masterEn = true) (hp : s.role = .idle ∨ s.recoveryPending = true) :
    (openBody af).run s = (openAfter (openStart s.params.multi) af s.params.multi).run { s with status := 0 } := by
  have cases : s.role = .idle ∨ s.role = .master ∧ s.mstate = .arbitrationLost := by
    simpa [State.recoveryPending] using hp
  have allowed : (s.params.masterEn && (s.role == .idle || s.role == .master)) = true := by
    rcases cases with h | ⟨h, -⟩ <;> simp [he, h]
  have not_holding : ¬s.holding = true := by
    rcases cases with h | ⟨-, h⟩ <;> simp [State.holding, h]
  have not_started : ¬(s.role == .master && s.mstate == .startAsserted) = true := by
    rcases cases with h | ⟨-, h⟩ <;> simp [h]
  rw [openBody, setStatus, Eng.bind_of_ok (Eng.modify_run _ _), Eng.bind_of_ok (EStateM.run_get _),
    if_pos (by exact allowed), if_neg (by exact not_holding), if_neg (by exact not_started)]
  rfl

theorem openRestart_of_ok (h : mRestart.run s = .ok .ok u) :
    (openRestart multi).run s = .ok true { u with mstate := .startAsserted } := by
  rw [openRestart, Eng.bind_of_ok h]
  rfl

/-- No other master has taken the bus, and the START succeeded (R160, R163). -/
theorem openStart_of_ok (hs : s.startSeen = false) (hb : s.busBusy = false)
    (h : mStart.run { s with role := .idle, mstate := .idle } = .ok .ok u) :
    (openStart multi).run s = .ok true { u with role := .master, mstate := .startAsserted } := by
  rw [openStart, Eng.bind_of_ok (EStateM.run_get _), if_neg (by simp [hs]), if_neg (by simp [hb]), setRole, setMState,
    Eng.bind_of_ok (Eng.modify_run _ _), Eng.bind_of_ok (Eng.modify_run _ _), Eng.bind_of_ok h]
  rfl

/-- A foreign START is pending and the slave response enabled: the hold stays, and a POLL will serve it (R169). -/
theorem openStart_of_started (hs : s.startSeen = true) (hv : s.slven = true) :
    (openStart true).run s = .ok false { s with
      status := setFlags s.status (Flag.arbitrationLost ||| Flag.restarted), mstate := .arbitrationLost, bitcnt := 0
      role := .master } := by
  simp [openStart, hs, hv, flag, setMState, setBitcnt, setRole]

theorem releaseClockHigh_same (hr : calm s.inputs = true) (hl : s.sclLow = false) :
    releaseClockHigh.run s = .ok () { s with sclLow := false } := by
  rw [releaseClockHigh, lineCall_calm hr, State.observe_same (by simp [State.scl, hl]) (by rfl)]

/-- What OPEN writes when it finds the bus taken and goes idle (R169). -/
def State.findsTaken (s : State) (f : Flags) : State :=
  { s with status := setFlags s.status f, mstate := .arbitrationLost, role := .idle }

/-- A foreign START is pending and nobody will serve it (R169). -/
theorem openStart_of_started_disabled (hs : s.startSeen = true) (hv : s.slven = false) (hr : calm s.inputs = true)
    (hl : s.sclLow = false) :
    (openStart true).run s = .ok false
      { s.findsTaken (Flag.arbitrationLost ||| Flag.restarted) with bitcnt := 0, sclLow := false } := by
  rw [openStart, Eng.bind_of_ok (EStateM.run_get _), if_pos (by simp [hs]), flag, setMState, setBitcnt,
    Eng.bind_of_ok (Eng.modify_run _ _), Eng.bind_of_ok (Eng.modify_run _ _), Eng.bind_of_ok (Eng.modify_run _ _),
    if_neg (by simp [hv]), setRole, Eng.bind_of_ok (Eng.modify_run _ _),
    Eng.bind_of_ok (releaseClockHigh_same (by exact hr) (by exact hl))]
  rfl

/-- The bus is busy and no START is pending: the edge detector sees the clock let go (R169). -/
theorem openStart_of_busy (hs : s.startSeen = false) (hb : s.busBusy = true) (hr : calm s.inputs = true) :
    (openStart true).run s = .ok false ((s.findsTaken Flag.arbitrationLost).observe
      { s.findsTaken Flag.arbitrationLost with sclLow := false }) := by
  rw [openStart, Eng.bind_of_ok (EStateM.run_get _), if_neg (by simp [hs]), if_pos (by simp [hb]), flag, setMState, setRole,
    Eng.bind_of_ok (Eng.modify_run _ _), Eng.bind_of_ok (Eng.modify_run _ _), Eng.bind_of_ok (Eng.modify_run _ _),
    releaseClockHigh, Eng.bind_of_ok (lineCall_calm (by exact hr))]
  rfl

/-- The address on a clock the engine holds after its START, which nobody disturbs: the level of the ninth pulse decides (R163,
R164). -/
theorem openAddress_answered (af : Byte) (multi high : Bool) (s : State) (rest : List Input) (c : s.Clocking)
    (hd : s.sdaExt = true) (hi : s.inputs = idleByte ++ levelInPulse high ++ rest) (hr : calm rest = true) :
    (openAddress af multi).run s = .ok () { s with
      status := setFlags s.status (if high then Flag.noAck else Flag.success), mstate := if high then .nacked else .acked
      sr := af, bitcnt := 8, dir := dirOf af, sdaLow := false, sdaOe := false, sdaExt := high, inputs := rest
      wire := .pulse high :: onWire (bits af) ++ s.wire } := by
  have sent := mSendByte_answered af multi high { s with dir := dirOf af } rest
    ⟨c.scl_low, c.scl_free, c.no_start, c.busy⟩ hd hi hr
  cases high <;> simp_all [openAddress, setDir, setMState, flag]

end

/-- OPEN's body answers neither `R` nor `DATA` (R89, R163). -/
theorem exec_open_of_ok {af : Byte} {s u : State} (h : (openBody af).run { s with response := none } = .ok .none u) :
    exec (.openDevice af) s = .next (State.settle { u with response := some (responseWord false 0 u.status) }) := by
  rw [exec_of_ok (.openDevice af) (s := s) h]
  rfl

/-! ### OPEN on an undisturbed bus (R160 to R165) -/

/-- Settles O20: a START, then the address on the clock the engine holds from it; no further hold follows. -/
theorem openOnIdleBus : Obligations.OpenOnIdleBus := by
  intro af high s rest h hr hi
  obtain ⟨en, idle, ⟨hl, hd, ho⟩, hc, hx, hn, hb⟩ := h
  have started := openStart_of_ok (multi := s.params.multi) (s := { s with response := none, status := 0 }) hn hb
    (mStart_idle _ (idleByte ++ levelInPulse high ++ rest) hl hd ho hc hx hb (by simpa using hi) (by rfl))
  have run := (openBody_of_idle (s := { s with response := none }) en (.inl idle)).trans
    (openAfter_of_proceed started (openAddress_answered af _ high _ rest ⟨rfl, hc, rfl, rfl⟩ hx rfl hr))
  rw [exec_open_of_ok run, State.settle_of (by exact fun _ => rfl)]
  cases high <;> simp [setFlags]

/-- Settles O21: a repeated START, then the address on the clock the engine holds from it; no further hold follows. -/
theorem openRepeatsStart : Obligations.OpenRepeatsStart := by
  intro af high s rest h hr hi
  obtain ⟨hl, hd, ho⟩ := h.lines
  have started := openRestart_of_ok (multi := s.params.multi) (mRestart_held { s with response := none, status := 0 }
    (idleByte ++ levelInPulse high ++ rest) ⟨hl, h.scl_free, h.no_start, h.busy⟩ hd ho h.sda_free (by simpa using hi)
    (by rfl))
  have run := (openBody_of_holding (s := { s with response := none }) h.master_en h.holds).trans
    (openAfter_of_proceed started (openAddress_answered af _ high _ rest ⟨rfl, h.scl_free, rfl, rfl⟩ h.sda_free rfl hr))
  rw [exec_open_of_ok run, State.settle_of (by exact fun _ => rfl)]
  cases high <;> simp [setFlags, hl, hd, ho, h.no_start, h.busy]

/-! ### OPEN on a bus another master has taken (R169, R222) -/

/-- OPEN ends where its look at the bus has ended it (R169). -/
theorem exec_open_of_taken {af : Byte} {s u : State} (en : s.params.masterEn = true) (multi : s.params.multi = true)
    (hp : s.role = .idle ∨ s.recoveryPending = true)
    (hu : (openStart true).run { s with response := none, status := 0 } = .ok false u) :
    exec (.openDevice af) s = .next (State.settle { u with response := some (responseWord false 0 u.status) }) := by
  refine exec_open_of_ok ?_
  rw [openBody_of_idle (by exact en) (by exact hp)]
  exact openAfter_of_end (by simpa only [multi] using hu)

/-- Settles O22: the three ways the bus can be taken; letting go of a clock that the engine holds is no START and no STOP. -/
theorem openOnTakenBus : Obligations.OpenOnTakenBus := by
  intro af s en multi hp
  have both : setFlags 0 (Flag.arbitrationLost ||| Flag.restarted) = 0x140 := by decide
  refine ⟨fun hs hv => ?_, fun hs hv hr hl => ?_, fun hs hb hr => ?_⟩
  · rw [exec_open_of_taken en multi hp (openStart_of_started hs hv), ← both]
  · rw [exec_open_of_taken en multi hp (openStart_of_started_disabled hs hv hr hl),
      State.settle_of_disabled (by exact hv), ← both]
    simp [State.findsTaken, hl]
  · have still := State.observe_still (u := State.findsTaken { s with response := none, status := 0 } Flag.arbitrationLost)
      (v := { State.findsTaken { s with response := none, status := 0 } Flag.arbitrationLost with sclLow := false })
      (.inr (.inr rfl))
    obtain ⟨no_start, busy⟩ := still.quiet ⟨hs, hb⟩
    refine ⟨_, exec_open_of_taken en multi hp (openStart_of_busy hs hb hr), ?_⟩
    rw [State.settle_of_nothing_pending (by exact no_start) (by simp [State.recoveryPending, State.findsTaken])]
    simpa [State.findsTaken, setFlags, Flag.arbitrationLost] using And.intro no_start busy

/-! ### OPEN, whatever the environment does (R163, R164, R169, R271) -/

/-- A hold that a START makes due is engaged when the edge detector has settled (R182). -/
theorem State.letGo_settle_of_started {s : State} (hv : s.slven = true) (hs : s.startSeen = true) (hd : s.sdaLow = false)
    (ho : s.sdaOe = false) : s.settle.letGo := by
  refine ⟨by simp [hd], by simp [ho], fun hl => ?_⟩
  have low : s.settle.scl = false := State.scl_of_sclLow hl
  rw [State.settle_scl] at low
  simp [State.holdDue, hv, hs, low]

/-- Settles O39: the ends of OPEN's body, after which the edge detector may hold the clock. -/
theorem openOutcomes : Obligations.OpenOutcomes := by
  intro af s t en hp hd ho h hc
  obtain ⟨a, u, hb, rfl⟩ := exec_completed h hc
  have role : s.role = .idle ∨ s.role = .master := by
    rcases hp with hp | hp | hp
    · exact .inl hp
    · exact .inr (State.holding_iff.mp hp).1
    · exact .inr (by simp_all [State.recoveryPending])
  have allowed : (Instr.openDevice af).allowed { s with response := none } = true := by
    rcases role with hr | hr <;> simp [Instr.allowed, en, hr]
  have letGo {w : Option Word} (hl : u.released) : (State.settle { u with response := w }).letGo :=
    State.released.letGo_settle (by exact hl)
  obtain ⟨-, -, -, -, g⟩ := openBody_ok allowed hb
  simp only [State.settle_status, State.settle_mstate, State.settle_role, State.settle_dir, State.settle_bitcnt]
  rcases g with ⟨gr, gl, gb, -, gd, ⟨gm, gs⟩ | ⟨gm, gs⟩⟩ | ⟨gm, multi, g⟩ | ⟨⟨gr, gm, gl⟩, g⟩
  · exact .inl ⟨gs, gm, gr, State.clockHeld.settle (by exact gl), gd, gb⟩
  · exact .inr (.inl ⟨gs, gm, gr, State.clockHeld.settle (by exact gl), gd, gb⟩)
  · rcases g with ⟨gs, gr, gl⟩ | ⟨-, hs, hv, rfl⟩ | ⟨-, -, hv, gs, gr, gl⟩ | ⟨-, -, gs, gr, gl⟩ | ⟨gs, gr, gl, -⟩
    · exact .inr (.inr (.inl ⟨gs, gm, gr, letGo gl, multi⟩))
    · exact .inr (.inr (.inl ⟨rfl, rfl, (if_pos hv).symm, State.letGo_settle_of_started hv hs hd ho, multi⟩))
    · exact .inr (.inr (.inl ⟨gs, gm, gr.trans (if_neg (by simp [show s.slven = false from hv])).symm,
        letGo ⟨gl.1, gl.2.1.trans hd, gl.2.2.trans ho⟩, multi⟩))
    · exact .inr (.inr (.inr (.inl ⟨gs, gm, gr, letGo ⟨gl.1, gl.2.1.trans hd, gl.2.2.trans ho⟩, multi⟩)))
    · exact .inr (.inr (.inr (.inl ⟨gs, gm, gr, letGo gl, multi⟩)))
  · refine .inr (.inr (.inr (.inr ?_)))
    simp only [List.mem_cons, List.not_mem_nil, or_false] at g
    rcases g with gs | ⟨bound, gs | gs | gs | gs⟩
    · exact .inr (.inr ⟨.inl gs, gm, gr, letGo gl⟩)
    · exact .inl ⟨gs, gm, gr, letGo gl, bound⟩
    · exact .inr (.inl ⟨gs, gm, gr, letGo gl, bound⟩)
    · exact .inr (.inr ⟨.inr (.inl gs), gm, gr, letGo gl⟩)
    · exact .inr (.inr ⟨.inr (.inr gs), gm, gr, letGo gl⟩)

end Sys2Proof.Machine
end

section
/-! PROOFS. The statements of 43_slave_match.md: the match predicate (R180, R181), the hold (R182), POLL (R183 to R187, R193),
a SRECV that a STOP or START ends (R190, R194), every way the slave's commands can complete (R271), and the addressed slave
that sees no START (R183, R191). -/

namespace Sys2Proof.Machine

/-! ### The match predicate (R180, R181) -/

/-- The mask `0xFE` keeps bits 7 to 1 (R180). -/
theorem getLsbD_addressBits (x : Byte) {i : Nat} (hi : i ≤ 7) :
    (x &&& 0xFE).getLsbD i = (x.getLsbD i && decide (1 ≤ i)) := by
  have mask : ∀ i < 8, (0xFE : Byte).getLsbD i = decide (1 ≤ i) := by decide
  rw [BitVec.getLsbD_and, mask i (by omega)]

/-- Two bytes agree under the mask of the address bits exactly when they agree in bits 7 to 1. -/
theorem and_addressBits_eq_iff (x y : Byte) :
    x &&& 0xFE = y &&& 0xFE ↔ ∀ i, 1 ≤ i → i ≤ 7 → x.getLsbD i = y.getLsbD i := by
  rw [BitVec.eq_of_getLsbD_eq_iff]
  constructor
  · intro h i low high
    have bit := h i (by omega)
    rw [getLsbD_addressBits x high, getLsbD_addressBits y high] at bit
    simpa [low] using bit
  · intro h i hi
    rw [getLsbD_addressBits x (by omega), getLsbD_addressBits y (by omega)]
    by_cases low : 1 ≤ i
    · rw [h i low (by omega)]
    · simp [low]

theorem and_addressBits_eq_zero_iff (x : Byte) : x &&& 0xFE = 0 ↔ ∀ i, 1 ≤ i → i ≤ 7 → x.getLsbD i = false := by
  simpa using and_addressBits_eq_iff x 0

/-- What a mask does not free of a byte (R180). -/
theorem getLsbD_and_not (x fm : Byte) {i : Nat} (hi : i ≤ 7) :
    (x &&& ~~~fm).getLsbD i = (x.getLsbD i && !fm.getLsbD i) := by
  rw [BitVec.getLsbD_and, BitVec.getLsbD_not, decide_eq_true (by omega : i < 8), Bool.true_and]

/-- The general call is enabled by bit 0 of the mask (R180). -/
theorem and_generalCall_iff (fm : Byte) : fm &&& 0x01 = 0x01 ↔ fm.getLsbD 0 = true := by
  have mask : ∀ i < 8, (0x01 : Byte).getLsbD i = decide (i = 0) := by decide
  rw [BitVec.eq_of_getLsbD_eq_iff]
  constructor
  · intro h
    simpa using h 0 (by decide)
  · intro h i hi
    rw [BitVec.getLsbD_and, mask i hi]
    by_cases zero : i = 0
    · simp [zero, h]
    · simp [zero]

theorem addressMatch_iff (rx fa fm : Byte) : addressMatch rx fa fm = true ↔
    (∀ i, 1 ≤ i → i ≤ 7 → fm.getLsbD i = false → rx.getLsbD i = fa.getLsbD i) ∨
      fm.getLsbD 0 = true ∧ ∀ i, 1 ≤ i → i ≤ 7 → rx.getLsbD i = false := by
  simp only [addressMatch, Bool.or_eq_true, Bool.and_eq_true, beq_iff_eq, and_addressBits_eq_iff, and_generalCall_iff,
    and_addressBits_eq_zero_iff]
  refine or_congr_left (forall_congr' fun i => forall₂_congr fun low high => ?_)
  rw [getLsbD_and_not rx fm high, getLsbD_and_not fa fm high]
  cases fm.getLsbD i <;> simp

/-- Settles O56: the masks of R180 pick the bits the statement names. -/
theorem matchPredicateBitByBit : Obligations.MatchPredicateBitByBit := addressMatch_iff

/-- A general call, with either direction bit, has bits 7 to 1 clear (R181 (a), (b)). -/
theorem generalCall_bits {rx : Byte} (h : rx = 0x00 ∨ rx = 0x01) : ∀ i, 1 ≤ i → i ≤ 7 → rx.getLsbD i = false := by
  rw [← and_addressBits_eq_zero_iff]
  rcases h with rfl | rfl <;> decide

/-- A general call matches by either clause (R181 (a), (b)). -/
theorem addressMatch_generalCall {rx fa fm : Byte} (h : rx = 0x00 ∨ rx = 0x01)
    (hm : fm.getLsbD 0 = true ∨ fa &&& ~~~fm &&& 0xFE = 0) : addressMatch rx fa fm = true := by
  rw [addressMatch_iff]
  rcases hm with enabled | clear
  · exact .inr ⟨enabled, generalCall_bits h⟩
  · refine .inl fun i low high fixed => ?_
    have bit := (and_addressBits_eq_zero_iff _).mp clear i low high
    rw [getLsbD_and_not fa fm high, fixed, Bool.not_false, Bool.and_true] at bit
    rw [generalCall_bits h i low high, bit]

/-- A mask that frees every address bit matches every field (R181 (c)). -/
theorem addressMatch_of_all_free {fm : Byte} (h : fm &&& 0xFE = 0xFE) (rx fa : Byte) : addressMatch rx fa fm = true := by
  have free := (and_addressBits_eq_iff fm 0xFF).mp (by rw [h]; rfl)
  refine (addressMatch_iff ..).mpr (.inl fun i low high fixed => ?_)
  have ones : ∀ i < 8, (0xFF : Byte).getLsbD i = true := by decide
  rw [free i low high, ones i (by omega)] at fixed
  cases fixed

/-- Only bits 7 to 1 of the assigned address count (R181 (d)). -/
theorem addressMatch_congr {fa fa' : Byte} (h : fa &&& 0xFE = fa' &&& 0xFE) (rx fm : Byte) :
    addressMatch rx fa fm = addressMatch rx fa' fm := by
  have agree := (and_addressBits_eq_iff fa fa').mp h
  rw [Bool.eq_iff_iff, addressMatch_iff, addressMatch_iff]
  refine or_congr_left (forall_congr' fun i => forall₂_congr fun low high => ?_)
  rw [agree i low high]

/-- Settles O57: the corner cases, each from the predicate bit by bit. -/
theorem matchCornerCases : Obligations.MatchCornerCases := by
  intro rx fa fm
  refine ⟨fun enabled => ⟨?_, ?_⟩, fun _ clear => ⟨?_, ?_⟩, fun free => addressMatch_of_all_free free rx fa, ?_, by decide⟩
  · exact addressMatch_generalCall (.inl rfl) (.inl enabled)
  · exact addressMatch_generalCall (.inr rfl) (.inl enabled)
  · exact addressMatch_generalCall (.inl rfl) (.inr clear)
  · exact addressMatch_generalCall (.inr rfl) (.inr clear)
  · refine addressMatch_congr ?_ rx fm
    rw [and_addressBits_eq_iff]
    intro i low high
    rw [BitVec.getLsbD_xor, generalCall_bits (.inr rfl) i low high, Bool.xor_false]

/-! ### The hold (R182) -/

/-- Settles O12: after the reset input `SLVEN` is 0; every other step of an engine that is not hung ends with the edge detector
settled. -/
theorem holdIsEngagedWheneverDue : Obligations.HoldIsEngagedWheneverDue := by
  intro s t h hh hv hc hp
  have due : t.holdDue = true := by simpa [State.holdDue, hv, hc] using hp
  have of_settled {u : State} (e : t = u.settle) : t.sclLow = true := by
    subst e
    exact u.settle_engaged due
  rcases step_cases h with ⟨rest, -, rfl⟩ | ⟨hung, rfl⟩ | ⟨-, rest, -, ⟨a, e⟩ | e | ⟨i, hx⟩⟩
  · cases hv
  · rw [hung] at hh
    cases hh
  · exact of_settled e
  · exact of_settled e
  · rcases exec_next hx with ⟨a, u, -, e⟩ | ⟨u, -, rfl⟩ | ⟨u, -, rfl⟩
    · exact of_settled e
    · cases hh
    · cases hv

/-! ### POLL with the slave response disabled (R193) -/

/-- A command word is presented only when it comes next. -/
theorem inputs_of_presented {s t : State} {w : Word} (h : takeInput s = .presented w t) :
    ∃ rest, s.inputs = .command w :: rest := by
  unfold takeInput at h
  split at h
  next => cases h
  next =>
    split at h
    next => cases h
    next =>
      split at h <;> cases h
      next hi => exact ⟨_, hi⟩

/-- Without a command word no step of a disabled slave sets `SCL_LOW`: only a hold could (R182, R193). -/
theorem takeInput_quiet_disabled {s t : State} (hv : s.slven = false) (h : takeInput s = .quiet t)
    (ht : t.sclLow = true) : s.sclLow = true := by
  have of_settled {u : State} (hu : u.slven = false) (e : u.settle = t) : u.sclLow = true := by
    rwa [← e, State.settle_of_disabled hu] at ht
  unfold takeInput at h
  split at h
  next => cases h; cases ht
  next =>
    split at h
    next => cases h; exact ht
    next =>
      split at h <;> simp only [Event.quiet.injEq, reduceCtorEq] at h
      next a rest _ => simpa using of_settled (by simpa using hv) h
      next a rest _ => simpa using of_settled (by simpa using hv) h
      next rest _ _ _ _ => exact of_settled (u := { s with inputs := rest }) hv h
      next => exact of_settled hv h

/-- Settles O32: the disabled POLL's body writes the filter only, and with `SLVEN = 0` no hold is due. -/
theorem pollWhileDisabled : Obligations.PollWhileDisabled := by
  refine ⟨fun cand mask s en hv => ?_, fun s t hv hc h => ?_⟩
  · have run := pollBody_disabled (cand := cand) (mask := mask) (s := { s with response := none }) en hv
    rw [exec_of_ok (.poll cand mask) run, State.settle_of_disabled (by exact hv)]
  · unfold step at h
    split at h
    next u hu => cases h; exact takeInput_quiet_disabled hv hu
    next w u hu =>
      obtain ⟨rest, hi⟩ := inputs_of_presented hu
      exact absurd hi (hc w rest)

/-! ### POLL serves a START (R183 to R186, R191) -/

/-- POLL serves an address whose missing bits `bs` another master clocks in: what is left is the answer (R183, R184). -/
theorem pollServe_of_levels (cand : Byte) (bs : List Bool) (s : State) (rest : List Input) (he : s.sclExt = false)
    (hl : s.sdaLow = false) (ho : s.sdaOe = false) (hb : s.busBusy = true) (hk : s.bitcnt.toNat + bs.length = 8)
    (hi : s.inputs = bs.flatMap masterPulse ++ rest) (hr : calm rest = true) :
    (pollServe cand).run s = (pollAnswer cand .done).run
      { s with
        sstate := .byteClockingIn, sr := bs.foldl shiftInto s.sr, bitcnt := 8, sclLow := true,
        sdaExt := bs.getLastD s.sdaExt, inputs := rest, wire := onWire bs ++ s.wire } := by
  have clocked := sClockIn_levels bs s.inputs.length { s with sstate := .byteClockingIn } rest he hl ho hb hk hi hr
  rw [pollServe, setSState, Eng.bind_of_ok (Eng.modify_run _ _), Eng.bind_of_ok (EStateM.run_get _),
    Eng.bind_of_ok clocked]

section
variable {cand : Byte} {s : State} {rest : List Input} (he : s.sclExt = false) (hr : calm rest = true)
include he hr

/-- On a match the engine drives `A` in the ninth pulse and holds the clock as the addressed slave (R185, R191). -/
theorem pollAnswer_of_match (hm : addressMatch s.sr s.faddr s.fmask = true) (hi : s.inputs = clockPulse ++ rest) :
    (pollAnswer cand .done).run s = .ok ⟨true, s.sr⟩
      { s with
        status := Flag.success, role := .slave, sstate := .matched, rxaddr := s.sr, dir := dirOf s.sr, sclLow := true,
        sdaLow := false, sdaOe := false, inputs := rest, wire := .pulse false :: s.wire } := by
  have low : ∀ u : State, u.sclExt = false → u.scl = false := fun _ => State.scl_of_sclExt
  have pulse := sPutBit_clock (s := { s with sdaOe := true }) (rest := rest) (b := false) false he hi hr (by simp)
  rw [pollAnswer, Eng.bind_of_ok (EStateM.run_get _), if_pos hm,
    Eng.bind_of_ok (enableDataDriver_low (by rw [hi]; rfl) (low s he)), Eng.bind_of_ok pulse,
    Eng.bind_of_ok (releaseDataHigh_low (by exact hr) (low _ (by exact he))),
    Eng.bind_of_ok (disableDataDriver_low (by exact hr) (low _ (by exact he))),
    Eng.bind_of_ok (pullClockLow_calm (by exact hr))]
  rfl

/-- On a mismatch the engine leaves `N` and lets go of both lines (R186). -/
theorem pollAnswer_of_mismatch (hm : addressMatch s.sr s.faddr s.fmask = false) (hi : s.inputs = rest) :
    (pollAnswer cand .done).run s = .ok ⟨false, cand⟩
      { s with
        status := setFlags s.status Flag.restarted, role := .idle, sstate := .watchingForStart, sclLow := false,
        sdaLow := false, sdaOe := false } := by
  rw [pollAnswer, Eng.bind_of_ok (EStateM.run_get _), if_neg (by simp [hm]), setSState, flag,
    Eng.bind_of_ok (Eng.modify_run _ _), Eng.bind_of_ok (Eng.modify_run _ _),
    Eng.bind_of_ok (sLeave_masked (by rw [hi]; exact hr) (by exact he))]
  rfl

end

theorem State.SlaveAddressed.response {s : State} (h : s.SlaveAddressed) (w : Option Word) :
    State.SlaveAddressed { s with response := w } := { h with }

/-- The whole field `v` is clocked in (R183, R184). -/
theorem pollBody_of_addressed {s : State} (h : s.SlaveAddressed) (cand mask v : Byte) {rest : List Input}
    (hi : s.inputs = (bits v).flatMap masterPulse ++ rest) (hr : calm rest = true) :
    (pollBody cand mask).run s = (pollAnswer cand .done).run
      { s with
        status := 0, sstate := .byteClockingIn, sr := v, bitcnt := 8, faddr := cand, fmask := mask, sclLow := true,
        startSeen := false, sdaExt := v.getLsbD 0, inputs := rest, wire := onWire (bits v) ++ s.wire } := by
  have not_pending : s.recoveryPending = false := by simp [State.recoveryPending, h.idle]
  rw [pollBody_start h.slave_en h.enabled not_pending h.start_seen,
    pollServe_of_levels cand (bits v) _ rest (by exact h.scl_low) (by exact h.sda_low) (by exact h.sda_oe)
      (by exact h.busy) (by simp) (by exact hi) hr,
    foldl_shiftInto_bits, getLastD_bits]

/-- Settles O33: the field is clocked in and answered; no START is pending any more, so no further hold follows. -/
theorem pollServesStart : Obligations.PollServesStart := by
  intro cand mask v s rest h hr
  refine ⟨fun hm hi => ?_, fun hm hi => ?_⟩
  · have run := pollBody_of_addressed (h.response none) cand mask v
      (rest := clockPulse ++ rest) (by simpa using hi) rfl
    rw [pollAnswer_of_match (by exact h.scl_low) hr (by exact hm) (by rfl)] at run
    rw [exec_of_ok (.poll cand mask) (s := s) run, State.settle_of (by exact fun _ => rfl)]
    simp [h.sda_low, h.sda_oe]
  · have run := pollBody_of_addressed (h.response none) cand mask v hi hr
    rw [pollAnswer_of_mismatch (by exact h.scl_low) hr (by exact hm) (by rfl)] at run
    rw [exec_of_ok (.poll cand mask) (s := s) run, State.settle_of_nothing_pending (by rfl) (by rfl)]
    simp [h.sda_low, h.sda_oe, h.idle, setFlags]

/-! ### SRECV ended by a STOP or START inside the byte (R190, R194) -/

/-- What another master does to end a byte early: with the clock high it moves the data line to `stop`, a STOP if that is high
and a START if it is low (R71). -/
def endingPulse (stop : Bool) : List Input := [.env (.sda !stop), .env (.scl true), .env (.sda stop)]

/-- The state a STOP or START leaves in a pulse that the slave follows with the data line let go (R135, R182). -/
def State.ended (s : State) (stop : Bool) (rest : List Input) : State :=
  { s with
    sdaLow := false, sclLow := false, sclExt := true, sdaExt := stop, startSeen := !stop, busBusy := !stop, inputs := rest,
    wire := (if stop then .stop else .restart) :: .pulse (!stop) :: s.wire }

theorem sPutBit_ended (stop : Bool) {s : State} {rest : List Input} (he : s.sclExt = false) (ho : s.sdaOe = false)
    (hb : s.busBusy = true) (hi : s.inputs = endingPulse stop ++ rest) (hr : calm rest = true) :
    (sPutBit true).run s = .ok (if stop then .stop else .start) (s.ended stop rest) := by
  cases stop with
  | true => exact sPutBit_stop he ho hi hr
  | false => exact sPutBit_start he ho hb hi hr

/-- A STOP or START comes after fewer bits than were to come (R137). -/
theorem sRecvBits_ended (bs : List Bool) {n : Nat} (hn : bs.length < n) (stop : Bool) (s : State) (rest : List Input)
    (he : s.sclExt = false) (hl : s.sdaLow = false) (ho : s.sdaOe = false) (hb : s.busBusy = true)
    (hi : s.inputs = bs.flatMap masterPulse ++ (endingPulse stop ++ rest)) (hr : calm rest = true) :
    (sRecvBits n).run s = .ok (if stop then .stop else .start)
      (State.ended { s with
        sr := bs.foldl shiftInto s.sr, bitcnt := s.bitcnt + BitVec.ofNat 4 bs.length, wire := onWire bs ++ s.wire }
        stop rest) := by
  obtain ⟨more, rfl⟩ : ∃ more, n = bs.length + (more + 1) := ⟨n - bs.length - 1, by omega⟩
  rw [sRecvBits_more bs (more + 1) s _ he hl ho hi rfl, sRecvBits,
    Eng.bind_of_ok (sPutBit_ended stop (by exact he) (by exact ho) (by exact hb) (by rfl) hr)]
  cases stop <;> rfl

/-- A STOP or START ends the whole procedure too; both lines are let go before it and stay so (R137). -/
theorem sRecvByte_ended (bs : List Bool) (ack stop : Bool) (hn : bs.length < 8) (s : State) (rest : List Input)
    (he : s.sclExt = false) (hb : s.busBusy = true)
    (hi : s.inputs = bs.flatMap masterPulse ++ (endingPulse stop ++ rest)) (hr : calm rest = true) :
    (sRecvByte ack).run s = .ok (if stop then .stop else .start)
      (State.ended { s with
        sr := bs.foldl shiftInto s.sr, bitcnt := BitVec.ofNat 4 bs.length, sdaOe := false, wire := onWire bs ++ s.wire }
        stop rest) := by
  have hs : calm s.inputs = true := by rw [hi]; cases bs <;> simp [masterPulse, endingPulse]
  have e : s.scl = false := State.scl_of_sclExt he
  have bits_in := sRecvBits_ended bs hn stop { s with bitcnt := 0, sdaLow := false, sdaOe := false } rest he rfl rfl hb hi hr
  rw [sRecvByte, setBitcnt, Eng.bind_of_ok (releaseDataHigh_low hs e),
    Eng.bind_of_ok (disableDataDriver_low (by exact hs) (by exact e)), Eng.bind_of_ok (Eng.modify_run _ _),
    Eng.bind_of_ok bits_in]
  cases stop <;> simp [State.ended]

/-- With both lines released already nobody sees the slave leave (R183). -/
theorem sLeave_of_released {s : State} (h : calm s.inputs = true) (hc : s.sclLow = false) (hd : s.sdaLow = false) :
    sLeave.run s = .ok ()
      { s with sclLow := false, sdaLow := false, sdaOe := false, role := .idle, sstate := .watchingForStart } := by
  rw [sLeave, Eng.bind_of_ok (releaseClockHigh_same h hc), Eng.bind_of_ok (releaseDataHigh_same (by exact h) (by exact hd)),
    Eng.bind_of_ok (disableDataDriver_same (by exact h) (by rfl))]
  rfl

/-- A SRECV whose byte a STOP or START has ended (R190, R143). -/
theorem srecvBody_of_ended {ack stop : Bool} {s u : State} {rest : List Input} (h : s.SlaveHolds) (hd : s.dir = .write)
    (hb : (sRecvByte ack).run s = .ok (if stop then .stop else .start) (u.ended stop rest)) (hr : calm rest = true) :
    (srecvBody ack).run s = .ok ⟨false, Config.freeByte u.draws⟩
      { u.ended stop rest with
        status := setFlags u.status (if stop then Flag.stopped else Flag.restarted), role := .idle,
        sstate := .watchingForStart, sdaOe := false, draws := u.draws + 1 } := by
  have allowed : (s.params.slaveEn && s.role == .slave && s.dir == .write) = true := by simp [h.slave_en, h.slave, hd]
  have leave (f : Flags) := sLeave_of_released (s := { u.ended stop rest with status := setFlags u.status f }) hr rfl rfl
  rw [srecvBody, Eng.bind_of_ok (EStateM.run_get _), if_pos allowed, Eng.bind_of_ok hb]
  cases stop with
  | true => exact (Eng.bind_of_ok (Eng.modify_run _ _) _).trans (Eng.bind_of_ok (leave Flag.stopped) _)
  | false => exact (Eng.bind_of_ok (Eng.modify_run _ _) _).trans (Eng.bind_of_ok (leave Flag.restarted) _)

/-- Settles O38: the run of `s_recv_byte` that a STOP or START ends; the clock is high then, so no hold is due. -/
theorem srecvEndedByStopOrStart : Obligations.SrecvEndedByStopOrStart := by
  intro ack bs stop s rest h hd hn hr hi
  have run := sRecvByte_ended bs ack stop hn { s with response := none } rest h.scl_low h.busy
    (by simpa [endingPulse] using hi) hr
  refine ⟨_, exec_of_ok (.srecv ack) (s := s) (srecvBody_of_ended (h.response none) hd run hr), ?_⟩
  rw [State.settle_of (by simp [State.holdDue, State.scl, State.ended])]
  exact ⟨rfl, rfl, rfl, rfl, rfl, ⟨rfl, rfl, rfl⟩, rfl, rfl, rfl, rfl, rfl⟩

/-! ### The slave's commands, whatever the environment does (R183 to R190, R271) -/

/-- A slave that has left the bus, when the edge detector has settled (R183, R182). -/
theorem State.left.settle {u : State} (h : u.left) : u.settle.role = .idle ∧ u.settle.sstate = .watchingForStart ∧
    u.settle.letGo := by
  obtain ⟨hr, hs, hl⟩ := h
  exact ⟨by simp [hr], by simp [hs], hl.letGo_settle⟩

/-- What is left of a POLL that has served an address from state `s` on, when the edge detector has settled (R185 to R187). -/
theorem State.pollLeaves.settled {cand : Byte} {s u t : State} {a : Answer} (g : s.pollLeaves cand u a)
    (hb : s.bitcnt.toNat ≤ 8)
    (ht : t = State.settle { u with response := some (responseWord a.r a.data u.status) }) :
    t.faddr = s.faddr ∧ t.fmask = s.fmask ∧
    (t.role = .slave ∧ t.sstate = .matched ∧ t.status = Flag.success ∧ t.clockHeld ∧ t.bitcnt = 8 ∧
        addressMatch t.sr s.faddr s.fmask = true ∧ t.rxaddr = t.sr ∧ t.dir = dirOf t.sr ∧
        t.response = some (responseWord true t.rxaddr Flag.success) ∨
      t.role = .idle ∧ t.sstate = .watchingForStart ∧ t.letGo ∧ t.rxaddr = s.rxaddr ∧ t.dir = s.dir ∧
        t.response = some (responseWord false cand t.status) ∧
        (t.status = setFlags s.status Flag.restarted ∧ addressMatch t.sr s.faddr s.fmask = false ∧ t.bitcnt = 8 ∨
          t.status = clearFlags s.status Flag.restarted ∨
          t.status = setFlags s.status Flag.timedOut)) := by
  obtain ⟨k, -, g⟩ := g
  have kf : u.faddr = s.faddr := (congrArg State.faddr k :)
  have km : u.fmask = s.fmask := (congrArg State.fmask k :)
  subst ht
  simp only [State.settle_faddr, State.settle_fmask, State.settle_role, State.settle_sstate, State.settle_status,
    State.settle_bitcnt, State.settle_sr, State.settle_rxaddr, State.settle_dir, State.settle_response]
  refine ⟨kf, km, ?_⟩
  rcases g with ⟨gr, gs, gf, gl, gb, gm, gx, gd, rfl⟩ | ⟨rfl, gl, gx, gd, gf⟩
  · exact .inl ⟨gr, gs, gf, State.clockHeld.settle (by exact gl), gb hb, gm, gx, gd, by rw [gx, gf]⟩
  · obtain ⟨-, -, hl⟩ := State.left.settle (u := { u with response := some (responseWord false cand u.status) }) gl
    obtain ⟨gr, gs, -⟩ := gl
    refine .inr ⟨gr, gs, hl, gx, gd, rfl, ?_⟩
    rcases gf with ⟨gf, gm, gb⟩ | gf | ⟨gf, -⟩
    · exact .inl ⟨gf, gm, gb hb⟩
    · exact .inr (.inl gf)
    · exact .inr (.inr gf)

/-- Settles O41: a POLL with something to serve ends as the address it serves makes it; `base` is the status it begins with. -/
theorem pollOutcomes : Obligations.PollOutcomes := by
  intro cand mask s t base en hv hbase hb h hc
  obtain ⟨a, u, hu, ht⟩ := exec_completed h hc
  rcases pollBody_ok (by exact en) hu with ⟨idle, -, -⟩ | ⟨-, ⟨hp, g⟩ | ⟨hp, -, g⟩⟩
  · have nothing : s.slven = false ∨ s.recoveryPending = false ∧ s.startSeen = false := idle
    rcases hbase with ⟨hp, -⟩ | ⟨-, hn, -⟩
    · simp [hv, hp] at nothing
    · simp [hv, hn] at nothing
  · obtain ⟨-, rfl⟩ := hbase.resolve_right fun e => by cases e.1.symm.trans hp
    exact g.settled hb ht
  · obtain ⟨-, -, rfl⟩ := hbase.resolve_left fun e => by cases e.1.symm.trans hp
    exact g.settled (Nat.zero_le _) ht

/-- Settles O42: the outcomes of the two bodies, after which the edge detector may hold the clock. -/
theorem slaveTransferOutcomes : Obligations.SlaveTransferOutcomes := by
  refine ⟨fun v more s t ha h hc => ?_, fun ack s t ha h hc => ?_⟩ <;>
    obtain ⟨a, u, hb, rfl⟩ := exec_completed h hc <;>
    have role : s.role = .slave := by simp_all [Instr.allowed]
  · obtain ⟨-, k, -, g⟩ := ssendBody_ok (by exact ha) hb
    have kd : u.draws = s.draws := (congrArg State.draws k :)
    refine ⟨by simp [kd], ?_⟩
    rcases g with ⟨hm, gr, gs, gl, gb, gf⟩ | ⟨gl, c, f, hf, gf, hx⟩
    · exact .inl ⟨hm, by simp [gr, role], by simp [gs], State.clockHeld.settle (by exact gl), by simp [gb], by simp [gf]⟩
    · obtain ⟨gr, gs, gl⟩ := State.left.settle (u := { u with response := some (responseWord a.r a.data u.status) }) gl
      refine .inr ⟨gr, gs, gl, f, hf, hx, ?_⟩
      cases c with
      | true => exact .inr (by simp [gf])
      | false => exact .inl (by simp [gf, setFlags])
  · obtain ⟨ar, -, -, g⟩ := srecvBody_ok (by exact ha) hb
    rcases g with ⟨gf, gb, gd, ad, g⟩ | ⟨gl, gd, ad, f, hf, gf, hx⟩
    · refine .inl ⟨by simp [gf], by simp [gb], by simp [gd], by simp [ar, ad, gf], ?_⟩
      rcases g with ⟨rfl, gr, gs, gl⟩ | ⟨rfl, gl⟩
      · exact ⟨by simp [gr, role], by simp [gs], State.clockHeld.settle (by exact gl)⟩
      · exact State.left.settle (by exact gl)
    · obtain ⟨gr, gs, gl⟩ := State.left.settle (u := { u with response := some (responseWord a.r a.data u.status) }) gl
      exact .inr ⟨by simp [gd], by simp [ar, ad], gr, gs, gl, f, hf, by simp [gf], hx⟩

/-! ### The addressed slave sees no START (R183, R191) -/

/-- If the engine is an addressed slave, no START is pending and the bus is busy (R191). -/
def State.ServesQuietly (s : State) : Prop := s.role = .slave → s.quiet

theorem State.ServesQuietly.of_role {s : State} (h : s.role ≠ .slave) : s.ServesQuietly := fun hr => absurd hr h

/-- Only the role and the two latches matter. -/
theorem State.ServesQuietly.of_same {s t : State} (h : s.ServesQuietly) (hr : t.role = s.role) (hl : s.still t) :
    t.ServesQuietly := fun ht => hl.quiet (h (hr.symm.trans ht))

theorem State.ServesQuietly.settle {s : State} (h : s.ServesQuietly) : s.settle.ServesQuietly :=
  h.of_same (by simp) ⟨by simp, by simp⟩

/-- An addressed slave holds the clock (R42 (vii)). -/
theorem State.Between.slave_scl {s : State} (h : s.Between) (hr : s.role = .slave) : s.scl = false :=
  State.scl_of_sclLow (h.slave_lines hr).1.1

/-- With the clock held no act is an edge (R191). -/
theorem State.ServesQuietly.act {s : State} (h : s.ServesQuietly) (hb : s.Between) (a : LineAct) :
    (s.act a).ServesQuietly := by
  intro hr
  rw [State.act_role] at hr
  exact (State.act_still (.inl (hb.slave_scl hr))).quiet (h hr)

/-- What a POLL could serve has not gone stale: with the clock high the data line is still low (log 19). -/
def State.Fresh (s : State) : Prop := s.startSeen = true ∨ s.recoveryPending = true → s.scl = true → s.sda = false

section
variable {s t : State} {a : Answer}

/-- OPEN ends as master or idle (R226). -/
theorem openBody_not_slave {af : Byte} (ha : (Instr.openDevice af).allowed s = true) (h : (openBody af).run s = .ok a t) :
    t.role ≠ .slave := by
  obtain ⟨-, -, -, -, ⟨gr, -⟩ | ⟨-, -, g⟩ | ⟨⟨gr, -⟩, -⟩⟩ := openBody_ok ha h
  · simp [gr]
  · rcases g with ⟨-, gr, -⟩ | ⟨-, -, -, rfl⟩ | ⟨-, -, -, -, gr, -⟩ | ⟨-, -, -, gr, -⟩ | ⟨-, gr, -⟩
    · rw [gr]
      split <;> nofun
    · nofun
    all_goals simp [gr]
  · simp [gr]

theorem sendBody_not_slave {v : Byte} (ha : (Instr.send v).allowed s = true) (h : (sendBody v).run s = .ok a t) :
    t.role ≠ .slave := by
  have master : s.role = .master := by simp_all [Instr.allowed]
  obtain ⟨-, -, -, ⟨gr, -⟩ | ⟨gr, -⟩ | ⟨⟨gr, -⟩, -⟩ | ⟨⟨gr, -⟩, -⟩⟩ := sendBody_ok ha h <;> simp [gr, master]

theorem recvBody_not_slave {ack : Bool} (ha : (Instr.recv ack).allowed s = true) (h : (recvBody ack).run s = .ok a t) :
    t.role ≠ .slave := by
  have master : s.role = .master := by simp_all [Instr.allowed]
  obtain ⟨-, -, -, ⟨gr, -⟩ | ⟨-, ⟨⟨gr, -⟩, -⟩ | ⟨⟨gr, -⟩, -⟩⟩⟩ := recvBody_ok ha h <;> simp [gr, master]

theorem releaseBody_not_slave (ha : Instr.release.allowed s = true) (h : releaseBody.run s = .ok a t) :
    t.role ≠ .slave := by
  have role : s.role = .idle ∨ s.role = .master := by simp_all [Instr.allowed]
  obtain ⟨-, ⟨-, gr, -⟩ | ⟨-, gr, -⟩ | ⟨-, -, rfl⟩⟩ := releaseBody_ok ha h
  · simp [gr]
  · simp [gr]
  · rcases role with hr | hr <;> simp [hr]

section
variable (hq : s.ServesQuietly)
include hq

theorem slvenBody_servesQuietly {en : Bool} (ha : s.params.slaveEn = true) (h : (slvenBody en).run s = .ok a t) :
    t.ServesQuietly := by
  cases en with
  | true =>
    rw [slvenBody_on ha] at h
    cases h
    intro hr
    obtain ⟨no_start, busy⟩ := hq hr
    exact ⟨by simp [no_start], busy⟩
  | false =>
    obtain ⟨-, -, -, -, -, gr, -⟩ := slvenBody_off ha h
    refine .of_role ?_
    rw [gr]
    split
    next => nofun
    next hn => exact fun hr => hn (.inl hr)

/-- A command that is not allowed writes neither a role nor a latch (R115). -/
theorem body_not_allowed_servesQuietly {i : Instr} (ha : i.allowed s = false) (h : (body i).run s = .ok a t) :
    t.ServesQuietly := by
  rw [body_not_allowed ha] at h
  cases h
  exact hq

variable (hu : s.unraced)
include hu

/-- A POLL becomes the addressed slave only by serving an address, which sees no START when what it serves is fresh (R183). -/
theorem pollBody_servesQuietly {cand mask : Byte} (hf : s.Fresh) (ha : s.params.slaveEn = true)
    (h : (pollBody cand mask).run s = .ok a t) : t.ServesQuietly := by
  by_cases idle : s.slven = false ∨ s.recoveryPending = false ∧ s.startSeen = false
  · have nothing : (pollBody cand mask).run s = .ok ⟨false, cand⟩ { s with faddr := cand, fmask := mask } :=
      idle.elim (pollBody_disabled ha) fun ⟨hp, hn⟩ => pollBody_nothing ha hp hn
    cases nothing.symm.trans h
    exact hq
  · simp only [not_or, not_and, Bool.not_eq_false] at idle
    obtain ⟨hv, hn⟩ := idle
    cases hp : s.recoveryPending with
    | true =>
      rw [pollBody_recovery ha hv hp] at h
      exact pollServe_still (by exact hu) (by rfl) (by exact hf (.inr hp)) h
    | false =>
      rw [pollBody_start ha hv hp (hn hp)] at h
      exact pollServe_still (by exact hu) (by rfl) (by exact hf (.inl (hn hp))) h

variable (hb : s.Between)
include hb

theorem ssendBody_servesQuietly {v : Byte} {more : Bool} (ha : (Instr.ssend v more).allowed s = true)
    (h : (ssendBody v more).run s = .ok a t) : t.ServesQuietly := by
  have slave : s.role = .slave := by simp_all [Instr.allowed]
  exact fun ht => (ssendBody_still hu (hb.slave_scl slave) ha h ht).quiet (hq slave)

theorem srecvBody_servesQuietly {ack : Bool} (ha : (Instr.srecv ack).allowed s = true)
    (h : (srecvBody ack).run s = .ok a t) : t.ServesQuietly := by
  have slave : s.role = .slave := by simp_all [Instr.allowed]
  exact fun ht => (srecvBody_still hu (hb.slave_scl slave) ha h ht).quiet (hq slave)

/-- Every command that runs to its end on an unraced bus: it is a slave after an address or a byte in which no START and no
STOP came, or it has left the latches alone, or it is no slave. -/
theorem body_servesQuietly {i : Instr} (hf : s.Fresh) (h : (body i).run s = .ok a t) : t.ServesQuietly := by
  cases ha : i.allowed s with
  | false => exact body_not_allowed_servesQuietly hq ha h
  | true =>
    cases i with
    | init own mask bitrate =>
      obtain ⟨-, ⟨-, role, -⟩, -⟩ := initBody_ok h
      exact .of_role (by simp [role])
    | openDevice af => exact .of_role (openBody_not_slave ha h)
    | send v => exact .of_role (sendBody_not_slave ha h)
    | recv ack => exact .of_role (recvBody_not_slave ha h)
    | release => exact .of_role (releaseBody_not_slave ha h)
    | poll cand mask => exact pollBody_servesQuietly hq hu hf ha h
    | ssend v more => exact ssendBody_servesQuietly hq hu hb ha h
    | srecv ack => exact srecvBody_servesQuietly hq hu hb ha h
    | slven en => exact slvenBody_servesQuietly hq ha h
    | status => cases h; exact hq

theorem exec_quietSlave {i : Instr} (hf : s.Fresh) (h : exec i s = .next t) : t.quietSlave := by
  rcases exec_next h with ⟨a, u, hx, rfl⟩ | ⟨u, -, rfl⟩ | ⟨u, -, rfl⟩
  · have quietly : u.ServesQuietly := body_servesQuietly (by exact hq) (by exact hu) (hb.response none) (by exact hf) hx
    exact fun _ => State.ServesQuietly.settle quietly
  · exact nofun
  · exact fun _ => State.ServesQuietly.of_role nofun

end
end

/-- Settles O60: between commands the held clock masks every act, and a command that ends as the addressed slave has left both
latches as R191 says. -/
theorem addressedSlaveSeesNoStart : Obligations.AddressedSlaveSeesNoStart := by
  intro s t hs hu hq hf h
  refine ⟨?_, hu.of_suffix (step_inputs h)⟩
  rcases step_cases h with ⟨rest, -, rfl⟩ | ⟨-, rfl⟩ | ⟨hh, rest, hr, hx⟩
  · exact fun _ => State.ServesQuietly.of_role nofun
  · exact hq
  · have quietly : State.ServesQuietly { s with inputs := rest } := hq hh
    have between := (hs hh).inputs rest
    rcases hx with ⟨a, rfl⟩ | rfl | ⟨i, hx⟩
    · exact fun _ => (quietly.act between a).settle
    · exact fun _ => quietly.settle
    · exact exec_quietSlave quietly (hu.of_suffix hr) between hf hx

end Sys2Proof.Machine
end

section
/-! PROOFS. The statements of 44_stop.md: RELEASE of a held bus (R210, R211), also when the STOP fails (R271), the second RELEASE
(R212), and what a RELEASE that adds no failure flag has put on the bus (R215). -/

namespace Sys2Proof.Machine

variable {α : Type}

/-! ### RELEASE of a held bus (R211) -/

/-- RELEASE of a bus the engine holds puts the STOP on it and goes idle. -/
theorem releaseBody_holding_iff {s t : State} {a : Answer} (hm : s.params.masterEn = true) (hh : s.holding = true) :
    releaseBody.run s = .ok a t ↔
      ∃ u, mStop.run s = .ok () u ∧ a = .none ∧ t = { u with role := .idle, mstate := .idle } := by
  have allowed : (s.params.masterEn && (s.role == .idle || s.role == .master)) = true := by
    simp [hm, (State.holding_iff.mp hh).1]
  rw [releaseBody, Eng.bind_of_ok (EStateM.run_get s), if_pos allowed, if_pos hh]
  simp only [Eng.bind_ok_iff, setRole, setMState, Eng.modify_ok_iff, Eng.pure_ok_iff]
  constructor
  · rintro ⟨_, u, hu, _, _, rfl, _, _, rfl, rfl, rfl⟩
    exact ⟨u, hu, rfl, rfl⟩
  · rintro ⟨u, hu, rfl, rfl⟩
    exact ⟨(), u, hu, (), _, rfl, (), _, rfl, rfl, rfl⟩

/-- Settles O28: the run of `m_stop` on an undisturbed bus; after the STOP no START is pending, so no hold follows. -/
theorem releasePutsStop : Obligations.ReleasePutsStop := by
  intro s rest h hr hi
  obtain ⟨-, hl, ho⟩ := h.lines
  have stop := mStop_held { s with response := none } rest (h.response none).clocking hl ho h.sda_free hi hr
  have run := (releaseBody_holding_iff (s := { s with response := none }) h.master_en h.holds).mpr ⟨_, stop, rfl, rfl⟩
  rw [exec_of_ok .release run, State.settle_of_nothing_pending (by rfl) (by rfl)]
  obtain ⟨⟩ := s
  simp_all [Answer.none]

/-- Settles O29: the outcomes of the body, after which the edge detector may hold the clock; with a recovery pending the clock is
released and the data line is left as it was. -/
theorem releaseAlwaysLetsGo : Obligations.ReleaseAlwaysLetsGo := by
  intro s t hm hs h hc
  obtain ⟨a, u, hb, rfl⟩ := exec_completed h hc
  have role : s.role = .master := by rcases hs with hh | ⟨hp, -⟩ <;> simp_all [State.holding, State.recoveryPending]
  have allowed : Instr.release.allowed s = true := by simp [Instr.allowed, hm, role]
  obtain ⟨-, g⟩ := releaseBody_ok (by exact allowed) hb
  simp only [State.settle_role, State.settle_mstate, State.settle_status]
  rcases g with ⟨hh, gr, gm, gl, -, -, -, gf⟩ | ⟨hp, gr, gm, gc, gd, go, k⟩ | ⟨hh, hp, -⟩
  · exact ⟨gr, gm, State.released.letGo_settle (by exact gl), gf.imp_right fun f => ⟨hh, f.2⟩⟩
  · have idle_data : s.sdaLow = false ∧ s.sdaOe = false := by
      rcases hs with hh | ⟨-, hd⟩
      · simp_all [State.holding, State.recoveryPending]
      · exact hd
    have gl : u.released := ⟨gc, gd.trans idle_data.1, go.trans idle_data.2⟩
    exact ⟨gr, gm, State.released.letGo_settle (by exact gl), .inl (congrArg State.status k :)⟩
  · rcases hs with hh' | ⟨hp', -⟩
    · cases hh.symm.trans hh'
    · cases hp.symm.trans hp'

/-! ### The second RELEASE (R212) -/

/-- RELEASE has nothing to do: no bus is held and no recovery is pending, or it is not allowed and has said so already. -/
def State.NothingToRelease (s : State) : Prop :=
  if Instr.release.allowed s then s.holding = false ∧ s.recoveryPending = false
  else setFlags s.status Flag.protocolFail = s.status

theorem releaseBody_of_nothing {s : State} (h : s.NothingToRelease) : releaseBody.run s = .ok .none s := by
  unfold State.NothingToRelease at h
  split at h
  next ha =>
    have allowed : (s.params.masterEn && (s.role == .idle || s.role == .master)) = true := ha
    rw [releaseBody, Eng.bind_of_ok (EStateM.run_get s), if_pos allowed, if_neg (by simp [h.1]), if_neg (by simp [h.2])]
    rfl
  next ha =>
    rw [show releaseBody = body .release from rfl, body_not_allowed (Bool.eq_false_iff.mpr ha)]
    exact congrArg (fun f => EStateM.Result.ok Answer.none { s with status := f }) h

/-- After RELEASE the engine is idle, or RELEASE had nothing to do, or it has been refused (R115, R211). -/
theorem releaseBody_leaves_nothing {s t : State} {a : Answer} (h : releaseBody.run s = .ok a t) :
    a = .none ∧ t.NothingToRelease := by
  cases ha : Instr.release.allowed s with
  | true =>
    obtain ⟨hn, g⟩ := releaseBody_ok ha h
    have params : t.params = s.params := (congrArg State.params (releaseBody_keeps.ok h) :)
    have master_en : s.params.masterEn = true := by simp_all [Instr.allowed]
    have idle (hr : t.role = .idle) : t.NothingToRelease := by
      simp [State.NothingToRelease, Instr.allowed, State.holding, State.recoveryPending, params, master_en, hr]
    refine ⟨hn, ?_⟩
    rcases g with ⟨-, gr, -⟩ | ⟨-, gr, -⟩ | ⟨hh, hp, rfl⟩
    · exact idle gr
    · exact idle gr
    · exact (if_pos ha).mpr ⟨hh, hp⟩
  | false =>
    obtain ⟨rfl, rfl⟩ : Answer.none = a ∧ { s with status := setFlags s.status Flag.protocolFail } = t := by
      simpa [Answer.none] using (body_not_allowed ha).symm.trans h
    refine ⟨rfl, ?_⟩
    have refused : Instr.release.allowed { s with status := setFlags s.status Flag.protocolFail } ≠ true := by
      exact Bool.eq_false_iff.mp ha
    rw [State.NothingToRelease, if_neg refused]
    simp [setFlags, BitVec.or_assoc]

/-- Settles O30: what the first RELEASE leaves gives the second nothing to do, and the edge detector's hold is engaged already. -/
theorem releaseIsIdempotent : Obligations.ReleaseIsIdempotent := by
  intro s t h hc
  obtain ⟨a, u, hb, ht⟩ := exec_completed h hc
  obtain ⟨rfl, hu⟩ := releaseBody_leaves_nothing hb
  have nothing : State.NothingToRelease { t with response := none } := by
    simpa [ht, State.NothingToRelease, Instr.allowed, State.holding, State.recoveryPending] using hu
  have same : { t with response := some (responseWord Answer.none.r Answer.none.data t.status) } = t := by
    have word : t.response = some (responseWord Answer.none.r Answer.none.data t.status) := by simp [ht]
    rw [← word]
  rw [exec_of_ok .release (releaseBody_of_nothing nothing), same, ht, State.settle_settle]

/-! ### While nobody pulls the clock low (R215, log 19) -/

theorem State.clockLeftAlone.of_suffix {s t : State} (hs : s.clockLeftAlone) (h : t.inputs <:+ s.inputs) :
    t.clockLeftAlone := ⟨fun hm => hs.1 (h.subset hm), fun hm => hs.2 (h.subset hm)⟩

theorem Eng.Tame.clockLeftAlone {m : Eng α} (h : m.Tame) {s t : State} {a : α} (hs : m.run s = .ok a t)
    (hc : s.clockLeftAlone) : t.clockLeftAlone :=
  hc.of_suffix (by simpa [Eng.final, hs] using h.suffix s)

section
variable {P : State → Prop} (hin : ∀ l s, P s → P { s with inputs := l })
include hin

/-! A property that no act among the inputs can break survives what uses the inputs. -/

theorem runRaces_preserves_of_acts (is : List Input)
    (hact : ∀ a, Input.env a ∈ is ∨ Input.race a ∈ is → ∀ s, P s → P (s.act a)) (s : State) (h : P s) :
    P (endState (runRaces is s)) := by
  induction is generalizing s with
  | nil => exact hin _ _ h
  | cons i is ih =>
    have rest := ih fun a ha => hact a (ha.imp (List.mem_cons_of_mem _) (List.mem_cons_of_mem _))
    cases i
    case race a => exact rest _ (hact a (.inr List.mem_cons_self) _ h)
    all_goals exact hin _ _ h

theorem runHalfBit_preserves_of_acts (is : List Input)
    (hact : ∀ a, Input.env a ∈ is ∨ Input.race a ∈ is → ∀ s, P s → P (s.act a)) (s : State) (h : P s) :
    P (endState (runHalfBit is s)) := by
  induction is generalizing s with
  | nil => exact hin _ _ h
  | cons i is ih =>
    have rest := ih fun a ha => hact a (ha.imp (List.mem_cons_of_mem _) (List.mem_cons_of_mem _))
    cases i
    case env a => exact rest _ (hact a (.inl List.mem_cons_self) _ h)
    case race a => exact rest _ (hact a (.inr List.mem_cons_self) _ h)
    all_goals exact hin _ _ h

theorem runWait_preserves_of_acts (c : State → Bool) (is : List Input)
    (hact : ∀ a, Input.env a ∈ is ∨ Input.race a ∈ is → ∀ s, P s → P (s.act a)) (s : State) (h : P s) :
    P (endState (runWait c is s)) := by
  induction is generalizing s with
  | nil =>
    unfold runWait
    repeat' split
    all_goals exact hin _ _ h
  | cons i is ih =>
    have rest := ih fun a ha => hact a (ha.imp (List.mem_cons_of_mem _) (List.mem_cons_of_mem _))
    cases i <;> unfold runWait <;> repeat' split
    case env.isFalse a _ => exact rest _ (hact a (.inl List.mem_cons_self) _ h)
    case race.isFalse a _ => exact rest _ (hact a (.inr List.mem_cons_self) _ h)
    case pass.isFalse | expire.isFalse => exact rest _ h
    all_goals exact hin _ _ h

end

/-! ### The STOP of a RELEASE (R210, R215) -/

/-- Since `s` the history has grown, and if the data line is high now, a STOP is in what is new and both latches are clear. -/
def State.StopSince (s u : State) : Prop :=
  ∃ new, u.wire = new ++ s.wire ∧ (u.sda = true → Symbol.stop ∈ new ∧ u.startSeen = false ∧ u.busBusy = false)

/-- While the clock stays high the data line cannot rise without the edge detector seeing the STOP (R71). -/
theorem State.StopSince.observe {s u v : State} (h : s.StopSince u) (hu : u.scl = true) (hv : v.scl = true)
    (hs : v.startSeen = u.startSeen) (hb : v.busBusy = u.busBusy) (hw : v.wire = u.wire) : s.StopSince (u.observe v) := by
  obtain ⟨new, e, g⟩ := h
  cases hd : u.sda <;> cases hd' : v.sda
  case false.true =>
    rw [State.observe_rise hu hv hd hd']
    exact ⟨.stop :: new, by simp [hw, e], fun _ => ⟨List.mem_cons_self, rfl, rfl⟩⟩
  case true.false =>
    rw [State.observe_fall hu hv hd hd']
    exact ⟨(if v.busBusy then .restart else .start) :: new, by simp [hw, e], fun hd'' => absurd (hd'.symm.trans hd'') nofun⟩
  all_goals
    rw [State.observe_same (hv.trans hu.symm) (hd'.trans hd.symm)]
    exact ⟨new, hw.trans e, fun hd'' => by simp_all⟩

/-- The STOP of a RELEASE is under way since `s`: the clock is high, nobody is going to pull it low, and a rise of the data line
is a STOP. -/
structure State.Stopping (s u : State) : Prop where
  alone : u.clockLeftAlone
  scl_high : u.scl = true
  since : s.StopSince u

/-- What the environment's acts to come can do to a STOP under way. -/
theorem State.Stopping.act {s u : State} (h : s.Stopping u) (a : LineAct)
    (ha : Input.env a ∈ u.inputs ∨ Input.race a ∈ u.inputs) (v : State) (hv : v.scl = true ∧ s.StopSince v) :
    (v.act a).scl = true ∧ s.StopSince (v.act a) := by
  obtain ⟨high, since⟩ := hv
  have high' : (v.act a).scl = true := by
    rcases a with (_ | _) | _
    · exact (ha.elim h.alone.1 h.alone.2).elim
    all_goals simp_all [State.act, State.scl]
  refine ⟨high', ?_⟩
  cases a <;> exact since.observe high (by simpa [State.act] using high') rfl rfl rfl

theorem races_stopping {s u v : State} (hr : races.run u = .ok () v) (h : s.Stopping u) : s.Stopping v := by
  obtain ⟨high, since⟩ := runRaces_preserves_of_acts (fun _ _ hp => hp) u.inputs h.act u ⟨h.scl_high, h.since⟩
  rw [show runRaces u.inputs u = .ok () v from hr] at high since
  exact ⟨races_tame.clockLeftAlone hr h.alone, high, since⟩

theorem waitHalfBitPeriod_stopping {s u v : State} (hr : waitHalfBitPeriod.run u = .ok () v) (h : s.Stopping u) :
    s.Stopping v := by
  obtain ⟨high, since⟩ := runHalfBit_preserves_of_acts (fun _ _ hp => hp) u.inputs h.act u ⟨h.scl_high, h.since⟩
  rw [show runHalfBit u.inputs u = .ok () v from hr] at high since
  exact ⟨waitHalfBitPeriod_tame.clockLeftAlone hr h.alone, high, since⟩

theorem waitUntil_stopping {s u v : State} {c : State → Bool} {r : WaitResult}
    (hc : ∀ l s, c { s with inputs := l } = c s) (hr : (waitUntil c).run u = .ok r v) (h : s.Stopping u) : s.Stopping v := by
  obtain ⟨high, since⟩ := runWait_preserves_of_acts (fun _ _ hp => hp) c u.inputs h.act u ⟨h.scl_high, h.since⟩
  rw [show runWait c u.inputs u = .ok r v from hr] at high since
  exact ⟨(waitUntil_tame hc).clockLeftAlone hr h.alone, high, since⟩

/-- A line-driver call that leaves the clock line and both latches alone: letting go of the data line, or of its driver. -/
theorem lineCall_stopping {s u v : State} {f : State → State}
    (hf : ∀ s, (f s).scl = s.scl ∧ (f s).startSeen = s.startSeen ∧ (f s).busBusy = s.busBusy ∧ (f s).wire = s.wire ∧
      (f s).inputs = s.inputs) (hr : (lineCall f).run u = .ok () v) (h : s.Stopping u) : s.Stopping v := by
  obtain ⟨w, hw, -, -, rfl⟩ := lineCall_ok hr
  obtain ⟨alone, high, since⟩ := races_stopping hw h
  obtain ⟨fc, fs, fb, fw, fi⟩ := hf w
  exact ⟨alone.of_suffix (by simp [fi]), by simp [fc, high], since.observe high (fc.trans high) fs fb fw⟩

theorem releaseDataHigh_stopping {s u v : State} (hr : releaseDataHigh.run u = .ok () v) (h : s.Stopping u) : s.Stopping v :=
  lineCall_stopping (f := fun s => { s with sdaLow := false }) (fun _ => ⟨rfl, rfl, rfl, rfl, rfl⟩) hr h

theorem disableDataDriver_stopping {s u v : State} (hr : disableDataDriver.run u = .ok () v) (h : s.Stopping u) :
    s.Stopping v :=
  lineCall_stopping (f := fun s => { s with sdaOe := false }) (fun _ => ⟨rfl, rfl, rfl, rfl, rfl⟩) hr h

theorem setFlags_expiry_ne_zero (old : Flags) {f : Flags} (hf : f = Flag.timedOut ∨ f = Flag.lineBlocked) :
    setFlags old f &&& expiryFlags ≠ 0 := by
  rw [flags_and_ne_zero_iff]
  rcases hf with rfl | rfl
  · exact ⟨3, by decide, by simp [setFlags, Flag.timedOut], by decide⟩
  · exact ⟨4, by decide, by simp [setFlags, Flag.lineBlocked], by decide⟩

/-- The first half of the STOP sequencer: the clock rises with the data line pulled low (R210 steps 1 to 5). -/
def stopClock : Eng WaitResult := do
  pullClockLow
  enableDataDriver
  pullDataLow
  waitHalfBitPeriod
  releaseClockHigh
  waitUntil State.scl

/-- The second half: the data line is let go, until both lines are high (R210 steps 6 to 9). -/
def stopData : Eng WaitResult := do
  waitHalfBitPeriod
  releaseDataHigh
  disableDataDriver
  waitHalfBitPeriod
  waitUntil fun s => s.scl && s.sda

theorem mStop_eq : mStop = (do
    if (← stopClock) = .expired then
      flag Flag.timedOut
      releaseDataHigh
      disableDataDriver
    else if (← stopData) = .expired then
      flag Flag.lineBlocked) := by
  simp only [mStop, stopClock, stopData, bind_assoc]

/-- A STOP that leaves neither failure flag has gone through both halves (R210, R265, R266). -/
theorem mStop_unflagged {s t : State} (h : mStop.run s = .ok () t) (hf : t.status &&& expiryFlags = 0) :
    ∃ u, stopClock.run s = .ok .ok u ∧ stopData.run u = .ok .ok t := by
  rw [mStop_eq] at h
  obtain ⟨r, u, hu, h⟩ := Eng.bind_ok_iff.mp h
  cases r with
  | expired =>
    obtain ⟨_, u', hu', h⟩ := Eng.bind_ok_iff.mp h
    obtain rfl := Eng.modify_ok_iff.mp hu'
    obtain ⟨_, v, hv, ht⟩ := Eng.bind_ok_iff.mp h
    have status : t.status = setFlags u.status Flag.timedOut :=
      (congrArg State.status ((disableDataDriver_keeps.ok ht).trans (releaseDataHigh_keeps.ok hv)) :)
    exact absurd (status ▸ hf) (setFlags_expiry_ne_zero _ (.inl rfl))
  | ok =>
    obtain ⟨r', v, hv, h⟩ := Eng.bind_ok_iff.mp h
    cases r' with
    | expired =>
      obtain rfl := Eng.modify_ok_iff.mp h
      exact absurd hf (setFlags_expiry_ne_zero _ (.inr rfl))
    | ok =>
      obtain ⟨-, rfl⟩ := Eng.pure_ok_iff.mp h
      exact ⟨u, hu, hv⟩

/-- When the clock has risen, the data line is still pulled low: the STOP is under way. -/
theorem stopClock_stopping {s u : State} (hc : s.clockLeftAlone) (h : stopClock.run s = .ok .ok u) : s.Stopping u := by
  obtain ⟨_, s1, h1, h⟩ := Eng.bind_ok_iff.mp h
  obtain ⟨_, s2, h2, h⟩ := Eng.bind_ok_iff.mp h
  obtain ⟨_, s3, h3, h⟩ := Eng.bind_ok_iff.mp h
  obtain ⟨_, s4, h4, h⟩ := Eng.bind_ok_iff.mp h
  obtain ⟨_, s5, h5, h6⟩ := Eng.bind_ok_iff.mp h
  have alone : u.clockLeftAlone :=
    (waitUntil_tame scl_inputs).clockLeftAlone h6 <| releaseClockHigh_tame.clockLeftAlone h5 <|
    waitHalfBitPeriod_tame.clockLeftAlone h4 <| pullDataLow_tame.clockLeftAlone h3 <|
    enableDataDriver_tame.clockLeftAlone h2 <| pullClockLow_tame.clockLeftAlone h1 hc
  have edges := latchesByEdges_closed s
  obtain ⟨new, hw, -⟩ : s.LatchesByEdges u :=
    (waitUntil_byEdges _ _ edges).ok h6 <| (releaseClockHigh_byEdges _ edges).ok h5 <|
    (waitHalfBitPeriod_byEdges _ edges).ok h4 <| (pullDataLow_byEdges _ edges).ok h3 <|
    (enableDataDriver_byEdges _ edges).ok h2 <| pullClockLow_byEdges.ok h1
  obtain ⟨-, -, driver⟩ := enableDataDriver_ok h2
  obtain ⟨-, pulled, driver'⟩ := pullDataLow_ok h3
  obtain ⟨-, pulled', driver''⟩ := releaseClockHigh_ok h5
  have kept := (waitUntil_outputs _).ok h6
  have kept' := waitHalfBitPeriod_outputs.ok h4
  have low : u.sda = false := State.sda_of_driven (by simp_all [State.outputs]) (by simp_all [State.outputs])
  exact ⟨alone, (waitUntil_ok scl_inputs h6).1, new, hw, fun hd => absurd (low.symm.trans hd) nofun⟩

theorem stopData_stopping {s u t : State} (hu : s.Stopping u) (h : stopData.run u = .ok .ok t) :
    s.Stopping t ∧ t.sda = true := by
  obtain ⟨_, s1, h1, h⟩ := Eng.bind_ok_iff.mp h
  obtain ⟨_, s2, h2, h⟩ := Eng.bind_ok_iff.mp h
  obtain ⟨_, s3, h3, h⟩ := Eng.bind_ok_iff.mp h
  obtain ⟨_, s4, h4, h5⟩ := Eng.bind_ok_iff.mp h
  have hs : s.Stopping t :=
    waitUntil_stopping (fun _ _ => rfl) h5 <| waitHalfBitPeriod_stopping h4 <| disableDataDriver_stopping h3 <|
    releaseDataHigh_stopping h2 <| waitHalfBitPeriod_stopping h1 hu
  have both : (t.scl && t.sda) = true := (waitUntil_ok (fun _ _ => rfl) h5).1
  exact ⟨hs, (Bool.and_eq_true_iff.mp both).2⟩

/-- Settles O31: without failure flags both halves of the STOP have run; the data line was low when the clock rose and is high
now, so the STOP is in what is new in the history and cleared both latches. -/
theorem releaseWithoutFlagsMadeStop : Obligations.ReleaseWithoutFlagsMadeStop := by
  intro s t hm hh hl h hc _ hf
  obtain ⟨a, u, hb, rfl⟩ := exec_completed h hc
  obtain ⟨v, hv, -, rfl⟩ := (releaseBody_holding_iff (s := { s with response := none }) hm hh).mp hb
  obtain ⟨w, hw, ht⟩ := mStop_unflagged hv (by simpa [expiryFlags] using hf)
  obtain ⟨⟨-, scl_high, new, wire, risen⟩, sda_high⟩ := stopData_stopping (stopClock_stopping (by exact hl) hw) ht
  obtain ⟨stop, no_start, free⟩ := risen sda_high
  obtain ⟨later, earlier, rfl⟩ := List.append_of_mem stop
  exact ⟨by simp [free], by simp [no_start], (State.settle_scl _).trans scl_high, (State.settle_sda _).trans sda_high,
    later, earlier, by simp [wire]⟩

end Sys2Proof.Machine
end

section
/-! PROOFS. The statements of 45_arbitration.md: the loss in the address phase (R220, R221, R230), the recovery (R224, R225, R227,
R229), and the changes of the role (R226). -/

namespace Sys2Proof.Machine

/-! ### The loser in the address phase (R220, R221, R230) -/

/-- `k` bits sent back to back and a lost one are the last bits in the register (R141, R230). -/
theorem drop_bits_of_lost (v : Byte) {k : Nat} (hk : k < 8) :
    (bits (shiftInto (((bits v).take k).foldl shiftInto v) false)).drop (7 - k) = (bits v).take k ++ [false] := by
  have count : 8 - ((bits v).take k ++ [false]).length = 7 - k := by simp; omega
  have last := drop_bits_foldl_shiftInto ((bits v).take k ++ [false]) v (by simp; omega)
  rwa [count, List.foldl_append] at last

/-- The address on a clock the engine holds after its START, lost in bit `k`: the role waits for a POLL only where a slave
response is enabled (R164, R220). -/
theorem openAddress_lost (af : Byte) {k : Nat} (hk : k < 8) (hv : af.getMsbD k = true) (s : State) (rest : List Input)
    (c : s.Clocking) (hd : s.sdaExt = true)
    (hi : s.inputs = (List.replicate k idlePulse).flatten ++ .env (.sda false) :: .pass :: rest) (hr : calm rest = true) :
    (openAddress af true).run s = .ok () { s with
      status := setFlags s.status (Flag.arbitrationLost ||| Flag.restarted)
      role := if s.slven then .master else .idle, mstate := .arbitrationLost
      sr := shiftInto (((bits af).take k).foldl shiftInto af) false, bitcnt := BitVec.ofNat 4 (k + 1), dir := dirOf af
      sclLow := false, sdaLow := false, sdaOe := false, sdaExt := false, inputs := rest
      wire := .pulse false :: onWire ((bits af).take k) ++ s.wire } := by
  have lost := mSendByte_lost af k hk hv { s with dir := dirOf af } rest
    ⟨c.scl_low, c.scl_free, c.no_start, c.busy⟩ hd hi hr
  rw [openAddress, setDir, Eng.bind_of_ok (Eng.modify_run _ _), Eng.bind_of_ok lost]
  cases hs : s.slven <;> simp [flag, setMState, setRole]

/-- Settles O23: a START, then the address up to the lost bit; both lines are let go, so no hold follows. -/
theorem openLosesArbitration : Obligations.OpenLosesArbitration := by
  intro af k s rest h multi hk hv hr hi
  obtain ⟨en, idle, ⟨hl, hd, ho⟩, hc, hx, hn, hb⟩ := h
  have started := openStart_of_ok (multi := true) (s := { s with response := none, status := 0 }) hn hb
    (mStart_idle _ ((List.replicate k idlePulse).flatten ++ .env (.sda false) :: .pass :: rest) hl hd ho hc hx hb
      (by simpa using hi) (by cases k <;> rfl))
  have run := openBody_of_idle (af := af) (s := { s with response := none }) en (.inl idle)
  simp only [multi] at run
  rw [openAfter_of_proceed started (openAddress_lost af hk hv _ rest ⟨rfl, hc, rfl, rfl⟩ hx rfl hr)] at run
  refine ⟨_, drop_bits_of_lost af hk, ?_⟩
  rw [exec_open_of_ok run, State.settle_of (by simp [State.holdDue, State.scl, hc])]
  simp [setFlags, Flag.arbitrationLost, Flag.restarted, hl, hd, ho]

/-! ### The hold after a loss (R227) -/

/-- With a recovery pending the hold engages with the fall of the clock, and nothing else changes (R182, R227). -/
theorem step_recovery_clockFall {s : State} {rest : List Input} (hh : s.hung = false) (hp : s.recoveryPending = true)
    (hv : s.slven = true) (hi : s.inputs = .env (.scl false) :: rest) :
    step s = .next { s with sclExt := false, sclLow := true, inputs := rest } := by
  have fallen : State.act (.scl false) { s with inputs := rest } = { s with inputs := rest, sclExt := false } :=
    State.observe_to_low _ (State.scl_of_sclExt rfl)
  have due : State.holdDue { s with inputs := rest, sclExt := false } = true := by
    simp_all [State.holdDue, State.recoveryPending, State.scl]
  rw [step_act hh (.inl hi), fallen, State.settle, if_pos due]

/-- Settles O15: the clock falls and the hold is due. -/
theorem recoveryHoldEngagesAtClockFall : Obligations.RecoveryHoldEngagesAtClockFall := by
  intro s rest hh hp hv _ hi
  exact ⟨_, step_recovery_clockFall hh hp hv hi, rfl, rfl, hp, rfl, rfl, rfl⟩

/-! ### The recovery (R224, R225) -/

theorem State.recoveryPending_iff {s : State} :
    s.recoveryPending = true ↔ s.role = .master ∧ s.mstate = .arbitrationLost := by
  simp [State.recoveryPending]

theorem State.RecoveryHolds.response {s : State} {v : Byte} {k : Nat} (h : s.RecoveryHolds v k) (w : Option Word) :
    State.RecoveryHolds { s with response := w } v k := { h with }

/-- POLL clocks in the bits of the winner's field that are still missing: what is left is the answer (R225). -/
theorem pollBody_of_recovering {s : State} {v : Byte} {k : Nat} (h : s.RecoveryHolds v k) (cand mask : Byte)
    {rest : List Input} (hi : s.inputs = ((bits v).drop k).flatMap masterPulse ++ rest) (hr : calm rest = true) :
    (pollBody cand mask).run s = (pollAnswer cand .done).run { s with
      status := Flag.restarted, role := .masterProbingForSlaveRole, sstate := .byteClockingIn, sr := v, bitcnt := 8
      faddr := cand, fmask := mask, sclLow := true, startSeen := false, sdaExt := ((bits v).drop k).getLastD s.sdaExt
      inputs := rest, wire := onWire ((bits v).drop k) ++ s.wire } := by
  have missing : s.bitcnt.toNat + ((bits v).drop k).length = 8 := by
    have := h.k_le
    simp only [h.count, BitVec.toNat_ofNat, List.length_drop, bits_length]
    omega
  have trigger : clearFlags s.status Flag.arbitrationLost = Flag.restarted := by rw [h.status]; decide
  rw [pollBody_recovery h.slave_en h.enabled h.pending,
    pollServe_of_levels cand ((bits v).drop k) _ rest (by exact h.scl_low) (by exact h.sda_low) (by exact h.sda_oe)
      (by exact h.busy) (by exact missing) (by exact hi) hr, foldl_shiftInto_drop (by exact h.bits_so_far), trigger]

/-- Settles O34: the missing bits are clocked in and the whole field answered; no START is pending any more, so no further hold
follows. -/
theorem recoveryKeepsTheAddressByte : Obligations.RecoveryKeepsTheAddressByte := by
  intro cand mask v k s rest h hr
  obtain ⟨-, lost⟩ := State.recoveryPending_iff.mp h.pending
  refine ⟨fun hm hi => ?_, fun hm hi => ?_⟩
  · have run := pollBody_of_recovering (h.response none) cand mask (rest := clockPulse ++ rest) (by simpa using hi) rfl
    rw [pollAnswer_of_match (by exact h.scl_low) hr (by exact hm) (by rfl)] at run
    refine ⟨_, exec_of_ok (.poll cand mask) (s := s) run, ?_⟩
    rw [State.settle_of (by exact fun _ => rfl)]
    exact ⟨rfl, rfl, rfl, rfl, rfl, rfl, ⟨rfl, rfl, rfl⟩, lost, rfl, rfl, rfl⟩
  · have run := pollBody_of_recovering (h.response none) cand mask hi hr
    rw [pollAnswer_of_mismatch (by exact h.scl_low) hr (by exact hm) (by rfl)] at run
    refine ⟨_, exec_of_ok (.poll cand mask) (s := s) run, ?_⟩
    have twice : setFlags Flag.restarted Flag.restarted = Flag.restarted := by decide
    rw [State.settle_of_nothing_pending (by rfl) (by rfl)]
    exact ⟨rfl, rfl, rfl, rfl, twice, ⟨rfl, rfl, rfl⟩, rfl, congrArg (some <| responseWord false cand ·) twice, rfl⟩

/-! ### The loser answers the winner (R229) -/

theorem bits_take_succ (v : Byte) {k : Nat} (hk : k < 8) : (bits v).take (k + 1) = (bits v).take k ++ [v.getMsbD k] := by
  rw [List.take_add_one]
  simp [bits, hk]

/-- The bits in which the two fields agree and the 0 that beat the engine's 1 are the winner's first bits (R220, R230). -/
theorem drop_bits_of_winner {af v sr : Byte} {k : Nat} (hk : k < 8) (same : (bits v).take k = (bits af).take k)
    (hv : v.getMsbD k = false) (lost : (bits sr).drop (7 - k) = (bits af).take k ++ [false]) :
    (bits sr).drop (8 - (k + 1)) = (bits v).take (k + 1) := by
  rw [bits_take_succ v hk, hv, same, ← lost, Nat.add_comm k 1, Nat.sub_add_eq]

/-- OPEN has lost to the field `v`: the clock is free, a recovery is pending, and the fall of the clock that comes next leaves
the recovery with the hold (R221, R227). -/
theorem exec_open_lost {af v : Byte} {k : Nat} {s : State} {rest : List Input} (h : s.MasterIdle)
    (config : s.params.config = .multiMasterSlave) (hv : s.slven = true) (hh : s.hung = false) (hk : k < 8)
    (same : (bits v).take k = (bits af).take k) (one : af.getMsbD k = true) (zero : v.getMsbD k = false)
    (hi : s.inputs = [.pass, .pass] ++ (List.replicate k idlePulse).flatten ++ [.env (.sda false), .pass] ++
      .env (.scl false) :: rest) :
    ∃ s1, exec (.openDevice af) s = .next s1 ∧ s1.hung = false ∧ s1.scl = true ∧ s1.rxaddr = s.rxaddr ∧
      s1.inputs = .env (.scl false) :: rest ∧
      State.RecoveryHolds { s1 with sclExt := false, sclLow := true, inputs := rest } v (k + 1) := by
  have multi : s.params.multi = true := by simp [Params.multi, config]
  obtain ⟨hl, hd, ho⟩ := h.lines
  obtain ⟨sr, lost, opened⟩ := openLosesArbitration af k s _ h multi hk one rfl hi
  rw [if_pos hv] at opened
  refine ⟨_, opened, hh, by simp [State.scl, hl, h.scl_free], rfl, rfl, ?_⟩
  exact {
    slave_en := by simp [Params.slaveEn, config]
    enabled := hv
    pending := rfl
    sda_low := hd
    sda_oe := ho
    scl_low := rfl
    busy := rfl
    status := rfl
    count := rfl
    k_le := hk
    bits_so_far := drop_bits_of_winner hk same zero lost }

/-- Settles O35: OPEN loses (O23), the hold engages in the next step (O15), and what POLL then does is the recovery (O34). -/
theorem arbitrationLoserAnswersTheWinner : Obligations.ArbitrationLoserAnswersTheWinner := by
  intro af cand mask v k s rest h config hv hh hk same one zero hr _ hi
  obtain ⟨s1, opened, running, high, rxaddr, next, held⟩ := exec_open_lost h config hv hh hk same one zero
    (rest := ((bits v).drop (k + 1)).flatMap masterPulse ++ clockPulse ++ rest) (by simpa using hi)
  have pending : s1.recoveryPending = true := held.pending
  have fallen := step_recovery_clockFall running pending held.enabled next
  cases hm : addressMatch v cand mask with
  | true =>
    obtain ⟨polled, -⟩ := recoveryKeepsTheAddressByte cand mask v (k + 1) _ rest held hr
    obtain ⟨t, run, role, sstate, captured, -, dir, status, -, -, -, response, -⟩ := polled hm rfl
    exact ⟨s1, _, t, opened, held.status, pending, high, fallen, rfl, run, role, sstate, captured, dir, status, response⟩
  | false =>
    obtain ⟨-, polled⟩ := recoveryKeepsTheAddressByte cand mask v (k + 1) _ (clockPulse ++ rest) held rfl
    obtain ⟨t, run, role, sstate, kept, -, status, -, -, response, -⟩ := polled hm (List.append_assoc ..)
    exact ⟨s1, _, t, opened, held.status, pending, high, fallen, rfl, run, role, sstate, kept.trans rxaddr, status, response⟩

/-! ### The role at the end of a command (R226) -/

/-- What SEND, RECV, SSEND and SRECV do to the two roles: the transfer goes on in the role it began in, or the device is idle. -/
def State.StaysOrIdle (s t : State) : Prop := t.role = s.role ∧ t.mstate = s.mstate ∨ t.role = .idle

section
variable {s t : State} {a : Answer}

theorem sendBody_staysOrIdle {v : Byte} (ha : (Instr.send v).allowed s = true) (h : (sendBody v).run s = .ok a t) :
    s.StaysOrIdle t := by
  obtain ⟨-, -, -, ⟨gr, gm, -⟩ | ⟨gr, -⟩ | ⟨⟨gr, -⟩, -⟩ | ⟨⟨gr, -⟩, -⟩⟩ := sendBody_ok ha h
  · exact .inl ⟨gr, gm⟩
  all_goals exact .inr gr

theorem recvBody_staysOrIdle {ack : Bool} (ha : (Instr.recv ack).allowed s = true)
    (h : (recvBody ack).run s = .ok a t) : s.StaysOrIdle t := by
  obtain ⟨-, -, -, ⟨gr, gm, -⟩ | ⟨-, ⟨⟨gr, -⟩, -⟩ | ⟨⟨gr, -⟩, -⟩⟩⟩ := recvBody_ok ha h
  · exact .inl ⟨gr, gm⟩
  all_goals exact .inr gr

theorem ssendBody_staysOrIdle {v : Byte} {more : Bool} (ha : (Instr.ssend v more).allowed s = true)
    (h : (ssendBody v more).run s = .ok a t) : s.StaysOrIdle t := by
  obtain ⟨-, k, -, ⟨-, gr, -⟩ | ⟨⟨gr, -⟩, -⟩⟩ := ssendBody_ok ha h
  · exact .inl ⟨gr, (congrArg State.mstate k :)⟩
  · exact .inr gr

theorem srecvBody_staysOrIdle {ack : Bool} (ha : (Instr.srecv ack).allowed s = true)
    (h : (srecvBody ack).run s = .ok a t) : s.StaysOrIdle t := by
  obtain ⟨-, k, -, ⟨-, -, -, -, ⟨-, gr, -⟩ | ⟨-, gr, -⟩⟩ | ⟨⟨gr, -⟩, -⟩⟩ := srecvBody_ok ha h
  · exact .inl ⟨gr, (congrArg State.mstate k :)⟩
  all_goals exact .inr gr

/-- POLL that serves an address ends as the addressed slave or idle (R183 to R187). -/
theorem State.pollLeaves.role {cand : Byte} (h : s.pollLeaves cand t a) : t.role = .slave ∨ t.role = .idle := by
  obtain ⟨-, -, ⟨gr, -⟩ | ⟨-, ⟨gr, -⟩, -⟩⟩ := h
  · exact .inl gr
  · exact .inr gr

/-- OPEN ends as master or idle (R164, R169). -/
theorem State.openLeaves.role {af : Byte} (h : s.openLeaves af t) : t.role = .master ∨ t.role = .idle := by
  obtain ⟨-, -, -, ⟨gr, -⟩ | ⟨-, -, g⟩ | ⟨⟨gr, -⟩, -⟩⟩ := h
  · exact .inl gr
  · rcases g with ⟨-, gr, -⟩ | ⟨-, -, -, rfl⟩ | ⟨-, -, -, -, gr, -⟩ | ⟨-, -, -, gr, -⟩ | ⟨-, gr, -⟩
    · rw [gr]; split <;> simp
    · exact .inl rfl
    all_goals exact .inr gr
  · exact .inr gr

end

/-! ### The status while a recovery is pending (R224) -/

/-- If a recovery is pending, the status is its trigger, with at most `ProtocolFail` added (R224). -/
def State.KeepsTrigger (s : State) : Prop := s.recoveryPending = true → s.status = 0x140 ∨ s.status = 0x160

theorem State.KeepsTrigger.of_role {s : State} (h : s.role ≠ .master) : s.KeepsTrigger :=
  fun hp => absurd (State.recoveryPending_iff.mp hp).1 h

/-- Only the role, the master's state and the status matter. -/
theorem State.KeepsTrigger.of_same {s t : State} (h : s.KeepsTrigger) (hr : t.role = s.role) (hm : t.mstate = s.mstate)
    (hs : t.status = s.status) : t.KeepsTrigger := by
  intro hp
  rw [hs]
  exact h (by rwa [State.recoveryPending, hr, hm] at hp)

theorem State.KeepsTrigger.act {s : State} (h : s.KeepsTrigger) (a : LineAct) : (s.act a).KeepsTrigger :=
  h.of_same (by simp) (by simp) (by simp)

theorem State.KeepsTrigger.settle {s : State} (h : s.KeepsTrigger) : s.settle.KeepsTrigger :=
  h.of_same (by simp) (by simp) (by simp)

/-- A trigger with `ProtocolFail` added is one. -/
theorem trigger_protocolFail {f : Flags} (h : f = 0x140 ∨ f = 0x160) : setFlags f Flag.protocolFail = 0x160 := by
  rcases h with rfl | rfl <;> decide

/-- A transfer is allowed only to a master that holds the bus and to an addressed slave (R139, R140, R189, R190). -/
theorem no_recovery_of_transfer {i : Instr} {s : State} (hi : i.mnemonic ∈ ["SEND", "RECV", "SSEND", "SRECV"])
    (ha : i.allowed s = true) : s.recoveryPending = false := by
  by_contra hp
  obtain ⟨role, lost⟩ := State.recoveryPending_iff.mp (by simpa using hp)
  cases i <;> simp_all [Instr.allowed, Instr.mnemonic]

/-- A transfer that began with no recovery pending leaves none. -/
theorem State.StaysOrIdle.keepsTrigger {s t : State} (h : s.StaysOrIdle t) (hn : s.recoveryPending = false) :
    t.KeepsTrigger := by
  rcases h with ⟨hr, hm⟩ | hr
  · intro hp
    rw [State.recoveryPending, hr, hm, ← State.recoveryPending, hn] at hp
    cases hp
  · exact .of_role (by simp [hr])

section
variable {s t : State} {a : Answer}

/-- OPEN that leaves a recovery pending has just lost the address or found a START (R164, R169). -/
theorem openBody_keepsTrigger {af : Byte} (ha : (Instr.openDevice af).allowed s = true)
    (h : (openBody af).run s = .ok a t) : t.KeepsTrigger := by
  intro hp
  obtain ⟨role, lost⟩ := State.recoveryPending_iff.mp hp
  obtain ⟨-, -, -, -, ⟨-, -, -, -, -, g⟩ | ⟨-, -, g⟩ | ⟨⟨gr, -⟩, -⟩⟩ := openBody_ok ha h
  · simp [lost] at g
  · rcases g with ⟨gs, -⟩ | ⟨-, -, -, rfl⟩ | ⟨-, -, -, gs, -⟩ | ⟨-, -, -, gr, -⟩ | ⟨-, gr, -⟩
    · exact .inl gs
    · exact .inl rfl
    · exact .inl gs
    all_goals simp [role] at gr
  · simp [role] at gr

variable (hk : s.KeepsTrigger)
include hk

theorem releaseBody_keepsTrigger (ha : Instr.release.allowed s = true) (h : releaseBody.run s = .ok a t) :
    t.KeepsTrigger := by
  obtain ⟨-, ⟨-, gr, -⟩ | ⟨-, gr, -⟩ | ⟨-, -, rfl⟩⟩ := releaseBody_ok ha h
  · exact .of_role (by simp [gr])
  · exact .of_role (by simp [gr])
  · exact hk

theorem pollBody_keepsTrigger {cand mask : Byte} (ha : s.params.slaveEn = true)
    (h : (pollBody cand mask).run s = .ok a t) : t.KeepsTrigger := by
  have served {u : State} (g : u.pollLeaves cand t a) : t.KeepsTrigger :=
    .of_role (by rcases g.role with gr | gr <;> simp [gr])
  rcases pollBody_ok ha h with ⟨-, -, rfl⟩ | ⟨-, ⟨-, g⟩ | ⟨-, -, g⟩⟩
  · exact hk
  · exact served g
  · exact served g

theorem slvenBody_keepsTrigger {en : Bool} (ha : s.params.slaveEn = true) (h : (slvenBody en).run s = .ok a t) :
    t.KeepsTrigger := by
  cases en with
  | true =>
    rw [slvenBody_on ha] at h
    cases h
    exact hk
  | false =>
    obtain ⟨-, k, -, -, -, gr, -⟩ := slvenBody_off ha h
    split at gr
    next => exact .of_role (by simp [gr])
    next => exact hk.of_same gr (congrArg State.mstate k :) (congrArg State.status k :)

/-- A command that is not allowed adds `ProtocolFail`; OPEN, which clears the status first, is allowed to a device with a
recovery pending (R42 (ix), R115). -/
theorem body_not_allowed_keepsTrigger {i : Instr} (hs : s.Between) (ha : i.allowed s = false)
    (h : (body i).run s = .ok a t) : t.KeepsTrigger := by
  rw [body_not_allowed ha] at h
  cases h
  intro hp
  refine .inr ?_
  cases i with
  | openDevice af =>
    obtain ⟨role, -⟩ := State.recoveryPending_iff.mp hp
    change s.role = .master at role
    simp [Instr.allowed, role, hs.master_needs_master role] at ha
  | _ => exact trigger_protocolFail (hk hp)

/-- Every command that runs to its end. -/
theorem body_keepsTrigger {i : Instr} (hs : s.Between) (h : (body i).run s = .ok a t) : t.KeepsTrigger := by
  cases ha : i.allowed s with
  | false => exact body_not_allowed_keepsTrigger hk hs ha h
  | true =>
    cases i with
    | init own mask bitrate =>
      obtain ⟨-, ⟨-, role, -⟩, -⟩ := initBody_ok h
      exact .of_role (by simp [role])
    | openDevice af => exact openBody_keepsTrigger ha h
    | send v => exact (sendBody_staysOrIdle ha h).keepsTrigger (no_recovery_of_transfer (by simp [Instr.mnemonic]) ha)
    | recv ack => exact (recvBody_staysOrIdle ha h).keepsTrigger (no_recovery_of_transfer (by simp [Instr.mnemonic]) ha)
    | release => exact releaseBody_keepsTrigger hk ha h
    | poll cand mask => exact pollBody_keepsTrigger hk ha h
    | ssend v more => exact (ssendBody_staysOrIdle ha h).keepsTrigger (no_recovery_of_transfer (by simp [Instr.mnemonic]) ha)
    | srecv ack => exact (srecvBody_staysOrIdle ha h).keepsTrigger (no_recovery_of_transfer (by simp [Instr.mnemonic]) ha)
    | slven en => exact slvenBody_keepsTrigger hk ha h
    | status => cases h; exact hk

theorem exec_pendingStatus {i : Instr} (hs : s.Between) (h : exec i s = .next t) : t.pendingStatus := by
  rcases exec_next h with ⟨a, u, hb, rfl⟩ | ⟨u, -, rfl⟩ | ⟨u, -, rfl⟩
  · have kept : u.KeepsTrigger := body_keepsTrigger (by exact hk) (hs.response none) hb
    exact fun _ => State.KeepsTrigger.settle kept
  · exact nofun
  · exact fun _ => State.KeepsTrigger.of_role nofun

end

/-- Settles O52: a recovery is left pending by OPEN, with its trigger; what else leaves it pending adds at most `ProtocolFail`. -/
theorem pendingStatusIsKept : Obligations.PendingStatusIsKept := by
  intro s t hs hp h
  rcases step_cases h with ⟨rest, -, rfl⟩ | ⟨-, rfl⟩ | ⟨hh, rest, -, hx⟩
  · exact fun _ => State.KeepsTrigger.of_role nofun
  · exact hp
  · have kept : State.KeepsTrigger { s with inputs := rest } := hp hh
    rcases hx with ⟨a, rfl⟩ | rfl | ⟨i, hx⟩
    · exact fun _ => (kept.act a).settle
    · exact fun _ => kept.settle
    · exact exec_pendingStatus kept ((hs hh).inputs rest) hx

/-! ### The table of transitions (R226) -/

/-- A change of `ROLE` from that of `s` to `r` that the table of R226 allows the command `i`. -/
inductive RoleMove (i : Instr) (s : State) (r : Role) : Prop
  | stays (same : r = s.role)
  | opened (ends : r = .master) (idle : s.role = .idle) (command : i.mnemonic = "OPEN")
  | matched (ends : r = .slave) (served : s.role = .idle ∨ s.recoveryPending = true) (command : i.mnemonic = "POLL")
  | left (ends : r = .idle)
      (slave : s.role = .slave → i.mnemonic ∈ ["INIT", "SSEND", "SRECV"] ∨ i = .slven false)
      (master : s.role = .master → i.mnemonic ∈ ["INIT", "OPEN", "SEND", "RECV", "RELEASE"] ∨
        s.recoveryPending = true ∧ (i.mnemonic = "POLL" ∨ i = .slven false))

section
variable {s t : State} {a : Answer}

/-- A transfer that its role allows may end that role. -/
theorem State.StaysOrIdle.roleMove {i : Instr} (h : s.StaysOrIdle t)
    (hi : s.role = .master ∧ i.mnemonic ∈ ["SEND", "RECV"] ∨ s.role = .slave ∧ i.mnemonic ∈ ["SSEND", "SRECV"]) :
    RoleMove i s t.role := by
  rcases h with ⟨gr, -⟩ | gr
  · exact .stays gr
  · rcases hi with ⟨role, command⟩ | ⟨role, command⟩
    · have ends := List.Sublist.subset (l₂ := ["INIT", "OPEN", "SEND", "RECV", "RELEASE"]) (by decide) command
      exact .left gr (fun hr => by simp [hr] at role) fun _ => .inl ends
    · have ends := List.Sublist.subset (l₂ := ["INIT", "SSEND", "SRECV"]) (by decide) command
      exact .left gr (fun _ => .inl ends) fun hr => by simp [hr] at role

theorem openBody_roleMove {af : Byte} (ha : (Instr.openDevice af).allowed s = true) (h : (openBody af).run s = .ok a t) :
    RoleMove (.openDevice af) s t.role := by
  have role : s.role = .idle ∨ s.role = .master := by simp_all [Instr.allowed]
  obtain ⟨-, g⟩ := openBody_ok ha h
  rcases g.role with gr | gr
  · rcases role with hr | hr
    · exact .opened gr hr rfl
    · exact .stays (gr.trans hr.symm)
  · exact .left gr (fun hr => by simp [hr] at role) fun _ => .inl (by simp [Instr.mnemonic])

theorem releaseBody_roleMove (ha : Instr.release.allowed s = true) (h : releaseBody.run s = .ok a t) :
    RoleMove .release s t.role := by
  have role : s.role = .idle ∨ s.role = .master := by simp_all [Instr.allowed]
  have let_go (gr : t.role = .idle) : RoleMove .release s t.role :=
    .left gr (fun hr => by simp [hr] at role) fun _ => .inl (by simp [Instr.mnemonic])
  obtain ⟨-, ⟨-, gr, -⟩ | ⟨-, gr, -⟩ | ⟨-, -, rfl⟩⟩ := releaseBody_ok ha h
  · exact let_go gr
  · exact let_go gr
  · exact .stays rfl

theorem pollBody_roleMove {cand mask : Byte} (ha : s.params.slaveEn = true)
    (hidle : s.recoveryPending = false → s.startSeen = true → s.role = .idle)
    (h : (pollBody cand mask).run s = .ok a t) : RoleMove (.poll cand mask) s t.role := by
  rcases pollBody_ok ha h with ⟨-, -, rfl⟩ | ⟨-, ⟨pending, g⟩ | ⟨none_pending, started, g⟩⟩
  · exact .stays rfl
  · rcases g.role with gr | gr
    · exact .matched gr (.inr pending) rfl
    · obtain ⟨master, -⟩ := State.recoveryPending_iff.mp pending
      exact .left gr (fun hr => by simp [hr] at master) fun _ => .inr ⟨pending, .inl rfl⟩
  · have idle := hidle none_pending started
    rcases g.role with gr | gr
    · exact .matched gr (.inl idle) rfl
    · exact .stays (gr.trans idle.symm)

theorem slvenBody_roleMove {en : Bool} (ha : s.params.slaveEn = true) (h : (slvenBody en).run s = .ok a t) :
    RoleMove (.slven en) s t.role := by
  cases en with
  | true =>
    rw [slvenBody_on ha] at h
    cases h
    exact .stays rfl
  | false =>
    obtain ⟨-, -, -, -, -, gr, -⟩ := slvenBody_off ha h
    split at gr
    next ended =>
      exact .left gr (fun _ => .inr rfl) fun hr => .inr ⟨ended.resolve_left (by simp [hr]), .inr rfl⟩
    next => exact .stays gr

/-- Every command that runs to its end; a START that POLL serves finds the device idle. -/
theorem body_roleMove {i : Instr} (hidle : s.recoveryPending = false → s.startSeen = true → s.role = .idle)
    (h : (body i).run s = .ok a t) : RoleMove i s t.role := by
  cases ha : i.allowed s with
  | false =>
    rw [body_not_allowed ha] at h
    cases h
    exact .stays rfl
  | true =>
    cases i with
    | init own mask bitrate =>
      obtain ⟨-, ⟨-, role, -⟩, -⟩ := initBody_ok h
      exact .left role (fun _ => .inl (by simp [Instr.mnemonic])) fun _ => .inl (by simp [Instr.mnemonic])
    | openDevice af => exact openBody_roleMove ha h
    | send v => exact (sendBody_staysOrIdle ha h).roleMove (by simp_all [Instr.allowed, Instr.mnemonic])
    | recv ack => exact (recvBody_staysOrIdle ha h).roleMove (by simp_all [Instr.allowed, Instr.mnemonic])
    | release => exact releaseBody_roleMove ha h
    | poll cand mask => exact pollBody_roleMove ha hidle h
    | ssend v more => exact (ssendBody_staysOrIdle ha h).roleMove (by simp_all [Instr.allowed, Instr.mnemonic])
    | srecv ack => exact (srecvBody_staysOrIdle ha h).roleMove (by simp_all [Instr.allowed, Instr.mnemonic])
    | slven en => exact slvenBody_roleMove ha h
    | status => cases h; exact .stays rfl

end

/-- What the table says of a role that a command ends in, read from its two ends. -/
theorem RoleMove.transitions {i : Instr} {s : State} {r : Role} (move : RoleMove i s r)
    (rests : s.role ≠ .masterProbingForSlaveRole) :
    r ≠ .masterProbingForSlaveRole ∧ (s.role ≠ .master → r = .master → s.role = .idle ∧ i.mnemonic = "OPEN") ∧
    (s.role ≠ .slave → r = .slave → i.mnemonic = "POLL" ∧ (s.role = .master → s.recoveryPending = true)) ∧
    (s.role = .slave → r = .idle → i.mnemonic ∈ ["INIT", "SSEND", "SRECV"] ∨ i = .slven false) ∧
    (s.role = .master → r = .idle → i.mnemonic ∈ ["INIT", "OPEN", "SEND", "RECV", "RELEASE"] ∨
      s.recoveryPending = true ∧ (i.mnemonic = "POLL" ∨ i = .slven false)) := by
  cases move with
  | stays same =>
    subst same
    exact ⟨rests, fun hn h => absurd h hn, fun hn h => absurd h hn, fun hr h => by simp [hr] at h,
      fun hr h => by simp [hr] at h⟩
  | opened ends idle command =>
    subst ends
    exact ⟨nofun, fun _ _ => ⟨idle, command⟩, nofun, nofun, nofun⟩
  | matched ends served command =>
    subst ends
    exact ⟨nofun, nofun, fun _ _ => ⟨command, fun hr => served.resolve_left (by simp [hr])⟩, nofun, nofun⟩
  | left ends slave master =>
    subst ends
    exact ⟨nofun, nofun, nofun, fun hr _ => slave hr, fun hr _ => master hr⟩

/-- Settles O48: a completed command makes a move of the table; one that the reset input abandons leaves the device idle, without
a response. -/
theorem roleTransitions : Obligations.RoleTransitions := by
  intro i s t rests master slave h hung
  have idle : s.recoveryPending = false → s.startSeen = true → s.role = .idle := by
    intro none_pending started
    cases hr : s.role with
    | idle => rfl
    | master => simp [master hr started] at none_pending
    | slave => simp [slave hr] at started
    | masterProbingForSlaveRole => exact absurd hr rests
  rcases exec_next h with ⟨a, u, hb, rfl⟩ | ⟨u, -, rfl⟩ | ⟨u, -, rfl⟩
  · have move := body_roleMove (s := { s with response := none }) idle hb
    obtain ⟨no_probe, to_master, to_slave, slave_left, master_left⟩ := move.transitions rests
    simp only [State.settle_role]
    exact ⟨no_probe, to_master, to_slave, fun _ => slave_left, fun _ => master_left⟩
  · cases hung
  · exact ⟨nofun, nofun, nofun, fun completed => absurd rfl completed, fun completed => absurd rfl completed⟩

end Sys2Proof.Machine
end

section
/-! PROOFS. The statements of 60_exceptions.md: how every command ends (R260), the values of STATUS that OPEN can return and POLL
can leave (R274), the flags each command may newly set (R262 to R270). -/

namespace Sys2Proof.Machine

/-! ### How a command ends (R6, R260, R300, R318) -/

/-- A command that has completed has left the engine ready for the next (R318). -/
theorem exec_completed_not_hung {i : Instr} {s t : State} (hs : s.hung = false) (h : exec i s = .next t)
    (hc : t.completed) : t.hung = false := by
  cases ht : t.hung with
  | false => rfl
  | true => simp [State.completed, exec_hung_response hs h ht] at hc

/-- Settles O9: the body answers, or halts for a reason that an unbounded wait or the reset input gives it. -/
theorem everyCommandEnds : Obligations.EveryCommandEnds := by
  intro i s hs
  obtain ⟨t, h⟩ := exec_answers i s
  have tame := body_tame i
  refine ⟨t, h, ?_⟩
  rcases exec_next h with ⟨a, u, -, rfl⟩ | ⟨u, hu, rfl⟩ | ⟨u, hu, rfl⟩
  · have completed : (State.settle { u with response := some (responseWord a.r a.data u.status) }).completed := by
      simp [State.completed]
    exact .inl ⟨completed, exec_completed_not_hung hs h completed⟩
  · have unbounded := tame.hang_only { s with response := none } u hu
    exact .inr (.inl ⟨rfl, exec_hung_response hs h rfl, unbounded⟩)
  · have asked := tame.reset_only { s with response := none } u hu
    exact .inr (.inr ⟨asked, rfl, rfl, u.resetInput_controlReset⟩)

/-- A completed command has the status its body leaves (R116). -/
theorem exec_completed_status {i : Instr} {s t : State} (h : exec i s = .next t) (hc : t.completed) :
    ∃ a u, (body i).run { s with response := none } = .ok a u ∧ t.status = u.status := by
  obtain ⟨a, u, hb, rfl⟩ := exec_completed h hc
  exact ⟨a, u, hb, State.settle_status _⟩

/-! ### The status after OPEN (R274) -/

/-- The values of STATUS that OPEN returns on a device with, or without, other masters on its bus. -/
def openStatuses (multi : Bool) : List Flags :=
  [0x001, 0x002, 0x008, 0x010, 0x020, 0x028, 0x030] ++ if multi then [0x140, 0x040] else []

theorem failed_mem_openStatuses (multi : Bool) :
    ∀ f ∈ ([0x008, 0x010, 0x028, 0x030] : List Flags), f ∈ openStatuses multi := by
  revert multi; decide

theorem State.openLeaves.status {af : Byte} {s t : State} (h : s.openLeaves af t) :
    t.status ∈ openStatuses s.params.multi := by
  have mem_of_any {f : Flags} (hf : ∀ multi, f ∈ openStatuses multi) : f ∈ openStatuses s.params.multi := hf _
  obtain ⟨-, -, -, ⟨-, -, -, -, -, ⟨-, e⟩ | ⟨-, e⟩⟩ | ⟨-, multi, g⟩ | ⟨-, e | ⟨-, e⟩⟩⟩ := h
  · rw [e]; exact mem_of_any (by decide)
  · rw [e]; exact mem_of_any (by decide)
  · have e : t.status = 0x140 ∨ t.status = 0x040 := by
      rcases g with ⟨e, -⟩ | ⟨-, -, -, rfl⟩ | ⟨-, -, -, e, -⟩ | ⟨-, -, e, -⟩ | ⟨e, -⟩
      · exact .inl e
      · exact .inl rfl
      · exact .inl e
      · exact .inr e
      · exact .inr e
    rw [multi]
    rcases e with e | e <;> rw [e] <;> decide
  · rw [e]; exact mem_of_any (by decide)
  · exact failed_mem_openStatuses _ _ e

/-- Every OPEN that runs to its end, also one that is not allowed: it has cleared the status first (R111, R115). -/
theorem openBody_status {af : Byte} {s t : State} {a : Answer} (h : (body (.openDevice af)).run s = .ok a t) :
    t.status ∈ openStatuses s.params.multi := by
  cases ha : (Instr.openDevice af).allowed s with
  | false =>
    rw [body_not_allowed ha] at h
    cases h
    have protocolFail : ∀ multi, setFlags 0 Flag.protocolFail ∈ openStatuses multi := by decide
    exact protocolFail _
  | true => exact (openBody_ok ha h).2.status

/-! ### The status after POLL (R274) -/

/-- The values of STATUS that POLL leaves when it serves an address with the status `base`: a match, a mismatch, a STOP and an
expiry (R185, R186, R187). -/
def servedStatuses (base : Flags) : List Flags :=
  [Flag.success, setFlags base Flag.restarted, clearFlags base Flag.restarted, setFlags base Flag.timedOut]

theorem State.pollLeaves.status {cand : Byte} {s t : State} {a : Answer} (h : s.pollLeaves cand t a) :
    t.status ∈ servedStatuses s.status := by
  obtain ⟨-, -, ⟨-, -, e, -⟩ | ⟨-, -, -, -, ⟨e, -⟩ | e | ⟨e, -⟩⟩⟩ := h <;> simp [servedStatuses, e]

/-- What a recovery leaves, by the status it was triggered with (R224, R225). -/
theorem recovery_statuses {old new : Flags} (trigger : old = 0x140 ∨ old = 0x160)
    (served : new ∈ servedStatuses (clearFlags old Flag.arbitrationLost)) :
    new ∈ ([0x001, 0x100, 0x000, 0x108] : List Flags) ∨ old = 0x160 ∧ new ∈ ([0x120, 0x020, 0x128] : List Flags) := by
  rcases trigger with rfl | rfl
  · exact .inl served
  · rcases List.mem_cons.mp served with rfl | others
    · exact .inl List.mem_cons_self
    · exact .inr ⟨rfl, others⟩

/-- Settles O43: the outcomes of the two bodies; a pending recovery has the status of its trigger. -/
theorem statusValuesOfOpenAndPoll : Obligations.StatusValuesOfOpenAndPoll := by
  refine ⟨fun af s t h hc => ?_, fun cand mask s t pending hs h hc => ?_⟩ <;>
    obtain ⟨a, u, hb, e⟩ := exec_completed_status h hc <;>
    rw [e]
  · have listed : ∀ multi, ∀ f ∈ openStatuses multi,
        f ∈ ([0x001, 0x002, 0x140, 0x040, 0x008, 0x010, 0x020, 0x028, 0x030] : List Flags) := by decide
    exact listed _ _ (openBody_status hb)
  · cases en : s.params.slaveEn with
    | false =>
      rw [if_pos rfl]
      rw [body_not_allowed (by exact en)] at hb
      cases hb
      rfl
    | true =>
      rw [if_neg nofun]
      rcases pollBody_ok (by exact en) hb with ⟨idle, -, rfl⟩ | ⟨enabled, ⟨hp, g⟩ | ⟨hp, started, g⟩⟩
      · have idle : s.slven = false ∨ s.recoveryPending = false ∧ s.startSeen = false := idle
        rw [if_pos (idle.imp_right And.symm)]
      · have enabled : s.slven = true := enabled
        have hp : s.recoveryPending = true := hp
        simp only [enabled, hp, Bool.true_eq_false, and_false, or_false, if_false]
        exact recovery_statuses (pending hs hp) g.status
      · have enabled : s.slven = true := enabled
        have hp : s.recoveryPending = false := hp
        have started : s.startSeen = true := started
        simp only [enabled, hp, started, Bool.true_eq_false, false_and, or_false, if_false, if_true]
        have served : u.status ∈ servedStatuses 0 := g.status
        exact served

/-! ### Which flags a command may newly set (R262 to R270) -/

/-- Every flag of the status `new` is in `old` or in `mask`. -/
def AddsOnly (mask old new : Flags) : Prop := FlagsStay new (setFlags old mask)

theorem AddsOnly.refl (mask old : Flags) : AddsOnly mask old old := flagsStay_setFlags old mask

theorem AddsOnly.of_named {mask new : Flags} (old : Flags) (h : new &&& ~~~mask = 0) : AddsOnly mask old new := by
  have named : FlagsStay new mask := h
  unfold AddsOnly
  rw [setFlags, BitVec.or_comm]
  exact named.trans (flagsStay_setFlags mask old)

theorem AddsOnly.setFlags {mask old new f : Flags} (h : AddsOnly mask old new) (hf : f &&& ~~~mask = 0) :
    AddsOnly mask old (setFlags new f) := by
  have hf : AddsOnly mask old f := .of_named old hf
  unfold AddsOnly FlagsStay at *
  rw [Machine.setFlags, BitVec.and_or_distrib_right, h, hf]
  rfl

theorem AddsOnly.clearFlags {mask old new : Flags} (h : AddsOnly mask old new) (f : Flags) :
    AddsOnly mask old (clearFlags new f) := by
  have fewer : FlagsStay (Machine.clearFlags new f) new := flagsStay_iff.mpr fun i hi hf => by
    simp only [Machine.clearFlags, BitVec.getLsbD_and, Bool.and_eq_true] at hf
    exact hf.1
  exact fewer.trans h

/-- A flag that is newly set is in the mask. -/
theorem AddsOnly.mask_ne_zero {mask old new f : Flags} (h : AddsOnly mask old new) (hf : new &&& ~~~old &&& f ≠ 0) :
    mask &&& f ≠ 0 := by
  obtain ⟨i, hi, fresh, named⟩ := (flags_and_ne_zero_iff _ _).mp hf
  simp only [BitVec.getLsbD_and, BitVec.getLsbD_not, hi, decide_true, Bool.true_and, Bool.and_eq_true,
    Bool.not_eq_true'] at fresh
  have either := flagsStay_iff.mp h i hi fresh.1
  rw [Machine.setFlags, BitVec.getLsbD_or, fresh.2, Bool.false_or] at either
  exact (flags_and_ne_zero_iff _ _).mpr ⟨i, hi, either, named⟩

/-! The flags that each command may newly set: `ArbitrationLost` only on a device with other masters on its bus (R268). -/

/-- The ways a command of the master role fails (R265, R266, R267). -/
def masterFailureFlags : Flags := Flag.timedOut ||| Flag.lineBlocked ||| Flag.protocolFail

def openFlags (multi : Bool) : Flags :=
  Flag.success ||| Flag.noAck ||| masterFailureFlags ||| if multi then Flag.arbitrationLost ||| Flag.restarted else 0

def sendFlags (multi : Bool) : Flags := Flag.noAck ||| masterFailureFlags ||| if multi then Flag.arbitrationLost else 0

def pollFlags : Flags := Flag.success ||| Flag.timedOut ||| Flag.protocolFail ||| Flag.restarted

def srecvFlags : Flags := Flag.stopped ||| Flag.timedOut ||| Flag.protocolFail ||| Flag.restarted

def ssendFlags : Flags := srecvFlags ||| Flag.noAck ||| Flag.slaveCollision

/-- The flags that the rules R262 to R270 let a command newly set. -/
def settable (multi : Bool) : Instr → Flags
  | .openDevice _ => openFlags multi
  | .send _ => sendFlags multi
  | .recv _ | .release => masterFailureFlags
  | .poll _ _ => pollFlags
  | .ssend _ _ => ssendFlags
  | .srecv _ => srecvFlags
  | .slven _ => Flag.protocolFail
  | .init _ _ _ | .status => 0

/-- The table read by flag instead of by command. -/
theorem settable_named (multi : Bool) (i : Instr) :
    (settable multi i &&& Flag.success ≠ 0 → i.mnemonic ∈ ["OPEN", "POLL"]) ∧
    (settable multi i &&& Flag.noAck ≠ 0 → i.mnemonic ∈ ["OPEN", "SEND", "SSEND"]) ∧
    (settable multi i &&& Flag.stopped ≠ 0 → i.mnemonic ∈ ["SSEND", "SRECV"]) ∧
    (settable multi i &&& Flag.timedOut ≠ 0 →
      i.mnemonic ∈ ["OPEN", "SEND", "RECV", "RELEASE", "POLL", "SSEND", "SRECV"]) ∧
    (settable multi i &&& Flag.lineBlocked ≠ 0 → i.mnemonic ∈ ["OPEN", "SEND", "RECV", "RELEASE"]) ∧
    (settable multi i &&& Flag.protocolFail ≠ 0 → i.mnemonic ∉ ["INIT", "STATUS"]) ∧
    (settable multi i &&& Flag.arbitrationLost ≠ 0 → i.mnemonic ∈ ["OPEN", "SEND"] ∧ multi = true) ∧
    (settable multi i &&& Flag.slaveCollision ≠ 0 → i.mnemonic = "SSEND") ∧
    (settable multi i &&& Flag.restarted ≠ 0 → i.mnemonic ∈ ["OPEN", "POLL", "SSEND", "SRECV"]) := by
  cases i with
  | openDevice | send => cases multi <;> simp +decide [settable, Instr.mnemonic]
  | _ => simp +decide [settable, Instr.mnemonic]

/-- `ProtocolFail` is among the flags of every command that can be refused by the state or the configuration (R115, R267). -/
theorem protocolFail_settable (multi : Bool) {i : Instr} {s : State} (ha : i.allowed s = false) :
    Flag.protocolFail &&& ~~~settable multi i = 0 := by
  cases i with
  | init | status => cases ha
  | openDevice | send => cases multi <;> simp +decide [settable]
  | _ => simp +decide [settable]

section
variable {s t : State} {a : Answer}

theorem openBody_addsOnly {af : Byte} (h : (body (.openDevice af)).run s = .ok a t) :
    AddsOnly (openFlags s.params.multi) s.status t.status := by
  have named : ∀ multi, ∀ f ∈ openStatuses multi, f &&& ~~~openFlags multi = 0 := by decide
  exact .of_named _ (named _ _ (openBody_status h))

theorem sendBody_addsOnly {v : Byte} (ha : (Instr.send v).allowed s = true) (h : (sendBody v).run s = .ok a t) :
    AddsOnly (sendFlags s.params.multi) s.status t.status := by
  obtain ⟨-, -, -, g⟩ := sendBody_ok ha h
  have keep := AddsOnly.refl (sendFlags s.params.multi) s.status
  have named {f : Flags} (hf : ∀ multi, f &&& ~~~sendFlags multi = 0) : f &&& ~~~sendFlags s.params.multi = 0 := hf _
  rcases g with ⟨-, -, -, -, -, e | e⟩ | ⟨-, -, -, e, multi⟩ | ⟨-, e, -⟩ | ⟨-, e | ⟨-, e | e⟩⟩ <;> rw [e]
  · exact keep
  · exact keep.setFlags (named (by decide))
  · exact keep.setFlags (by rw [multi]; decide)
  · exact keep.setFlags (named (by decide))
  · exact keep.setFlags (named (by decide))
  all_goals exact (keep.setFlags (named (by decide))).setFlags (named (by decide))

theorem recvBody_addsOnly {ack : Bool} (ha : (Instr.recv ack).allowed s = true) (h : (recvBody ack).run s = .ok a t) :
    AddsOnly masterFailureFlags s.status t.status := by
  obtain ⟨-, -, -, g⟩ := recvBody_ok ha h
  have keep := AddsOnly.refl masterFailureFlags s.status
  rcases g with ⟨-, -, -, -, -, e, -⟩ | ⟨-, ⟨-, e, -⟩ | ⟨-, e | ⟨-, e | e⟩⟩⟩ <;> rw [e]
  · exact keep
  · exact keep.setFlags (by decide)
  · exact keep.setFlags (by decide)
  all_goals exact (keep.setFlags (by decide)).setFlags (by decide)

theorem releaseBody_addsOnly (ha : Instr.release.allowed s = true) (h : releaseBody.run s = .ok a t) :
    AddsOnly masterFailureFlags s.status t.status := by
  have keep := AddsOnly.refl masterFailureFlags s.status
  obtain ⟨-, ⟨-, -, -, -, -, -, -, e | ⟨-, e | e⟩⟩ | ⟨-, -, -, -, -, -, k⟩ | ⟨-, -, rfl⟩⟩ := releaseBody_ok ha h
  · rw [e]; exact keep
  · rw [e]; exact keep.setFlags (by decide)
  · rw [e]; exact keep.setFlags (by decide)
  · rw [show t.status = s.status from (congrArg State.status k :)]; exact keep
  · exact keep

/-- Serving an address, POLL adds to the status it begins with no other flag than it may set (R185, R186, R187). -/
theorem AddsOnly.served {old base new : Flags} (h : AddsOnly pollFlags old base) (served : new ∈ servedStatuses base) :
    AddsOnly pollFlags old new := by
  simp only [servedStatuses, List.mem_cons, List.not_mem_nil, or_false] at served
  rcases served with rfl | rfl | rfl | rfl
  · exact .of_named _ (by decide)
  · exact h.setFlags (by decide)
  · exact h.clearFlags _
  · exact h.setFlags (by decide)

theorem pollBody_addsOnly {cand mask : Byte} (ha : (Instr.poll cand mask).allowed s = true)
    (h : (pollBody cand mask).run s = .ok a t) : AddsOnly pollFlags s.status t.status := by
  rcases pollBody_ok ha h with ⟨-, -, rfl⟩ | ⟨-, ⟨-, g⟩ | ⟨-, -, g⟩⟩
  · exact .refl _ _
  · exact ((AddsOnly.refl _ _).clearFlags Flag.arbitrationLost).served g.status
  · exact (AddsOnly.of_named (new := 0) _ (by decide)).served g.status

theorem ssendBody_addsOnly {v : Byte} {more : Bool} (ha : (Instr.ssend v more).allowed s = true)
    (h : (ssendBody v more).run s = .ok a t) : AddsOnly ssendFlags s.status t.status := by
  obtain ⟨-, -, -, g⟩ := ssendBody_ok ha h
  have keep := AddsOnly.refl ssendFlags s.status
  have collision : ∀ c : Bool, (if c then Flag.slaveCollision else 0) &&& ~~~ssendFlags = 0 := by decide
  have named : ∀ f ∈ [0, Flag.noAck, Flag.stopped, Flag.restarted, Flag.timedOut], f &&& ~~~ssendFlags = 0 := by decide
  rcases g with ⟨-, -, -, -, -, e⟩ | ⟨-, c, f, hf, e, -⟩ <;> rw [e]
  · exact keep
  · exact (keep.setFlags (collision c)).setFlags (named f hf)

theorem srecvBody_addsOnly {ack : Bool} (ha : (Instr.srecv ack).allowed s = true)
    (h : (srecvBody ack).run s = .ok a t) : AddsOnly srecvFlags s.status t.status := by
  obtain ⟨-, -, -, g⟩ := srecvBody_ok ha h
  have keep := AddsOnly.refl srecvFlags s.status
  have named : ∀ f ∈ [Flag.stopped, Flag.restarted, Flag.timedOut], f &&& ~~~srecvFlags = 0 := by decide
  rcases g with ⟨e, -⟩ | ⟨-, -, -, f, hf, e, -⟩ <;> rw [e]
  · exact keep
  · exact keep.setFlags (named f hf)

/-- A command that is not allowed adds `ProtocolFail` (R115, R267). -/
theorem body_not_allowed_addsOnly {i : Instr} (ha : i.allowed s = false) (h : (body i).run s = .ok a t) :
    AddsOnly (settable s.params.multi i) s.status t.status := by
  have named : Flag.protocolFail &&& ~~~settable s.params.multi i = 0 := protocolFail_settable _ ha
  rw [body_not_allowed ha] at h
  cases h
  refine AddsOnly.setFlags ?_ named
  split
  · exact .of_named _ BitVec.zero_and
  · exact .refl _ _

/-- Every command that runs to its end. -/
theorem body_addsOnly {i : Instr} (h : (body i).run s = .ok a t) :
    AddsOnly (settable s.params.multi i) s.status t.status := by
  cases ha : i.allowed s with
  | false => exact body_not_allowed_addsOnly ha h
  | true =>
    cases i with
    | init own mask bitrate =>
      obtain ⟨-, ⟨e, -⟩, -⟩ := initBody_ok h
      rw [e]
      exact .of_named _ BitVec.zero_and
    | openDevice af => exact openBody_addsOnly h
    | send v => exact sendBody_addsOnly ha h
    | recv ack => exact recvBody_addsOnly ha h
    | release => exact releaseBody_addsOnly ha h
    | poll cand mask => exact pollBody_addsOnly ha h
    | ssend v more => exact ssendBody_addsOnly ha h
    | srecv ack => exact srecvBody_addsOnly ha h
    | slven en => rw [slvenBody_status ha h]; exact .refl _ _
    | status => cases h; exact .refl _ _

end

/-- Settles O46: what the command's body adds to the status, read by flag. -/
theorem flagsAreSetOnlyByTheirCommands : Obligations.FlagsAreSetOnlyByTheirCommands := by
  intro i s t h hc sets
  obtain ⟨a, u, hb, e⟩ := exec_completed_status h hc
  have adds : AddsOnly (settable s.params.multi i) s.status t.status := e ▸ (body_addsOnly hb :)
  have named {f : Flags} (hf : sets f) : settable s.params.multi i &&& f ≠ 0 := adds.mask_ne_zero hf
  obtain ⟨success, noAck, stopped, timedOut, lineBlocked, protocolFail, arbitrationLost, slaveCollision, restarted⟩ :=
    settable_named s.params.multi i
  exact ⟨success ∘ named, noAck ∘ named, stopped ∘ named, timedOut ∘ named, lineBlocked ∘ named, protocolFail ∘ named,
    arbitrationLost ∘ named, slaveCollision ∘ named, restarted ∘ named⟩

end Sys2Proof.Machine
end

section
/-! PROOFS. The statements of 70_reset_and_hazards.md: the reset input in any state (R300, R43), and the hang that only it ends
(R318). -/

namespace Sys2Proof.Machine

/-- The reset input is taken whatever the engine is doing (R300). -/
theorem step_reset {s : State} {rest : List Input} (hi : s.inputs = .reset :: rest) :
    step s = .next (State.resetInput { s with inputs := rest }) := by
  have taken : takeInput s = .quiet (State.resetInput { s with inputs := rest }) := by simp only [takeInput, hi]
  simp only [step, taken]

/-- A hung engine takes no other input (R318). -/
theorem step_hung {s : State} (hh : s.hung = true) (hr : ∀ rest, s.inputs ≠ .reset :: rest) : step s = .next s := by
  have ignored : takeInput s = .quiet s := by
    unfold takeInput
    split
    next rest hi => exact absurd hi (hr rest)
    next => rw [if_pos hh]
  simp only [step, ignored]

/-- A command that neither completes nor hangs has been abandoned by the reset input (R300). -/
theorem exec_abandoned {i : Instr} {s t : State} (h : exec i s = .next t) (hh : t.hung = false) (hr : t.response = none) :
    ∃ u : State, t = u.resetInput := by
  rcases exec_next h with ⟨a, u, -, rfl⟩ | ⟨u, -, rfl⟩ | ⟨u, -, rfl⟩
  · rw [State.settle_response] at hr
    cases hr
  · cases hh
  · exact ⟨u, rfl⟩

/-- Settles O10: the hung engine passes over every input but reset, which takes effect in every state. -/
theorem onlyResetEndsAHang : Obligations.OnlyResetEndsAHang := fun _ hh =>
  ⟨step_hung hh, fun _ hi => ⟨_, step_reset hi, rfl, State.resetInput_controlReset _, rfl, rfl⟩⟩

/-- Settles O11: power-on reset and the reset input write the same control registers; what abandons a command is that input. -/
theorem resetValues : Obligations.ResetValues := by
  refine ⟨fun p => ⟨State.resetWith_controlReset p, rfl⟩, ⟨_, rfl⟩, fun s rest hi => ?_, fun i s t h hh hr => ?_⟩
  · exact ⟨_, step_reset hi, State.resetInput_controlReset _, rfl, rfl, rfl, rfl, rfl, rfl⟩
  · obtain ⟨u, rfl⟩ := exec_abandoned h hh hr
    exact u.resetInput_controlReset

end Sys2Proof.Machine
end
